-- ==== Sys2Proof/Word.lean ====
section
/-! DEFINITION. The numbers and names every file uses: bytes of the links, masters, outputs, slots, detectors.
Indexes are `Fin` types, so that an operand outside its list cannot be written down; where a byte of a request may
hold such a value, `Machine/Operands.lean` decodes it and the owning rule refuses it BAD_VALUE. -/

namespace Sys2Proof

/-- A byte of a link frame (R152). -/
abbrev Byte := BitVec 8

/-- Masters M0 to M3; master Mn is the one on link Ln (00_scope.md, Conventions). -/
abbrev Master := Fin 4

/-- Timing outputs T0 to T7 (00_scope.md). -/
abbrev Output := Fin 8

/-- Profile slots 0 to 15 (R1). -/
abbrev Slot := Fin 16

/-- Start groups 0 to 3 (R16). -/
abbrev Group := Fin 4

/-- The masters in the order of their numbers. -/
abbrev allMasters : List Master := [0, 1, 2, 3]

/-- The outputs in the order of their numbers. -/
abbrev allOutputs : List Output := [0, 1, 2, 3, 4, 5, 6, 7]

/-- The slots in the order of their numbers. -/
abbrev allSlots : List Slot := [0, 1, 2, 3, 4, 5, 6, 7, 8, 9, 10, 11, 12, 13, 14, 15]

/-- The reference detectors DA (of EXA) and DB (of EXB) (R121). -/
inductive Detector where
  | da
  | db
  deriving DecidableEq, Repr

end Sys2Proof
end

