-- ==== Sys2Proof/Syntax.lean ====
section
/-! DEFINITION. The commands of the hub: one constructor per row of spec/opcode_table.json, in the table's order.

A request command names the link whose interface takes the frame at the head of its receive buffer (R156); the tag
and the fields of the request are those of that frame, which a FRAME_CLOSE put there (log entry 1). A frame, timer or
timebase event names the output, link or detector it belongs to and carries what only the pins can tell (the counts
of a gate, whether the crystal moved, the received characters). -/

namespace Sys2Proof

inductive Instr where
  /-- RESETn goes low (R167). -/
  | externalReset
  /-- RESETn goes high with the straps INITSEL, TWOSPD and FSE as sampled at that instant (R167). -/
  | externalResetEnd (initsel : Fin 8) (twospd fse : Bool)
  /-- A character whose stop bit is at the start level is received on link `m` (R152). -/
  | brokenCharacter (m : Master)
  /-- The characters `chars`, none of them a flag, and then a flag are received on link `m` (R152, R153). -/
  | frameClose (m : Master) (chars : List Byte)
  | unknownKind (m : Master)
  | join (m : Master)
  | leave (m : Master)
  | keepalive (m : Master)
  | queryDevice (m : Master)
  | queryOutput (m : Master)
  | queryTimebase (m : Master)
  | querySource (m : Master)
  | queryProposal (m : Master)
  | queryMaster (m : Master)
  | queryLink (m : Master)
  | profileWrite (m : Master)
  | profileFix (m : Master)
  | profileFree (m : Master)
  | profileRead (m : Master)
  | claim (m : Master)
  | claimSet (m : Master)
  | release (m : Master)
  | change (m : Master)
  | stop (m : Master)
  | start (m : Master)
  | groupStart (m : Master)
  | cut (m : Master)
  | outputSet (m : Master)
  | burst (m : Master)
  | burstEnd (m : Master)
  | clock (m : Master)
  | sourceSet (m : Master)
  | selectLock (m : Master)
  | vote (m : Master)
  | withdraw (m : Master)
  /-- IRC time reaches the deadline of the open proposal `id` (R88). -/
  | proposalDeadline (id : Nat)
  | standby (m : Master)
  | wake (m : Master)
  | deviceReset (m : Master)
  /-- The last closing frame of a taken reset is done and the consented reset occurs (R174, R175). -/
  | consentedReset
  | relay (m : Master)
  | responseTransmit (m : Master)
  | noticeTransmit (m : Master)
  | lineStart (o : Output)
  | frameBoundary (o : Output)
  | xoReady
  | lockComplete
  | alignmentDeadline
  | switchTimeout
  /-- The activity check of the current XO, which found a cycle since the one before or found none (R126). -/
  | xoActivityCheck (cycleSeen : Bool)
  | lossOfLock
  /-- A gate of detector `d` completes with its counts of reference edges and of XO cycles (R122). -/
  | gateCompletion (d : Detector) (edges xoCycles : Nat)
  | leaseExpiry (m : Master)
  | flagReceivedWhileHunting (m : Master)
  | transmissionEnd (m : Master)
  deriving DecidableEq, Repr

end Sys2Proof
end

