-- ==== Sys2Proof/Decode.lean ====
section
/-! DEFINITION. The command a word of spec/opcode_table.json spells. No row of the table gives bits (98_reader.md:
n_rows_with_fixed 0, n_rows_with_fields 0), so no word spells a command. The frames of the links, which carry the
requests, are decoded by `Machine/Wire.lean` and `Machine/Operands.lean`. -/

namespace Sys2Proof

/-- No word spells a command: no row of the table gives bits. -/
def decodeTableWord (_nbits _w : Nat) : Option Instr := none

end Sys2Proof
end

