-- ==== Sys2Proof/Machine/State.lean ====
section
/-! DEFINITION. Every piece of state the manual gives the hub, as plain data, block by block, and the state of the
external reset. INVENTORY.md lists each field with the rule that names it. -/

namespace Sys2Proof.Machine

/-! ### Profile Table (R1, R3) -/

inductive SlotState where
  | emptySlot
  | openSlot
  | fixedSlot
  deriving DecidableEq, Repr

/-- The eight geometry fields of a profile (R1). -/
structure Geometry where
  lp : Nat
  lsw : Nat
  lf : Nat
  fsw : Nat
  ws : Nat
  wh : Nat
  fd : Nat
  dc : Nat
  deriving DecidableEq, Repr

/-- A profile record (R1). -/
structure SlotRec where
  state : SlotState
  owner : Option Master
  refs : Nat
  geom : Geometry
  label : Option (List Byte)
  deriving DecidableEq, Repr

/-! ### Frame Sequencer (R16) -/

inductive OutState where
  | idle
  | bound
  | waiting
  | running
  | stopping
  deriving DecidableEq, Repr

/-- SETTLED, UNSETTLED or CUT (R16; CUT only in a completed frame). -/
inductive FrameBase where
  | settled
  | unsettled
  | cut
  deriving DecidableEq, Repr

/-- A frame status with its flags DEGRADED and AFTER_WAKE (R16, R23). -/
structure FrameStatus where
  base : FrameBase
  degraded : Bool
  afterWake : Bool
  deriving DecidableEq, Repr

structure LastFrame where
  number : BitVec 16
  status : FrameStatus
  deriving DecidableEq, Repr

/-- A pending cut: its slot, and the master and tag of the CUT that stored it (R16, R55). -/
structure PendingCut where
  slot : Slot
  origin : Master
  tag : Byte
  deriving DecidableEq, Repr

inductive Polarity where
  | normal
  | inverted
  deriving DecidableEq, Repr

/-- The levels of an output's four pins; `true` is high (R17). -/
structure Pins where
  fs : Bool
  ls : Bool
  win : Bool
  stb : Bool
  deriving DecidableEq, Repr

/-- The output record (R16). `held` is what the four pins of a frozen output hold (R17, R40). `lineEnd` is the model's
own: the tick count has reached LP and the line ends (R19, log entry 4); it is taken by the LINE_START or
FRAME_BOUNDARY that returns the tick to 0. -/
structure OutRec where
  state : OutState
  current : Option Slot
  next : Option Slot
  phase : Nat
  line : Nat
  tick : Nat
  lineEnd : Bool
  frameNo : BitVec 16
  status : FrameStatus
  last : Option LastFrame
  frozen : Bool
  cut : Option PendingCut
  group : Option Group
  polarity : Polarity
  pendingPol : Option Polarity
  resumeMark : Bool
  wakeStart : Bool
  held : Option Pins
  deriving DecidableEq, Repr

/-! ### Change Queue (R43) -/

/-- CHANGE with the slot it names, or STOP, which names none (R43). -/
inductive EntryKind where
  | change (slot : Slot)
  | stop
  deriving DecidableEq, Repr

inductive EntryState where
  | reserved
  | queued
  | taken
  deriving DecidableEq, Repr

/-- A change queue entry (R43). The origin and its tag are present or none together. -/
structure Entry where
  kind : EntryKind
  origin : Option (Master × Byte)
  state : EntryState
  pid : Option Nat
  deriving DecidableEq, Repr

/-! ### Strobe Unit (R133, R134) -/

/-- The pattern of a burst, by its kind (R134). -/
inductive Pattern where
  | timed (on off count rep pause : Nat)
  | continuous (on off : Nat)
  | perFrame (line on : Nat)
  deriving DecidableEq, Repr

inductive StartPoint where
  | nextLine
  | nextEmittedFrame
  deriving DecidableEq, Repr

inductive BurstPhase where
  | armed
  | on
  | off
  | pause
  deriving DecidableEq, Repr

/-- A burst that is not IDLE (R133). -/
structure Burst where
  pattern : Pattern
  origin : Master
  tag : Byte
  start : StartPoint
  phase : BurstPhase
  left : Nat
  pulses : Nat
  repeats : Nat
  deriving DecidableEq, Repr

/-- One output channel: its Frame Sequencer, Change Queue and Strobe Unit (00_scope.md, Block overview). A burst
record in IDLE is `none`: every other field of it is absent or 0 (R133). -/
structure Channel where
  sq : OutRec
  queue : List Entry
  burst : Option Burst
  deriving DecidableEq, Repr

/-! ### Claim Table (R64) -/

inductive ClaimMode where
  | free
  | shared
  | exclusive
  deriving DecidableEq, Repr

inductive ReportLevel where
  | none
  | irregular
  | all
  deriving DecidableEq, Repr

/-- An orphan policy; the fallback is present exactly with FALLBACK (R64). -/
inductive Policy where
  | keep
  | stop
  | fallback (slot : Slot)
  deriving DecidableEq, Repr

structure Holder where
  master : Master
  level : ReportLevel
  deriving DecidableEq, Repr

/-- A claim record; holders oldest claim first (R64). -/
structure ClaimRec where
  mode : ClaimMode
  holders : List Holder
  policy : Policy
  deriving DecidableEq, Repr

/-- A claim target (R64). -/
inductive Target where
  | out (o : Output)
  | tb
  deriving DecidableEq, Repr

/-! ### Timebase Unit (R100 to R108) -/

inductive Source where
  | irc
  | xo
  | exa
  | exb
  deriving DecidableEq, Repr

/-- The settings P, M and Q of a SYN selection (R104). -/
structure Settings where
  p : Nat
  m : Nat
  q : Nat
  deriving DecidableEq, Repr

/-- A selection: a source directly (`syn` absent), or through the synthesizer with its settings. Two selections are
equal as data exactly when R104 calls them equal. -/
structure Selection where
  source : Source
  syn : Option Settings
  deriving DecidableEq, Repr

/-- The origin of a switch (R108). -/
inductive SwitchOrigin where
  | startUp
  | wake
  | master (m : Master) (tag : Byte)
  | proposal (m : Master) (tag : Byte) (id : Nat)
  deriving DecidableEq, Repr

/-- A switch in flight (R108). -/
structure Switch where
  target : Selection
  origin : SwitchOrigin
  align : Option Output
  deriving DecidableEq, Repr

/-- The state of the Timebase Unit with the fields that R108 gives it in that state: current, target with its switch,
the switch deadline or the alignment deadline (instants of IRC time), the standby selection. -/
inductive TbuState where
  | preparing (sw : Switch) (deadline : Nat)
  | running (cur : Selection)
  | switching (cur : Selection) (sw : Switch) (deadline : Nat)
  | waitAlign (cur : Selection) (sw : Switch) (deadline : Nat)
  | lost
  | standby (sel : Selection)
  deriving DecidableEq, Repr

/-- The XO: OFF, STARTING with the cycles counted so far, READY (R101). -/
inductive XoState where
  | off
  | starting (count : Nat)
  | ready
  deriving DecidableEq, Repr

/-- The synthesizer: stopped; locking, quick or full, until an instant of IRC time; past that instant without a lock,
its settings being invalid (R107); or locked (R106). -/
inductive SynthState where
  | stopped
  | locking (quick : Bool) (completes : Nat)
  | notLocking
  | locked
  deriving DecidableEq, Repr

/-- The source table entry of the XO (R102). -/
structure XoEntry where
  freq : Nat
  keep : Bool
  deriving DecidableEq, Repr

/-- The source table entry of EXA or EXB (R102). -/
structure RefEntry where
  freq : Nat
  on : Nat
  off : Nat
  qualify : Nat
  deriving DecidableEq, Repr

inductive DetState where
  | absent
  | qualifying
  | present
  deriving DecidableEq, Repr

/-- The result of a completed gate (R121, R122). -/
inductive Deviation where
  | noEdges
  | outOfRange
  | ppm (d : Int)
  deriving DecidableEq, Repr

inductive GateTiming where
  | xo
  | irc
  deriving DecidableEq, Repr

/-- A detector record (R121), with the instant its gate in progress began and whether the XO has been READY ever
since (R122). -/
structure DetRec where
  state : DetState
  good : Nat
  dev : Option Deviation
  timing : Option GateTiming
  gateStart : Nat
  xoThroughout : Bool
  deriving DecidableEq, Repr

/-- The XO activity check: the miss count and the instant of the next check (R126). -/
structure XoCheck where
  misses : Nat
  due : Nat
  deriving DecidableEq, Repr

/-- The lock contexts of the four sources; `none` is invalid (R106). -/
structure LockContexts where
  irc : Option Settings
  xo : Option Settings
  exa : Option Settings
  exb : Option Settings
  deriving DecidableEq, Repr

/-- The Timebase Unit: its record (R108), the XO, the synthesizer, the lock contexts and the activity check. -/
structure Tbu where
  state : TbuState
  fail : Bool
  lock : Option Selection
  xo : XoState
  synth : SynthState
  ctx : LockContexts
  xoCheck : Option XoCheck
  deriving DecidableEq, Repr

/-- The source table (R102). -/
structure SourceTable where
  xo : XoEntry
  exa : RefEntry
  exb : RefEntry
  deriving DecidableEq, Repr

/-! ### Consent Unit (R78) -/

/-- What a proposal would do: its kind with the target and payload that go with it (R78, R79). -/
inductive Matter where
  | outputChange (o : Output) (slot : Slot)
  | outputStop (o : Output)
  | outputStart (o : Output)
  | claimExclusive (t : Target)
  | clockChange (sel : Selection) (align : Option Output)
  | standby
  | deviceReset
  deriving DecidableEq, Repr

/-- An open proposal (R78). The sets are lists in the order of the masters' numbers, without repeats. -/
structure Proposal where
  id : Nat
  matter : Matter
  proposer : Master
  tag : Byte
  required : List Master
  accepted : List Master
  deadline : Nat
  deriving DecidableEq, Repr

/-- The open records of the Proposal Table, oldest first, and the id counter (R78, R83). -/
structure ConsentUnit where
  proposals : List Proposal
  idCounter : Nat
  deriving DecidableEq, Repr

/-! ### Lease Monitor (R142) -/

inductive MasterState where
  | absent
  | joined
  | lapsing
  | evicted
  deriving DecidableEq, Repr

/-- A master record (R142). The period is in units of 10 ms; the timer is an instant of IRC time, or stopped. -/
structure MasterRec where
  state : MasterState
  period : Option Nat
  timer : Option Nat
  last : Option (Byte × Byte)
  latched : Option (Byte × Byte)
  dropped : Bool
  deriving DecidableEq, Repr

/-! ### Messages (R160, R161, R165) -/

/-- An intact request frame: its kind byte, tag and payload (R166). -/
structure Frame where
  kind : Byte
  tag : Byte
  payload : List Byte
  deriving DecidableEq, Repr

/-- The result codes (R161). -/
inductive ResultCode where
  | ok
  | queued
  | proposed
  | noChange
  | unknownKind
  | malformed
  | notJoined
  | evicted
  | standby
  | badValue
  | notHolder
  | notSole
  | claimed
  | state
  | full
  | busy
  | conflict
  | locked
  | noSuch
  | notVoter
  | inUse
  | notOwner
  | duty
  | synInUse
  deriving DecidableEq, Repr

/-- The outcome of a CHANGE_DONE (R46). -/
inductive ChangeOutcome where
  | applied
  | discarded
  | superseded
  | withdrawn
  deriving DecidableEq, Repr

/-- The kind of a CHANGE_DONE with the slot it carries (R46). -/
inductive DoneKind where
  | change (slot : Slot)
  | stop
  | cut (slot : Slot)
  deriving DecidableEq, Repr

/-- How a proposal ended; FAILED carries the owner's result code (R91). -/
inductive RoundOutcome where
  | carried
  | failed (code : ResultCode)
  | rejected
  | lapsed
  | withdrawn
  deriving DecidableEq, Repr

/-- How a burst ended (R139). -/
inductive BurstOutcome where
  | complete
  | ended
  | stopped
  | duty
  | originGone
  | standby
  deriving DecidableEq, Repr

/-- The cause of fail-safe or LOST (R132). -/
inductive FailCause where
  | detector
  | xoActivity
  | synLock
  | switchTimeout
  deriving DecidableEq, Repr

/-- The event of a CLOCK_EVENT with the fields that go with it (R119, R132). -/
inductive ClockEvent where
  | started (sw : Switch)
  | completed (sw : Switch) (aligned : Bool)
  | superseded (sw : Switch)
  | timeout (sw : Switch)
  | abortedFailsafe (sw : Switch)
  | abortedStandby (sw : Switch)
  | failsafe (cause : FailCause) (src : Source)
  | lost (cause : FailCause) (src : Source)
  deriving DecidableEq, Repr

/-- The cause of a REFERENCE notice (R124). -/
inductive RefCause where
  | gate
  | sourceSet
  deriving DecidableEq, Repr

/-- The reason of a departure (R149). -/
inductive DepartReason where
  | left
  | evicted
  deriving DecidableEq, Repr

/-- The notices (R165), each with the fields of its owning rule. -/
inductive Notice where
  | changeDone (o : Output) (kind : DoneKind) (origin : Option (Master × Byte)) (pid : Option Nat)
      (frame : BitVec 16) (outcome : ChangeOutcome)
  | frameEnd (o : Output) (frame : BitVec 16) (status : FrameStatus)
  | outputState (o : Output) (prev new : OutState) (frame : BitVec 16)
  | claimLost (t : Target) (holder : Master) (id : Nat)
  | proposalOpen (id : Nat) (matter : Matter) (proposer : Master) (required : List Master) (window : Nat)
  | proposalEnd (id : Nat) (matter : Matter) (proposer : Master) (tag : Byte) (outcome : RoundOutcome)
  | clockEvent (event : ClockEvent) (state : TbuState) (fail : Bool)
  | reference (d : Detector) (present : Bool) (cause : RefCause) (dev : Option Deviation)
      (timing : Option GateTiming) (good : Nat)
  | burstDone (o : Output) (pattern : Pattern) (origin : Master) (tag : Byte) (outcome : BurstOutcome)
      (pulses repeats : Nat) (frame : BitVec 16)
  | leaseWarning (latched : Option (Byte × Byte)) (period : Nat)
  | evicted (latched : Option (Byte × Byte)) (period : Nat)
  | departed (m : Master) (reason : DepartReason) (latched : Option (Byte × Byte))
  | relay (sender : Master) (bytes : List Byte)
  deriving DecidableEq, Repr

/-! ### Master Link Interface (R152 to R158) -/

/-- The receiver: hunting, or assembling the unescaped bytes of a frame, `esc` after an escape byte (R152). -/
inductive Receiver where
  | hunting
  | assembling (bytes : List Byte) (esc : Bool)
  deriving DecidableEq, Repr

/-- The link statistics (R155). -/
structure LinkStats where
  crc : Nat
  length : Nat
  aborts : Nat
  overruns : Nat
  deriving DecidableEq, Repr

/-- A response in the response slot (R156): `mstate` is the sender's master state when it was placed, `ahead` the
count of notices ahead (R157), `closing` whether a taken reset awaits it (R174). -/
structure Response where
  kind : Byte
  tag : Byte
  code : ResultCode
  payload : List Byte
  mstate : MasterState
  ahead : Nat
  closing : Bool
  deriving DecidableEq, Repr

/-- A notice in a notice queue; `closing` whether a taken reset awaits it (R158, R174). -/
structure Queued where
  notice : Notice
  closing : Bool
  deriving DecidableEq, Repr

/-- The transmitter: free, `shared` when the next frame follows directly and uses the closing flag just sent as its
opening flag; or sending a frame, with its content, the characters on the line, its closing mark and the instant it
ends (R152, R157). -/
inductive Transmitter where
  | free (shared : Bool)
  | sending (content line : List Byte) (closing : Bool) (ends : Nat)
  deriving DecidableEq, Repr

/-- A Master Link Interface: receive buffer and notice queue oldest first (R154, R158). -/
structure Link where
  rx : Receiver
  buf : List Frame
  stats : LinkStats
  slot : Option Response
  queue : List Queued
  tx : Transmitter
  deriving DecidableEq, Repr

/-- The straps as last sampled (R167). -/
structure Straps where
  initsel : Fin 8
  twospd : Bool
  fse : Bool
  deriving DecidableEq, Repr

/-- Why the block stops: it never does. The manual describes no condition that stops the part, and every command has
a next state in every state (log entry 2), so no meaning raises a fault; that is safe, as there is none to hide. -/
inductive Fault where
  deriving DecidableEq, Repr

inductive Refusal where
  /-- Raised by an arm of `exec` whose command has no meaning yet; safe (the machine stops). No arm raises it. -/
  | notModelled (mnemonic : String)
  deriving DecidableEq, Repr

/-- The hub. `pending` is the queue of commands waiting, first in, first out. `freeCount`, `synPhase` and `partRank` are
the model's own (log entries 4 and 9). -/
structure State where
  pending : List Instr
  freeCount : Nat
  synPhase : Nat
  partRank : List Nat
  now : Nat
  resetLow : Bool
  resetTaken : Bool
  straps : Straps
  links : Vector Link 4
  masters : Vector MasterRec 4
  slots : Vector SlotRec 16
  chans : Vector Channel 8
  outClaims : Vector ClaimRec 8
  tbClaim : ClaimRec
  consent : ConsentUnit
  tbu : Tbu
  table : SourceTable
  da : DetRec
  db : DetRec
  deriving DecidableEq, Repr

/-! ### Reset values -/

/-- R14, R3. -/
def SlotRec.reset : SlotRec := ⟨.emptySlot, none, 0, ⟨0, 0, 0, 0, 0, 0, 0, 0⟩, none⟩

/-- R23: SETTLED with both flags clear. -/
def FrameStatus.clear : FrameStatus := ⟨.settled, false, false⟩

/-- R42. -/
def OutRec.reset : OutRec :=
  { state := .idle, current := none, next := none, phase := 0, line := 0, tick := 0, lineEnd := false,
    frameNo := 0, status := .clear, last := none, frozen := false, cut := none, group := none, polarity := .normal,
    pendingPol := none, resumeMark := false, wakeStart := false, held := none }

/-- R42, R63, R133. -/
def Channel.reset : Channel := ⟨.reset, [], none⟩

/-- R77. -/
def ClaimRec.reset : ClaimRec := ⟨.free, [], .keep⟩

/-- R99, R83: no proposal open, and the next id is 1. -/
def ConsentUnit.reset : ConsentUnit := ⟨[], 0⟩

/-- R102, Default. -/
def SourceTable.reset : SourceTable := ⟨⟨20000, false⟩, ⟨10000, 100, 400, 4⟩, ⟨10000, 100, 400, 4⟩⟩

/-- R120; the state while RESETn is low is the model's (log entry 7), the start-up path replaces it. -/
def Tbu.reset : Tbu := ⟨.lost, false, none, .off, .stopped, ⟨none, none, none, none⟩, none⟩

/-- R121; the first gate begins at the instant `t` at which the reset ends. -/
def DetRec.reset (t : Nat) : DetRec := ⟨.absent, 0, none, none, t, false⟩

/-- R151. -/
def MasterRec.reset : MasterRec := ⟨.absent, none, none, none, none, false⟩

/-- R152, R154, R155, R158; the statistics are `stats`. -/
def Link.reset (stats : LinkStats) : Link := ⟨.hunting, [], stats, none, [], .free false⟩

/-- The hub in the external reset, RESETn low: every block holds its reset values (R167). The straps are sampled when
the reset ends; until then the model holds 0 (log entry 7). A run begins with EXTERNAL_RESET_END (log entry 8). -/
def State.reset : State :=
  { pending := [], freeCount := 0, synPhase := 0, partRank := [], now := 0, resetLow := true, resetTaken := false,
    straps := ⟨0, false, false⟩,
    links := Vector.replicate 4 (Link.reset ⟨0, 0, 0, 0⟩),
    masters := Vector.replicate 4 .reset,
    slots := Vector.replicate 16 .reset,
    chans := Vector.replicate 8 .reset,
    outClaims := Vector.replicate 8 .reset,
    tbClaim := .reset,
    consent := .reset,
    tbu := .reset,
    table := .reset,
    da := .reset 0,
    db := .reset 0 }

end Sys2Proof.Machine
end

