-- ==== Sys2Proof/Machine/Ops.lean ====
section
/-! DEFINITION. The operations every block uses: reading and changing one record of one block, IRC time, handing a
notice to an interface, adding and dropping references, and who holds a target. -/

namespace Sys2Proof.Machine

/-- What a meaning answers. -/
abbrev Out := Host.Outcome State Fault Refusal

/-! ### Reading and changing one record -/

namespace State

def link (s : State) (m : Master) : Link := s.links[m]
def master (s : State) (m : Master) : MasterRec := s.masters[m]
def slot (s : State) (k : Slot) : SlotRec := s.slots[k]
def chan (s : State) (o : Output) : Channel := s.chans[o]
def sq (s : State) (o : Output) : OutRec := (s.chan o).sq
def queue (s : State) (o : Output) : List Entry := (s.chan o).queue
def burst (s : State) (o : Output) : Option Burst := (s.chan o).burst

def claim (s : State) : Target → ClaimRec
  | .out o => s.outClaims[o]
  | .tb => s.tbClaim

def det (s : State) : Detector → DetRec
  | .da => s.da
  | .db => s.db

def setLink (s : State) (m : Master) (l : Link) : State := { s with links := s.links.set m l }
def setMaster (s : State) (m : Master) (r : MasterRec) : State := { s with masters := s.masters.set m r }
def setSlot (s : State) (k : Slot) (r : SlotRec) : State := { s with slots := s.slots.set k r }
def setChan (s : State) (o : Output) (c : Channel) : State := { s with chans := s.chans.set o c }
def setSq (s : State) (o : Output) (r : OutRec) : State := s.setChan o { s.chan o with sq := r }
def setQueue (s : State) (o : Output) (q : List Entry) : State := s.setChan o { s.chan o with queue := q }
def setBurst (s : State) (o : Output) (b : Option Burst) : State := s.setChan o { s.chan o with burst := b }

def setClaim (s : State) (t : Target) (r : ClaimRec) : State :=
  match t with
  | .out o => { s with outClaims := s.outClaims.set o r }
  | .tb => { s with tbClaim := r }

def setDet (s : State) (d : Detector) (r : DetRec) : State :=
  match d with
  | .da => { s with da := r }
  | .db => { s with db := r }

def setTbu (s : State) (t : Tbu) : State := { s with tbu := t }

def setProposals (s : State) (ps : List Proposal) : State :=
  { s with consent := { s.consent with proposals := ps } }

end State

/-! ### IRC time (00_scope.md, Time; log entry 3) -/

/-- IRC cycles in a millisecond: the nominal 25,000 kHz. -/
def cyclesPerMs : Nat := 25000

/-- `n` units of 10 ms, the unit of leases and windows (R80, R142). -/
def tenMs (n : Nat) : Nat := n * 10 * cyclesPerMs

/-- The switch time limit, 40 ms (R112, R114, R168). -/
def switchLimit : Nat := 40 * cyclesPerMs

/-- The alignment limit, 2000 ms (R116). -/
def alignLimit : Nat := 2000 * cyclesPerMs

/-- A quick lock, 0.3 ms, and a full lock, 2 ms (R106). -/
def lockTime (quick : Bool) : Nat := if quick then 3 * cyclesPerMs / 10 else 2 * cyclesPerMs

/-- Between two XO activity checks, 0.5 ms (R126). -/
def checkPeriod : Nat := cyclesPerMs / 2

/-- A detector gate, 10 ms (R122). -/
def gateTime : Nat := tenMs 1

/-- A character on a link, 10 microseconds (R152). -/
def charTime : Nat := cyclesPerMs / 100

/-- The XO goes to READY at 8192 cycles (R101). -/
def xoStartCount : Nat := 8192

/-- IRC time reaches the instant `t`; an instant already past leaves it as it is (log entry 3). -/
def State.reach (s : State) (t : Nat) : State := { s with now := max s.now t }

/-! ### Masters -/

/-- A joined master: JOINED or LAPSING (R143). -/
def MasterRec.isJoined (r : MasterRec) : Bool :=
  match r.state with
  | .joined => true
  | .lapsing => true
  | .absent => false
  | .evicted => false

def State.joined (s : State) (m : Master) : Bool := (s.master m).isJoined

/-- The joined masters, in the order of their numbers. -/
def State.joinedMasters (s : State) : List Master := allMasters.filter s.joined

/-! ### Notices (R158) -/

/-- The bound of a notice queue (R158). -/
def noticeLimit : Nat := 16

/-- A notice is handed to the interface of `m` (R158): discarded when `m` is not joined; dropped, with the dropped
flag set, at a queue that holds 16; otherwise queued. `closing` marks a closing frame of a taken reset (R174). -/
def State.handMarked (s : State) (m : Master) (closing : Bool) (n : Notice) : State :=
  if s.joined m then
    if (s.link m).queue.length < noticeLimit then
      s.setLink m { s.link m with queue := (s.link m).queue ++ [⟨n, closing⟩] }
    else s.setMaster m { s.master m with dropped := true }
  else s

def State.hand (s : State) (m : Master) (n : Notice) : State := s.handMarked m false n

/-- A notice is handed to the interface of each master of a list. -/
def State.handAll (s : State) (ms : List Master) (n : Notice) : State := ms.foldl (fun s m => s.hand m n) s

/-! ### Who holds a target (R64, R65) -/

/-- The holders of a target, oldest claim first. -/
def State.holders (s : State) (t : Target) : List Master := (s.claim t).holders.map Holder.master

def State.isHolder (s : State) (t : Target) (m : Master) : Bool := (s.holders t).contains m

/-- The sole holder: the holder list is exactly that one master (R65). -/
def State.isSole (s : State) (t : Target) (m : Master) : Bool := s.holders t == [m]

/-- Holders and, if it is not one of them, the origin: each receives one notice (R46, R119). -/
def withOrigin (holders : List Master) (origin : Option Master) : List Master :=
  match origin with
  | none => holders
  | some m => if holders.contains m then holders else holders ++ [m]

/-! ### References (R10 to R12) -/

/-- A place comes to name slot `k` (R11). -/
def State.addRef (s : State) (k : Slot) : State := s.setSlot k { s.slot k with refs := (s.slot k).refs + 1 }

/-- A place stops naming slot `k` (R12). -/
def State.dropRef (s : State) (k : Slot) : State := s.setSlot k { s.slot k with refs := (s.slot k).refs - 1 }

/-- A place that may be absent stops naming its slot. -/
def State.dropRefOpt (s : State) : Option Slot → State
  | none => s
  | some k => s.dropRef k

def State.isFixed (s : State) (k : Slot) : Bool := (s.slot k).state == .fixedSlot

/-- The geometry an output runs: that of its current profile (R2). -/
def State.geom (s : State) (o : Output) : Geometry :=
  match (s.sq o).current with
  | none => SlotRec.reset.geom
  | some k => (s.slot k).geom

/-! ### Responses -/

/-- What the owner of a request gives back: the state after it, the result code and the result payload (R156). -/
structure Reply where
  state : State
  code : ResultCode
  payload : List Byte := []

/-- A refusal, or an answer without effect: the state stays as it is (R162). -/
def refuse (s : State) (c : ResultCode) : Reply := ⟨s, c, []⟩

/-- The request is done. -/
def okay (s : State) : Reply := ⟨s, .ok, []⟩

end Sys2Proof.Machine
end

