-- ==== Sys2Proof/Machine/Flags.lean ====
section
/-! DEFINITION. Status and flags: how a frame's status begins, is marked and completes (R23 to R25), the flags byte of a
response (R166), and the levels of an output's pins (R17). -/

namespace Sys2Proof.Machine

/-! ### Frame status -/

/-- The status an emitted frame begins with at an ordinary frame start (R23). -/
def emittedStatus (fail : Bool) : FrameStatus := ⟨.settled, fail, false⟩

/-- The status of the first frame of a run (R23, R31): UNSETTLED with AFTER_WAKE when wake start is set. -/
def firstStatus (fail wakeStart : Bool) : FrameStatus :=
  ⟨if wakeStart then .unsettled else .settled, fail, wakeStart⟩

/-- The mark UNSETTLED (R24). -/
def FrameStatus.unsettle (f : FrameStatus) : FrameStatus := { f with base := .unsettled }

/-- The marks of fail-safe: UNSETTLED and DEGRADED (R24, R39). -/
def FrameStatus.degrade (f : FrameStatus) : FrameStatus := { f with base := .unsettled, degraded := true }

/-- The status a frame completes with: CUT in place of its base when a cut ended it (R25). -/
def FrameStatus.complete (f : FrameStatus) (cut : Bool) : FrameStatus := if cut then { f with base := .cut } else f

/-- A completed frame that a holder at IRREGULAR is told of (R26). -/
def FrameStatus.irregular (f : FrameStatus) : Bool := f.base != .settled || f.degraded

/-- The current internal frame is emitted: phase 0 (R20). -/
def OutRec.emitted (r : OutRec) : Bool := r.phase == 0

/-- RUNNING or STOPPING: the output generates lines and frames (R17). -/
def OutRec.runs (r : OutRec) : Bool := r.state == .running || r.state == .stopping

/-- An output that generates events: in RUNNING or STOPPING and not frozen (R19, R40). -/
def OutRec.live (r : OutRec) : Bool := r.runs && !r.frozen

/-- A mark of R24 reaches an output in RUNNING or STOPPING; a silent frame keeps its status. -/
def OutRec.mark (r : OutRec) (f : FrameStatus → FrameStatus) : OutRec :=
  if r.runs && r.emitted then { r with status := f r.status } else r

/-! ### Pins (R2, R17, R133) -/

/-- Which of the four pins the geometry and the burst make active. -/
def activePins (r : OutRec) (g : Geometry) (b : Option Burst) : Pins :=
  if r.runs then
    { fs := r.emitted && decide (r.line < g.fsw)
      ls := decide (r.tick < g.lsw)
      win := r.emitted && decide (g.ws ≤ r.line) && decide (r.line < g.ws + g.wh)
      stb := match b with
        | none => false
        | some b => b.phase == .on }
  else ⟨false, false, false, false⟩

/-- The level of a pin: active is high under NORMAL and low under INVERTED. -/
def pinLevel (pol : Polarity) (active : Bool) : Bool :=
  match pol with
  | .normal => active
  | .inverted => !active

/-- The levels of an output's pins; those of a frozen output are held (R17). -/
def State.pins (s : State) (o : Output) : Pins :=
  match (s.sq o).held with
  | some p => p
  | none =>
    let a := activePins (s.sq o) (s.geom o) (s.burst o)
    let l := pinLevel (s.sq o).polarity
    ⟨l a.fs, l a.ls, l a.win, l a.stb⟩

/-! ### Flag bytes (R161, R166) -/

/-- The number of a result code (R161). -/
def ResultCode.number : ResultCode → Nat
  | .ok => 0
  | .queued => 1
  | .proposed => 2
  | .noChange => 3
  | .unknownKind => 16
  | .malformed => 17
  | .notJoined => 18
  | .evicted => 19
  | .standby => 20
  | .badValue => 21
  | .notHolder => 22
  | .notSole => 23
  | .claimed => 24
  | .state => 25
  | .full => 26
  | .busy => 27
  | .conflict => 28
  | .locked => 29
  | .noSuch => 30
  | .notVoter => 31
  | .inUse => 32
  | .notOwner => 33
  | .duty => 34
  | .synInUse => 35

/-- The codes 0 to 3 report a request that was accepted (R161). -/
def ResultCode.accepted (c : ResultCode) : Bool := decide (c.number ≤ 3)

/-- The master state in the flags of a response and in the master record (R166, R142). -/
def MasterState.number : MasterState → Nat
  | .absent => 0
  | .joined => 1
  | .lapsing => 2
  | .evicted => 3

/-- The flags byte of a response: bit 0 the dropped flag, bits 2 and 1 the master state (R166). -/
def responseFlags (dropped : Bool) (m : MasterState) : Nat := dropped.toNat + 2 * m.number

/-- A frame status in one byte (R166, byte 11 of the output record). -/
def FrameStatus.number (f : FrameStatus) : Nat :=
  (match f.base with
    | .settled => 0
    | .unsettled => 1
    | .cut => 2) + 4 * f.degraded.toNat + 8 * f.afterWake.toNat

/-- Byte 15 of the output record (R166). -/
def OutRec.flagNumber (r : OutRec) : Nat :=
  r.frozen.toNat + 2 * r.resumeMark.toNat + 4 * r.wakeStart.toNat + 8 * (r.polarity == .inverted).toNat
    + 16 * r.pendingPol.isSome.toNat + 32 * (r.pendingPol == some .inverted).toNat

end Sys2Proof.Machine
end

