-- ==== Sys2Proof/Machine/Sequencer.lean ====
section
/-! DEFINITION. The Frame Sequencer's own operations (chapter 2): changing an output's state with its notice, frame
starts, frame completion, binding, and the marks and freezes that the Timebase Unit hands to all eight. -/

namespace Sys2Proof.Machine

/-- Hands the OUTPUT_STATE notice of a change from `prev` to the state the output now has (R18). -/
def outputNotice (s : State) (o : Output) (prev : OutState) : State :=
  s.handAll (s.holders (.out o)) (.outputState o prev (s.sq o).state (s.sq o).frameNo)

/-- Changes the state field, with its notice (R18). -/
def setOutState (s : State) (o : Output) (st : OutState) : State :=
  outputNotice (s.setSq o { s.sq o with state := st }) o (s.sq o).state

/-! ### Frame starts (R20, R22, R23, R37) -/

/-- A pending polarity takes effect (R37). -/
def OutRec.applyPolarity (r : OutRec) : OutRec :=
  { r with polarity := r.pendingPol.getD r.polarity, pendingPol := none }

/-- A frame start of a running output at `phase`: line and tick 0, the line end taken, status, frame number of an emitted
frame, polarity (R20, R22, R23, R37). -/
def OutRec.beginFrame (r : OutRec) (phase : Nat) (fail : Bool) : OutRec :=
  { r.applyPolarity with
    phase := phase
    line := 0
    tick := 0
    lineEnd := false
    status := if phase = 0 then emittedStatus fail else .clear
    frameNo := if phase = 0 then r.frameNo + 1 else r.frameNo }

/-- The start instant: RUNNING at frame 0, phase 0 (R31). -/
def OutRec.beginRun (r : OutRec) (fail : Bool) : OutRec :=
  { r.applyPolarity with
    state := .running
    phase := 0
    line := 0
    tick := 0
    lineEnd := false
    frameNo := 0
    status := firstStatus fail r.wakeStart
    last := none
    frozen := false
    wakeStart := false
    held := none }

/-- The output leaves RUNNING, STOPPING or WAITING for BOUND: position and status cleared, no longer frozen, a pending
polarity in effect; current and frame number kept (R22, R27, R35, R171). -/
def OutRec.toRest (r : OutRec) : OutRec :=
  { r.applyPolarity with
    phase := 0
    line := 0
    tick := 0
    lineEnd := false
    status := .clear
    frozen := false
    wakeStart := false
    held := none }

/-! ### Frame completion (R25, R26) -/

/-- The holders a completed frame is reported to (R26). -/
def reportTo (c : ClaimRec) (f : FrameStatus) : List Master :=
  (c.holders.filter fun h =>
    match h.level with
    | .all => true
    | .irregular => f.irregular
    | .none => false).map Holder.master

/-- The current internal frame ends at a frame boundary or at a cut: an emitted one completes, sets the last frame
field and is reported; a silent one leaves both as they were (R25, R26). -/
def completeFrame (s : State) (o : Output) (cut : Bool) : State :=
  if (s.sq o).emitted then
    let st := (s.sq o).status.complete cut
    (s.setSq o { s.sq o with last := some ⟨(s.sq o).frameNo, st⟩ }).handAll
      (reportTo (s.claim (.out o)) st) (.frameEnd o (s.sq o).frameNo st)
  else s

/-! ### Binding (R33) -/

/-- Binds an output that is not running to slot `k`: the new reference placed, the former one dropped (R33, R11). -/
def bind (s : State) (o : Output) (k : Slot) : State :=
  let s' := ((s.addRef k).dropRefOpt (s.sq o).current)
  let s' := s'.setSq o { s'.sq o with current := some k }
  if (s.sq o).state = .idle then setOutState s' o .bound else s'

/-- A waiting output returns to BOUND; current is kept and wake start cleared (R35). -/
def returnToBound (s : State) (o : Output) : State :=
  setOutState (s.setSq o { s.sq o with wakeStart := false }) o .bound

/-! ### What the Timebase Unit hands to the sequencers (R38 to R41) -/

/-- A switch completion reaches an output (R38, R41): a frozen one resumes; the current emitted frame is marked, but
that of the align output at an aligned completion (`spare`). -/
def OutRec.completion (r : OutRec) (spare : Bool) : OutRec :=
  if r.runs then
    if r.frozen then { r.mark FrameStatus.unsettle with frozen := false, held := none }
    else if spare then r else r.mark FrameStatus.unsettle
  else r

/-- Fail-safe reaches an output (R39). -/
def OutRec.failSafe (r : OutRec) : OutRec := r.mark FrameStatus.degrade

/-- LOST reaches an output: one in RUNNING or STOPPING freezes with its pins held (R40); one frozen already stays. -/
def OutRec.freeze (r : OutRec) (pins : Pins) : OutRec :=
  if r.runs && !r.frozen then { r with frozen := true, held := some pins } else r

/-- Changes every output record, in the order of their numbers. -/
def State.mapSq (s : State) (f : State → Output → OutRec) : State :=
  allOutputs.foldl (fun s o => s.setSq o (f s o)) s

end Sys2Proof.Machine
end

