-- ==== Sys2Proof/Machine/Queue.lean ====
section
/-! DEFINITION. The Change Queue's own operations (chapter 3): appending an entry, removing entries with their
CHANGE_DONE, and dropping a pending cut. -/

namespace Sys2Proof.Machine

/-- The bound of a change queue (R44). -/
def queueLimit : Nat := 4

/-- The queue holds 4 entries, so an append is refused (R44). -/
def State.queueFull (s : State) (o : Output) : Bool := decide (queueLimit ≤ (s.queue o).length)

/-- The reference of a CHANGE entry is placed or dropped; a STOP holds none (R45). -/
def addEntryRef (s : State) : EntryKind → State
  | .change k => s.addRef k
  | .stop => s

def dropEntryRef (s : State) : EntryKind → State
  | .change k => s.dropRef k
  | .stop => s

/-- An entry joins the tail, its reference placed first (R44, R45); a queue of 4 takes none. -/
def appendEntry (s : State) (o : Output) (e : Entry) : State :=
  if s.queueFull o then s else (addEntryRef s e.kind).setQueue o ((addEntryRef s e.kind).queue o ++ [e])

def EntryKind.done : EntryKind → DoneKind
  | .change k => .change k
  | .stop => .stop

/-- Hands the CHANGE_DONE of an entry or a cut to its origin and the output's holders (R46). -/
def changeDone (s : State) (o : Output) (kind : DoneKind) (origin : Option (Master × Byte)) (pid : Option Nat)
    (outcome : ChangeOutcome) : State :=
  s.handAll (withOrigin (s.holders (.out o)) (origin.map Prod.fst))
    (.changeDone o kind origin pid (s.sq o).frameNo outcome)

/-- An entry has left the queue: its reference is dropped and its CHANGE_DONE handed on (R45, R46). -/
def entryLeft (o : Output) (outcome : ChangeOutcome) (s : State) (e : Entry) : State :=
  changeDone (dropEntryRef s e.kind) o e.kind.done e.origin e.pid outcome

/-- Every entry that satisfies `p` leaves the queue, oldest first; the others move up and keep their order (R44). -/
def removeEntries (s : State) (o : Output) (p : Entry → Bool) (outcome : ChangeOutcome) : State :=
  ((s.queue o).filter p).foldl (entryLeft o outcome) (s.setQueue o ((s.queue o).filter fun e => !p e))

def Entry.isTaken (e : Entry) : Bool := e.state == .taken
def Entry.isQueued (e : Entry) : Bool := e.state == .queued

/-- The RESERVED entry of proposal `id` (R49). -/
def Entry.isReservedBy (id : Nat) (e : Entry) : Bool := e.state == .reserved && e.pid == some id

/-- A pending cut is dropped unapplied (R56). -/
def dropCut (s : State) (o : Output) (outcome : ChangeOutcome) : State :=
  match (s.sq o).cut with
  | none => s
  | some c =>
    changeDone (s.setSq o { s.sq o with cut := none }) o (.cut c.slot) (some (c.origin, c.tag)) none outcome

/-- The output's next becomes absent and its reference is dropped (R57, R61). -/
def clearNext (s : State) (o : Output) : State :=
  let s' := s.dropRefOpt (s.sq o).next
  s'.setSq o { s'.sq o with next := none }

/-! ### The queue's part of other events -/

/-- An orphan policy discards every QUEUED entry and appends one of its own kind (R59). -/
def orphanAppend (s : State) (o : Output) (kind : EntryKind) : State :=
  appendEntry (removeEntries s o Entry.isQueued .discarded) o ⟨kind, none, .queued, none⟩

/-- The queue's part of the departure of `m` (R60). -/
def queueDeparture (s : State) (o : Output) (m : Master) : State :=
  let s := removeEntries s o (fun e => e.isQueued && e.origin.map Prod.fst == some m) .discarded
  if (s.sq o).cut.map PendingCut.origin = some m then dropCut s o .discarded else s

/-- The queue's part of standby entry (R61): QUEUED and TAKEN entries go oldest first, RESERVED ones stay, next is
cleared, and a pending cut is dropped. -/
def queueStandby (s : State) (o : Output) : State :=
  let s := clearNext s o
  let s := removeEntries s o (fun e => e.isQueued || e.isTaken) .discarded
  dropCut s o .superseded

end Sys2Proof.Machine
end

