-- ==== Sys2Proof/Config.lean ====
section
/-! DEFINITION. What the manual leaves to the board the part stands on, and the one point on which two of its rules
disagree, as free values with no body: nothing can be proved about them, so a claim that holds here holds for every clock
and every crystal (log entry 4) and under either of the two rules (log entry 27). -/

namespace Sys2Proof

/-- FREE VALUE: of the clock edges of a TCK not made from IRC and of IRC itself, whether the next is a tick of TCK. The
manual makes TCK "from the source's actual signal" (R100) and states no ratio of a crystal or a reference to IRC.
Applied to the counter `State.freeCount`. -/
opaque Config.nextIsTck : Nat → Bool

/-- FREE VALUE: how many cycles of its own oscillation a STARTING XO counts from one clock edge to the next; 0 for a
crystal that does not oscillate (R101). Applied to the counter `State.freeCount`. -/
opaque Config.xoCycles : Nat → Nat

/-- FREE VALUE: where in an IRC cycle the clock of the synthesizer stands when a lock completes. The manual gives its
frequency (R104) and not its phase. In M-ths of a cycle, read modulo M. Applied to the counter `State.freeCount`. -/
opaque Config.lockPhase : Nat → Nat

/-- FREE VALUE: whether part 3 of QUERY TIMEBASE reads the claim record of TB, as part 3 of QUERY OUTPUT reads that of an
output. R64 has QUERY return the record of TB "with the timebase"; R163 has the part of that class "not examined", so that
every part returns the record of the Timebase Unit. No rule decides between the two (log entry 27). -/
opaque Config.timebaseReadsClaim : Bool

end Sys2Proof
end

