-- ==== Sys2Proof/Machine/Operands.lean ====
section
/-! DEFINITION. The operand forms of the requests: fields of a payload, least significant byte first, and the coded
values of R160. A coded value outside its list is `none`, and the owning rule refuses it BAD_VALUE. -/

namespace Sys2Proof.Machine

/-- Byte `i` of a payload as a number. -/
def byteAt (p : List Byte) (i : Nat) : Nat := (p.getD i 0).toNat

/-- The two-byte field at byte `i`, least significant byte first (R160). -/
def wordAt (p : List Byte) (i : Nat) : Nat := byteAt p i + 256 * byteAt p (i + 1)

/-- A field coded from a list of `k` values: 0 for the first, 1 for the next, and so on (R160). -/
def coded (k n : Nat) : Option (Fin k) := if h : n < k then some ⟨n, h⟩ else none

def outputOf (n : Nat) : Option Output := coded 8 n

/-- A slot number; 16 and more name no slot (R4, R11). -/
def slotOf (n : Nat) : Option Slot := coded 16 n

def masterOf (n : Nat) : Option Master := coded 4 n

/-- The claim targets T0 to T7 and TB are 0 to 8 (R160). -/
def targetOf (n : Nat) : Option Target :=
  if n = 8 then some .tb else (outputOf n).map .out

def sourceOf : Nat → Option Source
  | 0 => some .irc
  | 1 => some .xo
  | 2 => some .exa
  | 3 => some .exb
  | _ => none

/-- The selection codes 0 to 7; a direct selection keeps no settings (R104, R160). -/
def selectionOf (code p m q : Nat) : Option Selection :=
  if code < 4 then (sourceOf code).map fun src => ⟨src, none⟩
  else (sourceOf (code - 4)).map fun src => ⟨src, some ⟨p, m, q⟩⟩

/-- An align output: none is 0xFF (R160). The outer `none` is a value outside the list. -/
def alignOf (n : Nat) : Option (Option Output) :=
  if n = 255 then some none else (outputOf n).map some

/-- The modes of CLAIM in the order R66 lists them; `true` is EXCLUSIVE. -/
def modeOf : Nat → Option Bool
  | 0 => some false
  | 1 => some true
  | _ => none

/-- The report level of a CLAIM, in the order of R64; NONE is coded 0, and 0xFF is outside the list (log entry 17). -/
def levelOf : Nat → Option ReportLevel
  | 0 => some .none
  | 1 => some .irregular
  | 2 => some .all
  | _ => none

/-- An orphan policy as requested, before its fallback slot is looked at (R64, R66; log entry 17 for KEEP). -/
inductive PolicyCode where
  | keep
  | stop
  | fallback
  deriving DecidableEq, Repr

def policyOf : Nat → Option PolicyCode
  | 0 => some .keep
  | 1 => some .stop
  | 2 => some .fallback
  | _ => none

/-- The group field of OUTPUT_SET: KEEP is 0xFE, none is 0xFF (R36, R160). -/
inductive GroupArg where
  | keep
  | set (g : Option Group)
  deriving DecidableEq, Repr

def groupOf (n : Nat) : Option GroupArg :=
  if n = 254 then some .keep
  else if n = 255 then some (.set none)
  else (coded 4 n).map fun g => .set (some g)

/-- The polarity field of OUTPUT_SET: `none` inside is KEEP, 0xFE (R36, R160). -/
def polarityOf (n : Nat) : Option (Option Polarity) :=
  if n = 254 then some none
  else if n = 0 then some (some .normal)
  else if n = 1 then some (some .inverted)
  else none

def startPointOf : Nat → Option StartPoint
  | 0 => some .nextLine
  | 1 => some .nextEmittedFrame
  | _ => none

/-- The six pattern bytes of BURST by the kind, each field within its range of R134. -/
def patternOf (kind : Nat) (p : List Byte) (i : Nat) : Option Pattern :=
  match kind with
  | 0 =>
    let on := byteAt p i
    let off := byteAt p (i + 1)
    let count := byteAt p (i + 2)
    let rep := byteAt p (i + 3)
    let pause := wordAt p (i + 4)
    if 1 ≤ on ∧ 1 ≤ off ∧ 1 ≤ count ∧ 1 ≤ rep ∧ rep ≤ 15 ∧ pause ≤ 1023
    then some (.timed on off count rep pause) else none
  | 1 =>
    let on := byteAt p i
    let off := byteAt p (i + 1)
    if 1 ≤ on ∧ 1 ≤ off then some (.continuous on off) else none
  | 2 =>
    let line := wordAt p i
    let on := wordAt p (i + 2)
    if line ≤ 16383 ∧ 1 ≤ on ∧ on ≤ 16383 then some (.perFrame line on) else none
  | _ => none

/-- ACCEPT is `true`, REFUSE `false` (R85). -/
def choiceOf : Nat → Option Bool
  | 0 => some true
  | 1 => some false
  | _ => none

/-! ### Request kinds (R160) -/

/-- A kind byte of R160. -/
def knownKind (k : Nat) : Bool := decide (1 ≤ k) && decide (k ≤ 0x1B)

/-- The payload lengths R160 allows for a kind. -/
def lengthAllowed (k n : Nat) : Bool :=
  match k with
  | 0x01 | 0x06 | 0x07 | 0x08 | 0x0B | 0x12 | 0x17 => n == 1
  | 0x02 | 0x03 | 0x15 | 0x19 => n == 0
  | 0x04 | 0x0A | 0x0D | 0x10 => n == 3
  | 0x05 => decide (14 ≤ n) && decide (n ≤ 22)
  | 0x09 => n == 7
  | 0x0C | 0x0E => n == 4
  | 0x0F | 0x16 | 0x18 | 0x1A => n == 2
  | 0x11 | 0x14 => n == 9
  | 0x13 => n == 8
  | 0x1B => decide (2 ≤ n) && decide (n ≤ 17)
  | _ => false

/-- The kinds admitted in standby (R159, order 5). -/
def admittedInStandby (k : Nat) : Bool :=
  [0x01, 0x02, 0x03, 0x04, 0x05, 0x06, 0x07, 0x08, 0x09, 0x0A, 0x0B, 0x16, 0x17, 0x1B, 0x19, 0x13, 0x1A].contains k

/-- The kinds a master that is not joined may send: JOIN and QUERY (R159, orders 3 and 4). -/
def admittedUnjoined (k : Nat) : Bool := k == 0x01 || k == 0x04

end Sys2Proof.Machine
end

