-- ==== Sys2Proof/Machine/Encode.lean ====
section
/-! DEFINITION. The byte layouts of what the hub sends: the fields of records and notices (R160, R163, R165, R166).
Fields follow one another in the order their rule lists them, each in its full width (R166). -/

namespace Sys2Proof.Machine

/-! ### Fields -/

/-- One byte. -/
def u8 (n : Nat) : List Byte := [BitVec.ofNat 8 n]

/-- Two bytes, least significant first. -/
def u16 (n : Nat) : List Byte := [BitVec.ofNat 8 n, BitVec.ofNat 8 (n / 256)]

/-- Four bytes, least significant first. -/
def u32 (n : Nat) : List Byte := u16 n ++ u16 (n / 65536)

/-- A signed number of four bytes in two's complement. -/
def i32 (d : Int) : List Byte := u32 (BitVec.ofInt 32 d).toNat

def flagField (b : Bool) : List Byte := u8 b.toNat

/-- A number of one byte, 0xFF where absent. -/
def optByte : Option Nat → List Byte
  | none => u8 255
  | some n => u8 n

/-- A number of two bytes, 0xFFFF where absent. -/
def optWord : Option Nat → List Byte
  | none => u16 65535
  | some n => u16 n

def optFin {k : Nat} (o : Option (Fin k)) : List Byte := optByte (o.map Fin.val)

/-- A set of masters: bit n for Mn. -/
def masterSet (ms : List Master) : List Byte := u8 ((ms.map fun m => 2 ^ m.val).foldl (· + ·) 0)

/-- The time still to run to an instant, in units of `unit` IRC cycles, rounded up (R78, R108, R142). -/
def timeToRun (now unit : Nat) (t : Option Nat) : List Byte := optWord (t.map fun t => (t - now + unit - 1) / unit)

def Target.number : Target → Nat
  | .out o => o.val
  | .tb => 8

def Source.number : Source → Nat
  | .irc => 0
  | .xo => 1
  | .exa => 2
  | .exb => 3

/-- The reference a detector watches (R121). -/
def detSource : Detector → Source
  | .da => .exa
  | .db => .exb

def Selection.number (sel : Selection) : Nat :=
  sel.source.number + (match sel.syn with | none => 0 | some _ => 4)

def settingsField : Option Settings → List Byte
  | none => u8 0 ++ u16 0 ++ u8 0
  | some c => u8 c.p ++ u16 c.m ++ u8 c.q

/-- A selection with its settings, five bytes; 0xFF and settings 0 where absent. -/
def selectionField : Option Selection → List Byte
  | none => u8 255 ++ settingsField none
  | some sel => u8 sel.number ++ settingsField sel.syn

/-- A lock context, five bytes. -/
def contextField (c : Option Settings) : List Byte := flagField c.isSome ++ settingsField c

/-- A switch origin, four bytes. -/
def originField : Option SwitchOrigin → List Byte
  | none => u8 255 ++ u8 255 ++ u8 0 ++ u8 0
  | some .startUp => u8 0 ++ u8 255 ++ u8 0 ++ u8 0
  | some .wake => u8 1 ++ u8 255 ++ u8 0 ++ u8 0
  | some (.master m tag) => u8 2 ++ u8 m ++ [tag] ++ u8 0
  | some (.proposal m tag id) => u8 3 ++ u8 m ++ [tag] ++ u8 id

/-- A detector's last deviation, five bytes. -/
def deviationField : Option Deviation → List Byte
  | none => u8 0 ++ i32 0
  | some .noEdges => u8 1 ++ i32 0
  | some .outOfRange => u8 2 ++ i32 0
  | some (.ppm d) => u8 3 ++ i32 d

/-- The last gate timing: 0 for XO and 1 for IRC, the order of R121 (the model's reading, log entry 17). -/
def timingField (t : Option GateTiming) : List Byte :=
  optByte (t.map fun | .xo => 0 | .irc => 1)

/-- A last request or latched request, three bytes. -/
def lastField : Option (Byte × Byte) → List Byte
  | none => u8 0 ++ u8 0 ++ u8 0
  | some (k, tag) => u8 1 ++ [k] ++ [tag]

/-- An origin master and the tag that stands beside it: 0xFF and 0 when absent (R160). -/
def originTag : Option (Master × Byte) → List Byte
  | none => u8 255 ++ u8 0
  | some (m, tag) => u8 m ++ [tag]

/-- The code of a report level: 0 for NONE, the first of its list; log entry 17 marks that reading of R160. -/
def ReportLevel.number : ReportLevel → Nat
  | .none => 0
  | .irregular => 1
  | .all => 2

/-- A holder list, nine bytes: the count and four places. -/
def holderField (hs : List Holder) : List Byte :=
  u8 hs.length ++ ((hs.map fun (h : Holder) => u8 h.master ++ u8 h.level.number).flatten ++ List.replicate 8 0xFF).take 8

/-- A burst pattern, six bytes, as in BURST (R160). -/
def patternField : Option Pattern → List Byte
  | none => List.replicate 6 0
  | some (.timed on off count rep pause) => u8 on ++ u8 off ++ u8 count ++ u8 rep ++ u16 pause
  | some (.continuous on off) => u8 on ++ u8 off ++ List.replicate 4 0
  | some (.perFrame line on) => u16 line ++ u16 on ++ List.replicate 2 0

/-- The kind of a burst in the order R134 gives the kinds. -/
def Pattern.number : Pattern → Nat
  | .timed _ _ _ _ _ => 0
  | .continuous _ _ => 1
  | .perFrame _ _ => 2

/-! ### Proposals -/

/-- The kind of a proposal in the order of R78. -/
def Matter.kindNumber : Matter → Nat
  | .outputChange _ _ => 0
  | .outputStop _ => 1
  | .outputStart _ => 2
  | .claimExclusive _ => 3
  | .clockChange _ _ => 4
  | .standby => 5
  | .deviceReset => 6

/-- The claim target of a proposal; `none` is the target DEVICE (R79). -/
def Matter.target : Matter → Option Target
  | .outputChange o _ => some (.out o)
  | .outputStop o => some (.out o)
  | .outputStart o => some (.out o)
  | .claimExclusive t => some t
  | .clockChange _ _ => some .tb
  | .standby => none
  | .deviceReset => none

/-- A target, or DEVICE, coded 9 (R166). -/
def matterTarget (w : Matter) : List Byte :=
  match w.target with
  | none => u8 9
  | some t => u8 t.number

/-- A proposal payload, six bytes (R166). -/
def payloadField : Matter → List Byte
  | .outputChange _ k => u8 k ++ List.replicate 5 0
  | .clockChange sel align => selectionField (some sel) ++ optFin align
  | .outputStop _ => List.replicate 6 0
  | .outputStart _ => List.replicate 6 0
  | .claimExclusive _ => List.replicate 6 0
  | .standby => List.replicate 6 0
  | .deviceReset => List.replicate 6 0

/-! ### The Timebase Unit's record -/

def TbuState.number : TbuState → Nat
  | .preparing _ _ => 0
  | .running _ => 1
  | .switching _ _ _ => 2
  | .waitAlign _ _ _ => 3
  | .lost => 4
  | .standby _ => 5

/-- The current selection, present in RUNNING, SWITCHING and WAIT_ALIGN (R108). -/
def TbuState.current : TbuState → Option Selection
  | .running cur => some cur
  | .switching cur _ _ => some cur
  | .waitAlign cur _ _ => some cur
  | .preparing _ _ => none
  | .lost => none
  | .standby _ => none

/-- The switch in flight, present in PREPARING, SWITCHING and WAIT_ALIGN (R108). -/
def TbuState.switch : TbuState → Option Switch
  | .preparing sw _ => some sw
  | .switching _ sw _ => some sw
  | .waitAlign _ sw _ => some sw
  | .running _ => none
  | .lost => none
  | .standby _ => none

/-- The switch deadline, present in PREPARING and SWITCHING (R108). -/
def TbuState.switchDeadline : TbuState → Option Nat
  | .preparing _ t => some t
  | .switching _ _ t => some t
  | .waitAlign _ _ _ => none
  | .running _ => none
  | .lost => none
  | .standby _ => none

/-- The alignment deadline, present in WAIT_ALIGN (R108). -/
def TbuState.alignDeadline : TbuState → Option Nat
  | .waitAlign _ _ t => some t
  | .preparing _ _ => none
  | .switching _ _ _ => none
  | .running _ => none
  | .lost => none
  | .standby _ => none

/-- The standby selection, present in STANDBY (R108). -/
def TbuState.standbySel : TbuState → Option Selection
  | .standby sel => some sel
  | .preparing _ _ => none
  | .switching _ _ _ => none
  | .waitAlign _ _ _ => none
  | .running _ => none
  | .lost => none

/-- The frequency used in checks, in kHz (R100). -/
def SourceTable.freq (t : SourceTable) : Source → Nat
  | .irc => 25000
  | .xo => t.xo.freq
  | .exa => t.exa.freq
  | .exb => t.exb.freq

/-- TCK in Hz rounded down, from the frequency used in checks; 0 where no current selection exists (R104, R163). -/
def tckHz (t : SourceTable) : Option Selection → Nat
  | none => 0
  | some sel =>
    match sel.syn with
    | none => t.freq sel.source * 1000
    | some c => t.freq sel.source * 1000 * c.m / (c.p * c.q)

/-! ### Notices (R165) -/

def OutState.number : OutState → Nat
  | .idle => 0
  | .bound => 1
  | .waiting => 2
  | .running => 3
  | .stopping => 4

def ChangeOutcome.number : ChangeOutcome → Nat
  | .applied => 0
  | .discarded => 1
  | .superseded => 2
  | .withdrawn => 3

/-- The kind and slot of a CHANGE_DONE (R46). -/
def DoneKind.field : DoneKind → List Byte
  | .change k => u8 0 ++ u8 k
  | .stop => u8 1 ++ u8 255
  | .cut k => u8 2 ++ u8 k

/-- The outcome and failure code of a PROPOSAL_END (R91). -/
def RoundOutcome.field : RoundOutcome → List Byte
  | .carried => u8 0 ++ u8 255
  | .failed c => u8 1 ++ u8 c.number
  | .rejected => u8 2 ++ u8 255
  | .lapsed => u8 3 ++ u8 255
  | .withdrawn => u8 4 ++ u8 255

def BurstOutcome.number : BurstOutcome → Nat
  | .complete => 0
  | .ended => 1
  | .stopped => 2
  | .duty => 3
  | .originGone => 4
  | .standby => 5

def FailCause.number : FailCause → Nat
  | .detector => 0
  | .xoActivity => 1
  | .synLock => 2
  | .switchTimeout => 3

/-- The number of a CLOCK_EVENT's event in the order of R119. -/
def ClockEvent.number : ClockEvent → Nat
  | .started _ => 0
  | .completed _ _ => 1
  | .superseded _ => 2
  | .timeout _ => 3
  | .abortedFailsafe _ => 4
  | .abortedStandby _ => 5
  | .failsafe _ _ => 6
  | .lost _ _ => 7

/-- The switch a CLOCK_EVENT is about; absent for FAILSAFE and LOST (R119). -/
def ClockEvent.switch : ClockEvent → Option Switch
  | .started sw => some sw
  | .completed sw _ => some sw
  | .superseded sw => some sw
  | .timeout sw => some sw
  | .abortedFailsafe sw => some sw
  | .abortedStandby sw => some sw
  | .failsafe _ _ => none
  | .lost _ _ => none

/-- For DONE, whether the completion was aligned (R119). -/
def ClockEvent.aligned : ClockEvent → Option Nat
  | .completed _ a => some a.toNat
  | _ => none

/-- The cause and failed source of FAILSAFE and LOST (R132); absent for the other events. -/
def ClockEvent.causeField : ClockEvent → List Byte
  | .failsafe c src => u8 c.number ++ u8 src.number
  | .lost c src => u8 c.number ++ u8 src.number
  | _ => u8 255 ++ u8 255

/-- The kind byte of a notice (R165). -/
def Notice.kindByte : Notice → Byte
  | .changeDone _ _ _ _ _ _ => 0xC0
  | .frameEnd _ _ _ => 0xC1
  | .outputState _ _ _ _ => 0xC2
  | .claimLost _ _ _ => 0xC3
  | .proposalOpen _ _ _ _ _ => 0xC4
  | .proposalEnd _ _ _ _ _ => 0xC5
  | .clockEvent _ _ _ => 0xC6
  | .reference _ _ _ _ _ _ => 0xC7
  | .burstDone _ _ _ _ _ _ _ _ => 0xC8
  | .leaseWarning _ _ => 0xC9
  | .evicted _ _ => 0xCA
  | .departed _ _ _ => 0xCB
  | .relay _ _ => 0xCC

/-- The fields of a notice in the order its owning rule lists them (R165; log entries 17 and 18). -/
def Notice.fields : Notice → List Byte
  | .changeDone o kind origin pid frame outcome =>
    u8 o ++ kind.field ++ originTag origin ++ u8 (pid.getD 0) ++ u16 frame.toNat ++ u8 outcome.number
  | .frameEnd o frame status => u8 o ++ u16 frame.toNat ++ u8 status.number
  | .outputState o prev new frame => u8 o ++ u8 prev.number ++ u8 new.number ++ u16 frame.toNat
  | .claimLost t holder id => u8 t.number ++ u8 holder ++ u8 id
  | .proposalOpen id matter proposer required window =>
    u8 id ++ u8 matter.kindNumber ++ matterTarget matter ++ u8 proposer ++ payloadField matter ++ masterSet required
      ++ u16 window
  | .proposalEnd id matter proposer tag outcome =>
    u8 id ++ u8 matter.kindNumber ++ matterTarget matter ++ u8 proposer ++ [tag] ++ outcome.field
  | .clockEvent event state fail =>
    u8 event.number ++ originField (event.switch.map Switch.origin) ++ selectionField (event.switch.map Switch.target)
      ++ optByte event.aligned ++ u8 state.number ++ selectionField state.current ++ flagField fail ++ event.causeField
  | .reference d present cause dev timing good =>
    u8 (detSource d).number ++ u8 (if present then 0 else 1) ++ u8 (match cause with | .gate => 0 | .sourceSet => 1)
      ++ deviationField dev ++ timingField timing ++ u8 good
  | .burstDone o pattern origin tag outcome pulses repeats frame =>
    u8 o ++ u8 pattern.number ++ u8 origin ++ [tag] ++ u8 outcome.number ++ u16 pulses ++ u8 repeats
      ++ u16 frame.toNat
  | .leaseWarning latched period => lastField latched ++ u8 period ++ u16 period
  | .evicted latched period => lastField latched ++ u8 period
  | .departed m reason latched =>
    u8 m ++ u8 (match reason with | .left => 0 | .evicted => 1) ++ lastField latched
  | .relay sender bytes => u8 sender ++ bytes

/-- The content of a notice frame: kind byte, zero, fields (R166). -/
def Notice.content (n : Notice) : List Byte := n.kindByte :: 0 :: n.fields

/-- The content of a response frame (R166); `dropped` is the dropped flag as transmission begins (R157). -/
def Response.content (r : Response) (dropped : Bool) : List Byte :=
  (r.kind ||| 0x80) :: r.tag :: u8 r.code.number ++ u8 (responseFlags dropped r.mstate) ++ r.payload

/-! ### Records returned by PROFILE_READ and QUERY (R163, R166) -/

def SlotState.number : SlotState → Nat
  | .emptySlot => 0
  | .openSlot => 1
  | .fixedSlot => 2

/-- The profile record (R166). -/
def profileBytes (k : Slot) (r : SlotRec) : List Byte :=
  u8 k ++ u8 r.state.number ++ optFin r.owner ++ u8 r.refs ++ u16 r.geom.lp ++ u16 r.geom.lsw ++ u16 r.geom.lf
    ++ u8 r.geom.fsw ++ u16 r.geom.ws ++ u16 r.geom.wh ++ u8 r.geom.fd ++ u8 r.geom.dc
    ++ u8 (r.label.getD []).length ++ r.label.getD []

/-- The output record (R166). -/
def outputBytes (o : Output) (r : OutRec) : List Byte :=
  u8 o ++ u8 r.state.number ++ optFin r.current ++ optFin r.next ++ u8 r.phase ++ u16 r.line ++ u16 r.tick
    ++ u16 r.frameNo.toNat ++ u8 r.status.number ++ optWord (r.last.map fun l => l.number.toNat)
    ++ optByte (r.last.map fun l => l.status.number) ++ u8 r.flagNumber ++ optFin r.group
    ++ optFin (r.cut.map PendingCut.slot) ++ originTag (r.cut.map fun c => (c.origin, c.tag))

def EntryState.number : EntryState → Nat
  | .reserved => 0
  | .queued => 1
  | .taken => 2

/-- A change queue entry, six bytes in the field order of R43. -/
def entryBytes (e : Entry) : List Byte :=
  (match e.kind with
    | .change k => u8 0 ++ u8 k
    | .stop => u8 1 ++ u8 255) ++ originTag e.origin ++ u8 e.state.number ++ u8 (e.pid.getD 0)

def queueBytes (q : List Entry) : List Byte := u8 q.length ++ (q.map entryBytes).flatten

/-- The burst record in the field order of R133. In IDLE the absent start point and phase are 0xFF (the model's reading,
log entry 18). -/
def burstBytes : Option Burst → List Byte
  | none => u8 0 ++ originTag none ++ u8 255 ++ patternField none ++ u8 255 ++ u16 0 ++ u16 0 ++ u8 0
  | some b =>
    u8 (b.pattern.number + 1) ++ originTag (some (b.origin, b.tag))
      ++ u8 (match b.start with | .nextLine => 0 | .nextEmittedFrame => 1) ++ patternField (some b.pattern)
      ++ u8 (match b.phase with | .armed => 0 | .on => 1 | .off => 2 | .pause => 3)
      ++ u16 b.left ++ u16 b.pulses ++ u8 b.repeats

/-- The claim record in the field order of R64; the report levels stand in the holder list. -/
def claimBytes (c : ClaimRec) : List Byte :=
  u8 (match c.mode with | .free => 0 | .shared => 1 | .exclusive => 2) ++ holderField c.holders
    ++ (match c.policy with
      | .keep => u8 0 ++ u8 255
      | .stop => u8 1 ++ u8 255
      | .fallback k => u8 2 ++ u8 k)

/-- The Timebase Unit's record in the field order of R108, with TCK (R163): the 36 bytes of R166. TB's claim record has
no room beside it (log entry 27). -/
def timebaseBytes (s : State) : List Byte :=
  let t := s.tbu.state
  u8 t.number ++ selectionField t.current ++ selectionField (t.switch.map Switch.target)
    ++ originField (t.switch.map Switch.origin) ++ optFin (t.switch.bind Switch.align)
    ++ timeToRun s.now (cyclesPerMs / 10) t.switchDeadline ++ timeToRun s.now (cyclesPerMs / 10) t.alignDeadline
    ++ flagField s.tbu.fail ++ flagField s.tbu.lock.isSome ++ selectionField s.tbu.lock
    ++ selectionField t.standbySel ++ u32 (tckHz s.table t.current)

/-- A detector record in the field order of R121; every field absent for IRC and XO. -/
def detBytes : Option DetRec → List Byte
  | none => u8 255 ++ u8 255 ++ deviationField none ++ timingField none
  | some d =>
    u8 (match d.state with | .absent => 0 | .qualifying => 1 | .present => 2) ++ u8 d.good ++ deviationField d.dev
      ++ timingField d.timing

def xoBytes : XoState → List Byte
  | .off => u8 0
  | .starting _ => u8 1
  | .ready => u8 2

def refEntryBytes (e : RefEntry) : List Byte := u16 e.freq ++ u8 255 ++ u16 e.on ++ u16 e.off ++ u8 e.qualify

/-- A source table entry in the field order of R102; a field the source lacks is absent. -/
def entryFields (t : SourceTable) : Source → List Byte
  | .irc => u16 65535 ++ u8 255 ++ u16 65535 ++ u16 65535 ++ u8 255
  | .xo => u16 t.xo.freq ++ flagField t.xo.keep ++ u16 65535 ++ u16 65535 ++ u8 255
  | .exa => refEntryBytes t.exa
  | .exb => refEntryBytes t.exb

/-- A proposal record in the field order of R78. -/
def proposalBytes (now : Nat) (p : Proposal) : List Byte :=
  u8 p.id ++ u8 p.matter.kindNumber ++ matterTarget p.matter ++ u8 p.proposer ++ [p.tag] ++ payloadField p.matter
    ++ masterSet p.required ++ masterSet p.accepted ++ timeToRun now (tenMs 1) (some p.deadline)

/-- A master record in the field order of R142. An absent lease period is 0xFF (the model's reading, log entry 18). -/
def masterBytes (now : Nat) (r : MasterRec) : List Byte :=
  u8 r.state.number ++ optByte r.period ++ timeToRun now (tenMs 1) r.timer ++ lastField r.last
    ++ lastField r.latched ++ flagField r.dropped

/-- The requester's own statistics, buffer and queue occupancy, and dropped flag (R163). -/
def linkBytes (l : Link) (dropped : Bool) : List Byte :=
  u16 l.stats.crc ++ u16 l.stats.length ++ u16 l.stats.aborts ++ u16 l.stats.overruns ++ u8 l.buf.length
    ++ u8 l.queue.length ++ flagField dropped

end Sys2Proof.Machine
end

