-- ==== Sys2Proof/Machine/Strobe.lean ====
section
/-! DEFINITION. The Strobe Unit's own operations (chapter 8): the duty check, what a line start does to a burst, and
the ends of a burst. -/

namespace Sys2Proof.Machine

/-- The duty check against a profile (R136). -/
def dutyOk (p : Pattern) (g : Geometry) : Bool :=
  match p with
  | .timed on off _ _ _ => decide (on * 100 ≤ g.dc * (on + off))
  | .continuous on off => decide (on * 100 ≤ g.dc * (on + off))
  | .perFrame _ on => decide (on * 100 ≤ g.dc * g.lf)

/-- A PER_FRAME pattern's LINE lies below LF; the other kinds have none (R135, R138). -/
def lineOk (p : Pattern) (g : Geometry) : Bool :=
  match p with
  | .perFrame line _ => decide (line < g.lf)
  | .timed _ _ _ _ _ => true
  | .continuous _ _ => true

/-- Pulses of CONTINUOUS and PER_FRAME hold at 65535 (R133). -/
def countPulse (n : Nat) : Nat := min (n + 1) 65535

/-- What a line start does to a burst: it runs on, or it completes (R137, R139). -/
inductive LineEffect where
  | runsOn (b : Burst)
  | completes (b : Burst)
  deriving DecidableEq, Repr

/-- A burst's first or next pulse of a TIMED or CONTINUOUS pattern. -/
def Burst.pulse (b : Burst) (on pulses : Nat) : Burst := { b with phase := .on, left := on, pulses := pulses }

/-- A phase of a TIMED burst ends (the table of R137). -/
def timedNext (b : Burst) (on off count rep pause : Nat) : LineEffect :=
  match b.phase with
  | .on => .runsOn { b with phase := .off, left := off }
  | .off =>
    if b.pulses < count then .runsOn (b.pulse on (b.pulses + 1))
    else if b.repeats + 1 < rep then
      if 0 < pause then .runsOn { b with phase := .pause, left := pause, repeats := b.repeats + 1 }
      else .runsOn { b.pulse on 1 with repeats := b.repeats + 1 }
    else .completes { b with left := 0, repeats := rep }
  | .pause => .runsOn (b.pulse on 1)
  | .armed => .runsOn b

/-- A phase of a CONTINUOUS burst ends (the table of R137). -/
def continuousNext (b : Burst) (on off : Nat) : LineEffect :=
  match b.phase with
  | .off => .runsOn (b.pulse on (countPulse b.pulses))
  | .on => .runsOn { b with phase := .off, left := off }
  | .pause => .runsOn b
  | .armed => .runsOn b

/-- The start point of an ARMED burst, at a line start of the record `r` (R137): any line start, or an emitted frame
start. -/
def StartPoint.reached (p : StartPoint) (r : OutRec) : Bool :=
  match p with
  | .nextLine => true
  | .nextEmittedFrame => r.line == 0 && r.emitted

/-- A line start of a PER_FRAME burst that has left ARMED (R138): at line LINE of an emitted frame a pulse begins, and
that line start lowers nothing; otherwise an ON phase counts down. -/
def perFrameLine (b : Burst) (r : OutRec) (line on : Nat) : Burst :=
  if r.emitted && r.line == line then { b with phase := .on, left := on, pulses := countPulse b.pulses }
  else if b.phase = .on then
    if b.left ≤ 1 then { b with phase := .off, left := 0 } else { b with left := b.left - 1 }
  else b

/-- A line start of the output reaches the burst (R137, R138); `r` is the record after it. -/
def Burst.lineStart (b : Burst) (r : OutRec) : LineEffect :=
  if b.phase = .armed then
    if b.start.reached r then
      match b.pattern with
      | .timed on _ _ _ _ => .runsOn (b.pulse on 1)
      | .continuous on _ => .runsOn (b.pulse on 1)
      | .perFrame line on => .runsOn (perFrameLine { b with phase := .off, left := 0 } r line on)
    else .runsOn b
  else
    match b.pattern with
    | .perFrame line on => .runsOn (perFrameLine b r line on)
    | .timed on off count rep pause =>
      if b.left ≤ 1 then timedNext b on off count rep pause else .runsOn { b with left := b.left - 1 }
    | .continuous on off => if b.left ≤ 1 then continuousNext b on off else .runsOn { b with left := b.left - 1 }

/-- The masters a BURST_DONE goes to: the origin, or the holders for ORIGIN_GONE (R139, R141). -/
def burstRecipients (s : State) (o : Output) (b : Burst) : BurstOutcome → List Master
  | .originGone => s.holders (.out o)
  | .complete => [b.origin]
  | .ended => [b.origin]
  | .stopped => [b.origin]
  | .duty => [b.origin]
  | .standby => [b.origin]

/-- The burst `b` ends: the record returns to IDLE and the BURST_DONE is handed on (R139). -/
def finishBurst (s : State) (o : Output) (b : Burst) (outcome : BurstOutcome) : State :=
  (s.setBurst o none).handAll (burstRecipients s o b outcome)
    (.burstDone o b.pattern b.origin b.tag outcome b.pulses b.repeats (s.sq o).frameNo)

/-- A burst that is not IDLE ends. -/
def endBurst (s : State) (o : Output) (outcome : BurstOutcome) : State :=
  match s.burst o with
  | none => s
  | some b => finishBurst s o b outcome

/-- A line start is handed to the Strobe Unit (R19, R137). -/
def strobeLine (s : State) (o : Output) : State :=
  match s.burst o with
  | none => s
  | some b =>
    match b.lineStart (s.sq o) with
    | .runsOn b' => s.setBurst o (some b')
    | .completes b' => finishBurst s o b' .complete

/-- A frame start at a profile swap: the duty check against the new profile, then the line start (R138). -/
def strobeSwap (s : State) (o : Output) : State :=
  match s.burst o with
  | none => s
  | some b =>
    if dutyOk b.pattern (s.geom o) && lineOk b.pattern (s.geom o) then strobeLine s o
    else finishBurst s o b .duty

/-- The Strobe Unit's part of the departure of `m` (R141). -/
def strobeDeparture (s : State) (o : Output) (m : Master) : State :=
  if (s.burst o).map Burst.origin = some m then endBurst s o .originGone else s

end Sys2Proof.Machine
end

