-- ==== Sys2Proof/Machine/Timebase.lean ====
section
/-! DEFINITION. The Timebase Unit's own operations (chapter 6) and the start of waiting outputs, which a timebase lets
happen (R29 to R31): validity, XO and synthesizer, readying, completion, the CLOCK that is taken, fail-safe and LOST. -/

namespace Sys2Proof.Machine

/-! ### Validity (R105) -/

/-- The settings are valid for the source frequency `f` in kHz; the quotients are compared exactly, by cross-multiplying. -/
def settingsValid (f : Nat) (c : Settings) : Bool :=
  decide (1 ≤ c.p ∧ c.p ≤ 32 ∧ 8 ≤ c.m ∧ c.m ≤ 600 ∧ (c.q = 2 ∨ c.q = 4 ∨ c.q = 6 ∨ c.q = 8)
    ∧ 2000 * c.p ≤ f ∧ f ≤ 12000 * c.p
    ∧ 240000 * c.p ≤ f * c.m ∧ f * c.m ≤ 480000 * c.p
    ∧ 30000 * (c.p * c.q) ≤ f * c.m ∧ f * c.m ≤ 240000 * (c.p * c.q))

def selectionValid (t : SourceTable) (sel : Selection) : Bool :=
  match sel.syn with
  | none => decide (t.freq sel.source ≤ 240000)
  | some c => settingsValid (t.freq sel.source) c

/-! ### Sources, XO and synthesizer (R100, R101, R107) -/

/-- A timebase exists: RUNNING, SWITCHING or WAIT_ALIGN (R29, R109). -/
def TbuState.hasTimebase (t : TbuState) : Bool := t.current.isSome

def TbuState.isStandby (t : TbuState) : Bool := t.standbySel.isSome

/-- The source of a detector is READY while the detector is PRESENT, IRC always, the XO in its state READY (R100). -/
def State.sourceReady (s : State) : Source → Bool
  | .irc => true
  | .xo => s.tbu.xo == .ready
  | .exa => s.da.state == .present
  | .exb => s.db.state == .present

/-- A selection that may be absent uses the source. -/
def uses (src : Source) : Option Selection → Bool
  | none => false
  | some sel => sel.source == src

/-- The XO is wanted (R101). -/
def State.xoWanted (s : State) : Bool :=
  !s.tbu.state.isStandby &&
    (uses .xo s.tbu.state.current || uses .xo (s.tbu.state.switch.map Switch.target) || s.table.xo.keep)

/-- The XO is no longer READY for the whole of a gate in progress (R122). -/
def DetRec.xoLost (d : DetRec) : DetRec := { d with xoThroughout := false }

/-- The XO starts or stops as R101 requires. -/
def settleXo (s : State) : State :=
  if s.xoWanted then
    if s.tbu.xo = .off then s.setTbu { s.tbu with xo := .starting 0 } else s
  else { s.setTbu { s.tbu with xo := .off } with da := s.da.xoLost, db := s.db.xoLost }

def synOf : Option Selection → Bool
  | none => false
  | some sel => sel.syn.isSome

/-- The synthesizer serves the current selection or the target of a switch in flight (R107). -/
def State.synthServes (s : State) : Bool :=
  synOf s.tbu.state.current || synOf (s.tbu.state.switch.map Switch.target)

/-- The XO and the synthesizer stop where they are no longer wanted or serve nothing (R112, R117). -/
def settleClocks (s : State) : State :=
  settleXo (if s.synthServes then s else s.setTbu { s.tbu with synth := .stopped })

/-- A lock, or a lock in progress, for the target of a switch is abandoned (R106, R111, R114); the synthesizer that
serves a current SYN selection is left alone. It stores no context, also where its own instant has come and its
LOCK_COMPLETE has not been taken (the model's reading, log entry 29; the expiry of R115 is log entry 28). -/
def abandonLock (s : State) : State :=
  if synOf s.tbu.state.current then s else s.setTbu { s.tbu with synth := .stopped }

/-! ### Lock contexts (R106) -/

def LockContexts.get (c : LockContexts) : Source → Option Settings
  | .irc => c.irc
  | .xo => c.xo
  | .exa => c.exa
  | .exb => c.exb

def LockContexts.set (c : LockContexts) (src : Source) (v : Option Settings) : LockContexts :=
  match src with
  | .irc => { c with irc := v }
  | .xo => { c with xo := v }
  | .exa => { c with exa := v }
  | .exb => { c with exb := v }

def setContext (s : State) (src : Source) (v : Option Settings) : State :=
  s.setTbu { s.tbu with ctx := s.tbu.ctx.set src v }

/-! ### Clock notices (R119, R132) -/

/-- The origin master of a switch, where there is one (R119). -/
def SwitchOrigin.originMaster : SwitchOrigin → Option Master
  | .startUp => none
  | .wake => none
  | .master m _ => some m
  | .proposal m _ _ => some m

/-- Hands a CLOCK_EVENT of a switch to the holders of TB and its origin master; state, current and FAIL are those after
the event (R119). -/
def switchNotice (s : State) (sw : Switch) (event : ClockEvent) : State :=
  s.handAll (withOrigin (s.holders .tb) sw.origin.originMaster) (.clockEvent event s.tbu.state s.tbu.fail)

/-- Hands a CLOCK_EVENT FAILSAFE or LOST to every joined master (R132). -/
def failNotice (s : State) (event : ClockEvent) : State :=
  s.handAll s.joinedMasters (.clockEvent event s.tbu.state s.tbu.fail)

/-- The notice of the end of a switch in flight, if there was one. -/
def endNotice (s : State) (sw : Option Switch) (event : Switch → ClockEvent) : State :=
  match sw with
  | none => s
  | some sw => switchNotice s sw (event sw)

/-! ### Start instants (R29 to R31) -/

/-- The anchor of a group: its lowest-numbered member in RUNNING (R29). -/
def State.anchor (s : State) (g : Group) : Option Output :=
  allOutputs.find? fun o => (s.sq o).group == some g && (s.sq o).state == .running

/-- A waiting output may start now: a timebase exists, and it has no group, or no member of its group is RUNNING, or
the anchor has an emitted frame start at this moment, being in `moment` (R29). -/
def State.mayStart (s : State) (moment : List Output) (o : Output) : Bool :=
  (s.sq o).state == .waiting && s.tbu.state.hasTimebase &&
    (match (s.sq o).group with
      | none => true
      | some g =>
        match s.anchor g with
        | none => true
        | some a => moment.contains a)

/-- The outputs whose start instant is this moment; all of them start together (R29). -/
def State.startSet (s : State) (moment : List Output) : List Output := allOutputs.filter (s.mayStart moment)

/-- An output starts: its record, the first line start to its Strobe Unit, its OUTPUT_STATE (R31). -/
def startOne (s : State) (o : Output) : State :=
  outputNotice (strobeLine (s.setSq o ((s.sq o).beginRun s.tbu.fail)) o) o .waiting

/-- Outputs start at one moment. They hand their OUTPUT_STATE notices in the order of their numbers: the model's choice
where no rule orders them (log entry 11). -/
def startAll (s : State) (os : List Output) : State := os.foldl startOne s

/-! ### Completion (R117) -/

/-- The XO activity checks begin when the XO becomes part of the current selection, and stop otherwise (R126). -/
def checksFor (now : Nat) (sel : Selection) : Option XoCheck :=
  if sel.source = .xo then some ⟨0, now + checkPeriod⟩ else none

/-- The output spared the mark of a completion: the align output at an aligned one (R38, R117). -/
def spared (sw : Switch) (aligned : Bool) (o : Output) : Bool := aligned && sw.align == some o

/-- The switch `sw` completes (R117). Outputs with an emitted frame start at this moment are in `moment`. -/
def complete (s : State) (sw : Switch) (aligned : Bool) (moment : List Output) : State :=
  let s := s.setTbu { s.tbu with state := .running sw.target, fail := false }
  let s := settleClocks s
  let s := s.setTbu { s.tbu with xoCheck := checksFor s.now sw.target }
  let s := s.mapSq fun s o => (s.sq o).completion (spared sw aligned o)
  let s := startAll s (s.startSet moment)
  switchNotice s sw (.completed sw aligned)

/-- Waiting outputs are examined; a start handed to the Timebase Unit is an emitted frame start of that output, and
completes a switch that waits for it (R20, R29, R31). -/
def examine (s : State) (moment : List Output) : State :=
  let started := s.startSet moment
  let s := startAll s started
  match s.tbu.state with
  | .waitAlign _ sw _ =>
    match sw.align with
    | some a => if started.contains a then complete s sw true started else s
    | none => s
  | _ => s

/-- An emitted frame start of a running output is handed to the Timebase Unit, where it completes a switch that waits
for it, and to the other members of its group (R20, R116; log entry 12). -/
def emittedStart (s : State) (o : Output) : State :=
  match s.tbu.state with
  | .waitAlign _ sw _ => if sw.align = some o then complete s sw true [o] else examine s [o]
  | _ => examine s [o]

/-- The output has left RUNNING for STOPPING: a switch that waits for it completes unaligned (R116), and the waiting
members of its group are examined again (R30). Where one output is both, no rule gives the order: the model completes
first, so that the members' first frames are not marked (log entry 12). -/
def leftRunning (s : State) (o : Output) : State :=
  match s.tbu.state with
  | .waitAlign _ sw _ => if sw.align = some o then complete s sw false [] else examine s []
  | _ => examine s []

/-! ### Readying (R106, R114, R116) -/

/-- The target is ready and the switch goes on (R116). -/
def targetReady (s : State) : State :=
  match s.tbu.state with
  | .preparing sw _ => complete s sw false []
  | .switching cur sw _ =>
    match sw.align with
    | none => complete s sw false []
    | some o =>
      if (s.sq o).state = .running then s.setTbu { s.tbu with state := .waitAlign cur sw (s.now + alignLimit) }
      else complete s sw false []
  | _ => s

/-- A lock to `src` begins: quick when its context is valid with equal settings (R106). -/
def beginLock (s : State) (src : Source) (c : Settings) : State :=
  let quick := s.tbu.ctx.get src == some c
  s.setTbu { s.tbu with synth := .locking quick (s.now + lockTime quick) }

/-- The target waits for its source and then for its lock, in order (R114). -/
def readyTarget (s : State) (sw : Switch) : State :=
  if s.sourceReady sw.target.source then
    match sw.target.syn with
    | none => targetReady s
    | some c => if s.tbu.synth = .stopped then beginLock s sw.target.source c else s
  else s

/-- Readying goes on in PREPARING and SWITCHING (R114). -/
def progress (s : State) : State :=
  match s.tbu.state with
  | .preparing sw _ => readyTarget s sw
  | .switching _ sw _ => readyTarget s sw
  | _ => s

/-- The target of a switch loses its readiness (R114): in SWITCHING or PREPARING a lock in progress is abandoned and
the deadline stands; in WAIT_ALIGN the unit returns to SWITCHING with a new switch deadline. -/
def losesReadiness (s : State) : State :=
  match s.tbu.state with
  | .preparing _ _ => abandonLock s
  | .switching _ _ _ => abandonLock s
  | .waitAlign cur sw _ =>
    abandonLock (s.setTbu { s.tbu with state := .switching cur sw (s.now + switchLimit) })
  | _ => s

/-- The source has become READY: a switch whose target uses it is readied, and nothing else acts on it (R114, R124). -/
def sourceBecomesReady (s : State) (src : Source) : State :=
  if uses src (s.tbu.state.switch.map Switch.target) then progress s else s

/-! ### Taking a CLOCK (R112) -/

/-- A switch begins in the state `st` that carries it: XO and synthesizer are started or kept, STARTED is handed on
after the end `ended` of the switch it replaces, and readying begins in the same event (R112). -/
def beginSwitch (s : State) (st : TbuState) (sw : Switch) (ended : Option Switch) : State :=
  let s := s.setTbu { s.tbu with state := st }
  let s := settleClocks s
  let s := endNotice s ended .superseded
  progress (switchNotice s sw (.started sw))

/-- A CLOCK is taken (R112). A lock in progress for a superseded target stores no context, whatever its instant (log entry
29). -/
def takeClock (s : State) (sel : Selection) (align : Option Output) (origin : SwitchOrigin) : State :=
  let sw : Switch := ⟨sel, origin, align⟩
  let deadline := s.now + switchLimit
  match s.tbu.state with
  | .running cur => beginSwitch s (.switching cur sw deadline) sw none
  | .switching cur old _ =>
    if sel = cur then endNotice (settleClocks ((abandonLock s).setTbu { (abandonLock s).tbu with state := .running cur })) (some old) .superseded
    else beginSwitch (abandonLock s) (.switching cur sw deadline) sw (some old)
  | .waitAlign cur old _ =>
    if sel = cur then endNotice (settleClocks ((abandonLock s).setTbu { (abandonLock s).tbu with state := .running cur })) (some old) .superseded
    else beginSwitch (abandonLock s) (.switching cur sw deadline) sw (some old)
  | .preparing old _ => beginSwitch (abandonLock s) (.preparing sw deadline) sw (some old)
  | .lost => beginSwitch s (.preparing sw deadline) sw none
  | .standby _ => s.setTbu { s.tbu with state := .standby sel }

/-- The selection lock refuses a CLOCK of `sel`, `none` being a selection code outside the eight (R110, step 2; R118). -/
def lockRefuses (s : State) (sel : Option Selection) : Bool :=
  match s.tbu.lock with
  | none => false
  | some l => sel != some l || s.tbu.state.hasTimebase

/-- Steps 2 to 5 of R110, which a carried CLOCK_CHANGE repeats (R113): the refusal or NO_CHANGE they give. `align` is
`none` for a code outside its list, `sel` for a selection code outside the eight. -/
def clockCheck (s : State) (sel : Option Selection) (align : Option (Option Output)) : Option ResultCode :=
  if lockRefuses s sel then some .locked
  else
    match sel, align with
    | some sel, some _ =>
      if !selectionValid s.table sel then some .badValue
      else if synOf s.tbu.state.current && sel.syn.isSome && s.tbu.state.current != some sel then some .synInUse
      else
        match s.tbu.state with
        | .running cur => if sel = cur then some .noChange else none
        | .standby sb => if sel = sb then some .noChange else none
        | _ => none
    | _, _ => some .badValue

/-! ### Failure of the current source (R127 to R132) -/

/-- Fail-safe acts (R128). A lock in progress is abandoned and stores no context, also where the failure is taken at or
after the lock's own instant and before its LOCK_COMPLETE: R115 keeps the context of such a lock for an expiry, no rule
says it for a failure, and this reading is the model's (log entry 29). -/
def failSafe (s : State) (cause : FailCause) (src : Source) : State :=
  let ended := s.tbu.state.switch
  let s := s.setTbu { s.tbu with state := .running ⟨.irc, none⟩, fail := true, xoCheck := none }
  let s := settleClocks s
  let s := s.mapSq fun s o => (s.sq o).failSafe
  let s := endNotice s ended .abortedFailsafe
  failNotice s (.failsafe cause src)

/-- The Timebase Unit enters LOST (R130, and R169 for a timeout in PREPARING). What a failure taken at the instant of a
lock in progress does to that lock is the model's reading, as in `failSafe` (log entry 29). -/
def enterLost (s : State) (cause : FailCause) (src : Source) : State :=
  let s := s.setTbu { s.tbu with state := .lost, xoCheck := none }
  let s := settleClocks s
  let s := s.mapSq fun s o => (s.sq o).freeze (s.pins o)
  failNotice s (.lost cause src)

/-- The current source has failed: fail-safe when FSE is 1, entry to LOST when FSE is 0 (R127). -/
def sourceFails (s : State) (cause : FailCause) (src : Source) : State :=
  if s.straps.fse then failSafe s cause src else enterLost s cause src

/-- A reference's detector has left PRESENT and hands ABSENT to the Timebase Unit (R124). -/
def referenceAbsent (s : State) (src : Source) : State :=
  let s := setContext s src none
  if uses src s.tbu.state.current then sourceFails s .detector src
  else if uses src (s.tbu.state.switch.map Switch.target) then losesReadiness s
  else s

/-! ### The start-up path (R168) -/

/-- The settings a SYN start-up selection carries (R167). -/
def startUpSettings : Settings := ⟨2, 48, 4⟩

/-- The selection INITSEL names, in the order of the selection codes (R167). -/
def initSelection (n : Fin 8) : Selection :=
  match n with
  | 0 => ⟨.irc, none⟩
  | 1 => ⟨.xo, none⟩
  | 2 => ⟨.exa, none⟩
  | 3 => ⟨.exb, none⟩
  | 4 => ⟨.irc, some startUpSettings⟩
  | 5 => ⟨.xo, some startUpSettings⟩
  | 6 => ⟨.exa, some startUpSettings⟩
  | 7 => ⟨.exb, some startUpSettings⟩

/-- The start-up path with its start selection and origin (R168). -/
def startUpPath (s : State) (sel : Selection) (origin : SwitchOrigin) (twospd : Bool) : State :=
  let sw : Switch := ⟨sel, origin, none⟩
  let deadline := s.now + switchLimit
  if sel = ⟨.irc, none⟩ then settleClocks (s.setTbu { s.tbu with state := .running sel })
  else if twospd then beginSwitch s (.switching ⟨.irc, none⟩ sw deadline) sw none
  else beginSwitch s (.preparing sw deadline) sw none

/-! ### Events of the Timebase Unit -/

/-- The STARTING XO's count reaches 8192 and it goes to READY; a target that uses it is readied (R101, R114). -/
def xoBecomesReady (s : State) : State :=
  match s.tbu.xo with
  | .starting _ => sourceBecomesReady (s.setTbu { s.tbu with xo := .ready }) .xo
  | .off => s
  | .ready => s

/-- The synthesizer is locked. The phase of its clock is a free value drawn now (R104, log entry 4). -/
def synthLocks (s : State) : State :=
  { s.setTbu { s.tbu with synth := .locked } with
    synPhase := Config.lockPhase s.freeCount
    freeCount := s.freeCount + 1 }

/-- The lock in progress for `sw` completes, storing its context, if its settings are valid now (R106, R107). Once the
switch has ended no lock is in progress, and one that fell together with the deadline has been stored there
(`lockAtDeadline`, log entry 28). -/
def lockFor (s : State) (sw : Switch) : State :=
  match s.tbu.synth, sw.target.syn with
  | .locking _ at_, some c =>
    let s := s.reach at_
    if settingsValid (s.table.freq sw.target.source) c then
      targetReady (synthLocks (setContext s sw.target.source (some c)))
    else s.setTbu { s.tbu with synth := .notLocking }
  | _, _ => s

def lockCompletes (s : State) : State :=
  match s.tbu.state with
  | .preparing sw _ => lockFor s sw
  | .switching _ sw _ => lockFor s sw
  | _ => s

/-- IRC time reaches the alignment deadline (R116). -/
def alignmentExpires (s : State) : State :=
  match s.tbu.state with
  | .waitAlign _ sw deadline => complete (s.reach deadline) sw false []
  | _ => s

/-- The fallback rule with FSE 1: IRC direct with FAIL set, a timebase for the waiting outputs (R169). -/
def fallBack (s : State) (sw : Switch) : State :=
  let s := s.setTbu { s.tbu with state := .running ⟨.irc, none⟩, fail := true }
  examine (switchNotice (settleClocks s) sw (.timeout sw)) []

/-- The switch `sw` ends at its deadline with the expiry taken first (R115). A lock in progress whose own instant is no
later than the deadline has completed, if its settings are valid, and has still stored its context; its readiness does
nothing. A later one is abandoned, and stores nothing (R106). R106 abandons a lock not completed when its switch ends,
and R115 keeps the context of one that falls together with the expiry: this reading of the two is the model's (log entry
28). -/
def lockAtDeadline (s : State) (sw : Switch) (deadline : Nat) : State :=
  match s.tbu.synth, sw.target.syn with
  | .locking _ at_, some c =>
    if at_ ≤ deadline && settingsValid (s.table.freq sw.target.source) c then setContext s sw.target.source (some c)
    else s
  | _, _ => s

/-- IRC time reaches the switch deadline (R115, R169). -/
def switchExpires (s : State) : State :=
  match s.tbu.state with
  | .switching cur sw deadline =>
    let s := abandonLock (lockAtDeadline (s.reach deadline) sw deadline)
    switchNotice (settleClocks (s.setTbu { s.tbu with state := .running cur })) sw (.timeout sw)
  | .preparing sw deadline =>
    let s := abandonLock (lockAtDeadline (s.reach deadline) sw deadline)
    if s.straps.fse then fallBack s sw
    else
      let s := s.setTbu { s.tbu with state := .lost }
      enterLost (switchNotice (settleClocks s) sw (.timeout sw)) .switchTimeout sw.target.source
  | _ => s

/-- The activity check of the current XO (R126). -/
def activityCheck (s : State) (cycleSeen : Bool) : State :=
  match s.tbu.xoCheck with
  | none => s
  | some c =>
    let s := s.reach c.due
    let due := c.due + checkPeriod
    if cycleSeen then s.setTbu { s.tbu with xoCheck := some ⟨0, due⟩ }
    else if c.misses + 1 < 2 then s.setTbu { s.tbu with xoCheck := some ⟨c.misses + 1, due⟩ }
    else sourceFails s .xoActivity .xo

/-- A loss of lock while the synthesizer serves the target of the switch `sw`, the current selection being direct or
absent (R106, R107). The context of the target's source is invalid. In WAIT_ALIGN the target loses its readiness and is
readied again (R114). In SWITCHING and PREPARING the lock in progress goes on, since a loss of lock is none of the events
by which R106 abandons one; and a synthesizer that is stopped, its target waiting for its source, is neither locking nor
locked and reports nothing (log entry 26). -/
def targetLockLost (s : State) (sw : Switch) : State :=
  match s.tbu.state with
  | .waitAlign _ _ _ => progress (losesReadiness (setContext s sw.target.source none))
  | _ => if s.tbu.synth = .stopped then s else setContext s sw.target.source none

/-- The synthesizer reports a loss of lock (R107): of the current selection, a failure; of the target of a switch in
flight, the loss of its context (`targetLockLost`). While it serves nothing, nothing is reported (R127). -/
def lockLost (s : State) : State :=
  match s.tbu.state.current, s.tbu.state.switch with
  | some ⟨src, some _⟩, _ => sourceFails (setContext s src none) .synLock src
  | _, some sw => if sw.target.syn.isSome then targetLockLost s sw else s
  | _, none => s

/-- XO_READY (R101). -/
def execXoReady (s : State) : Out := .next (xoBecomesReady s)

/-- LOCK_COMPLETE (R106). -/
def execLockComplete (s : State) : Out := .next (lockCompletes s)

/-- ALIGNMENT_DEADLINE (R116). -/
def execAlignmentDeadline (s : State) : Out := .next (alignmentExpires s)

/-- SWITCH_TIMEOUT (R115). -/
def execSwitchTimeout (s : State) : Out := .next (switchExpires s)

/-- XO_ACTIVITY_CHECK (R126). -/
def execXoActivityCheck (cycleSeen : Bool) (s : State) : Out := .next (activityCheck s cycleSeen)

/-- LOSS_OF_LOCK (R107). -/
def execLossOfLock (s : State) : Out := .next (lockLost s)

end Sys2Proof.Machine
end

