-- ==== Sys2Proof/Machine/Frames.lean ====
section
/-! DEFINITION. Line starts and frame boundaries of an output, with what its change queue does at them: the intake
point (R52), the stop (R53), the swap (R54) and the cut (R57, R58). Holds the meanings of LINE_START and
FRAME_BOUNDARY. -/

namespace Sys2Proof.Machine

/-- The entry at the head of the queue becomes TAKEN (R52). -/
def takeHead (s : State) (o : Output) (e : Entry) (rest : List Entry) : State :=
  s.setQueue o ({ e with state := .taken } :: rest)

/-- The current frame is marked UNSETTLED if it is emitted (R52). -/
def unsettleFrame (s : State) (o : Output) : State := s.setSq o ((s.sq o).mark FrameStatus.unsettle)

/-- The intake point: the head of the queue is examined, and taken when it is QUEUED (R52). -/
def intake (s : State) (o : Output) : State :=
  match s.queue o with
  | [] => s
  | e :: rest =>
    if e.isQueued then
      match e.kind with
      | .change k =>
        let s := (takeHead s o e rest).addRef k
        unsettleFrame (s.setSq o { s.sq o with next := some k }) o
      | .stop =>
        if (s.sq o).state = .running then
          let s := unsettleFrame (takeHead s o e rest) o
          leftRunning (setOutState s o .stopping) o
        else s
    else s

/-- A pending cut `c` takes effect (R57): the frame completes as CUT, taken and queued work is superseded, and a new
frame starts at phase 0 on the cut's profile. From STOPPING its OUTPUT_STATE carries the new frame's number (the model's
reading of R18, log entry 13). Its emitted frame start is handed on last. -/
def cutFrame (s : State) (o : Output) (c : PendingCut) : State :=
  let wasStopping := (s.sq o).state == .stopping
  let s := clearNext (completeFrame s o true) o
  let s := (s.addRef c.slot).dropRefOpt (s.sq o).current
  let s := s.setSq o (({ s.sq o with state := .running, current := some c.slot, cut := none }).beginFrame 0 s.tbu.fail)
  let s := removeEntries s o Entry.isTaken .superseded
  let s := removeEntries s o Entry.isQueued .superseded
  let s := strobeLine s o
  let s := changeDone s o (.cut c.slot) (some (c.origin, c.tag)) none .applied
  let s := if wasStopping then outputNotice s o .stopping else s
  emittedStart s o

/-- The first line at whose start a pending cut takes effect (R56). -/
def cutLine : Nat := 16

/-- The line whose start is the intake point (R21). -/
def intakeLine : Nat := 4

/-- The next line of the frame begins and is handed to the Strobe Unit and the Change Queue (R19, R21). -/
def nextLine (s : State) (o : Output) : State :=
  let s := strobeLine (s.setSq o { s.sq o with line := (s.sq o).line + 1, tick := 0, lineEnd := false }) o
  if (s.sq o).line = intakeLine then intake s o else s

/-- A line start within a frame, where no pending cut takes effect before line 16 (R19, R56). -/
def lineStart (s : State) (o : Output) : State :=
  match (s.sq o).cut with
  | some c => if cutLine ≤ (s.sq o).line + 1 then cutFrame s o c else nextLine s o
  | none => nextLine s o

/-- The boundary of an output in STOPPING: the stop takes effect, the rest of the queue but a RESERVED entry is
discarded, the burst ends STOPPED and the output goes to BOUND (R27, R53, R141). -/
def stopTakesEffect (s : State) (o : Output) : State :=
  let s := completeFrame s o false
  let s := removeEntries s o Entry.isTaken .applied
  let s := removeEntries s o Entry.isQueued .discarded
  let s := endBurst s o .stopped
  setOutState (s.setSq o (s.sq o).toRest) o .bound

/-- The profile swap to the slot `k` of a TAKEN CHANGE (R54, R138): current and next change before the entry's
CHANGE_DONE, which carries the number of the new frame. -/
def profileSwap (s : State) (o : Output) (k : Slot) : State :=
  let s := completeFrame s o false
  let s := clearNext ((s.addRef k).dropRefOpt (s.sq o).current) o
  let s := s.setSq o (({ s.sq o with current := some k }).beginFrame 0 s.tbu.fail)
  let s := removeEntries s o Entry.isTaken .applied
  emittedStart (strobeSwap s o) o

/-- A boundary at which the current profile goes on: the next phase of the frame divider (R20, R27). -/
def frameGoesOn (s : State) (o : Output) : State :=
  let s := completeFrame s o false
  let s := s.setSq o ((s.sq o).beginFrame (((s.sq o).phase + 1) % (s.geom o).fd) s.tbu.fail)
  let s := strobeLine s o
  if (s.sq o).emitted then emittedStart s o else s

/-- The slot of a TAKEN CHANGE at the head of the queue (R54). -/
def takenChange : List Entry → Option Slot
  | [] => none
  | e :: _ =>
    match e.state, e.kind with
    | .taken, .change k => some k
    | _, _ => none

/-- A frame boundary (R27): a pending cut takes the place of the queue's decision (R58). -/
def frameBoundary (s : State) (o : Output) : State :=
  match (s.sq o).cut with
  | some c => cutFrame s o c
  | none =>
    if (s.sq o).state = .stopping then stopTakesEffect s o
    else
      match takenChange (s.queue o) with
      | some k => profileSwap s o k
      | none => frameGoesOn s o

/-- The line now running is the frame's last: the next line start is a frame boundary instead (R19). -/
def lastLine (s : State) (o : Output) : Bool := decide ((s.geom o).lf ≤ (s.sq o).line + 1)

/-- The line of an output in RUNNING or STOPPING that is not frozen ends: the tick count has reached LP (R2, R19). -/
def lineDue (s : State) (o : Output) : Bool := (s.sq o).live && (s.sq o).lineEnd

/-- A line that is due ends: the next one begins, or the frame does (R19). -/
def lineEnds (s : State) (o : Output) : State := if lastLine s o then frameBoundary s o else lineStart s o

/-- LINE_START (R19): at the end of a line that is not the frame's last. -/
def execLineStart (o : Output) (s : State) : Out :=
  .next (if lineDue s o && !lastLine s o then lineStart s o else s)

/-- FRAME_BOUNDARY (R27): at the end of the frame's last line. -/
def execFrameBoundary (o : Output) (s : State) : Out :=
  .next (if lineDue s o && lastLine s o then frameBoundary s o else s)

end Sys2Proof.Machine
end

