-- ==== Sys2Proof/Machine/Standby.lean ====
section
/-! DEFINITION. Standby entry (R171, R172), which STANDBY and the carrying of a STANDBY proposal share. -/

namespace Sys2Proof.Machine

/-- An output in WAITING, RUNNING or STOPPING goes to BOUND at standby entry; the first two get the resume mark
(R171, step 3). -/
def standbyRest (s : State) (o : Output) : State :=
  let r := s.sq o
  setOutState (s.setSq o { r.toRest with resumeMark := r.resumeMark || r.state != .stopping }) o .bound

/-- One output at standby entry, settled whole (R171). When it leaves RUNNING the waiting members of its group are
examined again (R30). -/
def standbyOutput (s : State) (o : Output) : State :=
  let s := queueStandby s o
  let s := endBurst s o .standby
  match (s.sq o).state with
  | .idle => s
  | .bound => s
  | .waiting => standbyRest s o
  | .stopping => standbyRest s o
  | .running => examine (standbyRest s o) []

/-- The selection kept for wake (R172, step 1). -/
def standbySelection (s : State) : Selection :=
  match s.tbu.state.switch with
  | some sw => sw.target
  | none =>
    match s.tbu.state.current with
    | some cur => cur
    | none =>
      match s.tbu.lock with
      | some l => l
      | none => initSelection s.straps.initsel

/-- The Timebase Unit's part of standby entry (R172). A lock in progress stores no context, whatever its instant (log entry
29). -/
def tbuStandby (s : State) : State :=
  let ended := s.tbu.state.switch
  let s := s.setTbu { s.tbu with state := .standby (standbySelection s), xoCheck := none }
  endNotice (settleClocks s) ended .abortedStandby

/-- Standby entry: each output in the order of their numbers, then the Timebase Unit (R171, R172). -/
def enterStandby (s : State) : State := tbuStandby (allOutputs.foldl standbyOutput s)

end Sys2Proof.Machine
end

