-- ==== Sys2Proof/Machine/Consent.lean ====
section
/-! DEFINITION. The Consent Unit (chapter 5): opening a proposal, carrying each kind, the ends, and the removal of a
voter. -/

namespace Sys2Proof.Machine

/-! ### The Proposal Table (R78) -/

/-- The bound of the Proposal Table (R78). -/
def proposalLimit : Nat := 4

def State.proposal (s : State) (id : Nat) : Option Proposal := s.consent.proposals.find? fun p => p.id == id

/-- The open proposal on a target; `none` is the target DEVICE. -/
def State.proposalOn (s : State) (t : Option Target) : Option Proposal :=
  s.consent.proposals.find? fun p => p.matter.target == t

/-- The record of a proposal is freed and its id with it (R86, R90). -/
def freeProposal (s : State) (id : Nat) : State :=
  s.setProposals (s.consent.proposals.filter fun p => p.id != id)

/-- Changes the record of a proposal. -/
def updateProposal (s : State) (id : Nat) (f : Proposal → Proposal) : State :=
  s.setProposals (s.consent.proposals.map fun p => if p.id == id then f p else p)

/-! ### Opening (R80 to R84) -/

/-- The window in units of 10 ms: 0 stands for 100; `none` is a window that is refused (R80). -/
def windowOf (n : Nat) : Option Nat :=
  if n = 0 then some 100 else if 10 ≤ n ∧ n ≤ 1000 then some n else none

/-- The required set of a proposal opened now (R81). -/
def requiredFor (s : State) (w : Matter) (proposer : Master) : List Master :=
  match w.target with
  | some t => allMasters.filter fun m => s.isHolder t m && m != proposer
  | none => allMasters.filter fun m => s.joined m && m != proposer

/-- The value after `n`, counting 255 to 1 (R83). -/
def nextId (n : Nat) : Nat := if 255 ≤ n then 1 else n + 1

/-- The id for a new proposal: the value after the counter, skipping ids that open proposals hold (R83). With at most
4 open, one of the next five values is free. -/
def allocate (used : List Nat) : Nat → Nat → Nat
  | 0, n => nextId n
  | fuel + 1, n => if used.contains (nextId n) then allocate used fuel (nextId n) else nextId n

def State.newId (s : State) : Nat := allocate (s.consent.proposals.map Proposal.id) 4 s.consent.idCounter

/-- The output whose queue a proposal reserves an entry in, and the kind of the entry (R49). -/
def Matter.reserves : Matter → Option (Output × EntryKind)
  | .outputChange o k => some (o, .change k)
  | .outputStop o => some (o, .stop)
  | .outputStart _ => none
  | .claimExclusive _ => none
  | .clockChange _ _ => none
  | .standby => none
  | .deviceReset => none

/-- The slot of an OUTPUT_CHANGE payload (R10, R78). -/
def Matter.payloadSlot : Matter → Option Slot
  | .outputChange _ k => some k
  | .outputStop _ => none
  | .outputStart _ => none
  | .claimExclusive _ => none
  | .clockChange _ _ => none
  | .standby => none
  | .deviceReset => none

def addRefOpt (s : State) : Option Slot → State
  | none => s
  | some k => s.addRef k

/-- The reservations of R84: the payload's reference and the RESERVED entry. -/
def reserve (s : State) (w : Matter) (m : Master) (tag : Byte) (id : Nat) : State :=
  let s := addRefOpt s w.payloadSlot
  match w.reserves with
  | none => s
  | some (o, kind) => appendEntry s o ⟨kind, some (m, tag), .reserved, some id⟩

/-- The queue a proposal would reserve an entry in holds 4 (R82, order 4). -/
def reservationFull (s : State) (w : Matter) : Bool :=
  match w.reserves with
  | none => false
  | some (o, _) => s.queueFull o

/-- A request is handed to the Consent Unit (R82 to R84): refused, or the proposal opens and PROPOSED carries its id. -/
def openProposal (s : State) (m : Master) (tag : Byte) (w : Matter) (window : Nat) : Reply :=
  match windowOf window with
  | none => refuse s .badValue
  | some units =>
    if (s.proposalOn w.target).isSome then refuse s .conflict
    else if proposalLimit ≤ s.consent.proposals.length then refuse s .full
    else if reservationFull s w then refuse s .full
    else
      let id := s.newId
      let required := requiredFor s w m
      let s := reserve s w m tag id
      let p : Proposal := ⟨id, w, m, tag, required, [], s.now + tenMs units⟩
      let s := { s with consent := ⟨s.consent.proposals ++ [p], id⟩ }
      ⟨s.handAll required (.proposalOpen id w m required units), .proposed, u8 id⟩

/-! ### The end of a proposal (R90, R91) -/

/-- PROPOSAL_END to the proposer and the required voters; that of a carried DEVICE_RESET is a closing frame (R174). -/
def proposalEnd (s : State) (p : Proposal) (outcome : RoundOutcome) (closing : Bool) : State :=
  (p.proposer :: p.required).foldl
    (fun s m => s.handMarked m closing (.proposalEnd p.id p.matter p.proposer p.tag outcome)) s

/-- A proposal ends without carrying (R90). -/
def endProposal (s : State) (p : Proposal) (outcome : RoundOutcome) : State :=
  let s :=
    match p.matter.reserves with
    | none => s
    | some (o, _) => removeEntries s o (Entry.isReservedBy p.id) .withdrawn
  let s := s.dropRefOpt p.matter.payloadSlot
  proposalEnd (freeProposal s p.id) p outcome false

/-! ### Carrying (R86, R92 to R96) -/

/-- The RESERVED entry of the proposal becomes QUEUED in its place (R50). -/
def queueReserved (s : State) (o : Output) (id : Nat) : State :=
  s.setQueue o ((s.queue o).map fun e => if e.isReservedBy id then { e with state := .queued } else e)

/-- OUTPUT_CHANGE carries (R50): queued for a running output; otherwise the entry leaves APPLIED and the output is bound.
The payload's reference, dropped by `carry` afterwards, keeps the slot named throughout (R86). -/
def carryChange (s : State) (id : Nat) (o : Output) (k : Slot) : State × RoundOutcome :=
  if (s.sq o).runs then (queueReserved s o id, .carried)
  else (bind (removeEntries s o (Entry.isReservedBy id) .applied) o k, .carried)

/-- OUTPUT_STOP carries (R50). -/
def carryStop (s : State) (id : Nat) (o : Output) : State × RoundOutcome :=
  match (s.sq o).state with
  | .running => (queueReserved s o id, .carried)
  | .waiting => (returnToBound (removeEntries s o (Entry.isReservedBy id) .applied) o, .carried)
  | .idle => (removeEntries s o (Entry.isReservedBy id) .withdrawn, .failed .state)
  | .bound => (removeEntries s o (Entry.isReservedBy id) .withdrawn, .failed .state)
  | .stopping => (removeEntries s o (Entry.isReservedBy id) .withdrawn, .failed .state)

/-- An output in BOUND goes to WAITING and is examined for its start instant (R28, R93). -/
def enterWaiting (s : State) (o : Output) : State := examine (setOutState s o .waiting) []

/-- OUTPUT_START carries (R93). -/
def carryStart (s : State) (o : Output) : State × RoundOutcome :=
  if (s.sq o).state = .bound then (enterWaiting s o, .carried) else (s, .failed .state)

/-- CLAIM_EXCLUSIVE carries: every other holder is removed, oldest first, with its CLAIM_LOST (R70). -/
def carryExclusive (s : State) (id : Nat) (t : Target) (proposer : Master) : State × RoundOutcome :=
  let c := s.claim t
  let lost := (c.holders.filter fun h => h.master != proposer).map Holder.master
  let s := s.setClaim t { c with mode := .exclusive, holders := c.holders.filter fun h => h.master == proposer }
  (lost.foldl (fun s m => s.hand m (.claimLost t proposer id)) s, .carried)

/-- CLOCK_CHANGE carries (R113). -/
def carryClock (s : State) (p : Proposal) (sel : Selection) (align : Option Output) : State × RoundOutcome :=
  match clockCheck s (some sel) (some align) with
  | some .noChange => (s, .carried)
  | some code => (s, .failed code)
  | none => (takeClock s sel align (.proposal p.proposer p.tag p.id), .carried)

/-- The owner of the target applies the proposal to the target as it stands (R86, step 1). -/
def applyMatter (s : State) (p : Proposal) : State × RoundOutcome :=
  match p.matter with
  | .outputChange o k => carryChange s p.id o k
  | .outputStop o => carryStop s p.id o
  | .outputStart o => carryStart s o
  | .claimExclusive t => carryExclusive s p.id t p.proposer
  | .clockChange sel align => carryClock s p sel align
  | .standby => (enterStandby s, .carried)
  | .deviceReset => ({ s with resetTaken := true }, .carried)

/-- A proposal carries (R86). -/
def carry (s : State) (p : Proposal) : State :=
  let r := applyMatter s p
  let s := freeProposal (r.1.dropRefOpt p.matter.payloadSlot) p.id
  proposalEnd s p r.2 (p.matter == .deviceReset)

/-! ### Voters (R85, R89) -/

/-- The proposal `id` carries if its accepted set equals its required set (R86). -/
def carryIfAgreed (s : State) (id : Nat) : State :=
  match s.proposal id with
  | none => s
  | some p => if p.accepted = p.required then carry s p else s

/-- A voter's ACCEPT, kept in the order of the masters' numbers (R85). -/
def Proposal.accept (p : Proposal) (m : Master) : Proposal :=
  { p with accepted := allMasters.filter fun x => p.accepted.contains x || x == m }

/-- A voter leaves the required and the accepted set (R89). -/
def Proposal.without (p : Proposal) (m : Master) : Proposal :=
  { p with required := p.required.filter (· != m), accepted := p.accepted.filter (· != m) }

/-- The master `m` stops depending on the target of the open proposal `p`: as its proposer it ends it WITHDRAWN, as a
voter it is removed, which may carry it (R89). -/
def leaveProposal (s : State) (p : Proposal) (m : Master) : State :=
  if p.proposer = m then endProposal s p .withdrawn
  else if p.required.contains m then carryIfAgreed (updateProposal s p.id (·.without m)) p.id
  else s

/-! ### Departure (R97) -/

/-- The proposal `id`, if it is still open, is settled for the departing `m`. -/
def leaveById (m : Master) (s : State) (id : Nat) : State :=
  match s.proposal id with
  | none => s
  | some p => leaveProposal s p m

/-- Inserts into a list in rising order. -/
def insertNat (n : Nat) : List Nat → List Nat
  | [] => [n]
  | x :: xs => if n ≤ x then n :: x :: xs else x :: insertNat n xs

/-- The Consent Unit's part of the departure of `m`: the open proposals in the order of their ids (R97). -/
def consentDeparture (s : State) (m : Master) : State :=
  ((s.consent.proposals.map Proposal.id).foldr insertNat []).foldl (leaveById m) s

end Sys2Proof.Machine
end

