-- ==== Sys2Proof/Machine/Wire.lean ====
section
/-! DEFINITION. The links as byte streams (chapter 10): the check sequence, escaping, the receiver with its statistics
and receive buffer, and the transmitter. Holds the meanings of BROKEN_CHARACTER, FRAME_CLOSE,
FLAG_RECEIVED_WHILE_HUNTING, RESPONSE_TRANSMIT, NOTICE_TRANSMIT and TRANSMISSION_END. -/

namespace Sys2Proof.Machine

/-! ### Check sequence (R153) -/

/-- One bit of the cyclic check: generator x^16+x^12+x^5+1, most significant bit first. -/
def crcBit (c : BitVec 16) : BitVec 16 := if c.msb then (c <<< 1) ^^^ 0x1021 else c <<< 1

/-- One byte of the cyclic check. -/
def crcByte (c : BitVec 16) (b : Byte) : BitVec 16 :=
  crcBit (crcBit (crcBit (crcBit (crcBit (crcBit (crcBit (crcBit (c ^^^ (b.zeroExtend 16 <<< 8)))))))))

/-- The check sequence of a content: initial value 0xFFFF, no reflection and no final exclusive-or (R153). -/
def crc (content : List Byte) : BitVec 16 := content.foldl crcByte 0xFFFF

/-- The check sequence as two bytes, low byte first (R153). -/
def crcBytes (content : List Byte) : List Byte := u16 (crc content).toNat

/-! ### Escaping (R152) -/

def flagChar : Byte := 0xA5
def escChar : Byte := 0xA6

/-- The sender escapes every 0xA5 and 0xA6 of the content and the check sequence (R152). -/
def escapeByte (b : Byte) : List Byte := if b = flagChar ∨ b = escChar then [escChar, b ^^^ 0x20] else [b]

def escape (bs : List Byte) : List Byte := (bs.map escapeByte).flatten

/-- The characters of a frame on the line (R152, R166); with `shared`, the closing flag of the frame before it has
already opened it. -/
def lineChars (shared : Bool) (content : List Byte) : List Byte :=
  (if shared then [] else [flagChar]) ++ escape (content ++ crcBytes content) ++ [flagChar]

/-! ### Statistics (R155) -/

/-- A count that stays at 65535 once it gets there. -/
def bump (n : Nat) : Nat := min (n + 1) 65535

def Link.countAbort (l : Link) : Link := { l with stats := { l.stats with aborts := bump l.stats.aborts } }
def Link.countOverrun (l : Link) : Link := { l with stats := { l.stats with overruns := bump l.stats.overruns } }
def Link.countLength (l : Link) : Link := { l with stats := { l.stats with length := bump l.stats.length } }
def Link.countCrc (l : Link) : Link := { l with stats := { l.stats with crc := bump l.stats.crc } }

/-! ### Receiver (R152, R153) -/

/-- The bound of the receive buffer (R154). -/
def bufferLimit : Nat := 2

/-- The frame of a content of two bytes or more (R166). -/
def frameOf : List Byte → Option Frame
  | k :: tag :: payload => some ⟨k, tag, payload⟩
  | _ => none

/-- The checks of a closed frame's unescaped bytes, in the order of R153: overrun, length, check sequence. -/
def Link.closeFrame (l : Link) (bytes : List Byte) : Link :=
  if bufferLimit ≤ l.buf.length then l.countOverrun
  else if bytes.length < 4 ∨ 42 < bytes.length then l.countLength
  else
    let content := bytes.take (bytes.length - 2)
    if bytes.drop (bytes.length - 2) = crcBytes content then
      match frameOf content with
      | some f => { l with buf := l.buf ++ [f] }
      | none => l
    else l.countCrc

/-- A flag is received (R152): while hunting it opens a frame; after an escape it is an abort; with no byte since the
last flag it is idle fill; otherwise it closes the frame and opens the next. -/
def Link.flag (l : Link) : Link :=
  match l.rx with
  | .hunting => { l with rx := .assembling [] false }
  | .assembling _ true => { l.countAbort with rx := .assembling [] false }
  | .assembling [] false => l
  | .assembling (b :: bs) false => { l.closeFrame (b :: bs) with rx := .assembling [] false }

/-- A character other than a flag is received (R152). -/
def Receiver.character (r : Receiver) (c : Byte) : Receiver :=
  match r with
  | .hunting => .hunting
  | .assembling bytes true => .assembling (bytes ++ [c ^^^ 0x20]) false
  | .assembling bytes false => if c = escChar then .assembling bytes true else .assembling (bytes ++ [c]) false

/-- Any character is received. -/
def Link.character (l : Link) (c : Byte) : Link :=
  if c = flagChar then l.flag else { l with rx := l.rx.character c }

/-- A broken character is received (R152). -/
def Link.broken (l : Link) : Link := { l.countAbort with rx := .hunting }

/-- While RESETn is low every block holds its reset values (R167). -/
def State.receive (s : State) (m : Master) (f : Link → Link) : State :=
  if s.resetLow then s else s.setLink m (f (s.link m))

/-- BROKEN_CHARACTER (R152). -/
def execBrokenCharacter (m : Master) (s : State) : Out := .next (s.receive m Link.broken)

/-- FRAME_CLOSE (R152, R153): the characters, then the flag. -/
def execFrameClose (m : Master) (chars : List Byte) (s : State) : Out :=
  .next (s.receive m fun l => (chars.foldl Link.character l).flag)

/-- FLAG_RECEIVED_WHILE_HUNTING (R152). -/
def execFlagReceivedWhileHunting (m : Master) (s : State) : Out := .next (s.receive m Link.flag)

/-! ### Transmitter (R157) -/

/-- The response may be sent now: its count of notices ahead is 0 (R157). -/
def Link.responseDue (l : Link) : Option Response :=
  match l.slot with
  | none => none
  | some r => if r.ahead = 0 then some r else none

/-- The transmitter has something to send. -/
def Link.hasWork (l : Link) : Bool := l.slot.isSome || !l.queue.isEmpty

/-- The frame with `content` begins transmission at the IRC time `now`. -/
def sendFrame (now : Nat) (shared closing : Bool) (content : List Byte) : Transmitter :=
  .sending content (lineChars shared content) closing (now + charTime * (lineChars shared content).length)

/-- The response begins transmission: the slot empties, and the dropped flag is reported and cleared (R156, R157). -/
def beginResponse (s : State) (m : Master) : State :=
  match (s.link m).tx, (s.link m).responseDue with
  | .free shared, some r =>
    (s.setLink m { s.link m with
        slot := none
        tx := sendFrame s.now shared r.closing (r.content (s.master m).dropped) }).setMaster m
      { s.master m with dropped := false }
  | _, _ => s

/-- The oldest notice begins transmission: it leaves the queue and lowers a count of notices ahead above 0; a response
that may be sent goes first (R157). -/
def beginNotice (s : State) (m : Master) : State :=
  match (s.link m).tx, (s.link m).responseDue, (s.link m).queue with
  | .free shared, none, q :: rest =>
    s.setLink m { s.link m with
      queue := rest
      slot := (s.link m).slot.map fun r => { r with ahead := r.ahead - 1 }
      tx := sendFrame s.now shared q.closing q.notice.content }
  | _, _, _ => s

/-- The frame in transmission is sent to its end, and the transmitter is free; the next frame follows directly when
there is one to send, sharing the flag (R152, R157; log entry 15). -/
def endTransmission (s : State) (m : Master) : State :=
  match (s.link m).tx with
  | .free _ => s
  | .sending _ _ _ ends =>
    (s.reach ends).setLink m { s.link m with tx := .free (s.link m).hasWork }

/-- RESPONSE_TRANSMIT (R157). -/
def execResponseTransmit (m : Master) (s : State) : Out := .next (beginResponse s m)

/-- NOTICE_TRANSMIT (R157). -/
def execNoticeTransmit (m : Master) (s : State) : Out := .next (beginNotice s m)

/-- TRANSMISSION_END (R157). -/
def execTransmissionEnd (m : Master) (s : State) : Out := .next (endTransmission s m)

/-! ### Closing frames of a taken reset (R174) -/

/-- The closing frames of one link that are not done. -/
def Link.closingLeft (l : Link) : Nat :=
  (match l.slot with
    | none => 0
    | some r => r.closing.toNat)
  + (l.queue.filter Queued.closing).length
  + (match l.tx with
    | .free _ => 0
    | .sending _ _ c _ => c.toNat)

/-- The closing frames of all four links that are not done: waiting in a slot or a queue, or in transmission. -/
def State.closingLeft (s : State) : Nat := (allMasters.map fun m => (s.link m).closingLeft).foldl (· + ·) 0

end Sys2Proof.Machine
end

