-- ==== Sys2Proof/Machine/Requests.lean ====
section
/-! DEFINITION. Handling one request (R144, R156, R159): the frame at the head of the receive buffer is taken when the
response slot is empty, has its common effect on the lease, passes the admission checks, goes to its owner, and is
answered in the response slot. -/

namespace Sys2Proof.Machine

/-- The common effect of an intact request from a JOINED or LAPSING master on its lease (R144). -/
def commonEffect (s : State) (m : Master) (f : Frame) : State :=
  if s.joined m then
    s.setMaster m { s.master m with
      state := .joined
      timer := some (s.now + tenMs ((s.master m).period.getD 0))
      latched := none
      last := some (f.kind, f.tag) }
  else s

/-- The admission checks in their order; `none` when the request passes them all (R159). -/
def admission (s : State) (m : Master) (f : Frame) : Option ResultCode :=
  let k := f.kind.toNat
  if !knownKind k then some .unknownKind
  else if !lengthAllowed k f.payload.length then some .malformed
  else if (s.master m).state = .absent ∧ admittedUnjoined k = false then some .notJoined
  else if (s.master m).state = .evicted ∧ admittedUnjoined k = false then some .evicted
  else if s.tbu.state.standbySel.isSome ∧ admittedInStandby k = false then some .standby
  else none

/-- The response is placed in the response slot, behind the notices now in the queue (R156, R157). The response to
the request whose handling took the reset is a closing frame (R174); no request is taken after that. -/
def respond (m : Master) (f : Frame) (r : Reply) : State :=
  r.state.setLink m { r.state.link m with
    slot := some ⟨f.kind, f.tag, r.code, r.payload, (r.state.master m).state, (r.state.link m).queue.length,
      r.state.resetTaken⟩ }

/-- The handling of the frame `f` by its owner (R156). -/
def handle (s : State) (m : Master) (f : Frame) (owner : State → Frame → Reply) : State :=
  let s := commonEffect s m f
  match admission s m f with
  | some c => respond m f (refuse s c)
  | none => respond m f (owner s f)

/-- The frame that the interface of `m` may take for handling: the head of its receive buffer, when the response slot
is empty, no reset has been taken and RESETn is high (R156, R167, R174). -/
def nextRequest (s : State) (m : Master) : Option Frame :=
  if s.resetTaken || s.resetLow || (s.link m).slot.isSome then none else (s.link m).buf.head?

/-- The frame at the head leaves the receive buffer (R154). -/
def popRequest (s : State) (m : Master) : State := s.setLink m { s.link m with buf := (s.link m).buf.tail }

/-- A request command of link `m`: the next frame is taken and handled, if it is one that the command's row names;
otherwise the event does not occur (log entries 1 and 2). -/
def serve (s : State) (m : Master) (row : Frame → Bool) (owner : State → Frame → Reply) : State :=
  match nextRequest s m with
  | none => s
  | some f => if row f then handle (popRequest s m) m f owner else s

/-- The rows whose frames have one kind byte (R160). -/
def kindIs (k : Nat) (f : Frame) : Bool := f.kind.toNat == k

end Sys2Proof.Machine
end

