-- ==== Sys2Proof/Machine/Outputs.lean ====
section
/-! DEFINITION. The requests that name an output (chapters 2 and 3): CHANGE, STOP, START, GROUP_START, CUT and
OUTPUT_SET. -/

namespace Sys2Proof.Machine

/-- The output-number check, first in every request that names one output (R28, R34, R35, R36, R55, R140). -/
def withOutput (s : State) (n : Nat) (act : Output → Reply) : Reply :=
  match outputOf n with
  | none => refuse s .badValue
  | some o => act o

/-- The slot a request would place a reference to: a FIXED slot, or `none` (R11). -/
def fixedSlotOf (s : State) (n : Nat) : Option Slot := (slotOf n).filter s.isFixed

/-- CHANGE from the sole holder, by the output's state (R34, R47). -/
def changeSole (s : State) (m : Master) (tag : Byte) (o : Output) (k : Slot) : Reply :=
  match (s.sq o).state with
  | .idle => okay (bind s o k)
  | .bound => okay (bind s o k)
  | .waiting => okay (bind s o k)
  | .stopping => refuse s .state
  | .running =>
    if s.queueFull o then refuse s .full
    else ⟨appendEntry s o ⟨.change k, some (m, tag), .queued, none⟩, .queued, []⟩

/-- CHANGE (output, slot, window) (R34). -/
def changeRequest (s : State) (m : Master) (f : Frame) : Reply :=
  withOutput s (byteAt f.payload 0) fun o =>
    if !s.isHolder (.out o) m then refuse s .notHolder
    else
      match fixedSlotOf s (byteAt f.payload 1) with
      | none => refuse s .badValue
      | some k =>
        if s.isSole (.out o) m then changeSole s m f.tag o k
        else openProposal s m f.tag (.outputChange o k) (wordAt f.payload 2)

/-- STOP from the sole holder, by the output's state (R35, R48). -/
def stopSole (s : State) (m : Master) (tag : Byte) (o : Output) : Reply :=
  match (s.sq o).state with
  | .running =>
    if s.queueFull o then refuse s .full
    else ⟨appendEntry s o ⟨.stop, some (m, tag), .queued, none⟩, .queued, []⟩
  | .waiting => okay (returnToBound s o)
  | .idle => refuse s .state
  | .bound => refuse s .state
  | .stopping => refuse s .state

/-- STOP (output, window) (R35). -/
def stopRequest (s : State) (m : Master) (f : Frame) : Reply :=
  withOutput s (byteAt f.payload 0) fun o =>
    if !s.isHolder (.out o) m then refuse s .notHolder
    else if s.isSole (.out o) m then stopSole s m f.tag o
    else openProposal s m f.tag (.outputStop o) (wordAt f.payload 1)

/-- START naming one output (R28). -/
def startRequest (s : State) (m : Master) (f : Frame) : Reply :=
  if byteAt f.payload 0 ≠ 0 then refuse s .badValue
  else
    withOutput s (byteAt f.payload 1) fun o =>
      if !s.isHolder (.out o) m then refuse s .notHolder
      else if !s.isSole (.out o) m then openProposal s m f.tag (.outputStart o) (wordAt f.payload 2)
      else if (s.sq o).state = .bound then okay (enterWaiting s o)
      else refuse s .state

/-- Outputs enter WAITING together and those in `starting` start in the same event; each hands its OUTPUT_STATE for
WAITING and then for RUNNING, output by output (R32). -/
def handMoves (s : State) (moved starting : List Output) : State :=
  allOutputs.foldl (fun s o =>
    let s := if moved.contains o then outputNotice s o .bound else s
    if starting.contains o then startOne s o else s) s

/-- The members of a group that a group start moves: in BOUND, with the requester as sole holder (R32). -/
def groupMovers (s : State) (m : Master) (g : Group) : List Output :=
  allOutputs.filter fun o => (s.sq o).group == some g && (s.sq o).state == .bound && s.isSole (.out o) m

/-- Outputs enter WAITING, with no notice yet. -/
def setWaiting (s : State) (os : List Output) : State :=
  os.foldl (fun s o => s.setSq o { s.sq o with state := .waiting }) s

/-- A set of outputs, one byte with bit n for output Tn (R161). -/
def outputSet (os : List Output) : List Byte := u8 ((os.map fun o => 2 ^ o.val).foldl (· + ·) 0)

/-- The move of R32: all members move in the same event and are then examined together. -/
def groupMove (s : State) (moved : List Output) : State :=
  let s := setWaiting s moved
  handMoves s moved (s.startSet [])

/-- START naming a group (R32). -/
def groupStartRequest (s : State) (m : Master) (f : Frame) : Reply :=
  if byteAt f.payload 0 ≠ 1 then refuse s .badValue
  else
    match coded 4 (byteAt f.payload 1) with
    | none => refuse s .badValue
    | some g =>
      let moved := groupMovers s m g
      if moved = [] then refuse s .state else ⟨groupMove s moved, .ok, outputSet moved⟩

/-- CUT (output, slot): the checks in their order, and the pending cut; an earlier one is dropped SUPERSEDED (R55,
R56). -/
def cutRequest (s : State) (m : Master) (f : Frame) : Reply :=
  withOutput s (byteAt f.payload 0) fun o =>
    if !s.isHolder (.out o) m then refuse s .notHolder
    else if !s.isSole (.out o) m then refuse s .notSole
    else
      match fixedSlotOf s (byteAt f.payload 1) with
      | none => refuse s .badValue
      | some k =>
        if (s.sq o).state ≠ .running then refuse s .state
        else
          let s := dropCut s o .superseded
          ⟨s.setSq o { s.sq o with cut := some ⟨k, m, f.tag⟩ }, .queued, []⟩

/-- A polarity given by OUTPUT_SET (R37): at once when the output does not run, else pending until a frame start. -/
def OutRec.setPolarity (r : OutRec) (p : Polarity) : OutRec :=
  if r.runs then
    if p = r.polarity then { r with pendingPol := none } else { r with pendingPol := some p }
  else { r with polarity := p, pendingPol := none }

/-- The group field asks for a change of the group (R36, step 4). -/
def groupChanges (r : OutRec) : GroupArg → Bool
  | .keep => false
  | .set g => g != r.group

def OutRec.setGroup (r : OutRec) : GroupArg → OutRec
  | .keep => r
  | .set g => { r with group := g }

def OutRec.applySet (r : OutRec) (g : GroupArg) (p : Option Polarity) : OutRec :=
  match p with
  | none => r.setGroup g
  | some p => (r.setGroup g).setPolarity p

/-- OUTPUT_SET (output, group, polarity) (R36). -/
def outputSetRequest (s : State) (m : Master) (f : Frame) : Reply :=
  withOutput s (byteAt f.payload 0) fun o =>
    match groupOf (byteAt f.payload 1), polarityOf (byteAt f.payload 2) with
    | some g, some p =>
      let r := s.sq o
      if !s.isHolder (.out o) m then refuse s .notHolder
      else if !s.isSole (.out o) m then refuse s .notSole
      else if groupChanges r g && r.state != .idle && r.state != .bound then refuse s .state
      else okay (s.setSq o (r.applySet g p))
    | _, _ => refuse s .badValue

/-! ### Rows -/

/-- A frame of kind START whose form byte is not 1: the row START (R28); one whose form byte is not 0: the row
GROUP_START (R32). A frame that names neither form is answered alike under both (log entry 21). -/
def startRow (f : Frame) : Bool := kindIs 0x0E f && byteAt f.payload 0 != 1
def groupStartRow (f : Frame) : Bool := kindIs 0x0E f && (byteAt f.payload 0 != 0 || f.payload.isEmpty)

/-- CHANGE (R34). -/
def execChange (m : Master) (s : State) : Out := .next (serve s m (kindIs 0x0C) fun s f => changeRequest s m f)

/-- STOP (R35). -/
def execStop (m : Master) (s : State) : Out := .next (serve s m (kindIs 0x0D) fun s f => stopRequest s m f)

/-- START (R28). -/
def execStart (m : Master) (s : State) : Out := .next (serve s m startRow fun s f => startRequest s m f)

/-- GROUP_START (R32). -/
def execGroupStart (m : Master) (s : State) : Out :=
  .next (serve s m groupStartRow fun s f => groupStartRequest s m f)

/-- CUT (R55). -/
def execCut (m : Master) (s : State) : Out := .next (serve s m (kindIs 0x0F) fun s f => cutRequest s m f)

/-- OUTPUT_SET (R36). -/
def execOutputSet (m : Master) (s : State) : Out := .next (serve s m (kindIs 0x10) fun s f => outputSetRequest s m f)

end Sys2Proof.Machine
end

