-- ==== Sys2Proof/Machine/Bursts.lean ====
section
/-! DEFINITION. The burst requests (chapter 8): BURST and BURST_END. -/

namespace Sys2Proof.Machine

/-- The burst that a taken BURST begins: ARMED, its counts 0 (R135). -/
def newBurst (m : Master) (tag : Byte) (start : StartPoint) (p : Pattern) : Burst := ⟨p, m, tag, start, .armed, 0, 0, 0⟩

/-- Steps 2 to 8 of R135. -/
def burstTake (s : State) (m : Master) (tag : Byte) (o : Output) (start : StartPoint) (p : Pattern) : Reply :=
  if !s.isHolder (.out o) m then refuse s .notHolder
  else if !s.isSole (.out o) m then refuse s .notSole
  else if (s.sq o).state ≠ .running then refuse s .state
  else if (s.burst o).isSome then refuse s .busy
  else if !lineOk p (s.geom o) then refuse s .badValue
  else if !dutyOk p (s.geom o) then refuse s .duty
  else okay (s.setBurst o (some (newBurst m tag start p)))

/-- BURST (output, kind, start point, pattern) (R135). -/
def burstRequest (s : State) (m : Master) (f : Frame) : Reply :=
  withOutput s (byteAt f.payload 0) fun o =>
    match startPointOf (byteAt f.payload 2), patternOf (byteAt f.payload 1) f.payload 3 with
    | some start, some p => burstTake s m f.tag o start p
    | _, _ => refuse s .badValue

/-- BURST_END (output) (R140). -/
def burstEndRequest (s : State) (m : Master) (f : Frame) : Reply :=
  withOutput s (byteAt f.payload 0) fun o =>
    match s.burst o with
    | none => refuse s .state
    | some b =>
      if b.origin = m ∨ s.isSole (.out o) m then okay (finishBurst s o b .ended)
      else if !s.isHolder (.out o) m then refuse s .notHolder
      else refuse s .notSole

/-- BURST (R135). -/
def execBurst (m : Master) (s : State) : Out := .next (serve s m (kindIs 0x11) fun s f => burstRequest s m f)

/-- BURST_END (R140). -/
def execBurstEnd (m : Master) (s : State) : Out := .next (serve s m (kindIs 0x12) fun s f => burstEndRequest s m f)

end Sys2Proof.Machine
end

