-- ==== Sys2Proof/Machine/Claims.lean ====
section
/-! DEFINITION. The Claim Table (chapter 4): CLAIM, CLAIM_SET and RELEASE, the settling of a record that its last holder
has left, and the table's part of a departure. -/

namespace Sys2Proof.Machine

/-! ### Claiming (R66 to R69) -/

/-- The fields of a CLAIM payload after its target, as decoded: the level and the policy of an output (R66). -/
structure ClaimArgs where
  exclusive : Bool
  level : ReportLevel
  policy : PolicyCode
  slot : Nat
  window : Nat

/-- The checks of R66, step 2: the level and the policy are examined for an output only. -/
def claimArgs (t : Target) (p : List Byte) : Option ClaimArgs :=
  match modeOf (byteAt p 1) with
  | none => none
  | some excl =>
    match t with
    | .tb => some ⟨excl, .none, .keep, 0, wordAt p 5⟩
    | .out _ =>
      match levelOf (byteAt p 2), policyOf (byteAt p 3) with
      | some level, some policy => some ⟨excl, level, policy, byteAt p 4, wordAt p 5⟩
      | _, _ => none

def claimMode (exclusive : Bool) : ClaimMode := if exclusive then .exclusive else .shared

/-- The policy a request names, its fallback slot being a FIXED one; `none` where that slot is refused (R11, R66). -/
def policyFor (s : State) (c : PolicyCode) (n : Nat) : Option Policy :=
  match c with
  | .keep => some .keep
  | .stop => some .stop
  | .fallback => (fixedSlotOf s n).map .fallback

def Policy.slot : Policy → Option Slot
  | .keep => none
  | .stop => none
  | .fallback k => some k

/-- A FREE record is taken (R66). -/
def claimFree (s : State) (m : Master) (t : Target) (a : ClaimArgs) : Reply :=
  match policyFor s a.policy a.slot with
  | none => refuse s .badValue
  | some pol => okay ((addRefOpt s pol.slot).setClaim t ⟨claimMode a.exclusive, [⟨m, a.level⟩], pol⟩)

/-- A new holder joins the list at its tail (R64). -/
def appendHolder (s : State) (t : Target) (m : Master) (level : ReportLevel) : State :=
  s.setClaim t { s.claim t with holders := (s.claim t).holders ++ [⟨m, level⟩] }

/-- The report level of a holder is replaced; it keeps its place (R68). -/
def setLevel (s : State) (t : Target) (m : Master) (level : ReportLevel) : State :=
  s.setClaim t { s.claim t with
    holders := (s.claim t).holders.map fun h => if h.master = m then { h with level := level } else h }

def setMode (s : State) (t : Target) (mode : ClaimMode) : State := s.setClaim t { s.claim t with mode := mode }

/-- A CLAIM asking EXCLUSIVE goes to the Consent Unit; `joined` is what follows once the proposal is open (R67, R68). -/
def claimByConsent (s : State) (m : Master) (tag : Byte) (t : Target) (a : ClaimArgs) (joined : State → State) :
    Reply :=
  let r := openProposal s m tag (.claimExclusive t) a.window
  if r.code = .proposed then { r with state := joined r.state } else r

/-- CLAIM on a SHARED record (R67, R68). -/
def claimShared (s : State) (m : Master) (tag : Byte) (t : Target) (a : ClaimArgs) : Reply :=
  if s.isHolder t m then
    if !a.exclusive then okay (setLevel s t m a.level)
    else if s.isSole t m then okay (setLevel (setMode s t .exclusive) t m a.level)
    else claimByConsent s m tag t a fun s => setLevel s t m a.level
  else if !a.exclusive then okay (appendHolder s t m a.level)
  else claimByConsent s m tag t a fun s => appendHolder s t m a.level

/-- CLAIM on an EXCLUSIVE record (R69). -/
def claimExclusive (s : State) (m : Master) (t : Target) (a : ClaimArgs) : Reply :=
  if s.isHolder t m then okay (setLevel (setMode s t (claimMode a.exclusive)) t m a.level) else refuse s .claimed

/-- CLAIM (target, mode, report level, orphan policy, fallback, window) (R66). -/
def claimRequest (s : State) (m : Master) (f : Frame) : Reply :=
  match targetOf (byteAt f.payload 0) with
  | none => refuse s .badValue
  | some t =>
    match claimArgs t f.payload with
    | none => refuse s .badValue
    | some a =>
      match (s.claim t).mode with
      | .free => claimFree s m t a
      | .shared => claimShared s m f.tag t a
      | .exclusive => claimExclusive s m t a

/-! ### Setting the orphan policy (R71) -/

/-- The policy of a record is replaced; the new reference is placed before the former one is dropped (R11, R71). -/
def setPolicy (s : State) (t : Target) (pol : Policy) : State :=
  ((addRefOpt s pol.slot).dropRefOpt (s.claim t).policy.slot).setClaim t { s.claim t with policy := pol }

/-- CLAIM_SET (target, orphan policy, fallback) (R71). -/
def claimSetRequest (s : State) (m : Master) (f : Frame) : Reply :=
  withOutput s (byteAt f.payload 0) fun o =>
    match policyOf (byteAt f.payload 1) with
    | none => refuse s .badValue
    | some c =>
      if !s.isHolder (.out o) m then refuse s .notHolder
      else if !s.isSole (.out o) m then refuse s .notSole
      else
        match policyFor s c (byteAt f.payload 2) with
        | none => refuse s .badValue
        | some pol => okay (setPolicy s (.out o) pol)

/-! ### The last holder (R73 to R75) -/

/-- The policy STOP acts on the output (R74). -/
def orphanStop (s : State) (o : Output) : State :=
  match (s.sq o).state with
  | .running => orphanAppend s o .stop
  | .waiting => returnToBound s o
  | .stopping => s
  | .idle => s
  | .bound => s

/-- The policy FALLBACK brings the output onto the slot `k` (R75). -/
def orphanFallback (s : State) (o : Output) (k : Slot) : State :=
  match (s.sq o).state with
  | .running => orphanAppend s o (.change k)
  | .stopping => orphanAppend s o (.change k)
  | .idle => bind s o k
  | .bound => bind s o k
  | .waiting => bind s o k

/-- The orphan policy of an output's record is applied to the output (R74, R75). -/
def applyPolicy (s : State) (o : Output) : Policy → State
  | .keep => s
  | .stop => orphanStop s o
  | .fallback k => orphanFallback s o k

/-- A record whose list has become empty is settled: the policy first, then FREE (R73). -/
def settle (s : State) (t : Target) : State :=
  let pol := (s.claim t).policy
  let s :=
    match t with
    | .tb => s
    | .out o => applyPolicy s o pol
  (s.setClaim t .reset).dropRefOpt pol.slot

/-! ### Releasing (R72) and departure (R76) -/

/-- The removal of `m` is handed to the Consent Unit for the proposal open on the target (R72, R89). -/
def releaseProposal (s : State) (t : Target) (m : Master) : State :=
  match s.proposalOn (some t) with
  | none => s
  | some p => leaveProposal s p m

/-- The holder `m` is removed from a target, as by RELEASE (R72). -/
def removeHolder (s : State) (t : Target) (m : Master) : State :=
  let s := s.setClaim t { s.claim t with holders := (s.claim t).holders.filter fun h => h.master != m }
  let s := releaseProposal s t m
  if (s.claim t).holders = [] then settle s t else s

/-- RELEASE (target) (R72). -/
def releaseRequest (s : State) (m : Master) (f : Frame) : Reply :=
  match targetOf (byteAt f.payload 0) with
  | none => refuse s .badValue
  | some t => if s.isHolder t m then okay (removeHolder s t m) else refuse s .notHolder

/-- The nine targets in the order of R76. -/
def allTargets : List Target := allOutputs.map .out ++ [.tb]

/-- The Claim Table's part of the departure of `m` (R76). -/
def claimsDeparture (s : State) (m : Master) : State :=
  allTargets.foldl (fun s t => if s.isHolder t m then removeHolder s t m else s) s

/-- CLAIM (R66). -/
def execClaim (m : Master) (s : State) : Out := .next (serve s m (kindIs 0x09) fun s f => claimRequest s m f)

/-- CLAIM_SET (R71). -/
def execClaimSet (m : Master) (s : State) : Out := .next (serve s m (kindIs 0x0A) fun s f => claimSetRequest s m f)

/-- RELEASE (R72). -/
def execRelease (m : Master) (s : State) : Out := .next (serve s m (kindIs 0x0B) fun s f => releaseRequest s m f)

end Sys2Proof.Machine
end

