-- ==== Sys2Proof/Machine/Detectors.lean ====
section
/-! DEFINITION. The reference detectors (chapter 7): the result of a gate, the moves of a detector, and what it hands to
the masters and to the Timebase Unit. Holds the meaning of GATE_COMPLETION. -/

namespace Sys2Proof.Machine

/-- The source table entry whose frequency, thresholds and qualify count a detector reads (R121). -/
def SourceTable.ref (t : SourceTable) : Detector → RefEntry
  | .da => t.exa
  | .db => t.exb

/-! ### The result of a gate (R122) -/

/-- The result of a gate timed by XO: `f` and `xoFreq` are declared frequencies in kHz. The deviation is rounded toward
zero and then compared (log entry 22). -/
def xoTimed (f xoFreq edges xoCycles : Nat) : Deviation :=
  if edges = 0 then .noEdges
  else
    let d := Int.tdiv (((edges * xoFreq : Nat) - (f * xoCycles : Nat) : Int) * 1000000) (f * xoCycles : Nat)
    if d < -50000 ∨ 50000 < d then .outOfRange else .ppm d

/-- The result of a gate timed by IRC: the edges of 10 ms lie within 5 percent of the declared `f` kHz, which is 10 f
edges. -/
def ircTimed (f edges : Nat) : Deviation :=
  if edges = 0 then .noEdges
  else if 95 * (10 * f) ≤ 100 * edges ∧ 100 * edges ≤ 105 * (10 * f) then .ppm 0
  else .outOfRange

/-- How a completed gate was timed: by XO when the XO was READY for the whole of it and gave a cycle. -/
def gateTiming (d : DetRec) (xoCycles : Nat) : GateTiming := if d.xoThroughout ∧ 1 ≤ xoCycles then .xo else .irc

def gateResult (t : SourceTable) (d : Detector) (timing : GateTiming) (edges xoCycles : Nat) : Deviation :=
  match timing with
  | .xo => xoTimed (t.ref d).freq t.xo.freq edges xoCycles
  | .irc => ircTimed (t.ref d).freq edges

/-! ### The moves of a detector (R123) -/

/-- A deviation lies within a threshold. -/
def Deviation.within (v : Deviation) (threshold : Nat) : Bool :=
  match v with
  | .ppm d => decide (d.natAbs ≤ threshold)
  | .noEdges => false
  | .outOfRange => false

/-- The new state and good count at a gate completion (the table of R123). -/
def detMove (e : RefEntry) (st : DetState) (good : Nat) (v : Deviation) : DetState × Nat :=
  match st with
  | .absent =>
    if v.within e.on then (if e.qualify ≤ 1 then (.present, 1) else (.qualifying, 1)) else (.absent, 0)
  | .qualifying =>
    if v.within e.on then (if e.qualify ≤ good + 1 then (.present, e.qualify) else (.qualifying, good + 1))
    else (.absent, 0)
  | .present => if v.within e.off then (.present, good) else (.absent, 0)

/-! ### What a detector hands on (R124) -/

/-- The REFERENCE notice, to the holders of TB. -/
def referenceNotice (s : State) (d : Detector) (cause : RefCause) : State :=
  let r := s.det d
  s.handAll (s.holders .tb) (.reference d (r.state == .present) cause r.dev r.timing r.good)

/-- The detector has entered PRESENT (`entered`) or left it: the notice, then the Timebase Unit's part. -/
def presenceChanged (s : State) (d : Detector) (cause : RefCause) (entered : Bool) : State :=
  let s := referenceNotice s d cause
  if entered then sourceBecomesReady s (detSource d) else referenceAbsent s (detSource d)

/-- A gate in progress completes with its counts, and the next begins at that instant (R122, R123). -/
def gateCompletes (s : State) (d : Detector) (edges xoCycles : Nat) : State :=
  let r := s.det d
  let s := s.reach (r.gateStart + gateTime)
  let timing := gateTiming r xoCycles
  let v := gateResult s.table d timing edges xoCycles
  let mv := detMove (s.table.ref d) r.state r.good v
  let s := s.setDet d ⟨mv.1, mv.2, some v, some timing, r.gateStart + gateTime, s.tbu.xo == .ready⟩
  if (r.state == .present) == (mv.1 == .present) then s else presenceChanged s d .gate (mv.1 == .present)

/-- A SOURCE_SET returns the detector to ABSENT and discards the gate in progress (R125). -/
def detectorRestart (s : State) (d : Detector) : State :=
  let was := (s.det d).state
  let s := s.setDet d ⟨.absent, 0, none, none, s.now, s.tbu.xo == .ready⟩
  if was = .present then presenceChanged s d .sourceSet false else s

/-- GATE_COMPLETION (R123). While RESETn is low no gate runs (R121, R167). -/
def execGateCompletion (d : Detector) (edges xoCycles : Nat) (s : State) : Out :=
  .next (if s.resetLow then s else gateCompletes s d edges xoCycles)

end Sys2Proof.Machine
end

