-- ==== Sys2Proof/Machine/Clock.lean ====
section
/-! DEFINITION. The timebase requests (chapter 6): CLOCK, SOURCE_SET and SELECT_LOCK. -/

namespace Sys2Proof.Machine

/-- CLOCK (selection, P, M, Q, align output, window) (R110). A proposal carries the selection and the align output that
the checks passed. -/
def clockRequest (s : State) (m : Master) (f : Frame) : Reply :=
  let p := f.payload
  let sel := selectionOf (byteAt p 0) (byteAt p 1) (wordAt p 2) (byteAt p 4)
  let align := alignOf (byteAt p 5)
  if !s.isHolder .tb m then refuse s .notHolder
  else
    match clockCheck s sel align with
    | some c => refuse s c
    | none =>
      match sel, align with
      | some sel, some align =>
        if s.isSole .tb m then okay (takeClock s sel align (.master m f.tag))
        else openProposal s m f.tag (.clockChange sel align) (wordAt p 6)
      | _, _ => refuse s .badValue

/-! ### SOURCE_SET (R103, R125) -/

/-- The requester is the sole holder of TB, or TB is FREE (R103, step 2). -/
def maySetSource (s : State) (m : Master) : Bool := (s.claim .tb).mode == .free || s.isSole .tb m

/-- The XO's entry as requested, with its frequency in range (R102). -/
def xoEntryOf (p : List Byte) : Option XoEntry :=
  let freq := wordAt p 1
  if 8000 ≤ freq ∧ freq ≤ 40000 then some ⟨freq, byteAt p 3 != 0⟩ else none

/-- A reference's entry as requested, with every field in range (R102). -/
def refEntryOf (p : List Byte) : Option RefEntry :=
  let e : RefEntry := ⟨wordAt p 1, wordAt p 4, wordAt p 6, byteAt p 8⟩
  if 500 ≤ e.freq ∧ e.freq ≤ 60000 ∧ 10 ≤ e.on ∧ e.on ≤ 5000 ∧ e.on ≤ e.off ∧ e.off ≤ 10000
      ∧ 1 ≤ e.qualify ∧ e.qualify ≤ 15
  then some e else none

/-- The XO's entry is replaced: a changed frequency makes its lock context invalid, and the keep-running flag may start
or stop it (R103). -/
def setXoEntry (s : State) (e : XoEntry) : State :=
  let changed := e.freq != s.table.xo.freq
  let s := { s with table := { s.table with xo := e } }
  settleXo (if changed then setContext s .xo none else s)

/-- A reference's entry is replaced; a changed one returns its detector to ABSENT (R125). -/
def setRefEntry (s : State) (d : Detector) (e : RefEntry) : State :=
  if e = s.table.ref d then s
  else
    let table : SourceTable :=
      match d with
      | .da => { s.table with exa := e }
      | .db => { s.table with exb := e }
    detectorRestart { s with table := table } d

def sourceSetRef (s : State) (m : Master) (d : Detector) (p : List Byte) : Reply :=
  if !maySetSource s m then refuse s .notSole
  else if s.tbu.lock.isSome then refuse s .locked
  else
    match refEntryOf p with
    | none => refuse s .badValue
    | some e => okay (setRefEntry s d e)

def sourceSetXo (s : State) (m : Master) (p : List Byte) : Reply :=
  if !maySetSource s m then refuse s .notSole
  else if s.tbu.lock.isSome then refuse s .locked
  else
    match xoEntryOf p with
    | none => refuse s .badValue
    | some e => okay (setXoEntry s e)

/-- SOURCE_SET (source, frequency, keep-running, thresholds, qualify count) (R103). -/
def sourceSetRequest (s : State) (m : Master) (f : Frame) : Reply :=
  match sourceOf (byteAt f.payload 0) with
  | none => refuse s .badValue
  | some .irc => refuse s .badValue
  | some .xo => sourceSetXo s m f.payload
  | some .exa => sourceSetRef s m .da f.payload
  | some .exb => sourceSetRef s m .db f.payload

/-- SELECT_LOCK (R118). -/
def selectLockRequest (s : State) (m : Master) : Reply :=
  if !s.isSole .tb m then refuse s .notSole
  else if s.straps.fse then refuse s .state
  else if s.tbu.lock.isSome then refuse s .locked
  else
    match s.tbu.state with
    | .running cur => okay (s.setTbu { s.tbu with lock := some cur })
    | _ => refuse s .state

/-- CLOCK (R110). -/
def execClock (m : Master) (s : State) : Out := .next (serve s m (kindIs 0x13) fun s f => clockRequest s m f)

/-- SOURCE_SET (R103). -/
def execSourceSet (m : Master) (s : State) : Out := .next (serve s m (kindIs 0x14) fun s f => sourceSetRequest s m f)

/-- SELECT_LOCK (R118). -/
def execSelectLock (m : Master) (s : State) : Out := .next (serve s m (kindIs 0x15) fun s _ => selectLockRequest s m)

end Sys2Proof.Machine
end

