-- ==== Sys2Proof/Machine/Profiles.lean ====
section
/-! DEFINITION. The profile requests (chapter 1): PROFILE_WRITE, PROFILE_FIX, PROFILE_FREE and PROFILE_READ. -/

namespace Sys2Proof.Machine

/-- BAD_VALUE to a profile request carries the number of the failing field (R4, R161). -/
def badField (s : State) (n : Nat) : Reply := ⟨s, .badValue, u8 n⟩

/-- The slot-number check every profile request makes first (R4). -/
def withSlot (s : State) (f : Frame) (act : Slot → Reply) : Reply :=
  match slotOf (byteAt f.payload 0) with
  | none => badField s 0
  | some k => act k

/-- The geometry fields of a PROFILE_WRITE payload, as given (R5, R160). -/
def geometryOf (p : List Byte) : Geometry :=
  ⟨wordAt p 1, wordAt p 3, wordAt p 5, byteAt p 7, wordAt p 8, wordAt p 10, byteAt p 12, byteAt p 13⟩

/-- The LABEL: every payload byte after the first 14; absent when there is none (R1, R160). -/
def labelOf (p : List Byte) : Option (List Byte) := if p.drop 14 = [] then none else some (p.drop 14)

/-- PROFILE_WRITE by the state of the slot (R5). -/
def profileWrite (s : State) (m : Master) (f : Frame) : Reply :=
  withSlot s f fun k =>
    let draft : State :=
      s.setSlot k ⟨.openSlot, some m, 0, geometryOf f.payload, labelOf f.payload⟩
    match (s.slot k).state with
    | .emptySlot => okay draft
    | .openSlot => if (s.slot k).owner = some m then okay draft else refuse s .notOwner
    | .fixedSlot => refuse s .state

/-- The checks of PROFILE_FIX in their order: the number of the first field that fails (R7). -/
def firstBadField (g : Geometry) : Option Nat :=
  if g.lp < 64 then some 1
  else if g.lsw < 1 ∨ g.lp / 2 < g.lsw then some 2
  else if g.lf < 32 ∨ 16383 < g.lf then some 3
  else if g.fsw < 1 ∨ 8 < g.fsw then some 4
  else if g.ws < g.fsw then some 5
  else if g.wh < 8 ∨ g.lf < g.ws + g.wh then some 6
  else if g.fd < 1 ∨ 16 < g.fd then some 7
  else if g.dc < 1 ∨ 100 < g.dc then some 8
  else none

/-- PROFILE_FIX (R6). -/
def profileFix (s : State) (m : Master) (f : Frame) : Reply :=
  withSlot s f fun k =>
    match (s.slot k).state with
    | .emptySlot => refuse s .state
    | .fixedSlot => refuse s .state
    | .openSlot =>
      if (s.slot k).owner = some m then
        match firstBadField (s.slot k).geom with
        | some n => badField s n
        | none => okay (s.setSlot k { s.slot k with state := .fixedSlot })
      else refuse s .notOwner

/-- A pending cut of some output names the slot (R8, condition 5). -/
def cutNames (s : State) (k : Slot) : Bool := allOutputs.any fun o => (s.sq o).cut.map PendingCut.slot == some k

/-- PROFILE_FREE: the conditions in their order (R8). -/
def profileFree (s : State) (m : Master) (f : Frame) : Reply :=
  withSlot s f fun k =>
    let r := s.slot k
    if r.state = .emptySlot then refuse s .state
    else if r.owner.isSome ∧ r.owner ≠ some m then refuse s .notOwner
    else if r.state = .openSlot then okay (s.setSlot k .reset)
    else if 0 < r.refs then refuse s .inUse
    else if cutNames s k then refuse s .inUse
    else okay (s.setSlot k .reset)

/-- PROFILE_READ (R9). -/
def profileRead (s : State) (f : Frame) : Reply :=
  withSlot s f fun k => ⟨s, .ok, profileBytes k (s.slot k)⟩

/-- The Profile Table's part of the departure of `m`: its OPEN slots are emptied, its FIXED slots become ownerless
(R13). -/
def SlotRec.depart (r : SlotRec) (m : Master) : SlotRec :=
  if r.owner = some m then
    match r.state with
    | .openSlot => .reset
    | .fixedSlot => { r with owner := none }
    | .emptySlot => r
  else r

def profileDeparture (s : State) (m : Master) : State :=
  allSlots.foldl (fun s k => s.setSlot k ((s.slot k).depart m)) s

/-- A slot at consented reset: FIXED stays, ownerless and without references; every other becomes EMPTY (R15). -/
def SlotRec.keepFixed (r : SlotRec) : SlotRec :=
  match r.state with
  | .fixedSlot => { r with owner := none, refs := 0 }
  | .openSlot => .reset
  | .emptySlot => .reset

/-- PROFILE_WRITE (R5). -/
def execProfileWrite (m : Master) (s : State) : Out := .next (serve s m (kindIs 0x05) fun s f => profileWrite s m f)

/-- PROFILE_FIX (R6). -/
def execProfileFix (m : Master) (s : State) : Out := .next (serve s m (kindIs 0x06) fun s f => profileFix s m f)

/-- PROFILE_FREE (R8). -/
def execProfileFree (m : Master) (s : State) : Out := .next (serve s m (kindIs 0x07) fun s f => profileFree s m f)

/-- PROFILE_READ (R9). -/
def execProfileRead (m : Master) (s : State) : Out := .next (serve s m (kindIs 0x08) profileRead)

end Sys2Proof.Machine
end

