-- ==== Sys2Proof/Machine/Leases.lean ====
section
/-! DEFINITION. The Lease Monitor (chapter 9): JOIN, LEAVE, KEEPALIVE, the requests of unknown kind, the departure of a
master, and the expiry of a lease. -/

namespace Sys2Proof.Machine

/-! ### Joining (R145) -/

/-- The record of a master that joins, or that sends another JOIN, with a period in its range (R145). -/
def MasterRec.join (r : MasterRec) (period timer : Nat) (f : Frame) : MasterRec :=
  if r.isJoined then { r with period := some period, timer := some timer }
  else { r with state := .joined, period := some period, timer := some timer, last := some (f.kind, f.tag),
                latched := none }

/-- JOIN (period) (R145). -/
def joinRequest (s : State) (m : Master) (f : Frame) : Reply :=
  let period := byteAt f.payload 0
  if 5 ≤ period ∧ period ≤ 250 then okay (s.setMaster m ((s.master m).join period (s.now + tenMs period) f))
  else refuse s .badValue

/-! ### Departure (R149, R150) -/

/-- A part of step 1 of a departure; a queue or a strobe part belongs to one output. -/
inductive Part where
  | claims
  | consent
  | queue (o : Output)
  | profiles
  | strobe (o : Output)
  deriving DecidableEq, Repr

/-- The parts in the order R149 names them. -/
def allParts : List Part :=
  [.claims, .consent] ++ allOutputs.map .queue ++ [.profiles] ++ allOutputs.map .strobe

def runPart (m : Master) (s : State) : Part → State
  | .claims => claimsDeparture s m
  | .consent => consentDeparture s m
  | .queue o => queueDeparture s o m
  | .profiles => profileDeparture s m
  | .strobe o => strobeDeparture s o m

/-- Inserts a ranked part behind those of equal or lower rank. -/
def insertPart (p : Nat × Part) : List (Nat × Part) → List (Nat × Part)
  | [] => [p]
  | q :: qs => if p.1 < q.1 then p :: q :: qs else q :: insertPart p qs

/-- The parts in the order of this departure. The manual lets them be applied in any order among themselves (R149);
the free list `State.partRank` gives each its rank, the i-th part of `allParts` rank i where the list is short. Where a
proposal that the departure carries meets the work of another part, more than the order of notices follows from it,
though R97 and R149 say otherwise: log entry 9 names the cases. -/
def departureOrder (rank : List Nat) : List Part :=
  ((allParts.zipIdx.map fun pi => (rank.getD pi.2 pi.2, pi.1)).foldl (fun l p => insertPart p l) []).map Prod.snd

/-- The interface's part of a departure (R149, step 2; R158). -/
def flushLink (s : State) (m : Master) : State :=
  let l := s.link m
  (s.setLink m { l with queue := [], slot := l.slot.map fun r => { r with ahead := 0 } }).setMaster m
    { s.master m with dropped := false }

/-- The record of a master that has departed (R150). -/
def MasterRec.depart (r : MasterRec) : DepartReason → MasterRec
  | .left => { r with state := .absent, period := none, timer := none, latched := none }
  | .evicted => { r with state := .evicted, timer := none }

/-- The EVICTED notice of its own eviction is queued although the master is no longer joined (R158). -/
def evictedNotice (s : State) (m : Master) : State :=
  let n : Notice := .evicted (s.master m).latched ((s.master m).period.getD 0)
  s.setLink m { s.link m with queue := (s.link m).queue ++ [⟨n, false⟩] }

/-- The Lease Monitor's own part of a departure (R150). -/
def monitorPart (s : State) (m : Master) (reason : DepartReason) : State :=
  let s := s.setMaster m ((s.master m).depart reason)
  let s :=
    match reason with
    | .left => s
    | .evicted => evictedNotice s m
  s.handAll (s.joinedMasters.filter (· != m)) (.departed m reason (s.master m).latched)

/-- The departure of `m` (R149). The order of the parts of step 1 is free, and where they meet on one output, burst, cut
or timebase it decides how that ends (`departureOrder`, log entry 9). -/
def depart (s : State) (m : Master) (reason : DepartReason) : State :=
  monitorPart (flushLink ((departureOrder s.partRank).foldl (runPart m) s) m) m reason

/-- LEAVE (R146): the response is placed after the departure. -/
def leaveRequest (s : State) (m : Master) : Reply := okay (depart s m .left)

/-! ### Expiry (R147, R148) -/

/-- The first expiry, of a master in JOINED, at the instant `t` (R147). -/
def firstExpiry (s : State) (m : Master) (t : Nat) : State :=
  let s := s.reach t
  let r := s.master m
  let period := r.period.getD 0
  (s.setMaster m { r with state := .lapsing, latched := r.last, timer := some (s.now + tenMs period) }).hand m
    (.leaseWarning r.last period)

/-- IRC time reaches the lease timer of `m` (R147, R148). -/
def leaseExpires (s : State) (m : Master) : State :=
  match (s.master m).timer with
  | none => s
  | some t =>
    match (s.master m).state with
    | .joined => firstExpiry s m t
    | .lapsing => depart (s.reach t) m .evicted
    | .absent => s
    | .evicted => s

/-! ### Commands -/

/-- A frame whose kind byte R160 does not list (R160). -/
def unknownRow (f : Frame) : Bool := !knownKind f.kind.toNat

/-- UNKNOWN_KIND (R159, R160): the admission checks refuse it. -/
def execUnknownKind (m : Master) (s : State) : Out := .next (serve s m unknownRow fun s _ => refuse s .unknownKind)

/-- JOIN (R145). -/
def execJoin (m : Master) (s : State) : Out := .next (serve s m (kindIs 0x01) fun s f => joinRequest s m f)

/-- LEAVE (R146). -/
def execLeave (m : Master) (s : State) : Out := .next (serve s m (kindIs 0x02) fun s _ => leaveRequest s m)

/-- KEEPALIVE (R144): the common effect alone. -/
def execKeepalive (m : Master) (s : State) : Out := .next (serve s m (kindIs 0x03) fun s _ => okay s)

/-- LEASE_EXPIRY (R147, R148). -/
def execLeaseExpiry (m : Master) (s : State) : Out := .next (leaseExpires s m)

end Sys2Proof.Machine
end

