-- ==== Sys2Proof/Machine/Power.lean ====
section
/-! DEFINITION. Start-up, standby and resets (chapter 11): the external reset and its end, STANDBY, WAKE, DEVICE_RESET,
and the consented reset. -/

namespace Sys2Proof.Machine

/-! ### External reset (R167) -/

/-- RESETn goes low: every block takes its reset values. The queue of commands, the free values and IRC time are no
block's (log entries 3, 4, 9). -/
def externalReset (s : State) : State :=
  { State.reset with
    pending := s.pending
    freeCount := s.freeCount
    synPhase := s.synPhase
    partRank := s.partRank
    now := s.now }

/-- RESETn goes high: the straps are sampled, the detectors begin their first gates, and the start-up path sets the
Timebase Unit (R167, R168). -/
def endReset (s : State) (straps : Straps) : State :=
  startUpPath { s with straps := straps, resetLow := false, da := .reset s.now, db := .reset s.now }
    (initSelection straps.initsel) .startUp straps.twospd

/-! ### Standby and wake (R170, R173) -/

/-- The requester is the only joined master (R170, R174). -/
def onlyJoined (s : State) (m : Master) : Bool := s.joinedMasters == [m]

/-- STANDBY (window) (R170). -/
def standbyRequest (s : State) (m : Master) (f : Frame) : Reply :=
  if onlyJoined s m then okay (enterStandby s) else openProposal s m f.tag .standby (wordAt f.payload 0)

/-- The outputs whose resume mark is set. -/
def markedOutputs (s : State) : List Output := allOutputs.filter fun o => (s.sq o).resumeMark

/-- The resume mark is cleared and wake start set (R173, step 2). -/
def OutRec.wake (r : OutRec) : OutRec := { r with resumeMark := false, wakeStart := true }

/-- Step 2 of R173: the marked outputs that are BOUND go to WAITING, and the waiting outputs are examined together;
those that started within the path are at an emitted frame start now (log entry 14). -/
def resumeOutputs (s : State) (marked : List Output) : State :=
  let moved := marked.filter fun o => (s.sq o).state == .bound
  let moment := allOutputs.filter fun o => (s.sq o).state == .running
  let s := setWaiting s moved
  handMoves s moved (s.startSet moment)

/-- WAKE (R173). While the selection lock is set the path is taken as with TWOSPD 0. The marks are turned into wake
start before the path, so that an output already in WAITING starts as one after wake (log entry 14). -/
def wakeRequest (s : State) : Reply :=
  match s.tbu.state with
  | .standby sel =>
    let marked := markedOutputs s
    let s := marked.foldl (fun s o => s.setSq o (s.sq o).wake) s
    okay (resumeOutputs (startUpPath s sel .wake (s.straps.twospd && s.tbu.lock.isNone)) marked)
  | _ => refuse s .state

/-! ### Consented reset (R174, R175) -/

/-- DEVICE_RESET (window): the reset is taken, or a proposal is opened (R174). -/
def deviceResetRequest (s : State) (m : Master) (f : Frame) : Reply :=
  if onlyJoined s m then okay { s with resetTaken := true }
  else openProposal s m f.tag .deviceReset (wordAt f.payload 0)

/-- The values after a consented reset, before the start-up path (R175). -/
def consentedValues (s : State) : State :=
  { State.reset with
    pending := s.pending
    freeCount := s.freeCount
    synPhase := s.synPhase
    partRank := s.partRank
    now := s.now
    resetLow := false
    straps := s.straps
    links := s.links.map fun l => .reset l.stats
    slots := s.slots.map SlotRec.keepFixed
    table := s.table
    da := .reset s.now
    db := .reset s.now }

/-- The consented reset, at the moment the last closing frame is done (R174, R175). -/
def consentedReset (s : State) : State :=
  if s.resetTaken && s.closingLeft == 0 && !s.resetLow then
    startUpPath (consentedValues s) (initSelection s.straps.initsel) .startUp s.straps.twospd
  else s

/-! ### Commands -/

/-- EXTERNAL_RESET (R167). -/
def execExternalReset (s : State) : Out := .next (externalReset s)

/-- EXTERNAL_RESET_END (R167). -/
def execExternalResetEnd (initsel : Fin 8) (twospd fse : Bool) (s : State) : Out :=
  .next (if s.resetLow then endReset s ⟨initsel, twospd, fse⟩ else s)

/-- STANDBY (R170). -/
def execStandby (m : Master) (s : State) : Out := .next (serve s m (kindIs 0x18) fun s f => standbyRequest s m f)

/-- WAKE (R173). -/
def execWake (m : Master) (s : State) : Out := .next (serve s m (kindIs 0x19) fun s _ => wakeRequest s)

/-- DEVICE_RESET (R174). -/
def execDeviceReset (m : Master) (s : State) : Out := .next (serve s m (kindIs 0x1A) fun s f => deviceResetRequest s m f)

/-- CONSENTED_RESET (R175). -/
def execConsentedReset (s : State) : Out := .next (consentedReset s)

end Sys2Proof.Machine
end

