-- ==== Sys2Proof/Machine/Query.lean ====
section
/-! DEFINITION. QUERY, one meaning for each class (R163), and RELAY (R164). -/

namespace Sys2Proof.Machine

/-- The frames a QUERY row takes: those of its class, and those that name no class, which every row refuses alike (log
entry 21). -/
def queryRow (cls : Nat) (f : Frame) : Bool :=
  kindIs 0x04 f && (f.payload.length != 3 || byteAt f.payload 0 == cls || decide (6 < byteAt f.payload 0))

/-- Answers a QUERY of the class `cls`: a class above 6 is refused BAD_VALUE (R163). -/
def queryReply (s : State) (f : Frame) (answer : Reply) : Reply :=
  if 6 < byteAt f.payload 0 then refuse s .badValue else answer

/-- Class 0, DEVICE: identity and revision codes, straps, standby flag, TBU state (R163). -/
def queryDevice (s : State) (f : Frame) : Reply :=
  queryReply s f ⟨s, .ok,
    u16 0x4830 ++ u8 1 ++ u8 s.straps.initsel ++ flagField s.straps.twospd ++ flagField s.straps.fse
      ++ flagField s.tbu.state.isStandby ++ u8 s.tbu.state.number⟩

/-- The part of an output that a QUERY reads (R163). -/
def outputPart (s : State) (o : Output) : Nat → Option (List Byte)
  | 0 => some (outputBytes o (s.sq o))
  | 1 => some (queueBytes (s.queue o))
  | 2 => some (burstBytes (s.burst o))
  | 3 => some (claimBytes (s.claim (.out o)))
  | _ => none

/-- An index or part outside its list is refused BAD_VALUE, and the part read is answered OK. -/
def answerPart (s : State) : Option (List Byte) → Reply
  | none => refuse s .badValue
  | some bytes => ⟨s, .ok, bytes⟩

/-- Class 1, OUTPUT (R163). -/
def queryOutput (s : State) (f : Frame) : Reply :=
  queryReply s f (answerPart s ((outputOf (byteAt f.payload 1)).bind fun o => outputPart s o (byteAt f.payload 2)))

/-- The part of the timebase that a QUERY reads: the record of the Timebase Unit (R108, R163). Part 3 is that record too
where R163 has its way, and the claim record of TB where R64 has, which of the two being free (log entry 27). -/
def timebasePart (s : State) (part : Nat) : List Byte :=
  if part = 3 ∧ Config.timebaseReadsClaim = true then claimBytes (s.claim .tb) else timebaseBytes s

/-- Class 2, TIMEBASE: the index is not examined, and no part is refused (R64, R108, R163; log entry 27). -/
def queryTimebase (s : State) (f : Frame) : Reply := queryReply s f ⟨s, .ok, timebasePart s (byteAt f.payload 2)⟩

/-- The XO's state, absent for the other sources (log entry 18). -/
def xoField (s : State) : Source → List Byte
  | .xo => xoBytes s.tbu.xo
  | .irc => u8 255
  | .exa => u8 255
  | .exb => u8 255

def detOf (s : State) : Source → Option DetRec
  | .irc => none
  | .xo => none
  | .exa => some s.da
  | .exb => some s.db

/-- Class 3, SOURCE: READY state, XO state, table entry, lock context, detector record (R163). R100 and R163 give the READY
state no code; the model sends it as a flag of R166, 1 for READY and 0 for not READY (log entry 17). -/
def sourceBytes (s : State) (src : Source) : List Byte :=
  flagField (s.sourceReady src) ++ xoField s src ++ entryFields s.table src ++ contextField (s.tbu.ctx.get src)
    ++ detBytes (detOf s src)

def querySource (s : State) (f : Frame) : Reply :=
  queryReply s f (answerPart s ((sourceOf (byteAt f.payload 1)).map (sourceBytes s)))

/-- Class 4, PROPOSAL: an id that names no open proposal is refused NO_SUCH (R163). -/
def queryProposal (s : State) (f : Frame) : Reply :=
  queryReply s f (match s.proposal (byteAt f.payload 1) with
    | none => refuse s .noSuch
    | some p => ⟨s, .ok, proposalBytes s.now p⟩)

/-- Class 5, MASTER (R163). -/
def queryMaster (s : State) (f : Frame) : Reply :=
  queryReply s f (answerPart s ((masterOf (byteAt f.payload 1)).map fun m => masterBytes s.now (s.master m)))

/-- Class 6, LINK: the requester's own; the frame of this QUERY has left the buffer (R163). -/
def queryLink (s : State) (m : Master) (f : Frame) : Reply :=
  queryReply s f ⟨s, .ok, linkBytes (s.link m) (s.master m).dropped⟩

/-- RELAY (to, bytes) (R164). -/
def relayRequest (s : State) (m : Master) (f : Frame) : Reply :=
  match masterOf (byteAt f.payload 0) with
  | none => refuse s .badValue
  | some target =>
    if !s.joined target then refuse s .noSuch
    else if noticeLimit ≤ (s.link target).queue.length then refuse s .full
    else okay (s.hand target (.relay m (f.payload.drop 1)))

/-- QUERY_DEVICE (R163). -/
def execQueryDevice (m : Master) (s : State) : Out := .next (serve s m (queryRow 0) queryDevice)

/-- QUERY_OUTPUT (R163). -/
def execQueryOutput (m : Master) (s : State) : Out := .next (serve s m (queryRow 1) queryOutput)

/-- QUERY_TIMEBASE (R163). -/
def execQueryTimebase (m : Master) (s : State) : Out := .next (serve s m (queryRow 2) queryTimebase)

/-- QUERY_SOURCE (R163). -/
def execQuerySource (m : Master) (s : State) : Out := .next (serve s m (queryRow 3) querySource)

/-- QUERY_PROPOSAL (R163). -/
def execQueryProposal (m : Master) (s : State) : Out := .next (serve s m (queryRow 4) queryProposal)

/-- QUERY_MASTER (R163). -/
def execQueryMaster (m : Master) (s : State) : Out := .next (serve s m (queryRow 5) queryMaster)

/-- QUERY_LINK (R163). -/
def execQueryLink (m : Master) (s : State) : Out := .next (serve s m (queryRow 6) fun s f => queryLink s m f)

/-- RELAY (R164). -/
def execRelay (m : Master) (s : State) : Out := .next (serve s m (kindIs 0x1B) fun s f => relayRequest s m f)

end Sys2Proof.Machine
end

