-- ==== Sys2Proof/Machine/Rounds.lean ====
section
/-! DEFINITION. The consent requests (chapter 5): VOTE and WITHDRAW, and the deadline of a proposal. -/

namespace Sys2Proof.Machine

/-- VOTE (id, choice) (R85). An open proposal never has id 0, so an id 0 names none. -/
def voteRequest (s : State) (m : Master) (f : Frame) : Reply :=
  match choiceOf (byteAt f.payload 1) with
  | none => refuse s .badValue
  | some accept =>
    match s.proposal (byteAt f.payload 0) with
    | none => refuse s .noSuch
    | some p =>
      if !p.required.contains m then refuse s .notVoter
      else if p.accepted.contains m then refuse s .state
      else if accept then okay (carryIfAgreed (updateProposal s p.id (·.accept m)) p.id)
      else okay (endProposal s p .rejected)

/-- WITHDRAW (id) (R87). -/
def withdrawRequest (s : State) (m : Master) (f : Frame) : Reply :=
  match s.proposal (byteAt f.payload 0) with
  | none => refuse s .noSuch
  | some p => if p.proposer = m then okay (endProposal s p .withdrawn) else refuse s .notOwner

/-- IRC time reaches the deadline of the open proposal `id`, which ends LAPSED (R88). -/
def proposalLapses (s : State) (id : Nat) : State :=
  match s.proposal id with
  | none => s
  | some p => endProposal (s.reach p.deadline) p .lapsed

/-- VOTE (R85). -/
def execVote (m : Master) (s : State) : Out := .next (serve s m (kindIs 0x16) fun s f => voteRequest s m f)

/-- WITHDRAW (R87). -/
def execWithdraw (m : Master) (s : State) : Out := .next (serve s m (kindIs 0x17) fun s f => withdrawRequest s m f)

/-- PROPOSAL_DEADLINE (R88). -/
def execProposalDeadline (id : Nat) (s : State) : Out := .next (proposalLapses s id)

end Sys2Proof.Machine
end

