-- ==== Sys2Proof/Machine/Dispatch.lean ====
section
/-! DEFINITION. One arm for each command: the meaning it has. -/

namespace Sys2Proof.Machine

def exec (i : Instr) (s : State) : Host.Outcome State Fault Refusal :=
  match i with
  | .externalReset => Sys2Proof.Machine.execExternalReset s
  | .externalResetEnd initsel twospd fse => Sys2Proof.Machine.execExternalResetEnd initsel twospd fse s
  | .brokenCharacter m => Sys2Proof.Machine.execBrokenCharacter m s
  | .frameClose m chars => Sys2Proof.Machine.execFrameClose m chars s
  | .unknownKind m => Sys2Proof.Machine.execUnknownKind m s
  | .join m => Sys2Proof.Machine.execJoin m s
  | .leave m => Sys2Proof.Machine.execLeave m s
  | .keepalive m => Sys2Proof.Machine.execKeepalive m s
  | .queryDevice m => Sys2Proof.Machine.execQueryDevice m s
  | .queryOutput m => Sys2Proof.Machine.execQueryOutput m s
  | .queryTimebase m => Sys2Proof.Machine.execQueryTimebase m s
  | .querySource m => Sys2Proof.Machine.execQuerySource m s
  | .queryProposal m => Sys2Proof.Machine.execQueryProposal m s
  | .queryMaster m => Sys2Proof.Machine.execQueryMaster m s
  | .queryLink m => Sys2Proof.Machine.execQueryLink m s
  | .profileWrite m => Sys2Proof.Machine.execProfileWrite m s
  | .profileFix m => Sys2Proof.Machine.execProfileFix m s
  | .profileFree m => Sys2Proof.Machine.execProfileFree m s
  | .profileRead m => Sys2Proof.Machine.execProfileRead m s
  | .claim m => Sys2Proof.Machine.execClaim m s
  | .claimSet m => Sys2Proof.Machine.execClaimSet m s
  | .release m => Sys2Proof.Machine.execRelease m s
  | .change m => Sys2Proof.Machine.execChange m s
  | .stop m => Sys2Proof.Machine.execStop m s
  | .start m => Sys2Proof.Machine.execStart m s
  | .groupStart m => Sys2Proof.Machine.execGroupStart m s
  | .cut m => Sys2Proof.Machine.execCut m s
  | .outputSet m => Sys2Proof.Machine.execOutputSet m s
  | .burst m => Sys2Proof.Machine.execBurst m s
  | .burstEnd m => Sys2Proof.Machine.execBurstEnd m s
  | .clock m => Sys2Proof.Machine.execClock m s
  | .sourceSet m => Sys2Proof.Machine.execSourceSet m s
  | .selectLock m => Sys2Proof.Machine.execSelectLock m s
  | .vote m => Sys2Proof.Machine.execVote m s
  | .withdraw m => Sys2Proof.Machine.execWithdraw m s
  | .proposalDeadline id => Sys2Proof.Machine.execProposalDeadline id s
  | .standby m => Sys2Proof.Machine.execStandby m s
  | .wake m => Sys2Proof.Machine.execWake m s
  | .deviceReset m => Sys2Proof.Machine.execDeviceReset m s
  | .consentedReset => Sys2Proof.Machine.execConsentedReset s
  | .relay m => Sys2Proof.Machine.execRelay m s
  | .responseTransmit m => Sys2Proof.Machine.execResponseTransmit m s
  | .noticeTransmit m => Sys2Proof.Machine.execNoticeTransmit m s
  | .lineStart o => Sys2Proof.Machine.execLineStart o s
  | .frameBoundary o => Sys2Proof.Machine.execFrameBoundary o s
  | .xoReady => Sys2Proof.Machine.execXoReady s
  | .lockComplete => Sys2Proof.Machine.execLockComplete s
  | .alignmentDeadline => Sys2Proof.Machine.execAlignmentDeadline s
  | .switchTimeout => Sys2Proof.Machine.execSwitchTimeout s
  | .xoActivityCheck cycleSeen => Sys2Proof.Machine.execXoActivityCheck cycleSeen s
  | .lossOfLock => Sys2Proof.Machine.execLossOfLock s
  | .gateCompletion d edges xoCycles => Sys2Proof.Machine.execGateCompletion d edges xoCycles s
  | .leaseExpiry m => Sys2Proof.Machine.execLeaseExpiry m s
  | .flagReceivedWhileHunting m => Sys2Proof.Machine.execFlagReceivedWhileHunting m s
  | .transmissionEnd m => Sys2Proof.Machine.execTransmissionEnd m s

end Sys2Proof.Machine
end

