-- ==== Sys2Proof/Machine/Tick.lean ====
section
/-! DEFINITION. What a step does when no command waits (log entry 4): a line whose LP ticks are counted ends; otherwise
time passes to the next clock edge, a tick of TCK, a cycle of IRC, or both. -/

namespace Sys2Proof.Machine

/-- The lowest-numbered output whose line ends now. -/
def dueOutput (s : State) : Option Output := allOutputs.find? (lineDue s)

/-- One tick of TCK reaches an output whose line lasts `lp` ticks: the count rises, and at LP the line ends (R2, R19). -/
def OutRec.tickOnce (r : OutRec) (lp : Nat) : OutRec :=
  if r.live then (if r.tick + 1 < lp then { r with tick := r.tick + 1 } else { r with lineEnd := true }) else r

/-- One tick of TCK reaches every output that generates events. -/
def tickAll (s : State) : State := s.mapSq fun t o => (t.sq o).tickOnce (s.geom o).lp

/-- A STARTING XO counts its cycles; the count is not full before XO_READY (R101). -/
def XoState.count (x : XoState) (n : Nat) : XoState :=
  match x with
  | .starting c => .starting (min (c + n) (xoStartCount - 1))
  | .off => .off
  | .ready => .ready

/-- IRC time passes by `n` cycles. -/
def pass (s : State) (n : Nat) : State := { s with now := s.now + n }

/-- A tick of TCK made from IRC by the synthesizer: M ticks take P Q cycles of IRC (R104). The part of a cycle that is
left over stands in `synPhase`, in M-ths of a cycle; the part at the lock is a free value, read modulo M (`synthLocks`). -/
def synTick (s : State) (c : Settings) : State :=
  let part := s.synPhase % c.m + c.p * c.q
  { pass (tickAll s) (part / c.m) with synPhase := part % c.m }

/-- The next clock edge. TCK is IRC itself, IRC through the synthesizer, a clock of another source, or absent (R100,
R104). -/
def clockEdge (s : State) : State :=
  match s.tbu.state.current with
  | none => pass s 1
  | some ⟨.irc, none⟩ => pass (tickAll s) 1
  | some ⟨.irc, some c⟩ => synTick s c
  | some _ => if Config.nextIsTck s.freeCount then tickAll s else pass s 1

/-- Time passes to the next clock edge. -/
def timePasses (s : State) : State :=
  let t := clockEdge s
  { t with
    freeCount := s.freeCount + 1
    tbu := { s.tbu with xo := s.tbu.xo.count (Config.xoCycles s.freeCount) } }

/-- A step with no command. In the external reset nothing counts (R167). -/
def idle (s : State) : State :=
  if s.resetLow then s
  else
    match dueOutput s with
    | some o => lineEnds s o
    | none => timePasses s

end Sys2Proof.Machine
end

