-- ==== Sys2Proof/Machine/Step.lean ====
section
/-! DEFINITION. A step takes the command at the front of the queue; with no command, a line ends or time passes. -/

namespace Sys2Proof.Machine

/-- One step (log entry 4). -/
def step (s : State) : Host.Outcome State Fault Refusal :=
  match s.pending with
  | [] => .next (idle s)
  | c :: rest => exec c { s with pending := rest }

/-- The command that a table word spells goes to the front of the queue; no row of the table gives bits. -/
def State.withFetchWord (s : State) (nbits w : Nat) : State :=
  match decodeTableWord nbits w with
  | none => s
  | some c => { s with pending := c :: s.pending }

end Sys2Proof.Machine
end

