-- ==== Sys2Proof/Safety.lean ====
section
/-! DEFINITION. The vocabulary of the statements: when a request is taken, the state it is taken in and the answer it
gets, and the laws that every step keeps. -/

namespace Sys2Proof

open Machine

/-! ### A request taken for handling (R144, R156, R159) -/

/-- The frame `f` heads the receive buffer of link `m`, the response slot is empty, no reset has been taken and RESETn
is high (R156, R167, R174). -/
abbrev Offered (s : State) (m : Master) (f : Frame) : Prop :=
  s.resetTaken = false ∧ s.resetLow = false ∧ (s.link m).slot = none ∧ (s.link m).buf.head? = some f

/-- The frame `f` is offered on link `m`, has the kind byte `k`, and passes every admission check as a frame of a
joined master (R159). -/
abbrev Admitted (s : State) (m : Master) (k : Byte) (f : Frame) : Prop :=
  Offered s m f ∧ f.kind = k ∧ lengthAllowed k.toNat f.payload.length = true ∧ s.joined m = true
    ∧ (s.tbu.state.isStandby = true → admittedInStandby k.toNat = true)

/-- The frame at the head of link `m` has left the receive buffer (R154). -/
def popped (s : State) (m : Master) : State := s.setLink m { s.link m with buf := (s.link m).buf.tail }

/-- The frame `f` has left the receive buffer of the joined master `m` and had its common effect (R144, R154). -/
def taken (s : State) (m : Master) (f : Frame) : State :=
  (popped s m).setMaster m { s.master m with
    state := .joined
    timer := some (s.now + tenMs ((s.master m).period.getD 0))
    latched := none
    last := some (f.kind, f.tag) }

/-- The response to `f` stands in the response slot of `m`, behind the notices now queued (R156, R157). -/
def answered (t : State) (m : Master) (f : Frame) (code : ResultCode) (payload : List Byte) : State :=
  t.setLink m { t.link m with
    slot := some ⟨f.kind, f.tag, code, payload, (t.master m).state, (t.link m).queue.length, t.resetTaken⟩ }

/-- The request commands of one kind, with their link and kind byte (R160). -/
def Instr.request : Instr → Option (Master × Byte)
  | .join m => some (m, 0x01)
  | .leave m => some (m, 0x02)
  | .keepalive m => some (m, 0x03)
  | .profileWrite m => some (m, 0x05)
  | .profileFix m => some (m, 0x06)
  | .profileFree m => some (m, 0x07)
  | .profileRead m => some (m, 0x08)
  | .claim m => some (m, 0x09)
  | .claimSet m => some (m, 0x0A)
  | .release m => some (m, 0x0B)
  | .change m => some (m, 0x0C)
  | .stop m => some (m, 0x0D)
  | .cut m => some (m, 0x0F)
  | .outputSet m => some (m, 0x10)
  | .burst m => some (m, 0x11)
  | .burstEnd m => some (m, 0x12)
  | .clock m => some (m, 0x13)
  | .sourceSet m => some (m, 0x14)
  | .selectLock m => some (m, 0x15)
  | .vote m => some (m, 0x16)
  | .withdraw m => some (m, 0x17)
  | .standby m => some (m, 0x18)
  | .wake m => some (m, 0x19)
  | .deviceReset m => some (m, 0x1A)
  | .relay m => some (m, 0x1B)
  | _ => none

/-- The class of a QUERY row, with its link (R163). -/
def Instr.query : Instr → Option (Master × Nat)
  | .queryDevice m => some (m, 0)
  | .queryOutput m => some (m, 1)
  | .queryTimebase m => some (m, 2)
  | .querySource m => some (m, 3)
  | .queryProposal m => some (m, 4)
  | .queryMaster m => some (m, 5)
  | .queryLink m => some (m, 6)
  | _ => none

/-- The command `c` is the row of link `m` that takes the frame `f`: by the kind, and for START by the form and for QUERY
by the class (R160; log entry 21 for a QUERY of another length). -/
def Takes (c : Instr) (m : Master) (f : Frame) : Prop :=
  c.request = some (m, f.kind)
  ∨ c = .start m ∧ f.kind = 0x0E ∧ byteAt f.payload 0 ≠ 1
  ∨ c = .groupStart m ∧ f.kind = 0x0E ∧ byteAt f.payload 0 = 1
  ∨ ∃ cls, c.query = some (m, cls) ∧ f.kind = 0x04 ∧ (f.payload.length ≠ 3 ∨ byteAt f.payload 0 = cls)

/-! ### What a statement leaves as it was -/

/-- Links differ in their notice queues only, and master records in their dropped flags only (R158). -/
def OnlyNotices (s t : State) : Prop :=
  (∀ m, t.link m = { s.link m with queue := (t.link m).queue })
  ∧ ∀ m, t.master m = { s.master m with dropped := (t.master m).dropped }

/-- No output waits and no switch waits for an output, so that a frame start or a line start of one output sets nothing
else going (R29, R116). -/
def Undisturbed (s : State) : Prop :=
  (∀ o, (s.sq o).state ≠ .waiting) ∧ ∀ cur sw t, s.tbu.state ≠ .waitAlign cur sw t

/-- The master holds nothing, takes part in no round, is the origin of no queued work, cut or burst, and owns no
profile: its departure has nothing to do in the blocks (R149). -/
def Uninvolved (s : State) (m : Master) : Prop :=
  (∀ t, s.isHolder t m = false)
  ∧ (∀ p ∈ s.consent.proposals, p.proposer ≠ m ∧ m ∉ p.required)
  ∧ (∀ o, ∀ e ∈ s.queue o, e.state = .queued → e.origin.map Prod.fst ≠ some m)
  ∧ (∀ o, (s.sq o).cut.map PendingCut.origin ≠ some m)
  ∧ (∀ o, (s.burst o).map Burst.origin ≠ some m)
  ∧ ∀ k, (s.slot k).owner ≠ some m

/-- The joined masters other than `m`, in the order of their numbers. -/
def otherMembers (s : State) (m : Master) : List Master := allMasters.filter fun j => j != m && s.joined j

/-! ### What an effect of several commands does -/

/-- The line of the output ends: it generates events and has counted its LP ticks (R19). -/
abbrev LineDue (s : State) (o : Output) : Prop := (s.sq o).live = true ∧ (s.sq o).lineEnd = true

/-- The status of a frame after a mark UNSETTLED: only an emitted frame is marked (R24). -/
def unsettled (r : OutRec) : FrameStatus := if r.phase = 0 then { r.status with base := .unsettled } else r.status

/-- An internal frame ends with the status `st`: an emitted one sets the last frame field and is reported to the holders
at level ALL, and to those at IRREGULAR unless it is SETTLED without DEGRADED (R25, R26). -/
def frameReported (s : State) (o : Output) (st : FrameStatus) : State :=
  if (s.sq o).phase = 0 then
    (s.setSq o { s.sq o with last := some ⟨(s.sq o).frameNo, st⟩ }).handAll
      (((s.claim (.out o)).holders.filter fun h =>
        h.level == .all || h.level == .irregular && (st.base != .settled || st.degraded)).map Holder.master)
      (.frameEnd o (s.sq o).frameNo st)
  else s

/-- Entries that have left the queue of output `o`, oldest first: each drops the reference of a CHANGE, and its
CHANGE_DONE goes to the holders and, if it is none of them, its origin (R45, R46). -/
def entriesGo (o : Output) (outcome : ChangeOutcome) (s : State) (es : List Entry) : State :=
  es.foldl (fun u e =>
    (match e.kind with
      | .change k => u.dropRef k
      | .stop => u).handAll (withOrigin (u.holders (.out o)) (e.origin.map Prod.fst))
        (.changeDone o (match e.kind with
          | .change k => .change k
          | .stop => .stop) e.origin e.pid (u.sq o).frameNo outcome)) s

/-- A line start of output `o` reaches its burst: it runs on as its table says, or it completes and its origin is told
(R137 to R139; `Burst.lineStart` is spelled out in TimedBurstFollowsItsTable). -/
def lineReaches (s : State) (o : Output) : State :=
  match s.burst o with
  | none => s
  | some b =>
    match b.lineStart (s.sq o) with
    | .runsOn b' => s.setBurst o (some b')
    | .completes b' => (s.setBurst o none).hand b.origin
        (.burstDone o b.pattern b.origin b.tag .complete b'.pulses b'.repeats (s.sq o).frameNo)

/-- The burst of output `o`, if there is one, ends with `outcome` and its origin is told (R139). -/
def burstEnds (s : State) (o : Output) (outcome : BurstOutcome) : State :=
  match s.burst o with
  | none => s
  | some b => (s.setBurst o none).hand b.origin
      (.burstDone o b.pattern b.origin b.tag outcome b.pulses b.repeats (s.sq o).frameNo)

/-- The record of the proposal `p` is freed, and its proposer and required voters are told its outcome; `closing` marks
the closing frames of a carried DEVICE_RESET (R86, R90, R91, R174). -/
def roundOver (s : State) (p : Proposal) (outcome : RoundOutcome) (closing : Bool := false) : State :=
  (p.proposer :: p.required).foldl (fun u m => u.handMarked m closing
    (.proposalEnd p.id p.matter p.proposer p.tag outcome))
    (s.setProposals (s.consent.proposals.filter fun x => x.id != p.id))

/-- The entry is the RESERVED one of proposal `p` (R49). -/
def reservedFor (p : Proposal) (e : Entry) : Bool := e.state == .reserved && e.pid == some p.id

/-- What the proposal `p` reserved goes: its entry leaves WITHDRAWN, and its payload's reference is dropped (R51, R90). -/
def unreserve (s : State) (p : Proposal) : State :=
  match p.matter with
  | .outputChange o k =>
    (entriesGo o .withdrawn (s.setQueue o ((s.queue o).filter fun e => !reservedFor p e))
      ((s.queue o).filter (reservedFor p))).dropRef k
  | .outputStop o =>
    entriesGo o .withdrawn (s.setQueue o ((s.queue o).filter fun e => !reservedFor p e))
      ((s.queue o).filter (reservedFor p))
  | _ => s

/-- The frame `f` of `m` is the ACCEPT of the last voter that the open proposal `p` awaits, so that `p` carries (R85,
R86). -/
abbrev LastVote (s : State) (m : Master) (f : Frame) (p : Proposal) : Prop :=
  Admitted s m 0x16 f ∧ byteAt f.payload 1 = 0 ∧ s.proposal (byteAt f.payload 0) = some p ∧ m ∈ p.required
    ∧ m ∉ p.accepted ∧ (allMasters.filter fun x => p.accepted.contains x || x == m) = p.required

/-- The request with the tag `tag` is handed to the Consent Unit for a proposal of `matter`, `u` being the state in which
it is taken, and what it is answered satisfies `ends`. A window of 1 to 9, or of 1001 and more, is BAD_VALUE; 0 stands for
100 units of 10 ms. With a proposal open on the same target it is CONFLICT; with four open, or four entries in the queue
of an output to change or stop, FULL. Otherwise the proposal opens: its id is the first of the values after the counter,
counting 255 to 1, that no open proposal holds; the other holders of the target, or the other members for DEVICE, are the
required voters and are told; a change places a reference for its payload and one for its RESERVED entry, a stop a
RESERVED entry (R80 to R84). -/
def HandedOver (s u : State) (m : Master) (tag : Byte) (matter : Matter) (window : Nat)
    (ends : State → ResultCode → List Byte → Prop) : Prop :=
  let used := s.consent.proposals.map Proposal.id
  let id (n : Nat) : Nat := Nat.iterate nextId (n + 1) s.consent.idCounter
  let voters : List Master := match matter.target with
    | some t => allMasters.filter fun j => s.isHolder t j && j != m
    | none => otherMembers s m
  let queueFull : Prop := match matter with
    | .outputChange o _ => 4 ≤ (s.queue o).length
    | .outputStop o => 4 ≤ (s.queue o).length
    | _ => False
  let reserved (id : Nat) : State := match matter with
    | .outputChange o k => (u.setSlot k { s.slot k with refs := (s.slot k).refs + 2 }).setQueue o
        (s.queue o ++ [⟨.change k, some (m, tag), .reserved, some id⟩])
    | .outputStop o => u.setQueue o (s.queue o ++ [⟨.stop, some (m, tag), .reserved, some id⟩])
    | _ => u
  let opened (id units : Nat) : State :=
    State.handAll { reserved id with consent :=
        ⟨s.consent.proposals ++ [⟨id, matter, m, tag, voters, [], s.now + tenMs units⟩], id⟩ }
      voters (.proposalOpen id matter m voters units)
  (1 ≤ window ∧ window ≤ 9 ∨ 1001 ≤ window → ends u .badValue [])
  ∧ ∀ units, window = 0 ∧ units = 100 ∨ 10 ≤ window ∧ window ≤ 1000 ∧ units = window →
    (s.proposalOn matter.target ≠ none → ends u .conflict [])
    ∧ (s.proposalOn matter.target = none → 4 ≤ s.consent.proposals.length ∨ queueFull → ends u .full [])
    ∧ (s.proposalOn matter.target = none → s.consent.proposals.length < 4 → ¬queueFull →
        ∃ n, n ≤ 4 ∧ id n ∉ used ∧ (∀ i, i < n → id i ∈ used)
          ∧ ends (opened (id n) units) .proposed [BitVec.ofNat 8 (id n)])

/-! ### Start instants (R29 to R31) -/

/-- The waiting outputs whose start instant is this moment, `frame` being the output, if any, that has an emitted frame
start now: a timebase exists, and the output has no group, or no member of its group is RUNNING, or the group's anchor,
its lowest-numbered member in RUNNING, is `frame` (R29). -/
def starters (s : State) (frame : Option Output) : List Output :=
  allOutputs.filter fun o =>
    (s.sq o).state == .waiting && s.tbu.state.current.isSome &&
      match (s.sq o).group with
      | none => true
      | some g =>
        let anchor := (allOutputs.filter fun p => (s.sq p).group == some g && (s.sq p).state == .running).head?
        anchor == none || anchor == frame

/-- The record of an output at its start instant: RUNNING at phase 0, line 0, tick 0 of frame 0, its status by wake start
and FAIL, its last frame absent (R23, R31, R37). -/
def startRecord (r : OutRec) (fail : Bool) : OutRec :=
  { r with state := .running, phase := 0, line := 0, tick := 0, lineEnd := false, frameNo := 0,
           status := ⟨if r.wakeStart then .unsettled else .settled, fail, r.wakeStart⟩,
           last := none, frozen := false, wakeStart := false, held := none,
           polarity := r.pendingPol.getD r.polarity, pendingPol := none }

/-- Outputs start at one moment, in the order of the list: each begins its run, its frame start reaches its burst, and
its holders are told (R31; the order is the model's where no rule gives one, log entry 11). -/
def startTogether (s : State) (os : List Output) : State :=
  os.foldl (fun u o => (lineReaches (u.setSq o (startRecord (u.sq o) u.tbu.fail)) o).handAll (u.holders (.out o))
    (.outputState o .waiting .running 0)) s

/-! ### Switches (R101, R106, R107, R112 to R117) -/

/-- The selections that a state of the Timebase Unit uses: the current one and the target of a switch in flight. -/
def selectionsOf (st : TbuState) : List Selection := st.current.toList ++ (st.switch.map Switch.target).toList

/-- The XO runs while the unit is not in STANDBY and a selection in use is on it or its keep-running flag is set, and one
that is OFF then begins its count; otherwise it is OFF, and no gate in progress is timed by it (R101, R122). -/
def xoSettled (s : State) : State :=
  let wanted := s.tbu.state.standbySel.isNone
    && ((selectionsOf s.tbu.state).any (fun x => x.source == .xo) || s.table.xo.keep)
  { s with
    tbu := { s.tbu with xo := if wanted then (if s.tbu.xo = .off then .starting 0 else s.tbu.xo) else .off }
    da := if wanted then s.da else { s.da with xoThroughout := false }
    db := if wanted then s.db else { s.db with xoThroughout := false } }

/-- The Timebase Unit goes to `st`: the XO is settled, and the synthesizer stops unless it serves a selection of `st`
(R101, R107). -/
def unitGoes (s : State) (st : TbuState) : State :=
  xoSettled { s with tbu := { s.tbu with
    state := st
    synth := if (selectionsOf st).any (fun x => x.syn.isSome) then s.tbu.synth else .stopped } }

/-- The master of a direct CLOCK, or the proposer of a carried one (R119). -/
def clockMaster : SwitchOrigin → Option Master
  | .startUp => none
  | .wake => none
  | .master m _ => some m
  | .proposal m _ _ => some m

/-- The holders of TB and, if it is none of them, the switch's own master are told of its event (R119). -/
def switchTold (s : State) (sw : Switch) (event : ClockEvent) : State :=
  s.handAll (withOrigin (s.holders .tb) (clockMaster sw.origin)) (.clockEvent event s.tbu.state s.tbu.fail)

/-- The record of an output that a completion reaches: a frozen one resumes, and the current frame is UNSETTLED if it is
emitted, except for the align output at an aligned completion (R24, R38, R41, R117). -/
def completionMark (r : OutRec) (spared : Bool) : OutRec :=
  if (r.state = .running ∨ r.state = .stopping) ∧ (r.frozen = true ∨ spared = false) then
    { r with status := unsettled r, frozen := false, held := if r.frozen then none else r.held }
  else r

/-- The switch `sw` completes: its target is current and FAIL clear, the XO and the synthesizer stop where nothing uses
them, the checks of a current XO begin, every output is reached, the waiting outputs whose moment it is start, and DONE
is told. `frame` is the output, if any, that has an emitted frame start now (R116, R117, R126; log entries 11, 12, 19). -/
def switchCompletes (s : State) (sw : Switch) (aligned : Bool) (frame : Option Output) : State :=
  let u := unitGoes { s with tbu := { s.tbu with fail := false } } (.running sw.target)
  let u := u.setTbu { u.tbu with
    xoCheck := if sw.target.source = .xo then some ⟨0, s.now + cyclesPerMs / 2⟩ else none }
  let u := allOutputs.foldl (fun u o => u.setSq o (completionMark (s.sq o) (aligned && sw.align == some o))) u
  switchTold (startTogether u (starters u frame)) sw (.completed sw aligned)

/-- The switch `sw` begins in the state `st`, in place of the switch `old`, if there was one in flight: a lock for the
old target is abandoned and stores no context, whatever its instant (log entry 29), the XO and the synthesizer are
started, kept or stopped, and SUPERSEDED and STARTED are told (R106, R112). -/
def switchBegins (s : State) (st : TbuState) (sw : Switch) (old : Option Switch) : State :=
  let serves := s.tbu.state.current.any fun cur => cur.syn.isSome
  let u := if old.isSome && !serves then s.setTbu { s.tbu with synth := .stopped } else s
  let u := unitGoes u st
  let u := match old with
    | none => u
    | some x => switchTold u x (.superseded x)
  switchTold u sw (.started sw)

/-- Readying goes on from `s`, in SWITCHING or PREPARING, and leads to the states that satisfy `ends`. While the source
of the target is not READY nothing more happens. A SYN target begins its lock, quick where the source's context is valid
with its settings and full otherwise. A direct target is ready: from SWITCHING the unit waits for an align output in
RUNNING, for at most 2000 ms, and otherwise the switch completes at once (R106, R114, R116). -/
def Readied (s : State) (ends : State → Prop) : Prop :=
  ∀ sw, s.tbu.state.switch = some sw →
    (s.sourceReady sw.target.source = false → ends s)
    ∧ (∀ c, s.sourceReady sw.target.source = true → sw.target.syn = some c → s.tbu.synth = .stopped →
        ends (s.setTbu { s.tbu with synth :=
          (if s.tbu.ctx.get sw.target.source = some c then .locking true (s.now + 3 * cyclesPerMs / 10)
           else .locking false (s.now + 2 * cyclesPerMs)) }))
    ∧ (s.sourceReady sw.target.source = true → sw.target.syn = none →
        (∀ d, s.tbu.state = .preparing sw d → ends (switchCompletes s sw false none))
        ∧ ∀ cur d, s.tbu.state = .switching cur sw d →
          (∀ o, sw.align = some o → (s.sq o).state = .running →
            ends (s.setTbu { s.tbu with state := .waitAlign cur sw (s.now + 2000 * cyclesPerMs) }))
          ∧ ((∀ o, sw.align = some o → (s.sq o).state ≠ .running) → ends (switchCompletes s sw false none)))

/-- The settings meet R105 for a source of `f` kHz: P, M and Q in their ranges; the source divided by P from 2,000 to
12,000 kHz; times M divided by P from 240,000 to 480,000 kHz; and that divided by Q from 30,000 to 240,000 kHz, the
quotients compared exactly. -/
abbrev SettingsMeet (f : Nat) (c : Settings) : Prop :=
  (1 ≤ c.p ∧ c.p ≤ 32) ∧ (8 ≤ c.m ∧ c.m ≤ 600) ∧ (c.q = 2 ∨ c.q = 4 ∨ c.q = 6 ∨ c.q = 8)
  ∧ (2000 * c.p ≤ f ∧ f ≤ 12000 * c.p)
  ∧ (240000 * c.p ≤ f * c.m ∧ f * c.m ≤ 480000 * c.p)
  ∧ (30000 * (c.p * c.q) ≤ f * c.m ∧ f * c.m ≤ 240000 * (c.p * c.q))

/-- The selection meets R105 for the frequency used in checks: 25,000 kHz for IRC, and the declared one of the others. A
direct one runs at no more than 240,000 kHz. -/
def SelectionMeets (s : State) (sel : Selection) : Prop :=
  let f := match sel.source with
    | .irc => 25000
    | .xo => s.table.xo.freq
    | .exa => s.table.exa.freq
    | .exb => s.table.exb.freq
  match sel.syn with
  | none => f ≤ 240000
  | some c => SettingsMeet f c

/-- The selection lock lets a CLOCK of `sel` pass: it is clear, or `sel` is the locked selection and no selection is
current, as in PREPARING, LOST and STANDBY (R110, step 2; R118). -/
abbrev LockPasses (s : State) (sel : Selection) : Prop :=
  s.tbu.lock = none ∨ s.tbu.lock = some sel ∧ s.tbu.state.current = none

/-- A SYN selection is current, and `sel` is another SYN selection (R111). -/
abbrev SynBusy (s : State) (sel : Selection) : Prop :=
  sel.syn.isSome = true ∧ (s.tbu.state.current.any fun cur => cur.syn.isSome && cur != sel) = true

/-- The unit runs on `sel` with no switch in flight, or keeps it for the wake (R110, step 5). -/
abbrev Redundant (s : State) (sel : Selection) : Prop := s.tbu.state = .running sel ∨ s.tbu.state = .standby sel

/-- A CLOCK that has passed its checks is taken in `u`, `sw` being the switch it asks for, and what follows satisfies
`ends`: the table of R112 by the state of the unit. Where a switch begins, its target is readied in the same event. -/
def ClockTaken (u : State) (sw : Switch) (ends : State → Prop) : Prop :=
  let deadline := u.now + 40 * cyclesPerMs
  (∀ cur, u.tbu.state = .running cur → Readied (switchBegins u (.switching cur sw deadline) sw none) ends)
  ∧ (∀ cur old d, u.tbu.state = .switching cur old d ∨ u.tbu.state = .waitAlign cur old d →
    (sw.target ≠ cur → Readied (switchBegins u (.switching cur sw deadline) sw (some old)) ends)
    ∧ (sw.target = cur → ends (switchTold (unitGoes u (.running cur)) old (.superseded old))))
  ∧ (∀ old d, u.tbu.state = .preparing old d →
    Readied (switchBegins u (.preparing sw deadline) sw (some old)) ends)
  ∧ (u.tbu.state = .lost → Readied (switchBegins u (.preparing sw deadline) sw none) ends)
  ∧ ∀ kept, u.tbu.state = .standby kept → ends (u.setTbu { u.tbu with state := .standby sw.target })

/-- Output `o` has an emitted frame start (`emitted`), or it has left RUNNING: a switch in WAIT_ALIGN that waits for it
completes, aligned or unaligned, and otherwise the waiting outputs whose moment it is start. What follows satisfies
`ends`. An align output in WAIT_ALIGN is never itself waiting to start, being in RUNNING (R20, R29, R30, R116; `AlignLaw`;
log entry 12). -/
def HandedOn (s : State) (o : Output) (emitted : Bool) (ends : State → Prop) : Prop :=
  let frame : Option Output := if emitted then some o else none
  (∀ cur sw d, s.tbu.state = .waitAlign cur sw d → sw.align = some o → ends (switchCompletes s sw emitted frame))
  ∧ ((∀ cur sw d, s.tbu.state = .waitAlign cur sw d → ∀ a, sw.align = some a → a ≠ o ∧ (s.sq a).state ≠ .waiting) →
      ends (startTogether s (starters s frame)))

/-! ### Failures of the current source (R128, R130, R132) -/

/-- Fail-safe: the unit runs on IRC direct with FAIL set and no XO checks, every emitted frame of a running output is
UNSETTLED and DEGRADED, a switch in flight is told ABORTED_FAILSAFE, and then FAILSAFE goes to every joined master. A lock
in progress stores no context, whatever its instant (log entry 29). -/
def failedSafe (s : State) (cause : FailCause) (src : Source) : State :=
  let u := unitGoes { s with tbu := { s.tbu with fail := true, xoCheck := none } } (.running ⟨.irc, none⟩)
  let u := allOutputs.foldl (fun u o => u.setSq o
    (if ((s.sq o).state = .running ∨ (s.sq o).state = .stopping) ∧ (s.sq o).phase = 0 then
      { s.sq o with status := { (s.sq o).status with base := .unsettled, degraded := true } }
    else s.sq o)) u
  let u := match s.tbu.state.switch with
    | none => u
    | some sw => switchTold u sw (.abortedFailsafe sw)
  u.handAll (allMasters.filter s.joined) (.clockEvent (.failsafe cause src) (.running ⟨.irc, none⟩) true)

/-- Entry to LOST: the unit has no selection and no XO checks, FAIL is as it was, every running output that is not frozen
freezes with its pins held, and LOST goes to every joined master; it reports the end of a switch in flight as well. A
lock in progress stores no context, whatever its instant (log entry 29). -/
def goneLost (s : State) (cause : FailCause) (src : Source) : State :=
  let u := unitGoes { s with tbu := { s.tbu with xoCheck := none } } .lost
  let u := allOutputs.foldl (fun u o => u.setSq o
    (if ((s.sq o).state = .running ∨ (s.sq o).state = .stopping) ∧ (s.sq o).frozen = false then
      { s.sq o with frozen := true, held := some (s.pins o) }
    else s.sq o)) u
  u.handAll (allMasters.filter s.joined) (.clockEvent (.lost cause src) .lost s.tbu.fail)

/-! ### Start-up, standby and wake (R168, R171 to R173) -/

/-- The start-up path is taken with the selection `sel`, and what follows satisfies `ends`: IRC direct runs at once, and
any other selection is the target of a switch that begins, from IRC direct where `two` is set and without a timebase
otherwise, and is readied (R168). -/
def PathTaken (s : State) (sel : Selection) (origin : SwitchOrigin) (two : Bool) (ends : State → Prop) : Prop :=
  let sw : Switch := ⟨sel, origin, none⟩
  let deadline := s.now + 40 * cyclesPerMs
  (sel = ⟨.irc, none⟩ → ends (unitGoes s (.running sel)))
  ∧ (sel ≠ ⟨.irc, none⟩ → two = true →
      Readied (switchBegins s (.switching ⟨.irc, none⟩ sw deadline) sw none) ends)
  ∧ (sel ≠ ⟨.irc, none⟩ → two = false → Readied (switchBegins s (.preparing sw deadline) sw none) ends)

/-- Output by output, each of `moved` hands its OUTPUT_STATE from BOUND to WAITING, and each of `starting` starts
(R32, R173). -/
def movedTogether (s : State) (moved starting : List Output) : State :=
  allOutputs.foldl (fun u o =>
    let u := if moved.contains o then
        u.handAll (u.holders (.out o)) (.outputState o .bound .waiting (u.sq o).frameNo)
      else u
    if starting.contains o then startTogether u [o] else u) s

/-- The record of an output that goes from RUNNING, WAITING or STOPPING to BOUND at standby entry: the resume mark is set
except from STOPPING, the position and the status are cleared, and a pending polarity takes effect (R171, step 3). -/
def standbyRecord (r : OutRec) : OutRec :=
  { r with state := .bound, phase := 0, line := 0, tick := 0, lineEnd := false, status := .clear, frozen := false,
           wakeStart := false, held := none, resumeMark := r.resumeMark || r.state != .stopping,
           polarity := r.pendingPol.getD r.polarity, pendingPol := none }

/-- Output `o` at standby entry is cleared: next is absent, every entry but a RESERVED one leaves DISCARDED, a pending cut
SUPERSEDED, and a burst ends STANDBY (R61, R141, R171). -/
def outputCleared (s : State) (o : Output) : State :=
  let r := s.sq o
  let u := (s.dropRefOpt r.next).setSq o { r with next := none }
  let u := entriesGo o .discarded (u.setQueue o ((s.queue o).filter fun e => e.state == .reserved))
    ((s.queue o).filter fun e => e.state != .reserved)
  let u := match r.cut with
    | none => u
    | some c => (u.setSq o { r with next := none, cut := none }).handAll
        (withOrigin (s.holders (.out o)) (some c.origin))
        (.changeDone o (.cut c.slot) (some (c.origin, c.tag)) none r.frameNo .superseded)
  burstEnds u o .standby

/-- Output `o` comes to rest at standby entry: it is cleared, and from WAITING, RUNNING or STOPPING it goes to BOUND and
hands its OUTPUT_STATE. When it leaves RUNNING, a waiting member of its group may start, and is settled in its turn (R30,
R171; log entry 14). -/
def outputRests (s : State) (o : Output) : State :=
  let r := s.sq o
  let u := outputCleared s o
  if r.state = .idle ∨ r.state = .bound then u
  else
    let v := (u.setSq o (standbyRecord { r with next := none, cut := none })).handAll (s.holders (.out o))
      (.outputState o r.state .bound r.frameNo)
    if r.state = .running then startTogether v (starters v none) else v

/-- The selection kept for the wake: the target of a switch in flight, else the current selection, else the locked one,
else the one of INITSEL (R172, step 1). -/
def keptSelection (s : State) : Selection :=
  match s.tbu.state.switch, s.tbu.state.current, s.tbu.lock with
  | some sw, _, _ => sw.target
  | none, some cur, _ => cur
  | none, none, some l => l
  | none, none, none => initSelection s.straps.initsel

/-- The device enters standby: each output in the order of their numbers, then the Timebase Unit, whose switch in flight
is told ABORTED_STANDBY; a lock in progress stores no context, whatever its instant (R171, R172; log entry 29). -/
def deviceRests (s : State) : State :=
  let u := allOutputs.foldl outputRests s
  let v := unitGoes { u with tbu := { u.tbu with xoCheck := none } } (.standby (keptSelection s))
  match s.tbu.state.switch with
  | none => v
  | some sw => switchTold v sw (.abortedStandby sw)

/-! ### Carrying (R86, R92 to R96) -/

/-- A switch in WAIT_ALIGN waits for an align output in RUNNING: with none it completes at once, and it completes when
that output leaves RUNNING (R116). -/
def AlignLaw (s : State) : Prop :=
  ∀ cur sw d, s.tbu.state = .waitAlign cur sw d → ∃ o, sw.align = some o ∧ (s.sq o).state = .running

/-- The ACCEPT `f` of `m` is recorded in the proposal `p` (R85). -/
def voted (s : State) (m : Master) (f : Frame) (p : Proposal) : State :=
  (taken s m f).setProposals (s.consent.proposals.map fun x =>
    if x.id == p.id then { x with accepted := allMasters.filter fun y => x.accepted.contains y || y == m } else x)

/-- The payload of the CLOCK_CHANGE proposal `p` is judged in `u` as a CLOCK from its proposer, and what the unit does
with its outcome satisfies `ends`. Its settings met R105 when it opened, and meet it still (R113). -/
def ClockCarried (u : State) (p : Proposal) (sel : Selection) (align : Option Output)
    (ends : State → RoundOutcome → Prop) : Prop :=
  (¬LockPasses u sel → ends u (.failed .locked))
  ∧ (LockPasses u sel → SelectionMeets u sel →
    (SynBusy u sel → ends u (.failed .synInUse))
    ∧ (Redundant u sel → ends u .carried)
    ∧ (¬SynBusy u sel → ¬Redundant u sel →
      ClockTaken u ⟨sel, .proposal p.proposer p.tag p.id, align⟩ fun t => ends t .carried))

/-- The proposal `p` carries in `u`: the owner of its target applies it to the target as it stands, the payload's
reference goes, and the state and the outcome that `roundOver` is told satisfy `ends`. OUTPUT_CHANGE: the RESERVED entry
of a running or stopping output becomes QUEUED in its place; of another output it leaves APPLIED and the output is bound.
OUTPUT_STOP: the entry of a running output becomes QUEUED; of a waiting one it leaves APPLIED and the output returns to
BOUND; otherwise it leaves WITHDRAWN and the round FAILED. OUTPUT_START: a BOUND output goes to WAITING, and those whose
moment it is start; otherwise the round FAILED. CLAIM_EXCLUSIVE: every other holder is removed, oldest first, and told.
STANDBY and DEVICE_RESET: the device enters standby, or the reset is taken (R50, R70, R86, R92 to R96, R113). The order of
an entry's CHANGE_DONE and the OUTPUT_STATE of its output, and of outputs that start at one moment, is log entry 11, a
CLOCK's completion log entries 11 and 19, standby entry log entry 14, and what a taken reset waits for log entry 16. -/
def Carries (u : State) (p : Proposal) (ends : State → RoundOutcome → Prop) : Prop :=
  let left (o : Output) (outcome : ChangeOutcome) : State :=
    entriesGo o outcome (u.setQueue o ((u.queue o).filter fun e => !reservedFor p e)) ((u.queue o).filter (reservedFor p))
  let queued (o : Output) : State :=
    u.setQueue o ((u.queue o).map fun e => if reservedFor p e then { e with state := .queued } else e)
  let goes (v : State) (o : Output) (r : OutRec) : State :=
    (v.setSq o r).handAll (u.holders (.out o)) (.outputState o (u.sq o).state r.state (u.sq o).frameNo)
  match p.matter with
  | .outputChange o k =>
    let bound : State := ((left o .applied).addRef k).dropRefOpt (u.sq o).current
    ((u.sq o).runs = true → ends ((queued o).dropRef k) .carried)
    ∧ ((u.sq o).state = .bound ∨ (u.sq o).state = .waiting →
      ends ((bound.setSq o { u.sq o with current := some k }).dropRef k) .carried)
    ∧ ((u.sq o).state = .idle →
      ends ((goes bound o { u.sq o with current := some k, state := .bound }).dropRef k) .carried)
  | .outputStop o =>
    ((u.sq o).state = .running → ends (queued o) .carried)
    ∧ ((u.sq o).state = .waiting →
      ends (goes (left o .applied) o { u.sq o with state := .bound, wakeStart := false }) .carried)
    ∧ ((u.sq o).state = .idle ∨ (u.sq o).state = .bound ∨ (u.sq o).state = .stopping →
      ends (left o .withdrawn) (.failed .state))
  | .outputStart o =>
    ((u.sq o).state = .bound → AlignLaw u →
      let w := goes u o { u.sq o with state := .waiting }
      ends (startTogether w (starters w none)) .carried)
    ∧ ((u.sq o).state ≠ .bound → ends u (.failed .state))
  | .claimExclusive t =>
    let c := u.claim t
    let lost := (c.holders.filter fun h => h.master != p.proposer).map Holder.master
    ends (lost.foldl (fun v j => v.hand j (.claimLost t p.proposer p.id)) (u.setClaim t
      { c with mode := .exclusive, holders := c.holders.filter fun h => h.master == p.proposer })) .carried
  | .clockChange sel align => ClockCarried u p sel align ends
  | .standby => AlignLaw u → ends (deviceRests u) .carried
  | .deviceReset => ends { u with resetTaken := true } .carried

/-! ### Departure (R149) -/

/-- The holder `m` of the target `t` is removed from `s`, `v` being the state it is removed in, and what follows satisfies
`ends`. Its entry goes and the others keep their order. A proposal open on the target ends WITHDRAWN if `m` proposed it,
and loses `m` as a voter otherwise, which carries it where the others have all accepted (`Carries`). When nobody is left
the orphan policy acts and the record becomes FREE (R72 to R75, R89). -/
def HolderGone (s v : State) (t : Target) (m : Master) (ends : State → Prop) : Prop :=
  let c := s.claim t
  let left := c.holders.filter fun h => h.master != m
  let u := v.setClaim t { c with holders := left }
  (s.proposalOn (some t) = none →
    (left ≠ [] → ends u)
    ∧ (left = [] → c.policy = .keep → ends (v.setClaim t ⟨.free, [], .keep⟩))
    ∧ ∀ o, t = .out o → left = [] →
      let queued := (s.queue o).filter fun e => e.state == .queued
      let kept := (s.queue o).filter fun e => e.state != .queued
      let discarded := entriesGo o .discarded (u.setQueue o kept) queued
      (c.policy = .stop → (s.sq o).state = .running → kept.length < 4 →
        ends ((discarded.setQueue o (kept ++ [⟨.stop, none, .queued, none⟩])).setClaim t ⟨.free, [], .keep⟩))
      ∧ (c.policy = .stop → (s.sq o).state = .waiting →
        ends ((u.setSq o { s.sq o with state := .bound, wakeStart := false }).setClaim t ⟨.free, [], .keep⟩))
      ∧ (c.policy = .stop → (s.sq o).state ≠ .running → (s.sq o).state ≠ .waiting →
        ends (u.setClaim t ⟨.free, [], .keep⟩))
      ∧ (∀ k, c.policy = .fallback k → (s.sq o).state = .running ∨ (s.sq o).state = .stopping → kept.length < 4 →
        ends ((((discarded.addRef k).setQueue o (kept ++ [⟨.change k, none, .queued, none⟩])).setClaim t
            ⟨.free, [], .keep⟩).dropRef k))
      ∧ (∀ k, c.policy = .fallback k → (s.sq o).state ≠ .running → (s.sq o).state ≠ .stopping →
        ends (((((u.addRef k).dropRefOpt (s.sq o).current).setSq o { s.sq o with
              current := some k,
              state := if (s.sq o).state = .idle then .bound else (s.sq o).state }).setClaim t
            ⟨.free, [], .keep⟩).dropRef k)))
  ∧ ∀ p, s.proposalOn (some t) = some p → (∀ x ∈ s.consent.proposals, x.id = p.id → x = p) →
    let p' : Proposal := { p with required := p.required.filter (· != m), accepted := p.accepted.filter (· != m) }
    let without := u.setProposals (s.consent.proposals.map fun x => if x.id == p.id then p' else x)
    (p.proposer = m → left ≠ [] → ends (roundOver (unreserve u p) p .withdrawn))
    ∧ (p.proposer = m → left = [] → c.policy = .keep →
      ends ((roundOver (unreserve u p) p .withdrawn).setClaim t ⟨.free, [], .keep⟩))
    ∧ (p.proposer ≠ m → m ∉ p.required → left ≠ [] → ends u)
    ∧ (p.proposer ≠ m → m ∈ p.required → p'.accepted ≠ p'.required → left ≠ [] → ends without)
    ∧ (p.proposer ≠ m → m ∈ p.required → p'.accepted = p'.required → left ≠ [] →
      (p.matter = .claimExclusive t → p.proposer ∈ left.map Holder.master) →
        Carries without p' fun v outcome => ends (roundOver v p' outcome))

/-- The record of a target without the holder `m`: FREE when nobody is left and the policy is KEEP (R72, R73). -/
def withoutHolder (c : ClaimRec) (m : Master) : ClaimRec :=
  let left := c.holders.filter fun h => h.master != m
  if left = [] ∧ c.holders ≠ [] then ⟨.free, [], .keep⟩ else { c with holders := left }

/-- The record of a slot when `m` departs: an OPEN slot of its own is emptied, a FIXED one stays without an owner (R13). -/
def withoutOwner (r : SlotRec) (m : Master) : SlotRec :=
  if r.owner = some m ∧ r.state = .openSlot then ⟨.emptySlot, none, 0, ⟨0, 0, 0, 0, 0, 0, 0, 0⟩, none⟩
  else if r.owner = some m ∧ r.state = .fixedSlot then { r with owner := none }
  else r

/-- What the parts of a departure of `m` do to `s` where `m` is involved in one kind of thing at most, satisfying `ends`:
nothing; its profiles; one burst, which ends ORIGIN_GONE and is told to the holders; its QUEUED entries on one output,
DISCARDED; one pending cut, DISCARDED; its claims, where no round is open on them and nobody's orphan policy has work;
one claim with the round on it and its orphan policy (`HolderGone`); one proposal on DEVICE of its own, WITHDRAWN; one
round on DEVICE in which its vote was awaited, and others' still are or it carries (R13, R60, R73, R76, R89, R97, R141). -/
def PartsDone (s : State) (m : Master) (ends : State → Prop) : Prop :=
  (Uninvolved s m → ends s)
  ∧ (let u : State := { s with slots := s.slots.map fun r => withoutOwner r m }
     Uninvolved u m → ends u)
  ∧ (∀ o b, s.burst o = some b → b.origin = m → Uninvolved (s.setBurst o none) m →
      ends ((s.setBurst o none).handAll (s.holders (.out o))
        (.burstDone o b.pattern b.origin b.tag .originGone b.pulses b.repeats (s.sq o).frameNo)))
  ∧ (∀ o,
      let its (e : Entry) : Bool := e.state == .queued && e.origin.map Prod.fst == some m
      let u := s.setQueue o ((s.queue o).filter fun e => !its e)
      Uninvolved u m → ends (entriesGo o .discarded u ((s.queue o).filter its)))
  ∧ (∀ o c, (s.sq o).cut = some c → c.origin = m → Uninvolved (s.setSq o { s.sq o with cut := none }) m →
      ends ((s.setSq o { s.sq o with cut := none }).handAll (withOrigin (s.holders (.out o)) (some m))
        (.changeDone o (.cut c.slot) (some (m, c.tag)) none (s.sq o).frameNo .discarded)))
  ∧ (let u := allTargets.foldl (fun u t => if s.isHolder t m then u.setClaim t (withoutHolder (s.claim t) m) else u) s
     (∀ t, s.isHolder t m = true → s.proposalOn (some t) = none
       ∧ ((∀ h ∈ (s.claim t).holders, h.master = m) → (s.claim t).policy = .keep)) →
     Uninvolved u m → ends u)
  ∧ (∀ t,
      let u := (s.setClaim t { s.claim t with holders := (s.claim t).holders.filter fun h => h.master != m }).setProposals
        (s.consent.proposals.filter fun x => s.proposalOn (some t) != some x)
      s.isHolder t m = true → Uninvolved u m →
      (∀ o, ∀ e ∈ s.queue o, e.origin.map Prod.fst = some m → (s.proposalOn (some t)).map Proposal.proposer = some m) →
        HolderGone s s t m ends)
  ∧ ∀ p, s.proposal p.id = some p →
      let others := s.consent.proposals.filter fun x => x.id != p.id
      let without (x : Proposal) : Proposal :=
        { x with required := x.required.filter (· != m), accepted := x.accepted.filter (· != m) }
      let u := s.setProposals (s.consent.proposals.map fun x => if x.id == p.id then without x else x)
      (p.proposer = m → Uninvolved (s.setProposals others) m → ends (roundOver (unreserve s p) p .withdrawn))
      ∧ (p.proposer ≠ m → m ∈ p.required → (without p).accepted ≠ (without p).required → Uninvolved u m → ends u)
      ∧ (p.matter.target = none → p.proposer ≠ m → m ∈ p.required → (without p).accepted = (without p).required →
        Uninvolved u m →
          Carries u (without p) fun v outcome => ends (roundOver v (without p) outcome (p.matter == .deviceReset)))

/-- What a departure of `m` from `s` leaves in `t`: `m` holds nothing, is the proposer or a required voter of no open
proposal, has no pending cut and no burst, and is the origin of no QUEUED or RESERVED entry; slots change by
`withoutOwner` and in their references only (R13, R149). -/
def LeavesNothing (s t : State) (m : Master) : Prop :=
  (∀ g, t.isHolder g m = false)
  ∧ (∀ p ∈ t.consent.proposals, p.proposer ≠ m ∧ m ∉ p.required)
  ∧ (∀ o, (t.sq o).cut.map PendingCut.origin ≠ some m)
  ∧ (∀ o, (t.burst o).map Burst.origin ≠ some m)
  ∧ (∀ o, ∀ e ∈ t.queue o, e.state = .queued ∨ e.state = .reserved → e.origin.map Prod.fst ≠ some m)
  ∧ ∀ k, t.slot k = { withoutOwner (s.slot k) m with refs := (t.slot k).refs }

/-! ### Laws that every step keeps -/

/-- A receive buffer holds at most 2 frames and a notice queue at most 16 notices (R154, R158). -/
def LinkBounds (s : State) : Prop := ∀ m, (s.link m).buf.length ≤ 2 ∧ (s.link m).queue.length ≤ 16

/-- A change queue holds at most 4 entries (R44). -/
def QueueBounds (s : State) : Prop := ∀ o, (s.queue o).length ≤ 4

/-- The Proposal Table holds at most 4 open proposals (R78). -/
def TableBound (s : State) : Prop := s.consent.proposals.length ≤ 4

/-- The places that name slot `k`: current and next of the outputs, CHANGE entries, fallbacks of claim records, payloads
of open proposals (R10). -/
def placesNaming (s : State) (k : Slot) : Nat :=
  (allOutputs.map fun o =>
    ((s.sq o).current == some k).toNat + ((s.sq o).next == some k).toNat
      + ((s.queue o).filter fun e => e.kind == .change k).length
      + ((s.claim (.out o)).policy == .fallback k).toNat).sum
  + (s.consent.proposals.filter fun p => p.matter.payloadSlot == some k).length

/-- Refs counts the places that name the slot; a slot that a place or a pending cut names is FIXED (R3, R8, R10). -/
def RefLaw (s : State) : Prop :=
  (∀ k, (s.slot k).refs = placesNaming s k)
  ∧ (∀ k, 0 < (s.slot k).refs → (s.slot k).state = .fixedSlot)
  ∧ ∀ o c, (s.sq o).cut = some c → (s.slot c.slot).state = .fixedSlot

/-- Only the head of a change queue is ever TAKEN; next names the slot of a TAKEN CHANGE and is absent otherwise, and an
output is in STOPPING exactly while its queue holds a TAKEN STOP (R16, R17, R52). -/
def TakenLaw (s : State) : Prop :=
  ∀ o, (∀ e ∈ (s.queue o).tail, e.state ≠ .taken)
    ∧ (∀ k, (s.sq o).next = some k ↔ ∃ e, (s.queue o).head? = some e ∧ e.state = .taken ∧ e.kind = .change k)
    ∧ ((s.sq o).state = .stopping ↔ ∃ e, (s.queue o).head? = some e ∧ e.state = .taken ∧ e.kind = .stop)

/-- A record is FREE exactly when nobody holds it, and then its policy is KEEP; an EXCLUSIVE one has one holder; holders
are distinct and joined. TB has policy KEEP and no report levels (R64). -/
def ClaimLaw (s : State) : Prop :=
  (∀ t, let c := s.claim t
    (c.mode = .free ↔ c.holders = [])
    ∧ (c.mode = .free → c.policy = .keep)
    ∧ (c.mode = .exclusive → c.holders.length = 1)
    ∧ (c.holders.map Holder.master).Nodup
    ∧ ∀ h ∈ c.holders, s.joined h.master = true)
  ∧ s.tbClaim.policy = .keep ∧ ∀ h ∈ s.tbClaim.holders, h.level = .none

/-- At most 4 proposals are open, with distinct ids and at most one on a target. The proposer holds the target and is no
voter; required and accepted are sets, in the order of the masters' numbers, and accepted is a proper subset of required
(R78, R79). -/
def RoundLaw (s : State) : Prop :=
  s.consent.proposals.length ≤ 4
  ∧ (s.consent.proposals.map Proposal.id).Nodup
  ∧ (s.consent.proposals.map fun p => p.matter.target).Nodup
  ∧ ∀ p ∈ s.consent.proposals,
    (∀ t, p.matter.target = some t → s.isHolder t p.proposer = true)
    ∧ p.proposer ∉ p.required
    ∧ p.required = allMasters.filter (fun m => p.required.contains m)
    ∧ p.accepted = allMasters.filter (fun m => p.accepted.contains m)
    ∧ (∀ m ∈ p.accepted, m ∈ p.required)
    ∧ p.accepted ≠ p.required

/-- The RESERVED entry that an open proposal keeps in a change queue: that of an OUTPUT_CHANGE or OUTPUT_STOP, with the
proposer as origin, its tag and the proposal's id (R49). -/
def reservation (o : Output) (p : Proposal) : Option Entry :=
  match p.matter with
  | .outputChange q k => if q = o then some ⟨.change k, some (p.proposer, p.tag), .reserved, some p.id⟩ else none
  | .outputStop q => if q = o then some ⟨.stop, some (p.proposer, p.tag), .reserved, some p.id⟩ else none
  | _ => none

/-- The RESERVED entries of a change queue are those of the open OUTPUT_CHANGE and OUTPUT_STOP proposals on its output,
one each (R49). -/
def ReservedLaw (s : State) : Prop :=
  ∀ o, (s.queue o).filter (fun e => e.state == .reserved) = s.consent.proposals.filterMap (reservation o)

/-- The laws of references, taken and reserved entries, claims and rounds together: each step keeps them only as a whole. -/
def RecordLaws (s : State) : Prop := RefLaw s ∧ TakenLaw s ∧ ReservedLaw s ∧ ClaimLaw s ∧ RoundLaw s

/-- With FSE 1 the Timebase Unit is never LOST and the selection lock never set (R109, R118); with FSE 0 FAIL is never
set (R129); in the external reset, before the straps are sampled, the model holds FSE 0 and the lock is clear (R120, log
entry 7). -/
def FseLaw (s : State) : Prop :=
  (s.straps.fse = true → s.tbu.state ≠ .lost ∧ s.tbu.lock = none)
  ∧ (s.straps.fse = false → s.tbu.fail = false)
  ∧ (s.resetLow = true → s.straps.fse = false ∧ s.tbu.lock = none)

end Sys2Proof
end

