-- ==== Sys2Proof/WellFormed.lean ====
section
/-! DEFINITION. What a command must meet to name something that can reach the part's pins. Indexes are in range by
their types; what is left is checked here. `exec` is total on ill-formed commands as well. -/

namespace Sys2Proof

/-- The flag byte that opens and closes a frame (R152). -/
abbrev flagByte : Byte := 0xA5

/-- FRAME_CLOSE: the characters before the closing flag hold no flag of their own (R152).
PROPOSAL_DEADLINE: proposal ids run from 1 to 255 (R78). -/
def Instr.wf : Instr → Bool
  | .frameClose _ chars => !chars.contains flagByte
  | .proposalDeadline id => decide (1 ≤ id) && decide (id ≤ 255)
  | .externalReset | .externalResetEnd _ _ _ | .brokenCharacter _ | .unknownKind _ | .join _ | .leave _
  | .keepalive _ | .queryDevice _ | .queryOutput _ | .queryTimebase _ | .querySource _ | .queryProposal _
  | .queryMaster _ | .queryLink _ | .profileWrite _ | .profileFix _ | .profileFree _ | .profileRead _ | .claim _
  | .claimSet _ | .release _ | .change _ | .stop _ | .start _ | .groupStart _ | .cut _ | .outputSet _ | .burst _
  | .burstEnd _ | .clock _ | .sourceSet _ | .selectLock _ | .vote _ | .withdraw _ | .standby _ | .wake _
  | .deviceReset _ | .consentedReset | .relay _ | .responseTransmit _ | .noticeTransmit _ | .lineStart _
  | .frameBoundary _ | .xoReady | .lockComplete | .alignmentDeadline | .switchTimeout | .xoActivityCheck _
  | .lossOfLock | .gateCompletion _ _ _ | .leaseExpiry _ | .flagReceivedWhileHunting _ | .transmissionEnd _ => true

end Sys2Proof
end

