-- ==== Sys2Proof/Certificates/Slice0/Obligations.lean ====
section
/-! DEFINITION. The statements for the provers. A statement of a command's effect names the state it answers, so that it
says at once that the command completes, what it writes and that it leaves the rest as it was. -/

section

open Sys2Proof Sys2Proof.Machine

/-! ### The machine -/

/-- The command at the front of the queue runs on the state with the queue's rest. -/
def Obligations.StepRunsFrontCommand : Prop :=
  ∀ (c : Instr) (rest : List Instr) (s : State),
    step { s with pending := c :: rest } = exec c { s with pending := rest }

/-- With no command a step does what time does by itself (the model's choice, log entry 4). The line end of the lowest
output whose LP ticks are counted comes first, as its LINE_START or FRAME_BOUNDARY. Otherwise time passes to the next
clock edge: each output that generates events counts one tick or none of them does. TCK from IRC directly ticks once a
cycle of IRC time, and through the synthesizer M ticks take P Q cycles, the part of a cycle left over being less than a
cycle after every tick; for another source the edge is a tick or a cycle, a free value. A STARTING XO counts the cycles
that the free value gives, up to 8191, short of its full count. In the external reset nothing counts. -/
def Obligations.IdleStepTakesALineEndOrAClockEdge : Prop :=
  ∀ s : State, s.pending = [] →
    (s.resetLow = true → step s = .next s)
    ∧ (∀ o, s.resetLow = false → LineDue s o → (∀ p, p < o → ¬LineDue s p) →
        step s = exec (if (s.geom o).lf ≤ (s.sq o).line + 1 then .frameBoundary o else .lineStart o) s)
    ∧ (s.resetLow = false → (∀ o, ¬LineDue s o) → ∃ (t : State) (ticks : Bool), step s = .next t
        ∧ t = { s with now := t.now, freeCount := s.freeCount + 1, synPhase := t.synPhase, chans := t.chans,
                       tbu := { s.tbu with xo := t.tbu.xo } }
        ∧ (∀ o, ticks = false ∨ (s.sq o).live = false → t.chan o = s.chan o)
        ∧ (∀ o, ticks = true → (s.sq o).live = true → (s.sq o).tick + 1 < (s.geom o).lp →
            t.chan o = { s.chan o with sq := { s.sq o with tick := (s.sq o).tick + 1 } })
        ∧ (∀ o, ticks = true → (s.sq o).live = true → (s.geom o).lp ≤ (s.sq o).tick + 1 →
            t.chan o = { s.chan o with sq := { s.sq o with lineEnd := true } })
        ∧ (s.tbu.state.current = none → ticks = false ∧ t.now = s.now + 1 ∧ t.synPhase = s.synPhase)
        ∧ (s.tbu.state.current = some ⟨.irc, none⟩ → ticks = true ∧ t.now = s.now + 1 ∧ t.synPhase = s.synPhase)
        ∧ (∀ c, s.tbu.state.current = some ⟨.irc, some c⟩ → 0 < c.m →
            ticks = true ∧ c.m * (t.now - s.now) + t.synPhase = s.synPhase % c.m + c.p * c.q ∧ t.synPhase < c.m
              ∧ s.now ≤ t.now)
        ∧ (∀ sel, s.tbu.state.current = some sel → sel.source ≠ .irc →
            t.now = s.now + (if ticks then 0 else 1) ∧ t.synPhase = s.synPhase)
        ∧ ((∀ n, s.tbu.xo ≠ .starting n) → t.tbu.xo = s.tbu.xo)
        ∧ ∀ n, s.tbu.xo = .starting n → t.tbu.xo = .starting (min (n + Config.xoCycles s.freeCount) 8191))

/-- The state of the external reset keeps the laws of the tier 3 statements. -/
def Obligations.ResetMeetsTheLaws : Prop :=
  LinkBounds State.reset ∧ QueueBounds State.reset ∧ TableBound State.reset ∧ FseLaw State.reset
    ∧ AlignLaw State.reset ∧ RecordLaws State.reset

/-! ### Resets and the start-up path -/

/-- EXTERNAL_RESET: every block takes its reset values and every output pin is low; IRC time, the command queue, the
free values and the part of a cycle that synthesized ticks have counted stand (log entries 3, 4, 9); the straps read 0
and the Timebase Unit LOST until the reset ends (log entry 7). -/
def Obligations.ExternalResetClearsEveryBlock : Prop :=
  ∀ s : State, ∃ t, exec .externalReset s = .next t
    ∧ t.pending = s.pending ∧ t.now = s.now ∧ t.freeCount = s.freeCount ∧ t.synPhase = s.synPhase
    ∧ t.partRank = s.partRank ∧ t.resetLow = true ∧ t.resetTaken = false ∧ t.straps = ⟨0, false, false⟩
    ∧ (∀ o, t.sq o =
        { state := .idle, current := none, next := none, phase := 0, line := 0, tick := 0, lineEnd := false,
          frameNo := 0, status := ⟨.settled, false, false⟩, last := none, frozen := false, cut := none, group := none,
          polarity := .normal, pendingPol := none, resumeMark := false, wakeStart := false, held := none })
    ∧ (∀ o, t.queue o = [] ∧ t.burst o = none ∧ t.pins o = ⟨false, false, false, false⟩)
    ∧ (∀ k, t.slot k = ⟨.emptySlot, none, 0, ⟨0, 0, 0, 0, 0, 0, 0, 0⟩, none⟩)
    ∧ (∀ g, t.claim g = ⟨.free, [], .keep⟩)
    ∧ t.consent = ⟨[], 0⟩
    ∧ t.tbu = ⟨.lost, false, none, .off, .stopped, ⟨none, none, none, none⟩, none⟩
    ∧ t.table = ⟨⟨20000, false⟩, ⟨10000, 100, 400, 4⟩, ⟨10000, 100, 400, 4⟩⟩
    ∧ (∀ d, (t.det d).state = .absent ∧ (t.det d).good = 0 ∧ (t.det d).dev = none ∧ (t.det d).timing = none)
    ∧ (∀ m, t.master m = ⟨.absent, none, none, none, none, false⟩)
    ∧ ∀ m, t.link m = ⟨.hunting, [], ⟨0, 0, 0, 0⟩, none, [], .free false⟩

/-- EXTERNAL_RESET_END, while RESETn is low and every block holds its reset values (those of
ExternalResetClearsEveryBlock, log entry 7 for the straps and the Timebase Unit): it completes. The straps are sampled,
both detectors begin their first gates, and the start-up path gives the state of the Timebase Unit; the target's source
is started, or its lock is begun. Every other block keeps its reset values. While RESETn is high the event does not
occur (log entry 2). -/
def Obligations.ResetEndStartsThePath : Prop :=
  (∀ (s : State) (initsel : Fin 8) (twospd fse : Bool),
    s = { State.reset with pending := s.pending, freeCount := s.freeCount, synPhase := s.synPhase,
                           partRank := s.partRank, now := s.now } →
    ∃ t, exec (.externalResetEnd initsel twospd fse) s = .next t
      ∧ t = { s with resetLow := false, straps := ⟨initsel, twospd, fse⟩, tbu := t.tbu, da := t.da, db := t.db }
      ∧ (∀ d, t.det d = ⟨.absent, 0, none, none, s.now, false⟩)
      ∧ t.tbu.fail = false ∧ t.tbu.lock = none ∧ t.tbu.ctx = ⟨none, none, none, none⟩ ∧ t.tbu.xoCheck = none
      ∧ t.tbu.state =
          (if initsel = 0 then .running ⟨.irc, none⟩
           else if twospd then
             .switching ⟨.irc, none⟩ ⟨initSelection initsel, .startUp, none⟩ (s.now + switchLimit)
           else .preparing ⟨initSelection initsel, .startUp, none⟩ (s.now + switchLimit))
      ∧ t.tbu.xo = (if initsel = 1 ∨ initsel = 5 then .starting 0 else .off)
      ∧ t.tbu.synth = (if initsel = 4 then .locking false (s.now + 2 * cyclesPerMs) else .stopped))
  ∧ ∀ (s : State) (initsel : Fin 8) (twospd fse : Bool), s.resetLow = false →
    exec (.externalResetEnd initsel twospd fse) s = .next s

/-- DEVICE_RESET from the only joined master takes the reset, its response being the closing frame; with other members
it opens a proposal on DEVICE, whose required voters they are (`HandedOver`). The last ACCEPT carries it: the reset is
taken, and the PROPOSAL_END notices and that vote's response are its closing frames. -/
def Obligations.DeviceResetIsTakenOrProposed : Prop :=
  (∀ (s : State) (m : Master) (f : Frame), Admitted s m 0x1A f →
    (otherMembers s m = [] →
      exec (.deviceReset m) s = .next (answered { taken s m f with resetTaken := true } m f .ok []))
    ∧ (otherMembers s m ≠ [] →
        HandedOver s (taken s m f) m f.tag .deviceReset (wordAt f.payload 0) fun t code bytes =>
          exec (.deviceReset m) s = .next (answered t m f code bytes)))
  ∧ ∀ (s : State) (m : Master) (f : Frame) (p : Proposal), LastVote s m f p → p.matter = .deviceReset →
    exec (.vote m) s = .next (answered (roundOver { taken s m f with resetTaken := true } p .carried true) m f .ok [])

/-- CONSENTED_RESET, once a reset is taken and no closing frame is left: every block takes its reset values, except that
the straps, the FIXED profiles (ownerless, without references), the source table with the XO's keep-running flag and the
link statistics stay; the start-up path begins with origin START_UP. The XO is OFF, and STARTING where the start
selection or the kept flag wants it; the synthesizer locks where the target can be locked to at once. -/
def Obligations.ConsentedResetKeepsWhatIsLearned : Prop :=
  ∀ s : State, s.resetTaken = true → s.resetLow = false → s.closingLeft = 0 →
    ∃ t, exec .consentedReset s = .next t
      ∧ t.pending = s.pending ∧ t.now = s.now ∧ t.freeCount = s.freeCount ∧ t.synPhase = s.synPhase
      ∧ t.partRank = s.partRank ∧ t.resetLow = false
      ∧ t.resetTaken = false ∧ t.straps = s.straps ∧ t.table = s.table
      ∧ (∀ m, t.master m = ⟨.absent, none, none, none, none, false⟩)
      ∧ (∀ m, t.link m = ⟨.hunting, [], (s.link m).stats, none, [], .free false⟩)
      ∧ (∀ o, t.chan o = ⟨.reset, [], none⟩)
      ∧ (∀ g, t.claim g = ⟨.free, [], .keep⟩)
      ∧ t.consent = ⟨[], 0⟩
      ∧ (∀ k, (s.slot k).state = .fixedSlot → t.slot k = { s.slot k with owner := none, refs := 0 })
      ∧ (∀ k, (s.slot k).state ≠ .fixedSlot → t.slot k = ⟨.emptySlot, none, 0, ⟨0, 0, 0, 0, 0, 0, 0, 0⟩, none⟩)
      ∧ (∀ d, (t.det d).state = .absent ∧ (t.det d).good = 0 ∧ (t.det d).dev = none ∧ (t.det d).timing = none
          ∧ (t.det d).gateStart = s.now ∧ (t.det d).xoThroughout = false)
      ∧ t.tbu.fail = false ∧ t.tbu.lock = none ∧ t.tbu.ctx = ⟨none, none, none, none⟩
      ∧ t.tbu.state =
          (if s.straps.initsel = 0 then .running ⟨.irc, none⟩
           else if s.straps.twospd then
             .switching ⟨.irc, none⟩ ⟨initSelection s.straps.initsel, .startUp, none⟩ (s.now + switchLimit)
           else .preparing ⟨initSelection s.straps.initsel, .startUp, none⟩ (s.now + switchLimit))
      ∧ t.tbu.xo = (if s.straps.initsel = 1 ∨ s.straps.initsel = 5 ∨ s.table.xo.keep = true then .starting 0 else .off)
      ∧ t.tbu.synth = (if s.straps.initsel = 4 then .locking false (s.now + 2 * cyclesPerMs) else .stopped)
      ∧ t.tbu.xoCheck = none

/-! ### The line and the frame -/

/-- A content of 2 to 40 bytes, escaped with its check sequence, holds no flag, and after an opening flag it arrives
intact in a receive buffer with room, byte for byte. -/
def Obligations.EveryFrameArrivesIntact : Prop :=
  ∀ (s : State) (m : Master) (kind tag : Byte) (payload : List Byte),
    s.resetLow = false → (s.link m).rx = .assembling [] false → (s.link m).buf.length < 2 → payload.length ≤ 38 →
      let content := kind :: tag :: payload
      Instr.wf (.frameClose m (escape (content ++ crcBytes content))) = true
      ∧ exec (.frameClose m (escape (content ++ crcBytes content))) s =
          .next (s.setLink m { s.link m with buf := (s.link m).buf ++ [⟨kind, tag, payload⟩] })

/-- A closed frame is discarded with one statistic raised, the first of these that applies: an overrun at a full buffer,
a length error, a check sequence that differs. -/
def Obligations.BadFramesAreCountedAndDiscarded : Prop :=
  ∀ (s : State) (m : Master) (bytes : List Byte),
    s.resetLow = false → (s.link m).rx = .assembling [] false → bytes ≠ [] →
      let st := (s.link m).stats
      let check := crcBytes (bytes.take (bytes.length - 2))
      (2 ≤ (s.link m).buf.length →
        exec (.frameClose m (escape bytes)) s = .next (s.setLink m
          { s.link m with stats := { st with overruns := min (st.overruns + 1) 65535 } }))
      ∧ ((s.link m).buf.length < 2 → bytes.length < 4 ∨ 42 < bytes.length →
        exec (.frameClose m (escape bytes)) s = .next (s.setLink m
          { s.link m with stats := { st with length := min (st.length + 1) 65535 } }))
      ∧ ((s.link m).buf.length < 2 → 4 ≤ bytes.length → bytes.length ≤ 42 →
        bytes.drop (bytes.length - 2) ≠ check →
        exec (.frameClose m (escape bytes)) s = .next (s.setLink m
          { s.link m with stats := { st with crc := min (st.crc + 1) 65535 } }))

/-- A broken character abandons the frame, counts as an abort and makes the receiver hunt; a flag while hunting opens a
frame; a flag after an escape is an abort, whatever characters stand before that escape; a flag after a flag counts as
nothing. -/
def Obligations.AbortsAndFlags : Prop :=
  ∀ (s : State) (m : Master), s.resetLow = false →
    let l := s.link m
    let abort : LinkStats := { l.stats with aborts := min (l.stats.aborts + 1) 65535 }
    exec (.brokenCharacter m) s = .next (s.setLink m { l with rx := .hunting, stats := abort })
    ∧ (l.rx = .hunting →
        exec (.flagReceivedWhileHunting m) s = .next (s.setLink m { l with rx := .assembling [] false }))
    ∧ (∀ bytes, l.rx = .assembling bytes true →
        exec (.frameClose m []) s = .next (s.setLink m { l with rx := .assembling [] false, stats := abort }))
    ∧ (∀ bytes, l.rx = .assembling [] false →
        exec (.frameClose m (escape bytes ++ [0xA6])) s =
          .next (s.setLink m { l with rx := .assembling [] false, stats := abort }))
    ∧ (l.rx = .assembling [] false → exec (.frameClose m []) s = .next s)

/-! ### Sending -/

/-- A response with no notice ahead begins transmission on a free transmitter: its slot empties, and the dropped flag is
reported in its flags byte and cleared. The line takes 250 cycles a character. -/
def Obligations.ResponseGoesOutWithTheDroppedFlag : Prop :=
  ∀ (s : State) (m : Master) (shared : Bool) (r : Response),
    (s.link m).tx = .free shared → (s.link m).slot = some r → r.ahead = 0 →
      let content := (r.kind ||| 0x80) :: r.tag :: BitVec.ofNat 8 r.code.number
        :: BitVec.ofNat 8 ((s.master m).dropped.toNat + 2 * r.mstate.number) :: r.payload
      let line := (if shared then [] else [0xA5]) ++ escape (content ++ crcBytes content) ++ [0xA5]
      exec (.responseTransmit m) s = .next ((s.setLink m { s.link m with
          slot := none
          tx := .sending content line r.closing (s.now + 250 * line.length) }).setMaster m
        { s.master m with dropped := false })

/-- The oldest notice begins transmission on a free transmitter when no response may be sent, and lowers the count of
notices ahead of a waiting response. A frame in transmission is sent to its end, at which IRC time stands then (the
model's choice, log entry 3); the transmitter is then free, and shares its flag with a frame that follows directly (log
entry 15). -/
def Obligations.OldestNoticeGoesOut : Prop :=
  (∀ (s : State) (m : Master) (shared : Bool) (q : Queued) (rest : List Queued),
    (s.link m).tx = .free shared → (s.link m).queue = q :: rest → (∀ r, (s.link m).slot = some r → 0 < r.ahead) →
      let content := q.notice.kindByte :: 0 :: q.notice.fields
      let line := (if shared then [] else [0xA5]) ++ escape (content ++ crcBytes content) ++ [0xA5]
      exec (.noticeTransmit m) s = .next (s.setLink m { s.link m with
        queue := rest
        slot := (s.link m).slot.map fun r => { r with ahead := r.ahead - 1 }
        tx := .sending content line q.closing (s.now + 250 * line.length) }))
  ∧ ∀ (s : State) (m : Master) (content line : List Byte) (closing : Bool) (ends : Nat),
    (s.link m).tx = .sending content line closing ends →
      exec (.transmissionEnd m) s = .next
        (State.setLink { s with now := max s.now ends } m
          { s.link m with tx := .free ((s.link m).slot.isSome || !(s.link m).queue.isEmpty) })

/-! ### Handling and admission -/

/-- The admission checks, for every request command: a wrong length is MALFORMED from any sender, a master that is ABSENT
or EVICTED is refused but for JOIN and QUERY, and standby refuses the kinds it does not admit. A frame whose kind byte
names no request is UNKNOWN_KIND. A joined sender's lease is renewed all the same. -/
def Obligations.AdmissionRefusesInOrder : Prop :=
  (∀ (s : State) (c : Instr) (m : Master) (f : Frame), Takes c m f → Offered s m f →
      let k := f.kind.toNat
      (s.joined m = true → lengthAllowed k f.payload.length = false →
        exec c s = .next (answered (taken s m f) m f .malformed []))
      ∧ (s.joined m = false → lengthAllowed k f.payload.length = false →
        exec c s = .next (answered (popped s m) m f .malformed []))
      ∧ ((s.master m).state = .absent → lengthAllowed k f.payload.length = true → k ≠ 0x01 → k ≠ 0x04 →
        exec c s = .next (answered (popped s m) m f .notJoined []))
      ∧ ((s.master m).state = .evicted → lengthAllowed k f.payload.length = true → k ≠ 0x01 → k ≠ 0x04 →
        exec c s = .next (answered (popped s m) m f .evicted []))
      ∧ (s.joined m = true → lengthAllowed k f.payload.length = true → s.tbu.state.isStandby = true →
        admittedInStandby k = false →
        exec c s = .next (answered (taken s m f) m f .standby [])))
  ∧ ∀ (s : State) (m : Master) (f : Frame), Offered s m f → f.kind = 0 ∨ 0x1B < f.kind.toNat →
      (s.joined m = true → exec (.unknownKind m) s = .next (answered (taken s m f) m f .unknownKind []))
      ∧ (s.joined m = false → exec (.unknownKind m) s = .next (answered (popped s m) m f .unknownKind []))

/-- KEEPALIVE has the common effect of a request alone: JOINED, the lease timer restarted, the last request recorded,
no latched request. -/
def Obligations.KeepaliveRenewsTheLease : Prop :=
  ∀ (s : State) (m : Master) (f : Frame), Admitted s m 0x03 f →
    exec (.keepalive m) s = .next (answered ((s.setLink m { s.link m with buf := (s.link m).buf.tail }).setMaster m
      { s.master m with
        state := .joined, timer := some (s.now + tenMs ((s.master m).period.getD 0)),
        latched := none, last := some (0x03, f.tag) }) m f .ok [])

/-- JOIN from an ABSENT or EVICTED master makes it a member; from a member it replaces the period and the timer; a
period outside 5 to 250 is refused. -/
def Obligations.JoinSetsTheLease : Prop :=
  ∀ (s : State) (m : Master) (tag p : Byte), Offered s m ⟨0x01, tag, [p]⟩ →
    let f : Frame := ⟨0x01, tag, [p]⟩
    ((s.joined m = false → 5 ≤ p.toNat → p.toNat ≤ 250 →
      exec (.join m) s = .next (answered ((popped s m).setMaster m
        { s.master m with
          state := .joined, period := some p.toNat, timer := some (s.now + tenMs p.toNat),
          last := some (0x01, tag), latched := none }) m f .ok []))
    ∧ (s.joined m = true → 5 ≤ p.toNat → p.toNat ≤ 250 →
      exec (.join m) s = .next (answered ((popped s m).setMaster m
        { s.master m with
          state := .joined, period := some p.toNat, timer := some (s.now + tenMs p.toNat),
          last := some (0x01, tag), latched := none }) m f .ok []))
    ∧ (s.joined m = false → p.toNat < 5 ∨ 250 < p.toNat →
      exec (.join m) s = .next (answered (popped s m) m f .badValue []))
    ∧ (s.joined m = true → p.toNat < 5 ∨ 250 < p.toNat →
      exec (.join m) s = .next (answered (taken s m f) m f .badValue [])))

/-! ### Leases and departure -/

/-- LEAVE: the master is ABSENT with no lease, its last request kept in its record (the model's reading, log entry 24),
its notice queue is empty and its response follows; a master that is involved in nothing leaves everything else as it
was, and the other members are told. One that is involved in one kind of thing leaves it as `PartsDone` says: profiles,
a burst, queued entries, a pending cut, claims, a round. Whatever it is involved in, afterwards it holds nothing, is the
proposer or a required voter of no open proposal, has no pending cut and no burst, no entry of its own that was QUEUED
stays QUEUED, and it owns no profile; a slot changes only so and in its references. Where the departure carries a round
(`Carries`), these are the model's choices: CHANGE_DONE before the OUTPUT_STATE of the same carry, and starts at one
moment in the order of the outputs' numbers (log entry 11), the starts at standby entry (log entry 14), the marks of the
closing frames of a DEVICE_RESET (log entry 16), what a CLOCK that completes at once does (log entries 11, 19), and what
a lock in progress stores that a CLOCK or standby entry ends (log entry 29). -/
def Obligations.LeaveEndsMembership : Prop :=
  ∀ (s : State) (m : Master) (f : Frame), Admitted s m 0x02 f →
    (∃ t, exec (.leave m) s = .next t
      ∧ t.master m = ⟨.absent, none, none, some (0x02, f.tag), none, false⟩
      ∧ (t.link m).queue = []
      ∧ (t.link m).slot = some ⟨0x02, f.tag, .ok, [], .absent, 0, t.resetTaken⟩)
    ∧ (Uninvolved s m →
        exec (.leave m) s = .next (answered
          ((((popped s m).setLink m { (popped s m).link m with queue := [] }).setMaster m
            ⟨.absent, none, none, some (0x02, f.tag), none, false⟩).handAll (otherMembers s m)
              (.departed m .left none)) m f .ok []))
    ∧ PartsDone (taken s m f) m (fun u =>
        exec (.leave m) s = .next (answered
          (((u.setLink m { u.link m with queue := [] }).setMaster m
            ⟨.absent, none, none, some (0x02, f.tag), none, false⟩).handAll (otherMembers s m)
              (.departed m .left none)) m f .ok []))
    ∧ (RecordLaws s → ∃ t, exec (.leave m) s = .next t ∧ LeavesNothing s t m)

/-- The first expiry of a lease: LAPSING, the last request latched, the timer started anew, LEASE_WARNING, which joins a
queue of fewer than 16; of 16 it is dropped, the queue is kept and the dropped flag set. IRC time stands at the expiry
then (the model's choice, log entry 3). So with every notice: handed to a joined master it joins the tail of its queue,
or is dropped at 16 and sets the flag, and handed to another master it is discarded, nothing being changed; one handed to
several masters is handed to each in turn. -/
def Obligations.FirstExpiryWarns : Prop :=
  (∀ (s : State) (m : Master) (t p : Nat),
    (s.master m).state = .joined → (s.master m).timer = some t → (s.master m).period = some p →
      let r : MasterRec := { s.master m with
        state := .lapsing, latched := (s.master m).last, timer := some (max s.now t + tenMs p) }
      let warning : Notice := .leaseWarning (s.master m).last p
      let u : State := State.setMaster { s with now := max s.now t } m r
      exec (.leaseExpiry m) s = .next (u.hand m warning)
      ∧ ((s.link m).queue.length < 16 → exec (.leaseExpiry m) s =
        .next (u.setLink m { s.link m with queue := (s.link m).queue ++ [⟨warning, false⟩] }))
      ∧ (16 ≤ (s.link m).queue.length → exec (.leaseExpiry m) s =
        .next (State.setMaster { s with now := max s.now t } m { r with dropped := true })))
  ∧ ∀ (s : State) (m : Master) (n : Notice),
    (∀ closing,
      (s.joined m = true → (s.link m).queue.length < 16 → s.handMarked m closing n =
        s.setLink m { s.link m with queue := (s.link m).queue ++ [⟨n, closing⟩] })
      ∧ (s.joined m = true → 16 ≤ (s.link m).queue.length → s.handMarked m closing n =
        s.setMaster m { s.master m with dropped := true })
      ∧ (s.joined m = false → s.handMarked m closing n = s))
    ∧ s.hand m n = s.handMarked m false n
    ∧ s.handAll [] n = s
    ∧ ∀ ms, s.handAll (m :: ms) n = (s.hand m n).handAll ms n

/-- The second expiry: the master is EVICTED with its period and latched request kept, and its last request too (the
model's reading, log entry 24), the EVICTED notice alone in its queue; a master that is involved in nothing leaves
everything else as it was, and the other members are told. One that is involved in one kind of thing leaves it as
`PartsDone` says, and whatever it is involved in, it leaves nothing behind, as in LeaveEndsMembership. IRC time stands
at the expiry then (the model's choice, log entry 3). Where the departure carries a round (`Carries`), these are the
model's choices: CHANGE_DONE before the OUTPUT_STATE of the same carry, and starts at one moment in the order of the
outputs' numbers (log entry 11), the starts at standby entry (log entry 14), the marks of the closing frames of a
DEVICE_RESET (log entry 16), what a CLOCK that completes at once does (log entries 11, 19), and what a lock in progress
stores that a CLOCK or standby entry ends (log entry 29). -/
def Obligations.SecondExpiryEvicts : Prop :=
  ∀ (s : State) (m : Master) (t p : Nat),
    (s.master m).state = .lapsing → (s.master m).timer = some t → (s.master m).period = some p →
      let r : MasterRec := { s.master m with state := .evicted, timer := none, dropped := false }
      let q : List Queued := [⟨.evicted (s.master m).latched p, false⟩]
      (∃ u, exec (.leaseExpiry m) s = .next u ∧ u.master m = r ∧ (u.link m).queue = q)
      ∧ (Uninvolved s m →
          exec (.leaseExpiry m) s = .next
            (((State.setLink { s with now := max s.now t } m { s.link m with
                queue := q, slot := (s.link m).slot.map fun x => { x with ahead := 0 } }).setMaster m r).handAll
              (otherMembers s m) (.departed m .evicted (s.master m).latched)))
      ∧ PartsDone { s with now := max s.now t } m (fun u =>
          exec (.leaseExpiry m) s = .next
            (((u.setLink m { u.link m with
                queue := q, slot := (u.link m).slot.map fun x => { x with ahead := 0 } }).setMaster m r).handAll
              (otherMembers s m) (.departed m .evicted (s.master m).latched)))
      ∧ (RecordLaws s → ∃ u, exec (.leaseExpiry m) s = .next u ∧ LeavesNothing s u m)

/-! ### Query and relay -/

/-- Each QUERY answers the part it names from the state in which it is taken, and changes nothing else; a class above 6,
or an index or part outside its list, is BAD_VALUE, an id of no open proposal NO_SUCH. TIMEBASE refuses no index and no
part: whatever the index is, every part but 3 answers the record of the Timebase Unit, and part 3 that record or the claim
record of TB, as a free value has it, since R163 and R64 disagree there (the model's choice to leave it free, and to put it
at part 3: log entry 27). The DEVICE fields, the output record and the profile record are spelled out byte by byte; the
other layouts are the encoders' (log entries 17, 18). PROFILE_READ answers the record of its slot and changes nothing else;
a slot number of 16 or more is BAD_VALUE with the field number 0. -/
def Obligations.QueriesReadState : Prop :=
  (∀ (s : State) (m : Master) (tag q i p : Byte),
    let u (f : Frame) : State := if s.joined m then taken s m f else popped s m
    let ok (f : Frame) (bytes : List Byte) := Host.Outcome.next (φ := Fault) (ρ := Refusal) (answered (u f) m f .ok bytes)
    let bad (f : Frame) := Host.Outcome.next (φ := Fault) (ρ := Refusal) (answered (u f) m f .badValue [])
    (∀ f c cls, f = ⟨0x04, tag, [q, i, p]⟩ → Offered s m f → c.query = some (m, cls) → 6 < q.toNat → exec c s = bad f)
    ∧ (∀ f, f = ⟨0x04, tag, [0, i, p]⟩ → Offered s m f → exec (.queryDevice m) s = ok f
      [0x30, 0x48, 0x01, BitVec.ofNat 8 s.straps.initsel.val, BitVec.ofNat 8 s.straps.twospd.toNat,
        BitVec.ofNat 8 s.straps.fse.toNat, BitVec.ofNat 8 s.tbu.state.isStandby.toNat,
        BitVec.ofNat 8 s.tbu.state.number])
    ∧ (∀ f o, f = ⟨0x04, tag, [1, i, p]⟩ → Offered s m f → i.toNat = Fin.val (n := 8) o →
        (p = 0 → exec (.queryOutput m) s = ok f (outputBytes o (s.sq o)))
        ∧ (p = 1 → exec (.queryOutput m) s = ok f (queueBytes (s.queue o)))
        ∧ (p = 2 → exec (.queryOutput m) s = ok f (burstBytes (s.burst o)))
        ∧ (p = 3 → exec (.queryOutput m) s = ok f (claimBytes (s.claim (.out o)))))
    ∧ (∀ f, f = ⟨0x04, tag, [1, i, p]⟩ → Offered s m f → 8 ≤ i.toNat ∨ 4 ≤ p.toNat → exec (.queryOutput m) s = bad f)
    ∧ (∀ f, f = ⟨0x04, tag, [2, i, p]⟩ → Offered s m f →
        (p ≠ 3 → exec (.queryTimebase m) s = ok f (timebaseBytes s))
        ∧ (p = 3 → exec (.queryTimebase m) s =
          ok f (if Config.timebaseReadsClaim then claimBytes (s.claim .tb) else timebaseBytes s)))
    ∧ (∀ f src, f = ⟨0x04, tag, [3, i, p]⟩ → Offered s m f → i.toNat = Source.number src →
        exec (.querySource m) s = ok f (sourceBytes s src))
    ∧ (∀ f, f = ⟨0x04, tag, [3, i, p]⟩ → Offered s m f → 3 < i.toNat → exec (.querySource m) s = bad f)
    ∧ (∀ f r, f = ⟨0x04, tag, [4, i, p]⟩ → Offered s m f → s.proposal i.toNat = some r →
        exec (.queryProposal m) s = ok f (proposalBytes s.now r))
    ∧ (∀ f, f = ⟨0x04, tag, [4, i, p]⟩ → Offered s m f → s.proposal i.toNat = none →
        exec (.queryProposal m) s = .next (answered (u f) m f .noSuch []))
    ∧ (∀ f j, f = ⟨0x04, tag, [5, i, p]⟩ → Offered s m f → i.toNat = Fin.val (n := 4) j →
        exec (.queryMaster m) s = ok f (masterBytes s.now ((u f).master j)))
    ∧ (∀ f, f = ⟨0x04, tag, [5, i, p]⟩ → Offered s m f → 3 < i.toNat → exec (.queryMaster m) s = bad f)
    ∧ (∀ f, f = ⟨0x04, tag, [6, i, p]⟩ → Offered s m f →
        exec (.queryLink m) s = ok f (linkBytes ((u f).link m) (s.master m).dropped)))
  ∧ (∀ (o : Output) (r : OutRec),
    let b (n : Nat) : Byte := BitVec.ofNat 8 n
    let slot (k : Option Slot) : Nat := match k with | none => 255 | some k => k.val
    let status (f : FrameStatus) : Nat :=
      (match f.base with | .settled => 0 | .unsettled => 1 | .cut => 2)
        + (if f.degraded then 4 else 0) + (if f.afterWake then 8 else 0)
    let lastNo : Nat := match r.last with | none => 65535 | some l => l.number.toNat
    outputBytes o r =
      [b o.val, b (match r.state with | .idle => 0 | .bound => 1 | .waiting => 2 | .running => 3 | .stopping => 4),
        b (slot r.current), b (slot r.next), b r.phase, b r.line, b (r.line / 256), b r.tick, b (r.tick / 256),
        b r.frameNo.toNat, b (r.frameNo.toNat / 256), b (status r.status), b lastNo, b (lastNo / 256),
        b (match r.last with | none => 255 | some l => status l.status),
        b ((if r.frozen then 1 else 0) + (if r.resumeMark then 2 else 0) + (if r.wakeStart then 4 else 0)
          + (match r.polarity with | .normal => 0 | .inverted => 8)
          + (match r.pendingPol with | none => 0 | some .normal => 16 | some .inverted => 48)),
        b (match r.group with | none => 255 | some g => g.val),
        b (match r.cut with | none => 255 | some c => c.slot.val),
        b (match r.cut with | none => 255 | some c => c.origin.val),
        match r.cut with | none => 0 | some c => c.tag])
  ∧ (∀ (s : State) (m : Master) (f : Frame), Admitted s m 0x08 f → 16 ≤ byteAt f.payload 0 →
    exec (.profileRead m) s = .next (answered (taken s m f) m f .badValue [0]))
  ∧ ∀ (s : State) (m : Master) (f : Frame) (k : Slot), Admitted s m 0x08 f → byteAt f.payload 0 = k.val →
    let r := s.slot k
    let b (n : Nat) : Byte := BitVec.ofNat 8 n
    let label := r.label.getD []
    exec (.profileRead m) s = .next (answered (taken s m f) m f .ok
      ([b k.val, b (match r.state with | .emptySlot => 0 | .openSlot => 1 | .fixedSlot => 2),
        b (match r.owner with | none => 255 | some j => j.val), b r.refs,
        b r.geom.lp, b (r.geom.lp / 256), b r.geom.lsw, b (r.geom.lsw / 256), b r.geom.lf, b (r.geom.lf / 256),
        b r.geom.fsw, b r.geom.ws, b (r.geom.ws / 256), b r.geom.wh, b (r.geom.wh / 256), b r.geom.fd, b r.geom.dc,
        b label.length] ++ label))

/-- RELAY, its checks in order: a number above 3, a target that is not a member, a full queue; otherwise the notice is
handed on, unchanged, with the sender's number. -/
def Obligations.RelayChecksAndDelivers : Prop :=
  ∀ (s : State) (m : Master) (f : Frame), Admitted s m 0x1B f →
    (3 < byteAt f.payload 0 → exec (.relay m) s = .next (answered (taken s m f) m f .badValue []))
    ∧ ∀ j : Master, byteAt f.payload 0 = j.val →
        (s.joined j = false → exec (.relay m) s = .next (answered (taken s m f) m f .noSuch []))
        ∧ (s.joined j = true → 16 ≤ (s.link j).queue.length →
            exec (.relay m) s = .next (answered (taken s m f) m f .full []))
        ∧ (s.joined j = true → (s.link j).queue.length < 16 →
            exec (.relay m) s = .next (answered ((taken s m f).setLink j
              { (taken s m f).link j with
                queue := (s.link j).queue ++ [⟨.relay m (f.payload.drop 1), false⟩] }) m f .ok []))

/-! ### Profiles -/

/-- PROFILE_WRITE fills an EMPTY slot or overwrites the requester's own OPEN one, unchecked; another's OPEN slot is
NOT_OWNER, a FIXED one STATE, a slot number of 16 or more BAD_VALUE with field number 0. -/
def Obligations.ProfileWriteStoresADraft : Prop :=
  ∀ (s : State) (m : Master) (f : Frame), Admitted s m 0x05 f →
    let p := f.payload
    (16 ≤ byteAt p 0 → exec (.profileWrite m) s = .next (answered (taken s m f) m f .badValue [0]))
    ∧ ∀ k : Slot, byteAt p 0 = k.val →
        ((s.slot k).state = .emptySlot ∨ (s.slot k).state = .openSlot ∧ (s.slot k).owner = some m →
          exec (.profileWrite m) s = .next (answered ((taken s m f).setSlot k
            { state := .openSlot, owner := some m, refs := 0,
              geom := { lp := wordAt p 1, lsw := wordAt p 3, lf := wordAt p 5, fsw := byteAt p 7, ws := wordAt p 8,
                        wh := wordAt p 10, fd := byteAt p 12, dc := byteAt p 13 },
              label := if p.drop 14 = [] then none else some (p.drop 14) }) m f .ok []))
        ∧ ((s.slot k).state = .openSlot → (s.slot k).owner ≠ some m →
            exec (.profileWrite m) s = .next (answered (taken s m f) m f .notOwner []))
        ∧ ((s.slot k).state = .fixedSlot →
            exec (.profileWrite m) s = .next (answered (taken s m f) m f .state []))

/-- PROFILE_FIX fixes the requester's own OPEN slot when every check of its geometry passes; otherwise BAD_VALUE carries
the number of the first check that fails, the earlier ones passing; a slot that is not OPEN is STATE, another's
NOT_OWNER, a slot number of 16 or more BAD_VALUE with field number 0. -/
def Obligations.ProfileFixChecksTheGeometry : Prop :=
  ∀ (s : State) (m : Master) (f : Frame), Admitted s m 0x06 f →
    (16 ≤ byteAt f.payload 0 → exec (.profileFix m) s = .next (answered (taken s m f) m f .badValue [0]))
    ∧ ∀ k : Slot, byteAt f.payload 0 = k.val →
      let g := (s.slot k).geom
      let check (n : Nat) : Prop :=
        match n with
        | 1 => 64 ≤ g.lp
        | 2 => 1 ≤ g.lsw ∧ g.lsw ≤ g.lp / 2
        | 3 => 32 ≤ g.lf ∧ g.lf ≤ 16383
        | 4 => 1 ≤ g.fsw ∧ g.fsw ≤ 8
        | 5 => g.fsw ≤ g.ws
        | 6 => 8 ≤ g.wh ∧ g.ws + g.wh ≤ g.lf
        | 7 => 1 ≤ g.fd ∧ g.fd ≤ 16
        | 8 => 1 ≤ g.dc ∧ g.dc ≤ 100
        | _ => True
      ((s.slot k).state = .openSlot → (s.slot k).owner = some m → (∀ n, check n) →
        exec (.profileFix m) s =
          .next (answered ((taken s m f).setSlot k { s.slot k with state := .fixedSlot }) m f .ok []))
      ∧ (∀ n, (s.slot k).state = .openSlot → (s.slot k).owner = some m → (∀ i, i < n → check i) → ¬check n →
        exec (.profileFix m) s = .next (answered (taken s m f) m f .badValue [BitVec.ofNat 8 n]))
      ∧ ((s.slot k).state = .openSlot → (s.slot k).owner ≠ some m →
        exec (.profileFix m) s = .next (answered (taken s m f) m f .notOwner []))
      ∧ ((s.slot k).state ≠ .openSlot → exec (.profileFix m) s = .next (answered (taken s m f) m f .state []))

/-- PROFILE_FREE empties an OPEN slot of the requester's, and a FIXED slot, its own or ownerless, that no place and no
pending cut names; a named one is IN_USE, an EMPTY one STATE, another's NOT_OWNER, a slot number of 16 or more BAD_VALUE
with field number 0. -/
def Obligations.ProfileFreeProtectsNamedSlots : Prop :=
  ∀ (s : State) (m : Master) (f : Frame), Admitted s m 0x07 f →
    (16 ≤ byteAt f.payload 0 → exec (.profileFree m) s = .next (answered (taken s m f) m f .badValue [0]))
    ∧ ∀ k : Slot, byteAt f.payload 0 = k.val →
      let empty : SlotRec := ⟨.emptySlot, none, 0, ⟨0, 0, 0, 0, 0, 0, 0, 0⟩, none⟩
      ((s.slot k).state = .emptySlot →
        exec (.profileFree m) s = .next (answered (taken s m f) m f .state []))
      ∧ ((s.slot k).state ≠ .emptySlot → (∃ j, (s.slot k).owner = some j ∧ j ≠ m) →
        exec (.profileFree m) s = .next (answered (taken s m f) m f .notOwner []))
      ∧ ((s.slot k).state = .openSlot → (s.slot k).owner = some m →
        exec (.profileFree m) s = .next (answered ((taken s m f).setSlot k empty) m f .ok []))
      ∧ ((s.slot k).state = .fixedSlot → ((s.slot k).owner = some m ∨ (s.slot k).owner = none) →
          (0 < (s.slot k).refs ∨ ∃ o c, (s.sq o).cut = some c ∧ c.slot = k) →
        exec (.profileFree m) s = .next (answered (taken s m f) m f .inUse []))
      ∧ ((s.slot k).state = .fixedSlot → ((s.slot k).owner = some m ∨ (s.slot k).owner = none) →
          (s.slot k).refs = 0 → (∀ o c, (s.sq o).cut = some c → c.slot ≠ k) →
        exec (.profileFree m) s = .next (answered ((taken s m f).setSlot k empty) m f .ok []))

/-! ### Claims -/

/-- CLAIM: a target, a mode and, of an output, a level or a policy outside its list is BAD_VALUE. Of a FREE target it
makes the requester its one holder in the mode asked: of TB without a level or a policy; of an output with its level and
its policy, a FALLBACK slot being FIXED and gaining a reference. The level NONE and the policy KEEP are coded 0, each as
first of its list, so that every level byte above 2, 0xFF included, is BAD_VALUE (the model's reading, log entry 17). Of
a target already held, a non-holder joins a SHARED record at its tail and is refused CLAIMED on an EXCLUSIVE one; a
holder's level is replaced in its place, with the mode asked on an EXCLUSIVE record; the sole holder may make a record
EXCLUSIVE at once. EXCLUSIVE asked where others hold a SHARED target opens a proposal (`HandedOver`), a non-holder
joining the list once it is open; its last ACCEPT removes every other holder with CLAIM_LOST. -/
def Obligations.ClaimTakesATarget : Prop :=
  (∀ (s : State) (m : Master) (f : Frame), Admitted s m 0x09 f →
    (8 < byteAt f.payload 0 ∨ 1 < byteAt f.payload 1
      ∨ byteAt f.payload 0 < 8 ∧ (2 < byteAt f.payload 2 ∨ 2 < byteAt f.payload 3)) →
    exec (.claim m) s = .next (answered (taken s m f) m f .badValue []))
  ∧ (∀ (s : State) (m : Master) (f : Frame) (excl : Bool), Admitted s m 0x09 f → byteAt f.payload 1 = excl.toNat →
    let mode : ClaimMode := if excl then .exclusive else .shared
    (byteAt f.payload 0 = 8 → (s.claim .tb).mode = .free →
      exec (.claim m) s = .next (answered ((taken s m f).setClaim .tb ⟨mode, [⟨m, .none⟩], .keep⟩) m f .ok []))
    ∧ ∀ (o : Output) (level : ReportLevel), byteAt f.payload 0 = o.val → (s.claim (.out o)).mode = .free →
        byteAt f.payload 2 = level.number →
        (byteAt f.payload 3 = 0 →
          exec (.claim m) s =
            .next (answered ((taken s m f).setClaim (.out o) ⟨mode, [⟨m, level⟩], .keep⟩) m f .ok []))
        ∧ (byteAt f.payload 3 = 1 →
          exec (.claim m) s =
            .next (answered ((taken s m f).setClaim (.out o) ⟨mode, [⟨m, level⟩], .stop⟩) m f .ok []))
        ∧ (∀ k : Slot, byteAt f.payload 3 = 2 → byteAt f.payload 4 = k.val → (s.slot k).state = .fixedSlot →
          exec (.claim m) s =
            .next (answered (((taken s m f).setSlot k { s.slot k with refs := (s.slot k).refs + 1 }).setClaim (.out o)
              ⟨mode, [⟨m, level⟩], .fallback k⟩) m f .ok []))
        ∧ (byteAt f.payload 3 = 2 → (∀ k : Slot, byteAt f.payload 4 = k.val → (s.slot k).state ≠ .fixedSlot) →
          exec (.claim m) s = .next (answered (taken s m f) m f .badValue [])))
  ∧ (∀ (s : State) (m : Master) (f : Frame) (t : Target) (level : ReportLevel), Admitted s m 0x09 f →
    byteAt f.payload 0 = t.number → (match t with
      | .out _ => byteAt f.payload 2 = level.number ∧ byteAt f.payload 3 ≤ 2
      | .tb => level = .none) →
    let c := s.claim t
    let leveled : List Holder := c.holders.map fun h => if h.master = m then { h with level := level } else h
    (c.mode = .shared → s.isHolder t m = false → byteAt f.payload 1 = 0 →
      exec (.claim m) s = .next (answered ((taken s m f).setClaim t
        { c with holders := c.holders ++ [⟨m, level⟩] }) m f .ok []))
    ∧ (c.mode = .exclusive → s.isHolder t m = false → byteAt f.payload 1 ≤ 1 →
      exec (.claim m) s = .next (answered (taken s m f) m f .claimed []))
    ∧ (∀ old, c.mode = .shared → c.holders = [⟨m, old⟩] → byteAt f.payload 1 = 1 →
      exec (.claim m) s = .next (answered ((taken s m f).setClaim t
        { c with mode := .exclusive, holders := [⟨m, level⟩] }) m f .ok []))
    ∧ (c.mode = .shared → s.isHolder t m = true → byteAt f.payload 1 = 0 →
      exec (.claim m) s = .next (answered ((taken s m f).setClaim t { c with holders := leveled }) m f .ok []))
    ∧ (∀ excl : Bool, c.mode = .exclusive → s.isHolder t m = true → byteAt f.payload 1 = excl.toNat →
      exec (.claim m) s = .next (answered ((taken s m f).setClaim t
        { c with mode := if excl then .exclusive else .shared, holders := leveled }) m f .ok []))
    ∧ (c.mode = .shared → s.isSole t m = false → byteAt f.payload 1 = 1 →
      HandedOver s (taken s m f) m f.tag (.claimExclusive t) (wordAt f.payload 5) fun u code bytes =>
        exec (.claim m) s = .next (answered (if code = .proposed then u.setClaim t
            { c with holders := if s.isHolder t m then leveled else c.holders ++ [⟨m, level⟩] } else u)
          m f code bytes)))
  ∧ ∀ (s : State) (m : Master) (f : Frame) (p : Proposal) (t : Target), LastVote s m f p → p.matter = .claimExclusive t →
    let c := s.claim t
    let lost := (c.holders.filter fun h => h.master != p.proposer).map Holder.master
    exec (.vote m) s = .next (answered (roundOver
      (lost.foldl (fun u j => u.hand j (.claimLost t p.proposer p.id)) ((taken s m f).setClaim t
        { c with mode := .exclusive, holders := c.holders.filter fun h => h.master == p.proposer }))
      p .carried) m f .ok [])

/-- CLAIM_SET, its checks in order: a target that is no output, a policy outside its list (KEEP being coded 0, the
model's reading, log entry 17), a requester that does not hold the output, or not alone, a fallback slot that is not
FIXED. When they pass the policy is replaced: a new fallback slot gains a reference, the former one loses one. -/
def Obligations.ClaimSetReplacesThePolicy : Prop :=
  ∀ (s : State) (m : Master) (f : Frame), Admitted s m 0x0A f →
    (7 < byteAt f.payload 0 → exec (.claimSet m) s = .next (answered (taken s m f) m f .badValue []))
    ∧ ∀ o : Output, byteAt f.payload 0 = o.val →
      let c := s.claim (.out o)
      let former : Option Slot := match c.policy with
        | .fallback k => some k
        | .keep => none
        | .stop => none
      (2 < byteAt f.payload 1 → exec (.claimSet m) s = .next (answered (taken s m f) m f .badValue []))
      ∧ (s.isHolder (.out o) m = false → byteAt f.payload 1 ≤ 2 →
        exec (.claimSet m) s = .next (answered (taken s m f) m f .notHolder []))
      ∧ (s.isHolder (.out o) m = true → s.isSole (.out o) m = false → byteAt f.payload 1 ≤ 2 →
        exec (.claimSet m) s = .next (answered (taken s m f) m f .notSole []))
      ∧ (s.isSole (.out o) m = true → byteAt f.payload 1 = 2 →
          (∀ k : Slot, byteAt f.payload 2 = k.val → (s.slot k).state ≠ .fixedSlot) →
        exec (.claimSet m) s = .next (answered (taken s m f) m f .badValue []))
      ∧ (∀ k : Slot, s.isSole (.out o) m = true → byteAt f.payload 1 = 2 → byteAt f.payload 2 = k.val →
          (s.slot k).state = .fixedSlot →
        exec (.claimSet m) s = .next (answered
          ((((taken s m f).addRef k).dropRefOpt former).setClaim (.out o) { c with policy := .fallback k }) m f .ok []))
      ∧ (s.isSole (.out o) m = true → byteAt f.payload 1 = 0 →
        exec (.claimSet m) s = .next (answered
          (((taken s m f).dropRefOpt former).setClaim (.out o) { c with policy := .keep }) m f .ok []))
      ∧ (s.isSole (.out o) m = true → byteAt f.payload 1 = 1 →
        exec (.claimSet m) s = .next (answered
          (((taken s m f).dropRefOpt former).setClaim (.out o) { c with policy := .stop }) m f .ok []))

/-- RELEASE: the holder's entry goes and the others keep their order. A proposal open on the target ends WITHDRAWN if
the holder proposed it, and loses it as a voter otherwise, which carries it where the others have all accepted: a change
or a stop of an output in any state, a start, an EXCLUSIVE claim, a CLOCK (`Carries`). When nobody is left the orphan
policy acts and the record becomes FREE, a fallback losing its reference: STOP and FALLBACK discard the QUEUED entries
of a running output and append their own, STOP brings a waiting output back to BOUND, FALLBACK binds an output at rest
and is appended in STOPPING too; KEEP does nothing. A target outside its list is BAD_VALUE, and a requester that does
not hold the target NOT_HOLDER. Where the release carries a round, these are the model's choices: CHANGE_DONE before the
OUTPUT_STATE of the same carry, and starts at one moment in the order of the outputs' numbers (log entry 11), what a
CLOCK that completes at once does (log entries 11, 19), and what a lock in progress stores that a CLOCK ends (log entry
29). -/
def Obligations.ReleaseRemovesTheHolder : Prop :=
  (∀ (s : State) (m : Master) (f : Frame), Admitted s m 0x0B f →
    (8 < byteAt f.payload 0 → exec (.release m) s = .next (answered (taken s m f) m f .badValue []))
    ∧ ∀ t : Target, byteAt f.payload 0 = t.number → s.isHolder t m = false →
      exec (.release m) s = .next (answered (taken s m f) m f .notHolder []))
  ∧ ∀ (s : State) (m : Master) (f : Frame) (t : Target), Admitted s m 0x0B f → byteAt f.payload 0 = t.number →
    s.isHolder t m = true →
    HolderGone s (taken s m f) t m (fun u => exec (.release m) s = .next (answered u m f .ok []))

/-! ### Requests on outputs -/

/-- CHANGE by the sole holder of an output at rest binds it to the FIXED slot: the slot gains a reference and the former
current slot loses one; an IDLE output goes to BOUND and its holders are told. From a holder, alone or not, a slot that is
not FIXED is BAD_VALUE, and so is an output number above 7 from any member. -/
def Obligations.ChangeBindsAnOutputAtRest : Prop :=
  (∀ (s : State) (m : Master) (f : Frame), Admitted s m 0x0C f → 7 < byteAt f.payload 0 →
    exec (.change m) s = .next (answered (taken s m f) m f .badValue []))
  ∧ (∀ (s : State) (m : Master) (f : Frame) (o : Output), Admitted s m 0x0C f → byteAt f.payload 0 = o.val →
    s.isHolder (.out o) m = true → (∀ k : Slot, byteAt f.payload 1 = k.val → (s.slot k).state ≠ .fixedSlot) →
    exec (.change m) s = .next (answered (taken s m f) m f .badValue []))
  ∧ ∀ (s : State) (m : Master) (f : Frame) (o : Output), Admitted s m 0x0C f → byteAt f.payload 0 = o.val →
    s.isSole (.out o) m = true →
    ∀ k : Slot, byteAt f.payload 1 = k.val → (s.slot k).state = .fixedSlot →
      let u := ((taken s m f).addRef k).dropRefOpt (s.sq o).current
      ((s.sq o).state = .idle →
        exec (.change m) s = .next (answered
          ((u.setSq o { s.sq o with state := .bound, current := some k }).handAll (s.holders (.out o))
            (.outputState o .idle .bound (s.sq o).frameNo)) m f .ok []))
      ∧ ((s.sq o).state = .bound ∨ (s.sq o).state = .waiting →
        exec (.change m) s = .next (answered (u.setSq o { s.sq o with current := some k }) m f .ok []))

/-- CHANGE by the sole holder of a running output is queued with its own reference, and refused FULL at 4 entries; in
STOPPING it is STATE; a non-holder is NOT_HOLDER, whatever the slot. -/
def Obligations.ChangeQueuesOnARunningOutput : Prop :=
  (∀ (s : State) (m : Master) (f : Frame) (o : Output), Admitted s m 0x0C f → byteAt f.payload 0 = o.val →
    s.isHolder (.out o) m = false → exec (.change m) s = .next (answered (taken s m f) m f .notHolder []))
  ∧ ∀ (s : State) (m : Master) (f : Frame) (o : Output) (k : Slot), Admitted s m 0x0C f → byteAt f.payload 0 = o.val →
    byteAt f.payload 1 = k.val → (s.slot k).state = .fixedSlot →
    (s.isSole (.out o) m = true → (s.sq o).state = .running → (s.queue o).length < 4 →
      exec (.change m) s = .next (answered
        (((taken s m f).setSlot k { s.slot k with refs := (s.slot k).refs + 1 }).setQueue o
          (s.queue o ++ [⟨.change k, some (m, f.tag), .queued, none⟩])) m f .queued []))
    ∧ (s.isSole (.out o) m = true → (s.sq o).state = .running → 4 ≤ (s.queue o).length →
      exec (.change m) s = .next (answered (taken s m f) m f .full []))
    ∧ (s.isSole (.out o) m = true → (s.sq o).state = .stopping →
      exec (.change m) s = .next (answered (taken s m f) m f .state []))

/-- CHANGE by a holder that shares the output opens a proposal, whatever its window and the proposals open on other
targets (`HandedOver`: the windows of R80, the checks of R82 in order, the id of R83, the reservations and notices of
R84); the queue holds a RESERVED entry, and the slot gains a reference for the entry and one for the payload. The last
ACCEPT carries it: the RESERVED entry of a running or stopping output becomes QUEUED in its place; of another output it
leaves APPLIED and the output is bound, the entry's CHANGE_DONE being handed before the OUTPUT_STATE of an IDLE output
(the model's order, log entry 11). The payload's reference goes, and the round is over. -/
def Obligations.SharedChangeOpensAProposal : Prop :=
  (∀ (s : State) (m : Master) (f : Frame) (o : Output) (k : Slot), Admitted s m 0x0C f → byteAt f.payload 0 = o.val →
    byteAt f.payload 1 = k.val → (s.slot k).state = .fixedSlot →
    s.isHolder (.out o) m = true → s.isSole (.out o) m = false →
    HandedOver s (taken s m f) m f.tag (.outputChange o k) (wordAt f.payload 2) fun t code bytes =>
      exec (.change m) s = .next (answered t m f code bytes))
  ∧ ∀ (s : State) (m : Master) (f : Frame) (p : Proposal) (o : Output) (k : Slot), LastVote s m f p →
      p.matter = .outputChange o k →
    let r := s.sq o
    let applied := entriesGo o .applied ((taken s m f).setQueue o ((s.queue o).filter fun e => !reservedFor p e))
      ((s.queue o).filter (reservedFor p))
    let bound := ((applied.addRef k).dropRefOpt r.current).setSq o
      { r with current := some k, state := if r.state = .idle then .bound else r.state }
    (r.runs = true → exec (.vote m) s = .next (answered (roundOver (((taken s m f).setQueue o ((s.queue o).map fun e =>
      if reservedFor p e then { e with state := .queued } else e)).dropRef k) p .carried) m f .ok []))
    ∧ (r.state = .bound ∨ r.state = .waiting → exec (.vote m) s =
      .next (answered (roundOver (bound.dropRef k) p .carried) m f .ok []))
    ∧ (r.state = .idle → exec (.vote m) s =
      .next (answered (roundOver ((bound.handAll (s.holders (.out o))
        (.outputState o .idle .bound r.frameNo)).dropRef k) p .carried) m f .ok []))

/-- STOP by the sole holder: queued on a running output, FULL at 4 entries; a waiting output returns to BOUND and its
holders are told; in the other states it is STATE; a non-holder is NOT_HOLDER, and an output number above 7 BAD_VALUE.
Of a shared output it opens a proposal that reserves an entry (`HandedOver`). The last ACCEPT carries it: the RESERVED
entry of a running output becomes QUEUED; of a waiting one it leaves APPLIED and the output returns to BOUND, the
entry's CHANGE_DONE being handed before the OUTPUT_STATE (the model's order, log entry 11); otherwise it leaves
WITHDRAWN and the round FAILED with STATE. -/
def Obligations.StopActsByState : Prop :=
  (∀ (s : State) (m : Master) (f : Frame) (o : Output), Admitted s m 0x0D f → byteAt f.payload 0 = o.val →
    s.isSole (.out o) m = true →
    ((s.sq o).state = .running → (s.queue o).length < 4 →
      exec (.stop m) s = .next (answered ((taken s m f).setQueue o
        (s.queue o ++ [⟨.stop, some (m, f.tag), .queued, none⟩])) m f .queued []))
    ∧ ((s.sq o).state = .running → 4 ≤ (s.queue o).length →
      exec (.stop m) s = .next (answered (taken s m f) m f .full []))
    ∧ ((s.sq o).state = .waiting →
      exec (.stop m) s = .next (answered
        (((taken s m f).setSq o { s.sq o with state := .bound, wakeStart := false }).handAll (s.holders (.out o))
          (.outputState o .waiting .bound (s.sq o).frameNo)) m f .ok []))
    ∧ ((s.sq o).state = .idle ∨ (s.sq o).state = .bound ∨ (s.sq o).state = .stopping →
      exec (.stop m) s = .next (answered (taken s m f) m f .state [])))
  ∧ (∀ (s : State) (m : Master) (f : Frame) (o : Output), Admitted s m 0x0D f → byteAt f.payload 0 = o.val →
    (s.isHolder (.out o) m = false →
      exec (.stop m) s = .next (answered (taken s m f) m f .notHolder []))
    ∧ (s.isHolder (.out o) m = true → s.isSole (.out o) m = false →
      HandedOver s (taken s m f) m f.tag (.outputStop o) (wordAt f.payload 1) fun t code bytes =>
        exec (.stop m) s = .next (answered t m f code bytes)))
  ∧ (∀ (s : State) (m : Master) (f : Frame), Admitted s m 0x0D f → 7 < byteAt f.payload 0 →
    exec (.stop m) s = .next (answered (taken s m f) m f .badValue []))
  ∧ ∀ (s : State) (m : Master) (f : Frame) (p : Proposal) (o : Output), LastVote s m f p → p.matter = .outputStop o →
    let r := s.sq o
    let left (outcome : ChangeOutcome) := entriesGo o outcome
      ((taken s m f).setQueue o ((s.queue o).filter fun e => !reservedFor p e)) ((s.queue o).filter (reservedFor p))
    (r.state = .running → exec (.vote m) s = .next (answered (roundOver ((taken s m f).setQueue o ((s.queue o).map fun e =>
      if reservedFor p e then { e with state := .queued } else e)) p .carried) m f .ok []))
    ∧ (r.state = .waiting → exec (.vote m) s = .next (answered (roundOver
      (((left .applied).setSq o { r with state := .bound, wakeStart := false }).handAll (s.holders (.out o))
        (.outputState o .waiting .bound r.frameNo)) p .carried) m f .ok []))
    ∧ (r.state = .idle ∨ r.state = .bound ∨ r.state = .stopping → exec (.vote m) s =
      .next (answered (roundOver (left .withdrawn) p (.failed .state)) m f .ok []))

/-- START by the sole holder of a BOUND output: without a timebase it waits; with one, and no group, it starts in the
same event at frame 0, phase 0, line 0, its status by wake start and FAIL; in a group whose members do not run it starts
too, and waits behind a member in RUNNING; in the other states it is STATE; a non-holder is NOT_HOLDER; an output number
above 7 is BAD_VALUE, and so is a form byte that names neither form, under both rows (log entry 21). Of a shared output
it opens a proposal (`HandedOver`), in whatever state the output is. The last ACCEPT carries it: a BOUND output waits or
starts in the same way; in the other states the round FAILED with STATE. The outputs that wait are examined together
(R29); a start hands a burst's notice before its OUTPUT_STATE, and starts at one moment come in the order of the
outputs' numbers (log entry 11). -/
def Obligations.StartMovesABoundOutput : Prop :=
  let waits (s u : State) (o : Output) : State := (u.setSq o { s.sq o with state := .waiting }).handAll
    (s.holders (.out o)) (.outputState o .bound .waiting (s.sq o).frameNo)
  let starts (s u : State) (o : Output) : State := ((waits s u o).setSq o
    { s.sq o with state := .running, phase := 0, line := 0, tick := 0, lineEnd := false, frameNo := 0,
                  status := ⟨if (s.sq o).wakeStart then .unsettled else .settled, s.tbu.fail, (s.sq o).wakeStart⟩,
                  last := none, frozen := false, wakeStart := false, held := none,
                  polarity := (s.sq o).pendingPol.getD (s.sq o).polarity, pendingPol := none }).handAll
    (s.holders (.out o)) (.outputState o .waiting .running 0)
  let alignRuns (s : State) : Prop :=
    ∀ cur sw d, s.tbu.state = .waitAlign cur sw d → ∀ a, sw.align = some a → (s.sq a).state = .running
  (∀ (s : State) (m : Master) (f : Frame) (o : Output), Admitted s m 0x0E f → byteAt f.payload 0 = 0 →
    byteAt f.payload 1 = o.val → s.isSole (.out o) m = true →
    ((s.sq o).state = .bound → alignRuns s →
      let w := waits s (taken s m f) o
      exec (.start m) s = .next (answered (startTogether w (starters w none)) m f .ok []))
    ∧ (∀ g p, (s.sq o).state = .bound → Undisturbed s → (s.sq o).group = some g → (s.sq p).group = some g →
        (s.sq p).state = .running →
      exec (.start m) s = .next (answered (waits s (taken s m f) o) m f .ok []))
    ∧ ((s.sq o).state = .bound → s.tbu.state.current = none →
      exec (.start m) s = .next (answered (waits s (taken s m f) o) m f .ok []))
    ∧ ((s.sq o).state = .bound → s.tbu.state.current ≠ none → (s.sq o).group = none → s.burst o = none →
        Undisturbed s →
      exec (.start m) s = .next (answered (starts s (taken s m f) o) m f .ok []))
    ∧ ((s.sq o).state ≠ .bound → exec (.start m) s = .next (answered (taken s m f) m f .state [])))
  ∧ (∀ (s : State) (m : Master) (f : Frame) (o : Output), Admitted s m 0x0E f → byteAt f.payload 0 = 0 →
    byteAt f.payload 1 = o.val →
    (s.isHolder (.out o) m = false →
      exec (.start m) s = .next (answered (taken s m f) m f .notHolder []))
    ∧ (s.isHolder (.out o) m = true → s.isSole (.out o) m = false →
      HandedOver s (taken s m f) m f.tag (.outputStart o) (wordAt f.payload 2) fun t code bytes =>
        exec (.start m) s = .next (answered t m f code bytes)))
  ∧ (∀ (s : State) (m : Master) (f : Frame), Admitted s m 0x0E f →
    (byteAt f.payload 0 = 0 → 7 < byteAt f.payload 1 →
      exec (.start m) s = .next (answered (taken s m f) m f .badValue []))
    ∧ (1 < byteAt f.payload 0 →
      exec (.start m) s = .next (answered (taken s m f) m f .badValue [])
      ∧ exec (.groupStart m) s = .next (answered (taken s m f) m f .badValue [])))
  ∧ ∀ (s : State) (m : Master) (f : Frame) (p : Proposal) (o : Output), LastVote s m f p → p.matter = .outputStart o →
    ((s.sq o).state = .bound → alignRuns s →
      let w := waits s (taken s m f) o
      exec (.vote m) s = .next (answered (roundOver (startTogether w (starters w none)) p .carried) m f .ok []))
    ∧ ((s.sq o).state = .bound → s.tbu.state.current = none →
      exec (.vote m) s = .next (answered (roundOver (waits s (taken s m f) o) p .carried) m f .ok []))
    ∧ ((s.sq o).state = .bound → s.tbu.state.current ≠ none → (s.sq o).group = none → s.burst o = none →
        Undisturbed s →
      exec (.vote m) s = .next (answered (roundOver (starts s (taken s m f) o) p .carried) m f .ok []))
    ∧ ((s.sq o).state ≠ .bound →
      exec (.vote m) s = .next (answered (roundOver (taken s m f) p (.failed .state)) m f .ok []))

/-- START naming a group: every BOUND member that the requester holds alone goes to WAITING, and the set of them is the
answer; with no such member it is STATE and no output changes, with a timebase and without one; a group number above 3 is
BAD_VALUE. The members moved are then examined together: output by output, each hands its OUTPUT_STATE for WAITING and,
where its start instant is now, starts (`movedTogether`; a burst's notice first, log entry 11). Without a timebase none
starts, and nothing else changes but notices. -/
def Obligations.GroupStartMovesItsMembers : Prop :=
  ∀ (s : State) (m : Master) (f : Frame), Admitted s m 0x0E f → byteAt f.payload 0 = 1 →
    (3 < byteAt f.payload 1 → exec (.groupStart m) s = .next (answered (taken s m f) m f .badValue []))
    ∧ ∀ g : Group, byteAt f.payload 1 = g.val →
      let moves (o : Output) : Bool := (s.sq o).group == some g && (s.sq o).state == .bound && s.isSole (.out o) m
      let movers := allOutputs.filter moves
      let w := movers.foldl (fun u o => u.setSq o { s.sq o with state := .waiting }) (taken s m f)
      ((∀ o, moves o = false) → exec (.groupStart m) s = .next (answered (taken s m f) m f .state []))
      ∧ ((∃ o, moves o = true) → exec (.groupStart m) s =
        .next (answered (movedTogether w movers (starters w none)) m f .ok (outputSet movers)))
      ∧ ((∃ o, moves o = true) → s.tbu.state.current = none → ∃ t,
        exec (.groupStart m) s = .next (answered t m f .ok (outputSet movers))
        ∧ OnlyNotices (taken s m f) t
        ∧ t = { taken s m f with links := t.links, masters := t.masters, chans := t.chans }
        ∧ ∀ o, t.chan o =
          if moves o then { s.chan o with sq := { s.sq o with state := .waiting } } else s.chan o)

/-- CUT, its checks in order: an output number above 7, a requester that does not hold the output, or not alone, a slot
that is not FIXED, a state other than RUNNING. When they pass, the pending cut is stored without a reference; an earlier
one is dropped SUPERSEDED and reported first. -/
def Obligations.CutIsStored : Prop :=
  (∀ (s : State) (m : Master) (f : Frame), Admitted s m 0x0F f →
    (7 < byteAt f.payload 0 → exec (.cut m) s = .next (answered (taken s m f) m f .badValue []))
    ∧ ∀ o : Output, byteAt f.payload 0 = o.val →
      (s.isHolder (.out o) m = false → exec (.cut m) s = .next (answered (taken s m f) m f .notHolder []))
      ∧ (s.isHolder (.out o) m = true → s.isSole (.out o) m = false →
        exec (.cut m) s = .next (answered (taken s m f) m f .notSole []))
      ∧ (s.isSole (.out o) m = true → (∀ k : Slot, byteAt f.payload 1 = k.val → (s.slot k).state ≠ .fixedSlot) →
        exec (.cut m) s = .next (answered (taken s m f) m f .badValue [])))
  ∧ ∀ (s : State) (m : Master) (f : Frame) (o : Output) (k : Slot), Admitted s m 0x0F f → byteAt f.payload 0 = o.val →
    byteAt f.payload 1 = k.val → (s.slot k).state = .fixedSlot →
    (s.isSole (.out o) m = true → (s.sq o).state = .running → (s.sq o).cut = none →
      exec (.cut m) s = .next (answered ((taken s m f).setSq o { s.sq o with cut := some ⟨k, m, f.tag⟩ })
        m f .queued []))
    ∧ (∀ c, s.isSole (.out o) m = true → (s.sq o).state = .running → (s.sq o).cut = some c →
      exec (.cut m) s = .next (answered
        ((((taken s m f).setSq o { s.sq o with cut := none }).handAll (withOrigin (s.holders (.out o)) (some c.origin))
          (.changeDone o (.cut c.slot) (some (c.origin, c.tag)) none (s.sq o).frameNo .superseded)).setSq o
            { s.sq o with cut := some ⟨k, m, f.tag⟩ }) m f .queued []))
    ∧ (s.isSole (.out o) m = true → (s.sq o).state ≠ .running →
      exec (.cut m) s = .next (answered (taken s m f) m f .state []))

/-- OUTPUT_SET: an output number above 7, and a group or a polarity outside its list, are BAD_VALUE; then a requester
that does not hold the output is NOT_HOLDER, and one that does not hold it alone NOT_SOLE. A group, none or KEEP (0xFF,
0xFE) that differs from the group of an output in WAITING, RUNNING or STOPPING is STATE and applies nothing, the
polarity included. Otherwise the group is set, the one it has already in any state; the polarity KEEP leaves both
polarities as they are; another takes effect at once in IDLE, BOUND and WAITING, and of a running output one that
differs from that in effect is pending, while the one in effect makes the pending one absent. -/
def Obligations.OutputSetChangesSettings : Prop :=
  ∀ (s : State) (m : Master) (f : Frame), Admitted s m 0x10 f →
    let g := byteAt f.payload 1
    let q := byteAt f.payload 2
    (7 < byteAt f.payload 0 ∨ 3 < g ∧ g ≠ 0xFE ∧ g ≠ 0xFF ∨ 1 < q ∧ q ≠ 0xFE →
      exec (.outputSet m) s = .next (answered (taken s m f) m f .badValue []))
    ∧ ∀ (o : Output) (group : Option (Option Group)) (pol : Option Polarity), byteAt f.payload 0 = o.val →
      g = (match group with
        | none => 0xFE
        | some none => 0xFF
        | some (some k) => k.val) →
      q = (match pol with
        | none => 0xFE
        | some .normal => 0
        | some .inverted => 1) →
      let r := s.sq o
      let r' : OutRec := { r with group := group.getD r.group }
      (s.isHolder (.out o) m = false → exec (.outputSet m) s = .next (answered (taken s m f) m f .notHolder []))
      ∧ (s.isHolder (.out o) m = true → s.isSole (.out o) m = false →
        exec (.outputSet m) s = .next (answered (taken s m f) m f .notSole []))
      ∧ (s.isSole (.out o) m = true → r'.group ≠ r.group → r.state ≠ .idle → r.state ≠ .bound →
        exec (.outputSet m) s = .next (answered (taken s m f) m f .state []))
      ∧ (s.isSole (.out o) m = true → r'.group = r.group ∨ r.state = .idle ∨ r.state = .bound →
        (pol = none → exec (.outputSet m) s = .next (answered ((taken s m f).setSq o r') m f .ok []))
        ∧ ∀ p, pol = some p →
          (r.state ≠ .running → r.state ≠ .stopping → exec (.outputSet m) s =
            .next (answered ((taken s m f).setSq o { r' with polarity := p, pendingPol := none }) m f .ok []))
          ∧ (r.state = .running ∨ r.state = .stopping → p ≠ r.polarity → exec (.outputSet m) s =
            .next (answered ((taken s m f).setSq o { r' with pendingPol := some p }) m f .ok []))
          ∧ (r.state = .running ∨ r.state = .stopping → p = r.polarity → exec (.outputSet m) s =
            .next (answered ((taken s m f).setSq o { r' with pendingPol := none }) m f .ok [])))

/-! ### Lines and frames -/

/-- LINE_START of a line that has lasted its LP ticks, within a frame, away from the intake point and with no cut due:
the line rises by 1, the tick returns to 0, and the line start reaches the burst, which runs on or completes. Before LP
ticks (the model's choice of when a line ends, log entry 4), of a frozen output and of one that does not run there is no
line start, and the command changes nothing (the model's choice, log entry 2). The start of line 4 reaches the burst and
then is the intake point (`lineReaches`, log entry 11): a QUEUED CHANGE at the head is TAKEN, next names its slot with a
reference of its own, and an emitted frame is UNSETTLED; a QUEUED STOP is TAKEN and the output goes to STOPPING, its
holders being told, and its leaving RUNNING reaches a switch and the waiting members of its group (`HandedOn`, log
entries 11, 12, 19); an empty queue and a RESERVED or TAKEN head leave it at the line start. The pins of an output in
RUNNING or STOPPING follow its line, tick, phase and burst, at the levels of its polarity; those of another output are
inactive, and those of a frozen one are held (all four, log entry 10). -/
def Obligations.LineStartIntakeAndPins : Prop :=
  (∀ (s : State) (o : Output),
    (LineDue s o → (s.sq o).line + 1 < (s.geom o).lf → (s.sq o).line + 1 ≠ 4 →
        ((s.sq o).cut = none ∨ (s.sq o).line + 1 < 16) →
      let r : OutRec := { s.sq o with line := (s.sq o).line + 1, tick := 0, lineEnd := false }
      (s.burst o = none → exec (.lineStart o) s = .next (s.setSq o r))
      ∧ (∀ b b', s.burst o = some b → b.lineStart r = .runsOn b' →
        exec (.lineStart o) s = .next ((s.setSq o r).setBurst o (some b')))
      ∧ (∀ b b', s.burst o = some b → b.lineStart r = .completes b' →
        exec (.lineStart o) s = .next (((s.setSq o r).setBurst o none).hand b.origin
          (.burstDone o b.pattern b.origin b.tag .complete b'.pulses b'.repeats (s.sq o).frameNo))))
    ∧ (¬LineDue s o → exec (.lineStart o) s = .next s ∧ exec (.frameBoundary o) s = .next s))
  ∧ (∀ (s : State) (o : Output),
    let r := s.sq o
    let g := s.geom o
    let level (active : Prop) [Decidable active] : Bool := if r.polarity = .normal then decide active else !decide active
    (r.held = none → r.state = .running ∨ r.state = .stopping → s.pins o =
      { fs := level (r.phase = 0 ∧ r.line < g.fsw)
        ls := level (r.tick < g.lsw)
        win := level (r.phase = 0 ∧ g.ws ≤ r.line ∧ r.line < g.ws + g.wh)
        stb := level ((s.burst o).map Burst.phase = some .on) })
    ∧ (r.held = none → r.state ≠ .running → r.state ≠ .stopping →
        s.pins o = { fs := level False, ls := level False, win := level False, stb := level False })
    ∧ ∀ p, r.held = some p → s.pins o = p)
  ∧ ∀ (s : State) (o : Output), LineDue s o → (s.sq o).line = 3 → 4 < (s.geom o).lf →
    let r : OutRec := { s.sq o with line := 4, tick := 0, lineEnd := false }
    let u := lineReaches (s.setSq o r) o
    (s.queue o = [] → exec (.lineStart o) s = .next u)
    ∧ (∀ e rest, s.queue o = e :: rest → e.state ≠ .queued → exec (.lineStart o) s = .next u)
    ∧ (∀ k origin pid rest, s.queue o = ⟨.change k, origin, .queued, pid⟩ :: rest →
      exec (.lineStart o) s = .next (((u.setQueue o (⟨.change k, origin, .taken, pid⟩ :: rest)).setSlot k
        { s.slot k with refs := (s.slot k).refs + 1 }).setSq o
          { r with next := some k, status := unsettled (s.sq o) }))
    ∧ ∀ origin pid rest, s.queue o = ⟨.stop, origin, .queued, pid⟩ :: rest → (s.sq o).state = .running →
      HandedOn (((u.setQueue o (⟨.stop, origin, .taken, pid⟩ :: rest)).setSq o
          { r with state := .stopping, status := unsettled (s.sq o) }).handAll (s.holders (.out o))
        (.outputState o .running .stopping (s.sq o).frameNo)) o false (fun t => exec (.lineStart o) s = .next t)

/-- FRAME_BOUNDARY of a running output with nothing taken, at the end of its last line: an emitted frame completes, is
recorded and reported to the holders whose level asks for it, and the next frame begins at the next phase; at phase 0 it
is emitted, with the next number and DEGRADED as FAIL stands; a pending polarity takes effect. The line start reaches the
burst, which runs on or completes. An emitted frame start is handed on: it completes an aligned switch that waits for it,
the new frame being unmarked, and starts the waiting members whose anchor the output is (`HandedOn`, log entries 11, 12,
19); a silent one is not. -/
def Obligations.FrameBoundaryGoesOn : Prop :=
  ∀ (s : State) (o : Output), LineDue s o → (s.sq o).state = .running → (s.geom o).lf ≤ (s.sq o).line + 1 →
    (s.sq o).cut = none → (∀ e, (s.queue o).head? = some e → e.state ≠ .taken) →
    let r := s.sq o
    let phase := (r.phase + 1) % (s.geom o).fd
    let told := ((s.claim (.out o)).holders.filter fun h =>
      h.level == .all || h.level == .irregular && (r.status.base != .settled || r.status.degraded)).map Holder.master
    let next (last : Option LastFrame) : OutRec :=
      { r with phase := phase, line := 0, tick := 0, lineEnd := false,
               status := if phase = 0 then ⟨.settled, s.tbu.fail, false⟩ else ⟨.settled, false, false⟩,
               frameNo := if phase = 0 then r.frameNo + 1 else r.frameNo,
               last := last, polarity := r.pendingPol.getD r.polarity, pendingPol := none }
    let u := lineReaches ((frameReported s o r.status).setSq o
      (next (if r.phase = 0 then some ⟨r.frameNo, r.status⟩ else r.last))) o
    (Undisturbed s → s.burst o = none → r.phase = 0 → exec (.frameBoundary o) s = .next
      ((s.handAll told (.frameEnd o r.frameNo r.status)).setSq o (next (some ⟨r.frameNo, r.status⟩))))
    ∧ (Undisturbed s → s.burst o = none → r.phase ≠ 0 → exec (.frameBoundary o) s = .next (s.setSq o (next r.last)))
    ∧ (Undisturbed s → exec (.frameBoundary o) s = .next u)
    ∧ (phase ≠ 0 → exec (.frameBoundary o) s = .next u)
    ∧ (phase = 0 → HandedOn u o true (fun t => exec (.frameBoundary o) s = .next t))

/-- FRAME_BOUNDARY with a TAKEN CHANGE, at the end of the last line: an emitted frame is recorded and reported with
FRAME_END, current becomes next's slot and next is absent, an emitted frame begins on the new profile, and the entry
leaves APPLIED with its CHANGE_DONE. The new slot loses the entry's and next's references and gains current's; the former
current slot loses its own. A burst that passes the duty check of the new profile, with its LINE below the new LF, is
reached by the line start; another one ends DUTY. The emitted frame start is then handed on (`HandedOn`, log entries 11,
12, 19). -/
def Obligations.ProfileSwapAtTheBoundary : Prop :=
  ∀ (s : State) (o : Output) (k old : Slot) (origin : Option (Master × Byte)) (pid : Option Nat) (rest : List Entry),
    LineDue s o → (s.sq o).state = .running → (s.geom o).lf ≤ (s.sq o).line + 1 → (s.sq o).cut = none →
    s.queue o = ⟨.change k, origin, .taken, pid⟩ :: rest → (∀ e ∈ rest, e.state ≠ .taken) →
    (s.sq o).next = some k → (s.sq o).current = some old →
    let r : OutRec := { s.sq o with
      current := some k, next := none, phase := 0, line := 0, tick := 0, lineEnd := false,
      status := ⟨.settled, s.tbu.fail, false⟩, frameNo := (s.sq o).frameNo + 1,
      last := if (s.sq o).phase = 0 then some ⟨(s.sq o).frameNo, (s.sq o).status⟩ else (s.sq o).last,
      polarity := (s.sq o).pendingPol.getD (s.sq o).polarity, pendingPol := none }
    let swapped := entriesGo o .applied ((((((frameReported s o (s.sq o).status).addRef k).dropRef old).dropRef k).setSq o
      r).setQueue o rest) [⟨.change k, origin, .taken, pid⟩]
    let passes : Pattern → Prop
      | .timed on off _ _ _ => on * 100 ≤ (s.slot k).geom.dc * (on + off)
      | .continuous on off => on * 100 ≤ (s.slot k).geom.dc * (on + off)
      | .perFrame line on => on * 100 ≤ (s.slot k).geom.dc * (s.slot k).geom.lf ∧ line < (s.slot k).geom.lf
    (Undisturbed s → s.burst o = none → ∃ t, exec (.frameBoundary o) s = .next t
      ∧ t = swapped
      ∧ t.sq o = r
      ∧ t.queue o = rest ∧ t.burst o = none
      ∧ (∀ p, p ≠ o → t.chan p = s.chan p)
      ∧ (k ≠ old → (t.slot k).refs = (s.slot k).refs - 1)
      ∧ (k ≠ old → (t.slot old).refs = (s.slot old).refs - 1)
      ∧ (k = old → (t.slot k).refs = (s.slot k).refs - 2)
      ∧ (∀ j, t.slot j = { s.slot j with refs := (t.slot j).refs })
      ∧ (∀ j, j ≠ k → j ≠ old → t.slot j = s.slot j)
      ∧ OnlyNotices s t
      ∧ t = { s with links := t.links, masters := t.masters, slots := t.slots, chans := t.chans })
    ∧ (∀ b, Undisturbed s → s.burst o = some b → passes b.pattern →
        exec (.frameBoundary o) s = .next (lineReaches swapped o))
    ∧ (∀ b, Undisturbed s → s.burst o = some b → ¬passes b.pattern →
        exec (.frameBoundary o) s = .next (burstEnds swapped o .duty))
    ∧ (s.burst o = none → HandedOn swapped o true (fun t => exec (.frameBoundary o) s = .next t))
    ∧ (∀ b, s.burst o = some b → passes b.pattern →
        HandedOn (lineReaches swapped o) o true (fun t => exec (.frameBoundary o) s = .next t))
    ∧ ∀ b, s.burst o = some b → ¬passes b.pattern →
        HandedOn (burstEnds swapped o .duty) o true (fun t => exec (.frameBoundary o) s = .next t)

/-- FRAME_BOUNDARY in STOPPING, at the end of the last line: an emitted frame is recorded and reported with FRAME_END, the
stop takes effect, the TAKEN entry leaving APPLIED and QUEUED entries DISCARDED, each with its CHANGE_DONE and its
reference, while a RESERVED one stays; a burst ends STOPPED, and the output goes to BOUND on its profile with its frame
number kept, its holders being told last. -/
def Obligations.StopTakesEffectAtTheBoundary : Prop :=
  ∀ (s : State) (o : Output), LineDue s o → (s.sq o).state = .stopping →
    (s.geom o).lf ≤ (s.sq o).line + 1 → (s.sq o).cut = none →
    let r : OutRec := { s.sq o with
      state := .bound, phase := 0, line := 0, tick := 0, lineEnd := false, status := ⟨.settled, false, false⟩,
      frozen := false, wakeStart := false, held := none,
      last := if (s.sq o).phase = 0 then some ⟨(s.sq o).frameNo, (s.sq o).status⟩ else (s.sq o).last,
      polarity := (s.sq o).pendingPol.getD (s.sq o).polarity, pendingPol := none }
    ∃ t, exec (.frameBoundary o) s = .next t
      ∧ t = ((burstEnds (entriesGo o .discarded (entriesGo o .applied
          ((frameReported s o (s.sq o).status).setQueue o ((s.queue o).filter fun e => e.state == .reserved))
          ((s.queue o).filter fun e => e.state == .taken)) ((s.queue o).filter fun e => e.state == .queued)) o
          .stopped).setSq o r).handAll (s.holders (.out o)) (.outputState o .stopping .bound (s.sq o).frameNo)
      ∧ t.sq o = r
      ∧ t.queue o = (s.queue o).filter (fun e => e.state == .reserved)
      ∧ t.burst o = none
      ∧ (∀ p, p ≠ o → t.chan p = s.chan p)
      ∧ (∀ j, t.slot j = { s.slot j with refs := (t.slot j).refs })
      ∧ OnlyNotices s t
      ∧ t = { s with links := t.links, masters := t.masters, slots := t.slots, chans := t.chans }

/-- A pending cut takes effect at a line start from line 16 on, or at a frame boundary: the frame ends, as CUT if it is
emitted, and is reported with FRAME_END; next loses its reference, the cut's slot gains one and the former current slot
loses one; TAKEN and then QUEUED entries go SUPERSEDED, each with its CHANGE_DONE and its reference; an emitted frame
begins on the cut's profile in RUNNING, whose line start reaches the burst without a duty check; then the cut's
CHANGE_DONE APPLIED and, from STOPPING, OUTPUT_STATE are handed on (R57, steps 5 and 6; that the BURST_DONE of a burst
that completes at that line start comes before that CHANGE_DONE is the model's order, log entry 11, and that the
OUTPUT_STATE carries the new frame's number is the model's reading, log entry 13). The emitted frame start is handed on
last (`HandedOn`, log entries 11, 12, 19). -/
def Obligations.CutTakesEffect : Prop :=
  ∀ (s : State) (o : Output) (c : PendingCut) (i : Instr), LineDue s o → (s.sq o).cut = some c →
    (i = .lineStart o ∧ 16 ≤ (s.sq o).line + 1 ∧ (s.sq o).line + 1 < (s.geom o).lf
      ∨ i = .frameBoundary o ∧ (s.geom o).lf ≤ (s.sq o).line + 1) →
    let completed : FrameStatus := { (s.sq o).status with base := .cut }
    let r : OutRec := { s.sq o with
      state := .running, current := some c.slot, next := none, cut := none, phase := 0, line := 0, tick := 0,
      lineEnd := false, status := ⟨.settled, s.tbu.fail, false⟩, frameNo := (s.sq o).frameNo + 1,
      last := if (s.sq o).phase = 0 then some ⟨(s.sq o).frameNo, completed⟩ else (s.sq o).last,
      polarity := (s.sq o).pendingPol.getD (s.sq o).polarity, pendingPol := none }
    let restarted := (((((frameReported s o completed).dropRefOpt (s.sq o).next).addRef c.slot).dropRefOpt
      (s.sq o).current).setSq o r).setQueue o ((s.queue o).filter fun e => e.state == .reserved)
    let cleared := entriesGo o .superseded (entriesGo o .superseded restarted
      ((s.queue o).filter fun e => e.state == .taken)) ((s.queue o).filter fun e => e.state == .queued)
    let told := (lineReaches cleared o).handAll (withOrigin (s.holders (.out o)) (some c.origin))
      (.changeDone o (.cut c.slot) (some (c.origin, c.tag)) none ((s.sq o).frameNo + 1) .applied)
    let cutDone := if (s.sq o).state = .stopping then
      told.handAll (s.holders (.out o)) (.outputState o .stopping .running ((s.sq o).frameNo + 1)) else told
    (Undisturbed s → ∃ t, exec i s = .next t
      ∧ t = cutDone
      ∧ t.sq o = r
      ∧ t.queue o = (s.queue o).filter (fun e => e.state == .reserved)
      ∧ (∀ p, p ≠ o → t.chan p = s.chan p)
      ∧ (∀ j, t.slot j = { s.slot j with refs := (t.slot j).refs })
      ∧ OnlyNotices s t
      ∧ t = { s with links := t.links, masters := t.masters, slots := t.slots, chans := t.chans })
    ∧ HandedOn cutDone o true (fun t => exec i s = .next t)

/-! ### Bursts -/

/-- BURST, its checks in order: an output above 7, a kind or a start point outside its list, a pattern field out of range;
a requester that does not hold the output, or not alone; a state other than RUNNING; a burst record not IDLE, BUSY; a LINE
at or beyond LF of the current profile; a pattern over the cap of the current profile, DUTY. When they pass, the burst is
ARMED with its pattern, start point, origin and tag, its counts 0, for each of the three kinds. -/
def Obligations.BurstIsArmed : Prop :=
  ∀ (s : State) (m : Master) (f : Frame), Admitted s m 0x11 f →
    let p := f.payload
    let given : Pattern → Prop
      | .timed on off count rep pause => byteAt p 1 = 0 ∧ byteAt p 3 = on ∧ byteAt p 4 = off ∧ byteAt p 5 = count
          ∧ byteAt p 6 = rep ∧ wordAt p 7 = pause ∧ 1 ≤ on ∧ 1 ≤ off ∧ 1 ≤ count ∧ 1 ≤ rep ∧ rep ≤ 15 ∧ pause ≤ 1023
      | .continuous on off => byteAt p 1 = 1 ∧ byteAt p 3 = on ∧ byteAt p 4 = off ∧ 1 ≤ on ∧ 1 ≤ off
      | .perFrame line on => byteAt p 1 = 2 ∧ wordAt p 3 = line ∧ wordAt p 5 = on ∧ line ≤ 16383 ∧ 1 ≤ on ∧ on ≤ 16383
    let starts : StartPoint → Prop
      | .nextLine => byteAt p 2 = 0
      | .nextEmittedFrame => byteAt p 2 = 1
    (7 < byteAt p 0 → exec (.burst m) s = .next (answered (taken s m f) m f .badValue []))
    ∧ ∀ o : Output, byteAt p 0 = o.val →
      let g := s.geom o
      let tooLong : Pattern → Prop
        | .timed on off _ _ _ => g.dc * (on + off) < on * 100
        | .continuous on off => g.dc * (on + off) < on * 100
        | .perFrame _ on => g.dc * g.lf < on * 100
      let beyond : Pattern → Prop
        | .perFrame line _ => g.lf ≤ line
        | .timed _ _ _ _ _ => False
        | .continuous _ _ => False
      ((∀ pat, ¬given pat) ∨ 1 < byteAt p 2 →
        exec (.burst m) s = .next (answered (taken s m f) m f .badValue []))
      ∧ ∀ pat start, given pat → starts start →
        (s.isHolder (.out o) m = false → exec (.burst m) s = .next (answered (taken s m f) m f .notHolder []))
        ∧ (s.isHolder (.out o) m = true → s.isSole (.out o) m = false →
          exec (.burst m) s = .next (answered (taken s m f) m f .notSole []))
        ∧ (s.isSole (.out o) m = true → (s.sq o).state ≠ .running →
          exec (.burst m) s = .next (answered (taken s m f) m f .state []))
        ∧ (s.isSole (.out o) m = true → (s.sq o).state = .running → s.burst o ≠ none →
          exec (.burst m) s = .next (answered (taken s m f) m f .busy []))
        ∧ (s.isSole (.out o) m = true → (s.sq o).state = .running → s.burst o = none → beyond pat →
          exec (.burst m) s = .next (answered (taken s m f) m f .badValue []))
        ∧ (s.isSole (.out o) m = true → (s.sq o).state = .running → s.burst o = none → ¬beyond pat → tooLong pat →
          exec (.burst m) s = .next (answered (taken s m f) m f .duty []))
        ∧ (s.isSole (.out o) m = true → (s.sq o).state = .running → s.burst o = none → ¬beyond pat → ¬tooLong pat →
          exec (.burst m) s = .next (answered ((taken s m f).setBurst o (some
            { pattern := pat, origin := m, tag := f.tag, start := start, phase := .armed, left := 0, pulses := 0,
              repeats := 0 })) m f .ok []))

/-- BURST_END, its checks in order. -/
def Obligations.BurstEndChecksInOrder : Prop :=
  ∀ (s : State) (m : Master) (f : Frame), Admitted s m 0x12 f →
    (7 < byteAt f.payload 0 → exec (.burstEnd m) s = .next (answered (taken s m f) m f .badValue []))
    ∧ ∀ o : Output, byteAt f.payload 0 = o.val →
        (s.burst o = none → exec (.burstEnd m) s = .next (answered (taken s m f) m f .state []))
        ∧ ∀ b, s.burst o = some b →
            (b.origin = m ∨ s.isSole (.out o) m = true →
              exec (.burstEnd m) s = .next (answered
                (((taken s m f).setBurst o none).hand b.origin
                  (.burstDone o b.pattern b.origin b.tag .ended b.pulses b.repeats (s.sq o).frameNo)) m f .ok []))
            ∧ (b.origin ≠ m → s.isHolder (.out o) m = false →
              exec (.burstEnd m) s = .next (answered (taken s m f) m f .notHolder []))
            ∧ (b.origin ≠ m → s.isHolder (.out o) m = true → s.isSole (.out o) m = false →
              exec (.burstEnd m) s = .next (answered (taken s m f) m f .notSole []))

/-- What a line start does to a burst, `r` being the output's record after it. ARMED, it waits for its start point: any
line start, or an emitted frame start. There a TIMED or CONTINUOUS burst begins its first pulse, and a PER_FRAME burst
goes to OFF, or begins a pulse where it stands at line LINE of an emitted frame. After it, lines left falls by 1, and at 0
the next phase begins at that line start, as the tables of TIMED and CONTINUOUS say; PER_FRAME begins a pulse at line LINE
of an emitted frame, counts an ON phase down to OFF, and stays in OFF otherwise. -/
def Obligations.TimedBurstFollowsItsTable : Prop :=
  (∀ (b : Burst) (r : OutRec), b.phase = .armed →
    let reached := b.start = .nextLine ∨ r.line = 0 ∧ r.phase = 0
    (¬reached → b.lineStart r = .runsOn b)
    ∧ (∀ on off count rep pause, reached → b.pattern = .timed on off count rep pause →
        b.lineStart r = .runsOn { b with phase := .on, left := on, pulses := 1 })
    ∧ (∀ on off, reached → b.pattern = .continuous on off →
        b.lineStart r = .runsOn { b with phase := .on, left := on, pulses := 1 })
    ∧ (∀ line on, reached → b.pattern = .perFrame line on → r.phase = 0 → r.line = line →
        b.lineStart r = .runsOn { b with phase := .on, left := on, pulses := min (b.pulses + 1) 65535 })
    ∧ (∀ line on, reached → b.pattern = .perFrame line on → r.phase ≠ 0 ∨ r.line ≠ line →
        b.lineStart r = .runsOn { b with phase := .off, left := 0 }))
  ∧ (∀ (b : Burst) (r : OutRec) (on off count rep pause : Nat), b.pattern = .timed on off count rep pause →
    (b.phase ≠ .armed → 2 ≤ b.left → b.lineStart r = .runsOn { b with left := b.left - 1 })
    ∧ (b.phase = .on → b.left = 1 → b.lineStart r = .runsOn { b with phase := .off, left := off })
    ∧ (b.phase = .off → b.left = 1 → b.pulses < count →
        b.lineStart r = .runsOn { b with phase := .on, left := on, pulses := b.pulses + 1 })
    ∧ (b.phase = .off → b.left = 1 → b.pulses = count → b.repeats + 1 < rep → 0 < pause →
        b.lineStart r = .runsOn { b with phase := .pause, left := pause, repeats := b.repeats + 1 })
    ∧ (b.phase = .off → b.left = 1 → b.pulses = count → b.repeats + 1 < rep → pause = 0 →
        b.lineStart r = .runsOn { b with phase := .on, left := on, pulses := 1, repeats := b.repeats + 1 })
    ∧ (b.phase = .off → b.left = 1 → b.pulses = count → b.repeats + 1 = rep →
        b.lineStart r = .completes { b with left := 0, repeats := rep })
    ∧ (b.phase = .pause → b.left = 1 → b.lineStart r = .runsOn { b with phase := .on, left := on, pulses := 1 }))
  ∧ (∀ (b : Burst) (r : OutRec) (on off : Nat), b.pattern = .continuous on off →
    (b.phase ≠ .armed → 2 ≤ b.left → b.lineStart r = .runsOn { b with left := b.left - 1 })
    ∧ (b.phase = .on → b.left = 1 → b.lineStart r = .runsOn { b with phase := .off, left := off })
    ∧ (b.phase = .off → b.left = 1 →
        b.lineStart r = .runsOn { b with phase := .on, left := on, pulses := min (b.pulses + 1) 65535 }))
  ∧ ∀ (b : Burst) (r : OutRec) (line on : Nat), b.pattern = .perFrame line on → b.phase ≠ .armed →
    (r.phase = 0 → r.line = line →
        b.lineStart r = .runsOn { b with phase := .on, left := on, pulses := min (b.pulses + 1) 65535 })
    ∧ (r.phase ≠ 0 ∨ r.line ≠ line →
        (b.phase = .on → 2 ≤ b.left → b.lineStart r = .runsOn { b with left := b.left - 1 })
        ∧ (b.phase = .on → b.left = 1 → b.lineStart r = .runsOn { b with phase := .off, left := 0 })
        ∧ (b.phase ≠ .on → b.lineStart r = .runsOn b))

/-! ### The timebase -/

/-- CLOCK, its checks in order, each refusal changing nothing in the Timebase Unit: a requester that does not hold TB is
NOT_HOLDER; while the lock is set a selection that it does not let pass is LOCKED (`LockPasses`), whatever the align
byte, and so is a selection code above 7; that code without the lock, an align byte of 8 to 254, and a selection that
does not meet R105 are BAD_VALUE (`SelectionMeets`, `SettingsMeet`); a SYN selection while another one is current is
SYN_IN_USE, and one that the unit runs on, or keeps for the wake, NO_CHANGE. From a holder that shares TB a CLOCK that
passes them opens a proposal (`HandedOver`), and from the sole holder it is taken by the state of the unit
(`ClockTaken`): from RUNNING a switch begins, from SWITCHING and WAIT_ALIGN the switch in flight is superseded by a new
one, or by none if the selection is current, from PREPARING it is superseded, from LOST the unit goes to PREPARING, and
in STANDBY the selection is kept for the wake; where a switch begins, its target is readied in the same event, which
makes a direct target of a READY source complete at once (`Readied`, log entries 11, 19). The locked selection is taken
so in PREPARING and LOST. The last ACCEPT carries a proposal: the lock, SYN_IN_USE and NO_CHANGE are judged again, a
refusal fails the round with its code, and otherwise the CLOCK is taken with the proposal as its origin
(`ClockCarried`). A direct XO is spelled out. A lock in progress for a superseded target stores no context, also where
its own instant has come (the model's reading, log entry 29). -/
def Obligations.ClockBeginsASwitch : Prop :=
  let names (f : Frame) (sel : Selection) : Prop :=
    byteAt f.payload 0 = sel.source.number + (if sel.syn.isSome then 4 else 0)
    ∧ ∀ c, sel.syn = some c → c = ⟨byteAt f.payload 1, wordAt f.payload 2, byteAt f.payload 4⟩
  (∀ (freq : Nat) (c : Settings), settingsValid freq c = true ↔ SettingsMeet freq c)
  ∧ (∀ (s : State) (sel : Selection), selectionValid s.table sel = true ↔ SelectionMeets s sel)
  ∧ (∀ (s : State) (m : Master) (f : Frame), Admitted s m 0x13 f →
    (s.isHolder .tb m = false → exec (.clock m) s = .next (answered (taken s m f) m f .notHolder []))
    ∧ (s.isHolder .tb m = true → s.tbu.lock ≠ none →
        7 < byteAt f.payload 0 ∨ s.tbu.state.current ≠ none →
      exec (.clock m) s = .next (answered (taken s m f) m f .locked []))
    ∧ (s.isHolder .tb m = true → s.tbu.lock = none → 7 < byteAt f.payload 0 →
      exec (.clock m) s = .next (answered (taken s m f) m f .badValue []))
    ∧ ∀ src, s.isSole .tb m = true → s.tbu.state = .running ⟨src, none⟩ → src ≠ .xo → s.tbu.lock = none →
        s.tbu.xo = .off → s.table.xo.freq ≤ 240000 → byteAt f.payload 0 = 1 → byteAt f.payload 5 = 255 →
      let sw : Switch := ⟨⟨.xo, none⟩, .master m f.tag, none⟩
      let state : TbuState := .switching ⟨src, none⟩ sw (s.now + 40 * cyclesPerMs)
      exec (.clock m) s = .next (answered
        (((taken s m f).setTbu { s.tbu with state := state, xo := .starting 0, synth := .stopped }).handAll
          (s.holders .tb) (.clockEvent (.started sw) state s.tbu.fail)) m f .ok []))
  ∧ (∀ (s : State) (m : Master) (f : Frame) (sel : Selection), Admitted s m 0x13 f → names f sel →
    s.isHolder .tb m = true →
    (¬LockPasses s sel → exec (.clock m) s = .next (answered (taken s m f) m f .locked []))
    ∧ (LockPasses s sel → 7 < byteAt f.payload 5 ∧ byteAt f.payload 5 ≠ 255 ∨ ¬SelectionMeets s sel →
      exec (.clock m) s = .next (answered (taken s m f) m f .badValue []))
    ∧ ∀ align : Option Output, (byteAt f.payload 5 = match align with
        | none => 255
        | some o => o.val) → LockPasses s sel → SelectionMeets s sel →
      (SynBusy s sel → exec (.clock m) s = .next (answered (taken s m f) m f .synInUse []))
      ∧ (Redundant s sel → exec (.clock m) s = .next (answered (taken s m f) m f .noChange []))
      ∧ (¬SynBusy s sel → ¬Redundant s sel → s.isSole .tb m = false →
        HandedOver s (taken s m f) m f.tag (.clockChange sel align) (wordAt f.payload 6) fun t code bytes =>
          exec (.clock m) s = .next (answered t m f code bytes))
      ∧ (¬SynBusy s sel → ¬Redundant s sel → s.isSole .tb m = true →
        ClockTaken (taken s m f) ⟨sel, .master m f.tag, align⟩ fun t =>
          exec (.clock m) s = .next (answered t m f .ok [])))
  ∧ (∀ (s : State) (m : Master) (f : Frame) (p : Proposal) (sel : Selection) (align : Option Output),
      LastVote s m f p → p.matter = .clockChange sel align →
    ClockCarried (voted s m f p) p sel align fun t outcome =>
      exec (.vote m) s = .next (answered (roundOver t p outcome) m f .ok []))
  ∧ ∀ (s : State) (m : Master) (f : Frame) (p : Proposal) (align : Option Output), LastVote s m f p →
      p.matter = .clockChange ⟨.xo, none⟩ align → s.table.xo.freq ≤ 240000 →
    (∀ src, s.tbu.state = .running ⟨src, none⟩ → src ≠ .xo → s.tbu.lock = none → s.tbu.xo = .off →
      let sw : Switch := ⟨⟨.xo, none⟩, .proposal p.proposer p.tag p.id, align⟩
      let state : TbuState := .switching ⟨src, none⟩ sw (s.now + 40 * cyclesPerMs)
      exec (.vote m) s = .next (answered (roundOver
        (((taken s m f).setTbu { s.tbu with state := state, xo := .starting 0, synth := .stopped }).handAll
          (withOrigin (s.holders .tb) (some p.proposer)) (.clockEvent (.started sw) state s.tbu.fail))
        p .carried) m f .ok []))
    ∧ (s.tbu.state = .running ⟨.xo, none⟩ → s.tbu.lock = none →
      exec (.vote m) s = .next (answered (roundOver (taken s m f) p .carried) m f .ok []))
    ∧ (s.tbu.lock ≠ none → s.tbu.state.current ≠ none →
      exec (.vote m) s = .next (answered (roundOver (taken s m f) p (.failed .locked)) m f .ok []))

/-- SOURCE_SET, its checks in order: a source without an entry, and a frequency, threshold or qualify count out of its
range, are BAD_VALUE; while TB is held only its sole holder may set, and while the lock is set nobody. Then the entry is
replaced. For the XO a changed frequency makes its context invalid, and the keep-running flag may start or stop it
(`xoSettled`). For EXA and EXB a changed entry returns the detector to ABSENT with a new gate; one that was PRESENT
hands REFERENCE with cause SOURCE_SET and its loss, as GateMovesTheDetector says (`presenceChanged`). A lock in progress
at a failure stores no context, also where the failure is taken at the lock's own instant (the model's reading, log
entry 29). -/
def Obligations.SourceSetReplacesAnEntry : Prop :=
  ∀ (s : State) (m : Master) (f : Frame), Admitted s m 0x14 f →
    let source := byteAt f.payload 0
    let freq := wordAt f.payload 1
    let may : Prop := s.tbClaim.mode = .free ∨ s.isSole .tb m = true
    (source < 1 ∨ 3 < source → exec (.sourceSet m) s = .next (answered (taken s m f) m f .badValue []))
    ∧ (1 ≤ source → source ≤ 3 → ¬may → exec (.sourceSet m) s = .next (answered (taken s m f) m f .notSole []))
    ∧ (1 ≤ source → source ≤ 3 → may → s.tbu.lock ≠ none →
      exec (.sourceSet m) s = .next (answered (taken s m f) m f .locked []))
    ∧ (source = 1 → may → s.tbu.lock = none →
      (freq < 8000 ∨ 40000 < freq → exec (.sourceSet m) s = .next (answered (taken s m f) m f .badValue []))
      ∧ (8000 ≤ freq → freq ≤ 40000 →
        exec (.sourceSet m) s = .next (answered (xoSettled
          { taken s m f with
            table := { s.table with xo := ⟨freq, byteAt f.payload 3 != 0⟩ },
            tbu := { s.tbu with ctx :=
              if freq = s.table.xo.freq then s.tbu.ctx else { s.tbu.ctx with xo := none } } }) m f .ok [])))
    ∧ ∀ d : Detector, (source = match d with
        | .da => 2
        | .db => 3) → may → s.tbu.lock = none →
      let e : RefEntry := ⟨freq, wordAt f.payload 4, wordAt f.payload 6, byteAt f.payload 8⟩
      let good : Prop := 500 ≤ freq ∧ freq ≤ 60000 ∧ 10 ≤ e.on ∧ e.on ≤ 5000 ∧ e.on ≤ e.off ∧ e.off ≤ 10000
        ∧ 1 ≤ e.qualify ∧ e.qualify ≤ 15
      let t : State := State.setDet
        { taken s m f with table := match d with
            | .da => { s.table with exa := e }
            | .db => { s.table with exb := e } } d ⟨.absent, 0, none, none, s.now, s.tbu.xo == .ready⟩
      (¬good → exec (.sourceSet m) s = .next (answered (taken s m f) m f .badValue []))
      ∧ (good → e = s.table.ref d → exec (.sourceSet m) s = .next (answered (taken s m f) m f .ok []))
      ∧ (good → e ≠ s.table.ref d → (s.det d).state ≠ .present →
        exec (.sourceSet m) s = .next (answered t m f .ok []))
      ∧ (good → e ≠ s.table.ref d → (s.det d).state = .present →
        exec (.sourceSet m) s = .next (answered (presenceChanged t d .sourceSet false) m f .ok []))

/-- SELECT_LOCK, its checks in order; when they pass, the lock is set on the current selection. -/
def Obligations.SelectLockLocksTheSelection : Prop :=
  ∀ (s : State) (m : Master) (f : Frame), Admitted s m 0x15 f →
    (s.isSole .tb m = false → exec (.selectLock m) s = .next (answered (taken s m f) m f .notSole []))
    ∧ (s.isSole .tb m = true → s.straps.fse = true →
        exec (.selectLock m) s = .next (answered (taken s m f) m f .state []))
    ∧ (s.isSole .tb m = true → s.straps.fse = false → s.tbu.lock ≠ none →
        exec (.selectLock m) s = .next (answered (taken s m f) m f .locked []))
    ∧ (s.isSole .tb m = true → s.straps.fse = false → s.tbu.lock = none → (∀ cur, s.tbu.state ≠ .running cur) →
        exec (.selectLock m) s = .next (answered (taken s m f) m f .state []))
    ∧ (∀ cur, s.isSole .tb m = true → s.straps.fse = false → s.tbu.lock = none → s.tbu.state = .running cur →
        exec (.selectLock m) s = .next (answered
          ((taken s m f).setTbu { s.tbu with lock := some cur }) m f .ok []))

/-- XO_READY readies a STARTING XO, and with no switch in flight, or one to another source, does nothing else; it begins
the full lock of a switch to XO+SYN whose context is not valid with its settings. In SWITCHING and PREPARING a target on
the XO is readied (`Readied`): a SYN target begins a quick or a full lock, and the XO as a direct target waits for its
align output or completes at once. In WAIT_ALIGN nothing else changes (completion: log entries 11, 19). -/
def Obligations.XoReadyReadiesTheSource : Prop :=
  ∀ (s : State) (n : Nat), s.tbu.xo = .starting n →
    ((∀ sw, s.tbu.state.switch = some sw → sw.target.source ≠ .xo) →
      exec .xoReady s = .next (s.setTbu { s.tbu with xo := .ready }))
    ∧ (∀ cur sw d c, s.tbu.state = .switching cur sw d → sw.target = ⟨.xo, some c⟩ → s.tbu.synth = .stopped →
        s.tbu.ctx.xo ≠ some c →
      exec .xoReady s = .next (s.setTbu { s.tbu with xo := .ready, synth := .locking false (s.now + 2 * cyclesPerMs) }))
    ∧ (∀ sw d, (∃ cur, s.tbu.state = .switching cur sw d) ∨ s.tbu.state = .preparing sw d → sw.target.source = .xo →
      Readied (s.setTbu { s.tbu with xo := .ready }) (fun t => exec .xoReady s = .next t))
    ∧ ∀ cur sw d, s.tbu.state = .waitAlign cur sw d → exec .xoReady s = .next (s.setTbu { s.tbu with xo := .ready })

/-- LOCK_COMPLETE, at whose instant IRC time stands then (the model's choice, log entry 3): with valid settings the
context is stored, and the phase of the synthesizer's clock is a free value (log entry 4). With an align output in
RUNNING the switch waits for it for at most 2000 ms; from SWITCHING without one, or with one not RUNNING, and from
PREPARING it completes at once: the target is current and FAIL clear, and the outputs that wait start with it
(`switchCompletes`, log entries 11, 19). With settings that are not valid the lock does not complete (log entry 19). -/
def Obligations.LockCompletionStoresTheContext : Prop :=
  ∀ (s : State) (sw : Switch) (t : Nat) (q : Bool) (c : Settings),
    s.tbu.synth = .locking q t → sw.target.syn = some c →
    let now := max s.now t
    let valid := settingsValid (s.table.freq sw.target.source) c
    let ctx := s.tbu.ctx.set sw.target.source (some c)
    let phase := Config.lockPhase s.freeCount
    let locked : State := { s with now := now, freeCount := s.freeCount + 1, synPhase := phase,
                                   tbu := { s.tbu with synth := .locked, ctx := ctx } }
    let completes : Prop := ∃ u, exec .lockComplete s = .next u
      ∧ u.tbu.state = .running sw.target ∧ u.tbu.fail = false ∧ u.tbu.lock = s.tbu.lock ∧ u.tbu.ctx = ctx
      ∧ u.tbu.synth = .locked ∧ u.now = now
      ∧ (∀ o, (s.sq o).runs = false → u.chan o = s.chan o)
      ∧ (∀ o, (s.sq o).runs = true → u.chan o = { s.chan o with sq :=
          { s.sq o with status := unsettled (s.sq o), frozen := false,
                        held := if (s.sq o).frozen then none else (s.sq o).held } })
      ∧ OnlyNotices s u
      ∧ u = { s with now := u.now, freeCount := s.freeCount + 1, synPhase := phase, links := u.links,
                     masters := u.masters, chans := u.chans, tbu := u.tbu, da := u.da, db := u.db }
    (∀ cur d, s.tbu.state = .switching cur sw d →
      (∀ o, valid = true → sw.align = some o → (s.sq o).state = .running →
        exec .lockComplete s = .next (locked.setTbu
          { locked.tbu with state := .waitAlign cur sw (now + 2000 * cyclesPerMs) }))
      ∧ (valid = true → (∀ o, sw.align = some o → (s.sq o).state ≠ .running) → (∀ o, (s.sq o).state ≠ .waiting) →
        completes)
      ∧ (valid = true → (∀ o, sw.align = some o → (s.sq o).state ≠ .running) →
        exec .lockComplete s = .next (switchCompletes locked sw false none)))
    ∧ (∀ d, s.tbu.state = .preparing sw d → valid = true → (∀ o, (s.sq o).state ≠ .waiting) → completes)
    ∧ (∀ d, s.tbu.state = .preparing sw d → valid = true →
      exec .lockComplete s = .next (switchCompletes locked sw false none))
    ∧ ((∃ cur d, s.tbu.state = .switching cur sw d ∨ s.tbu.state = .preparing sw d) → valid = false →
      exec .lockComplete s = .next (State.setTbu { s with now := now } { s.tbu with synth := .notLocking }))

/-- ALIGNMENT_DEADLINE, at whose instant IRC time stands then (the model's choice, log entry 3): the switch completes
unaligned. The target is current and FAIL clear, every live output's emitted frame is UNSETTLED and counts on, a frozen
output resumes so marked; claims, queues, bursts, profiles and rounds stay. Outputs that wait and whose group has no
member in RUNNING start at the completion (`switchCompletes`, log entries 11, 19). -/
def Obligations.CompletionMarksEveryFrame : Prop :=
  ∀ (s : State) (cur : Selection) (sw : Switch) (d : Nat), s.tbu.state = .waitAlign cur sw d →
    exec .alignmentDeadline s = .next (switchCompletes { s with now := max s.now d } sw false none)
    ∧ ((∀ o, (s.sq o).state ≠ .waiting) →
    ∃ t, exec .alignmentDeadline s = .next t
      ∧ t.tbu.state = .running sw.target ∧ t.tbu.fail = false ∧ t.tbu.lock = s.tbu.lock ∧ t.tbu.ctx = s.tbu.ctx
      ∧ t.now = max s.now d
      ∧ (∀ o, (s.sq o).runs = false → t.chan o = s.chan o)
      ∧ (∀ o, (s.sq o).runs = true → (s.sq o).frozen = false → t.chan o = { s.chan o with sq := { s.sq o with
          status := if (s.sq o).phase = 0 then { (s.sq o).status with base := .unsettled } else (s.sq o).status } })
      ∧ (∀ o, (s.sq o).runs = true → (s.sq o).frozen = true → t.chan o = { s.chan o with sq := { s.sq o with
          status := if (s.sq o).phase = 0 then { (s.sq o).status with base := .unsettled } else (s.sq o).status,
          frozen := false, held := none } })
      ∧ OnlyNotices s t
      ∧ t = { s with now := t.now, links := t.links, masters := t.masters, chans := t.chans, tbu := t.tbu,
                     da := t.da, db := t.db })

/-- SWITCH_TIMEOUT, at whose instant IRC time stands then (the model's choice, log entry 3): from SWITCHING the unit runs
on its current selection and no frame is marked; from PREPARING it falls back to IRC direct with FAIL set when FSE is 1,
where outputs that wait start after the TIMEOUT is handed on (log entry 11), and enters LOST with FAIL as it was when FSE
is 0, LOST going to every joined master after the TIMEOUT (`goneLost`). A lock of the target whose instant is no
later than the deadline has stored its context, if its settings are valid, and a later one stores nothing (the model's
reading of R106 and R115 for a lock and an expiry at one instant, log entry 28). -/
def Obligations.SwitchTimeoutFallsBack : Prop :=
  ∀ (s : State) (sw : Switch) (d : Nat),
    let ctx : LockContexts :=
      match s.tbu.synth, sw.target.syn with
      | .locking _ t, some c =>
        if t ≤ d ∧ settingsValid (s.table.freq sw.target.source) c = true then s.tbu.ctx.set sw.target.source (some c)
        else s.tbu.ctx
      | _, _ => s.tbu.ctx
    let expired (fail : Bool) : State :=
      { s with now := max s.now d, tbu := { s.tbu with ctx := ctx, fail := fail } }
    let fallen := switchTold (unitGoes (expired true) (.running ⟨.irc, none⟩)) sw (.timeout sw)
    (∀ cur, s.tbu.state = .switching cur sw d →
      exec .switchTimeout s = .next (switchTold (unitGoes (expired s.tbu.fail) (.running cur)) sw (.timeout sw)))
    ∧ (s.tbu.state = .preparing sw d → s.straps.fse = true →
      exec .switchTimeout s = .next (startTogether fallen (starters fallen none)))
    ∧ (s.tbu.state = .preparing sw d → s.straps.fse = false →
      exec .switchTimeout s = .next (goneLost (switchTold (unitGoes (expired s.tbu.fail) .lost) sw (.timeout sw))
        .switchTimeout sw.target.source))
    ∧ (∀ cur, s.tbu.state = .switching cur sw d → ∃ t, exec .switchTimeout s = .next t
      ∧ t.tbu.state = .running cur ∧ t.tbu.fail = s.tbu.fail ∧ t.tbu.lock = s.tbu.lock ∧ t.tbu.ctx = ctx
      ∧ OnlyNotices s t
      ∧ t = { s with now := max s.now d, links := t.links, masters := t.masters, tbu := t.tbu, da := t.da, db := t.db })
    ∧ (s.tbu.state = .preparing sw d → s.straps.fse = true → (∀ o, (s.sq o).state ≠ .waiting) →
      ∃ t, exec .switchTimeout s = .next t
      ∧ t.tbu.state = .running ⟨.irc, none⟩ ∧ t.tbu.fail = true ∧ t.tbu.lock = s.tbu.lock ∧ t.tbu.ctx = ctx
      ∧ OnlyNotices s t
      ∧ t = { s with now := max s.now d, links := t.links, masters := t.masters, tbu := t.tbu, da := t.da, db := t.db })
    ∧ (s.tbu.state = .preparing sw d → s.straps.fse = false → (∀ o, (s.sq o).live = false) →
      ∃ t, exec .switchTimeout s = .next t
      ∧ t.tbu.state = .lost ∧ t.tbu.fail = s.tbu.fail ∧ t.tbu.lock = s.tbu.lock ∧ t.tbu.ctx = ctx
      ∧ OnlyNotices s t
      ∧ t = { s with now := max s.now d, links := t.links, masters := t.masters, tbu := t.tbu, da := t.da, db := t.db })

/-- XO_ACTIVITY_CHECK, at whose instant IRC time stands then (the model's choice, log entry 3): a check that finds a
cycle clears the misses; a first miss is counted; a second one is a failure of the current source. LOSS_OF_LOCK of the
synthesizer that makes TCK invalidates the context of its source and is a failure of the current source; of a target in
WAIT_ALIGN it invalidates the context and returns the unit to SWITCHING with a new switch deadline, where a full lock
begins at once if the source is READY; of a target in SWITCHING or PREPARING, while its lock is in progress, it
invalidates the context, and the lock goes on (R106, R107; the model's reading of what becomes of that lock, log entry
26). While the synthesizer serves nothing, and while it is stopped because its target waits for its source, no loss is
reported, and the command changes nothing (R127, log entries 2, 26). A lock in progress at a failure stores no context,
also where the failure is taken at the lock's own instant (the model's reading, log entry 29). -/
def Obligations.ActivityAndLockAreWatched : Prop :=
  (∀ (s : State) (c : XoCheck), s.tbu.xoCheck = some c →
    let s' : State := { s with now := max s.now c.due }
    (exec (.xoActivityCheck true) s =
      .next (s'.setTbu { s.tbu with xoCheck := some ⟨0, c.due + cyclesPerMs / 2⟩ }))
    ∧ (c.misses = 0 → exec (.xoActivityCheck false) s =
      .next (s'.setTbu { s.tbu with xoCheck := some ⟨1, c.due + cyclesPerMs / 2⟩ }))
    ∧ (c.misses = 1 → exec (.xoActivityCheck false) s = .next (sourceFails s' .xoActivity .xo)))
  ∧ ∀ s : State,
    (∀ src c, s.tbu.state.current = some ⟨src, some c⟩ → exec .lossOfLock s =
      .next (sourceFails (s.setTbu { s.tbu with ctx := s.tbu.ctx.set src none }) .synLock src))
    ∧ (∀ src sw c d, s.tbu.state = .waitAlign ⟨src, none⟩ sw d → sw.target.syn = some c →
      exec .lossOfLock s = .next (s.setTbu { s.tbu with
        state := .switching ⟨src, none⟩ sw (s.now + 40 * cyclesPerMs)
        ctx := s.tbu.ctx.set sw.target.source none
        synth := if s.sourceReady sw.target.source then .locking false (s.now + 2 * cyclesPerMs) else .stopped }))
    ∧ (∀ sw c d, (∃ src, s.tbu.state = .switching ⟨src, none⟩ sw d) ∨ s.tbu.state = .preparing sw d →
        sw.target.syn = some c → s.tbu.synth ≠ .stopped →
      exec .lossOfLock s = .next (s.setTbu { s.tbu with ctx := s.tbu.ctx.set sw.target.source none }))
    ∧ ((∀ cur, s.tbu.state.current = some cur → cur.syn = none) →
        (∀ sw, s.tbu.state.switch = some sw → sw.target.syn = none ∨
          s.tbu.synth = .stopped ∧ ∀ cur d, s.tbu.state ≠ .waitAlign cur sw d) →
      exec .lossOfLock s = .next s)

/-- A failure of the current source with FSE 1 is fail-safe (`failedSafe`): IRC direct with FAIL, the XO and the
synthesizer stopped where nothing uses them, every running output's emitted frame UNSETTLED and DEGRADED, a switch in
flight told ABORTED_FAILSAFE to the holders of TB and its own master, and then FAILSAFE to every joined master. With FSE
0 the unit is LOST (`goneLost`), with FAIL as it was: every running output freezes with its pins held, and LOST goes to
every joined master. Queues, bursts, profiles, claims and rounds stay. A lock in progress at a failure stores no
context, also where the failure is taken at the lock's own instant (the model's reading, log entry 29). -/
def Obligations.SourceFailureActsByTheStrap : Prop :=
  ∀ (s : State) (cause : FailCause) (src : Source),
    let t := sourceFails s cause src
    (s.straps.fse = true → t = failedSafe s cause src)
    ∧ (s.straps.fse = false → t = goneLost s cause src)
    ∧ OnlyNotices s t
    ∧ t = { s with links := t.links, masters := t.masters, chans := t.chans, tbu := t.tbu, da := t.da, db := t.db }
    ∧ t.tbu.lock = s.tbu.lock ∧ t.tbu.ctx = s.tbu.ctx ∧ t.tbu.xoCheck = none ∧ t.tbu.state.switch = none
    ∧ (∀ o, (s.sq o).runs = false → t.chan o = s.chan o)
    ∧ (s.straps.fse = true → t.tbu.state = .running ⟨.irc, none⟩ ∧ t.tbu.fail = true
        ∧ ∀ o, (s.sq o).runs = true → t.chan o = { s.chan o with sq := { s.sq o with
            status := if (s.sq o).phase = 0 then { (s.sq o).status with base := .unsettled, degraded := true }
              else (s.sq o).status } })
    ∧ (s.straps.fse = false → t.tbu.state = .lost ∧ t.tbu.fail = s.tbu.fail
        ∧ ∀ o, (s.sq o).runs = true → (s.sq o).frozen = false → t.chan o = { s.chan o with sq := { s.sq o with
            frozen := true, held := some (s.pins o) } })

/-- GATE_COMPLETION, at whose instant IRC time stands then (the model's choice, log entry 3). A gate through which the
XO was READY and gave a cycle is timed by XO: its deviation in ppm, rounded toward zero and then compared with 50,000
(log entry 22). Another one is timed by IRC: deviation 0 within 5 percent of the declared frequency. No edge is
NO_EDGES, and the rest OUT_OF_RANGE. The detector moves by its table, on-threshold and off-threshold, and the next gate
begins. Where it does not enter or leave PRESENT nothing else changes. Where it does, the holders of TB are told by
REFERENCE. Entering PRESENT with no switch in flight, with one to another source, and in WAIT_ALIGN, changes nothing
else; it readies a target on that source (`Readied`): a SYN target begins its lock, and a direct one waits for its align
output or completes at once (log entries 11, 19). Leaving it invalidates the context, and a current selection on the
source fails, while a target on it loses its readiness: in PREPARING and SWITCHING its lock is abandoned and the
deadline stands, and WAIT_ALIGN returns to SWITCHING with a new one. A lock in progress at a failure stores no context,
also where the failure is taken at the lock's own instant (the model's reading, log entry 29). -/
def Obligations.GateMovesTheDetector : Prop :=
  (∀ (s : State) (d : Detector) (edges n : Nat), s.resetLow = false →
    let e := s.table.ref d
    let r := s.det d
    let timing : GateTiming := if r.xoThroughout = true ∧ 1 ≤ n then .xo else .irc
    let ppm : Int := Int.tdiv (((edges * s.table.xo.freq : Nat) - (e.freq * n : Nat) : Int) * 1000000) (e.freq * n : Nat)
    let v : Deviation :=
      if edges = 0 then .noEdges
      else match timing with
        | .xo => if ppm < -50000 ∨ 50000 < ppm then .outOfRange else .ppm ppm
        | .irc => if 95 * e.freq ≤ 10 * edges ∧ 10 * edges ≤ 105 * e.freq then .ppm 0 else .outOfRange
    let within (threshold : Nat) : Prop := ∃ x : Int, v = .ppm x ∧ x.natAbs ≤ threshold
    let after (st : DetState) (good : Nat) : DetRec :=
      ⟨st, good, some v, some timing, r.gateStart + 10 * cyclesPerMs, s.tbu.xo == .ready⟩
    let s' : State := { s with now := max s.now (r.gateStart + 10 * cyclesPerMs) }
    (within e.on → r.state = .absent → 2 ≤ e.qualify →
      exec (.gateCompletion d edges n) s = .next (s'.setDet d (after .qualifying 1)))
    ∧ (within e.on → r.state = .absent → e.qualify ≤ 1 →
      exec (.gateCompletion d edges n) s = .next (presenceChanged (s'.setDet d (after .present 1)) d .gate true))
    ∧ (within e.on → r.state = .qualifying → r.good + 1 < e.qualify →
      exec (.gateCompletion d edges n) s = .next (s'.setDet d (after .qualifying (r.good + 1))))
    ∧ (within e.on → r.state = .qualifying → e.qualify ≤ r.good + 1 →
      exec (.gateCompletion d edges n) s = .next (presenceChanged (s'.setDet d (after .present e.qualify)) d .gate true))
    ∧ (within e.off → r.state = .present →
      exec (.gateCompletion d edges n) s = .next (s'.setDet d (after .present r.good)))
    ∧ (¬within e.on → r.state ≠ .present →
      exec (.gateCompletion d edges n) s = .next (s'.setDet d (after .absent 0)))
    ∧ (¬within e.off → r.state = .present →
      exec (.gateCompletion d edges n) s = .next (presenceChanged (s'.setDet d (after .absent 0)) d .gate false)))
  ∧ ∀ (s : State) (d : Detector) (cause : RefCause),
    let src : Source := match d with
      | .da => .exa
      | .db => .exb
    let r := s.det d
    let told (present : Bool) : State := s.handAll (s.holders .tb) (.reference d present cause r.dev r.timing r.good)
    let invalid : Tbu := { s.tbu with ctx := s.tbu.ctx.set src none }
    (r.state = .present → (∀ sw, s.tbu.state.switch = some sw → sw.target.source ≠ src) →
      presenceChanged s d cause true = told true)
    ∧ (∀ cur sw dl, r.state = .present → s.tbu.state = .waitAlign cur sw dl → presenceChanged s d cause true = told true)
    ∧ (∀ cur sw dl c, r.state = .present → s.tbu.state = .switching cur sw dl ∨ s.tbu.state = .preparing sw dl →
        sw.target = ⟨src, some c⟩ → s.tbu.synth = .stopped →
      presenceChanged s d cause true = (told true).setTbu { s.tbu with synth :=
        (if s.tbu.ctx.get src = some c then .locking true (s.now + 3 * cyclesPerMs / 10)
         else .locking false (s.now + 2 * cyclesPerMs)) })
    ∧ (∀ sw dl, r.state = .present → (∃ cur, s.tbu.state = .switching cur sw dl) ∨ s.tbu.state = .preparing sw dl →
        sw.target.source = src →
      Readied (told true) (fun t => presenceChanged s d cause true = t))
    ∧ (r.state ≠ .present → (∀ sel, s.tbu.state.current = some sel → sel.source ≠ src) →
        (∀ sw, s.tbu.state.switch = some sw → sw.target.source ≠ src) →
      presenceChanged s d cause false = (told false).setTbu invalid)
    ∧ (∀ sel, r.state ≠ .present → s.tbu.state.current = some sel → sel.source = src →
      presenceChanged s d cause false = sourceFails ((told false).setTbu invalid) .detector src)
    ∧ (∀ sw dl, r.state ≠ .present → s.tbu.state = .preparing sw dl → sw.target.source = src →
      presenceChanged s d cause false = (told false).setTbu { invalid with synth := .stopped })
    ∧ (∀ cur sw dl, r.state ≠ .present → s.tbu.state = .switching cur sw dl → cur.source ≠ src → sw.target.source = src →
      presenceChanged s d cause false = (told false).setTbu
        { invalid with synth := if cur.syn.isSome then s.tbu.synth else .stopped })
    ∧ (∀ cur sw dl, r.state ≠ .present → s.tbu.state = .waitAlign cur sw dl → cur.source ≠ src → sw.target.source = src →
      presenceChanged s d cause false = (told false).setTbu
        { invalid with state := .switching cur sw (s.now + 40 * cyclesPerMs)
                       synth := if cur.syn.isSome then s.tbu.synth else .stopped })

/-! ### Consent rounds -/

/-- VOTE, its checks in order: a choice outside its list, an id of no open proposal, a master that is no voter, one that
has accepted. Then a REFUSE ends the proposal REJECTED, an ACCEPT that is not the last is recorded, and the last one
carries it (`Carries`, by its kind), the PROPOSAL_END notices of a carried DEVICE_RESET being closing frames. What
carrying does is stated with the request of each kind as well (`LastVote` in SharedChangeOpensAProposal,
StopActsByState, StartMovesABoundOutput, ClaimTakesATarget, ClockBeginsASwitch, StandbyRestsEveryOutput,
DeviceResetIsTakenOrProposed). In the carry these are the model's choices: CHANGE_DONE before the OUTPUT_STATE of the
same carry, and starts at one moment in the order of the outputs' numbers (log entry 11), the starts at standby entry
(log entry 14), the marks of the closing frames (log entry 16), what a CLOCK that completes at once does (log entries
11, 19), and what a lock in progress stores that a CLOCK or standby entry ends (log entry 29). -/
def Obligations.VoteIsRecordedOrDecides : Prop :=
  ∀ (s : State) (m : Master) (f : Frame), Admitted s m 0x16 f →
    (1 < byteAt f.payload 1 → exec (.vote m) s = .next (answered (taken s m f) m f .badValue []))
    ∧ (byteAt f.payload 1 ≤ 1 → s.proposal (byteAt f.payload 0) = none →
        exec (.vote m) s = .next (answered (taken s m f) m f .noSuch []))
    ∧ ∀ p, s.proposal (byteAt f.payload 0) = some p →
      let accepted := allMasters.filter fun x => p.accepted.contains x || x == m
      (byteAt f.payload 1 ≤ 1 → m ∉ p.required →
        exec (.vote m) s = .next (answered (taken s m f) m f .notVoter []))
      ∧ (byteAt f.payload 1 ≤ 1 → m ∈ p.required → m ∈ p.accepted →
        exec (.vote m) s = .next (answered (taken s m f) m f .state []))
      ∧ (byteAt f.payload 1 = 1 → m ∈ p.required → m ∉ p.accepted →
        exec (.vote m) s = .next (answered (endProposal (taken s m f) p .rejected) m f .ok []))
      ∧ (byteAt f.payload 1 = 1 → m ∈ p.required → m ∉ p.accepted →
        exec (.vote m) s = .next (answered (roundOver (unreserve (taken s m f) p) p .rejected) m f .ok []))
      ∧ (byteAt f.payload 1 = 0 → m ∈ p.required → m ∉ p.accepted → accepted ≠ p.required →
        exec (.vote m) s = .next (answered (voted s m f p) m f .ok []))
      ∧ (byteAt f.payload 1 = 0 → m ∈ p.required → m ∉ p.accepted → accepted = p.required →
        exec (.vote m) s = .next (answered (carry (voted s m f p) { p with accepted := accepted }) m f .ok []))
      ∧ (LastVote s m f p → Carries (voted s m f p) p fun t outcome =>
        exec (.vote m) s = .next (answered (roundOver t p outcome (p.matter == .deviceReset)) m f .ok []))

/-- WITHDRAW, its checks in order. Withdrawn, the proposal leaves the table, what it reserved goes, and its proposer and
required voters are told. -/
def Obligations.WithdrawChecksInOrder : Prop :=
  ∀ (s : State) (m : Master) (f : Frame), Admitted s m 0x17 f →
    (s.proposal (byteAt f.payload 0) = none →
      exec (.withdraw m) s = .next (answered (taken s m f) m f .noSuch []))
    ∧ ∀ p, s.proposal (byteAt f.payload 0) = some p →
        (p.proposer ≠ m → exec (.withdraw m) s = .next (answered (taken s m f) m f .notOwner []))
        ∧ (p.proposer = m →
            exec (.withdraw m) s = .next (answered (endProposal (taken s m f) p .withdrawn) m f .ok [])
            ∧ exec (.withdraw m) s = .next (answered (roundOver (unreserve (taken s m f) p) p .withdrawn) m f .ok []))

/-- PROPOSAL_DEADLINE, at whose instant IRC time stands then (the model's choice, log entry 3): an open proposal ends
LAPSED, decided by the time alone. What it reserved goes: nothing for one on DEVICE, say; for one to change an output its
RESERVED entry, which leaves WITHDRAWN, and its payload's reference. The proposal leaves the table, and its proposer and
required voters are told. An id of no open proposal names no event (log entry 2). -/
def Obligations.DeadlineLapsesTheProposal : Prop :=
  (∀ (s : State) (id : Nat) (p : Proposal), s.proposal id = some p →
    let s' : State := { s with now := max s.now p.deadline }
    let others := s.consent.proposals.filter fun x => x.id != p.id
    let told (u : State) : State := (p.proposer :: p.required).foldl (fun u m => u.hand m
      (.proposalEnd p.id p.matter p.proposer p.tag .lapsed)) u
    exec (.proposalDeadline id) s = .next (endProposal s' p .lapsed)
    ∧ exec (.proposalDeadline id) s = .next (roundOver (unreserve s' p) p .lapsed)
    ∧ (p.matter = .standby ∨ p.matter = .deviceReset →
      exec (.proposalDeadline id) s = .next (told (s'.setProposals others)))
    ∧ (∀ o k e, p.matter = .outputChange o k → e.kind = .change k → e.state = .reserved → e.pid = some p.id →
        s.queue o = [e] →
      exec (.proposalDeadline id) s = .next (told
        ((((s'.setQueue o []).setSlot k { s.slot k with refs := (s.slot k).refs - 2 }).handAll
          (withOrigin (s.holders (.out o)) (e.origin.map Prod.fst))
          (.changeDone o (.change k) e.origin (some p.id) (s.sq o).frameNo .withdrawn)).setProposals others))))
  ∧ ∀ (s : State) (id : Nat), s.proposal id = none → exec (.proposalDeadline id) s = .next s

/-! ### Standby and wake -/

/-- STANDBY from the only joined master: every output ends in IDLE or BOUND on its profile, one that was WAITING or
RUNNING with its resume mark set and every other with its mark as it was, a running one keeping its frame number; no
burst runs and no cut is pending, only RESERVED entries stay, next is absent, and the Timebase Unit is in STANDBY with
the XO off and the synthesizer stopped, keeping for the wake the target of a switch in flight, else the current
selection, else, in LOST, the locked one or that of INITSEL (`keptSelection`). The whole of it, with its notices in
their order, is `deviceRests` (log entry 14): the outputs one by one, each with the ends of its entries, its cut and its
burst and then its OUTPUT_STATE, and last the ABORTED_STANDBY of a switch in flight; an align output in WAIT_ALIGN is in
RUNNING (`AlignLaw`, which EveryStepKeepsTheTimebaseLaws keeps). With every output at rest nothing else changes. With
other members it opens a proposal on DEVICE, whose required voters they are (`HandedOver`). The last ACCEPT of a STANDBY
proposal puts the device to standby in the same way. A lock in progress at standby entry stores no context, also where
its own instant has come (the model's reading, log entry 29). -/
def Obligations.StandbyRestsEveryOutput : Prop :=
  let rests (s t : State) : Prop :=
    (∀ o, (t.sq o).state = if (s.sq o).state = .idle then .idle else .bound)
    ∧ (∀ o, (t.sq o).resumeMark =
        if (s.sq o).state = .waiting ∨ (s.sq o).state = .running then true else (s.sq o).resumeMark)
    ∧ (∀ o, (t.sq o).current = (s.sq o).current ∧ (t.sq o).group = (s.sq o).group ∧ (t.sq o).next = none)
    ∧ (∀ o, (s.sq o).state ≠ .waiting → (t.sq o).frameNo = (s.sq o).frameNo ∧ (t.sq o).last = (s.sq o).last)
    ∧ (∀ o, (t.sq o).cut = none ∧ t.burst o = none ∧ t.queue o = (s.queue o).filter fun e => e.state == .reserved)
    ∧ t.tbu.state = .standby (keptSelection s) ∧ t.tbu.xo = .off ∧ t.tbu.synth = .stopped ∧ t.tbu.xoCheck = none
    ∧ t.tbu.lock = s.tbu.lock
  let atRest (s : State) (cur : Selection) : Prop :=
    s.tbu.state = .running cur ∧ s.da.xoThroughout = false ∧ s.db.xoThroughout = false
    ∧ ∀ o, ((s.sq o).state = .idle ∨ (s.sq o).state = .bound) ∧ (s.sq o).next = none ∧ (s.sq o).cut = none
      ∧ s.burst o = none ∧ ∀ e ∈ s.queue o, e.state = .reserved
  let asleep (s u : State) (cur : Selection) : State :=
    u.setTbu { s.tbu with state := .standby cur, xo := .off, synth := .stopped, xoCheck := none }
  (∀ (s : State) (m : Master) (f : Frame), Admitted s m 0x18 f → otherMembers s m = [] →
    (∃ t, exec (.standby m) s = .next (answered t m f .ok []) ∧ rests s t)
    ∧ (AlignLaw s → exec (.standby m) s = .next (answered (deviceRests (taken s m f)) m f .ok []))
    ∧ ∀ cur, atRest s cur → exec (.standby m) s = .next (answered (asleep s (taken s m f) cur) m f .ok []))
  ∧ (∀ (s : State) (m : Master) (f : Frame), Admitted s m 0x18 f → otherMembers s m ≠ [] →
    HandedOver s (taken s m f) m f.tag .standby (wordAt f.payload 0) fun t code bytes =>
      exec (.standby m) s = .next (answered t m f code bytes))
  ∧ ∀ (s : State) (m : Master) (f : Frame) (p : Proposal), LastVote s m f p → p.matter = .standby →
    (∃ t, exec (.vote m) s = .next (answered (roundOver t p .carried) m f .ok []) ∧ rests s t)
    ∧ (AlignLaw s →
      exec (.vote m) s = .next (answered (roundOver (deviceRests (taken s m f)) p .carried) m f .ok []))
    ∧ ∀ cur, atRest s cur →
      exec (.vote m) s = .next (answered (roundOver (asleep s (taken s m f) cur) p .carried) m f .ok [])

/-- WAKE takes the start-up path with the selection kept and WAKE as origin, from IRC direct where TWOSPD is 1 and no
lock is set and from PREPARING otherwise (`PathTaken`; completion: log entries 11, 19). The resume marks are cleared and
wake start set; then the marked outputs in BOUND go to WAITING, and every output in WAITING starts, output by output,
where the path left a timebase (`movedTogether`, log entries 11, 14). To IRC direct: the unit runs on it at once; a
BOUND output with the resume mark and no group starts in the same event, its first frame UNSETTLED and AFTER_WAKE;
without a marked output nothing else changes. Outside standby it is STATE. -/
def Obligations.WakeResumesTheMarkedOutputs : Prop :=
  ∀ (s : State) (m : Master) (f : Frame), Admitted s m 0x19 f →
    (∀ sel, s.tbu.state = .standby sel →
      let marked := allOutputs.filter fun o => (s.sq o).resumeMark
      let moved := marked.filter fun o => (s.sq o).state == .bound
      let w := marked.foldl (fun u o => u.setSq o { s.sq o with resumeMark := false, wakeStart := true }) (taken s m f)
      PathTaken w sel .wake (s.straps.twospd && s.tbu.lock.isNone) (fun u =>
        let v := moved.foldl (fun v o => v.setSq o { u.sq o with state := .waiting }) u
        let starting := allOutputs.filter fun o => (v.sq o).state == .waiting && v.tbu.state.current.isSome
        exec (.wake m) s = .next (answered (movedTogether v moved starting) m f .ok [])))
    ∧ (s.tbu.state = .standby ⟨.irc, none⟩ → s.tbu.xo = .off → s.table.xo.keep = false → s.tbu.synth = .stopped →
        s.da.xoThroughout = false → s.db.xoThroughout = false → (∀ o, (s.sq o).state ≠ .waiting) →
        (∀ o, (s.sq o).resumeMark = false) →
      exec (.wake m) s = .next (answered ((taken s m f).setTbu { s.tbu with state := .running ⟨.irc, none⟩ }) m f .ok []))
    ∧ (∀ o, s.tbu.state = .standby ⟨.irc, none⟩ → (∀ p, (s.sq p).state ≠ .waiting) →
        (∀ p, (s.sq p).state ≠ .running) → (s.sq o).state = .bound →
        (s.sq o).resumeMark = true → (s.sq o).group = none →
      ∃ t, exec (.wake m) s = .next (answered t m f .ok [])
        ∧ t.tbu.state = .running ⟨.irc, none⟩
        ∧ (t.sq o).state = .running ∧ (t.sq o).frameNo = 0 ∧ (t.sq o).resumeMark = false
        ∧ (t.sq o).wakeStart = false ∧ (t.sq o).status = ⟨.unsettled, s.tbu.fail, true⟩
        ∧ (t.sq o).current = (s.sq o).current)
    ∧ (s.tbu.state.isStandby = false → exec (.wake m) s = .next (answered (taken s m f) m f .state []))

/-! ### Laws that every step keeps -/

/-- Receive buffers, notice queues, change queues and the Proposal Table keep their bounds. The laws of the records are
kept together: refs counts the places that name a slot, and what they name is FIXED; next and STOPPING go with the TAKEN
head of the queue; the RESERVED entries of a queue are those of the open proposals to change or stop its output; a claim
record is FREE exactly without holders, EXCLUSIVE with one, its holders distinct and joined; open proposals have distinct
ids and targets, with accepted a proper subset of required. -/
def Obligations.EveryStepKeepsTheBounds : Prop :=
  (∀ s t : State, LinkBounds s → QueueBounds s → TableBound s → step s = .next t →
    LinkBounds t ∧ QueueBounds t ∧ TableBound t)
  ∧ ∀ s t : State, RecordLaws s → step s = .next t → RecordLaws t

/-- With FSE 1 no step enters LOST or sets the selection lock; with FSE 0 no step sets FAIL. A switch in WAIT_ALIGN has
an align output, and that output is in RUNNING. -/
def Obligations.EveryStepKeepsTheTimebaseLaws : Prop :=
  (∀ s t : State, FseLaw s → step s = .next t → FseLaw t)
  ∧ ∀ s t : State, AlignLaw s → step s = .next t → AlignLaw t

/-- A FIXED profile keeps its geometry and label at every step but an external reset, unless the step frees a slot whose
refs are 0 and that no pending cut names. -/
def Obligations.FixedProfilesStayAsTheyAre : Prop :=
  ∀ (s t : State) (k : Slot), step s = .next t → s.pending.head? ≠ some .externalReset →
    (s.slot k).state = .fixedSlot →
      ((t.slot k).state = .fixedSlot ∧ (t.slot k).geom = (s.slot k).geom ∧ (t.slot k).label = (s.slot k).label)
      ∨ ((t.slot k).state = .emptySlot ∧ (s.slot k).refs = 0 ∧ ∀ o c, (s.sq o).cut = some c → c.slot ≠ k)

end
end

