-- ==== Sys2Proof/Laws/State.lean ====
section
/-! SUPPORT. What each update of one record leaves of State, field by field, and what it gives back when it is read.
No later proof unfolds a record update. -/

namespace Sys2Proof.Machine.State

/-! ### setLink -/

@[simp] theorem setLink_pending (s : State) (m : Master) (l : Link) : (s.setLink m l).pending = s.pending := rfl
@[simp] theorem setLink_freeCount (s : State) (m : Master) (l : Link) : (s.setLink m l).freeCount = s.freeCount := rfl
@[simp] theorem setLink_synPhase (s : State) (m : Master) (l : Link) : (s.setLink m l).synPhase = s.synPhase := rfl
@[simp] theorem setLink_partRank (s : State) (m : Master) (l : Link) : (s.setLink m l).partRank = s.partRank := rfl
@[simp] theorem setLink_now (s : State) (m : Master) (l : Link) : (s.setLink m l).now = s.now := rfl
@[simp] theorem setLink_resetLow (s : State) (m : Master) (l : Link) : (s.setLink m l).resetLow = s.resetLow := rfl
@[simp] theorem setLink_resetTaken (s : State) (m : Master) (l : Link) : (s.setLink m l).resetTaken = s.resetTaken := rfl
@[simp] theorem setLink_straps (s : State) (m : Master) (l : Link) : (s.setLink m l).straps = s.straps := rfl
@[simp] theorem setLink_masters (s : State) (m : Master) (l : Link) : (s.setLink m l).masters = s.masters := rfl
@[simp] theorem setLink_slots (s : State) (m : Master) (l : Link) : (s.setLink m l).slots = s.slots := rfl
@[simp] theorem setLink_chans (s : State) (m : Master) (l : Link) : (s.setLink m l).chans = s.chans := rfl
@[simp] theorem setLink_outClaims (s : State) (m : Master) (l : Link) : (s.setLink m l).outClaims = s.outClaims := rfl
@[simp] theorem setLink_tbClaim (s : State) (m : Master) (l : Link) : (s.setLink m l).tbClaim = s.tbClaim := rfl
@[simp] theorem setLink_consent (s : State) (m : Master) (l : Link) : (s.setLink m l).consent = s.consent := rfl
@[simp] theorem setLink_tbu (s : State) (m : Master) (l : Link) : (s.setLink m l).tbu = s.tbu := rfl
@[simp] theorem setLink_table (s : State) (m : Master) (l : Link) : (s.setLink m l).table = s.table := rfl
@[simp] theorem setLink_da (s : State) (m : Master) (l : Link) : (s.setLink m l).da = s.da := rfl
@[simp] theorem setLink_db (s : State) (m : Master) (l : Link) : (s.setLink m l).db = s.db := rfl

/-! ### setMaster -/

@[simp] theorem setMaster_pending (s : State) (m : Master) (r : MasterRec) : (s.setMaster m r).pending = s.pending := rfl
@[simp] theorem setMaster_freeCount (s : State) (m : Master) (r : MasterRec) : (s.setMaster m r).freeCount = s.freeCount := rfl
@[simp] theorem setMaster_synPhase (s : State) (m : Master) (r : MasterRec) : (s.setMaster m r).synPhase = s.synPhase := rfl
@[simp] theorem setMaster_partRank (s : State) (m : Master) (r : MasterRec) : (s.setMaster m r).partRank = s.partRank := rfl
@[simp] theorem setMaster_now (s : State) (m : Master) (r : MasterRec) : (s.setMaster m r).now = s.now := rfl
@[simp] theorem setMaster_resetLow (s : State) (m : Master) (r : MasterRec) : (s.setMaster m r).resetLow = s.resetLow := rfl
@[simp] theorem setMaster_resetTaken (s : State) (m : Master) (r : MasterRec) : (s.setMaster m r).resetTaken = s.resetTaken := rfl
@[simp] theorem setMaster_straps (s : State) (m : Master) (r : MasterRec) : (s.setMaster m r).straps = s.straps := rfl
@[simp] theorem setMaster_links (s : State) (m : Master) (r : MasterRec) : (s.setMaster m r).links = s.links := rfl
@[simp] theorem setMaster_slots (s : State) (m : Master) (r : MasterRec) : (s.setMaster m r).slots = s.slots := rfl
@[simp] theorem setMaster_chans (s : State) (m : Master) (r : MasterRec) : (s.setMaster m r).chans = s.chans := rfl
@[simp] theorem setMaster_outClaims (s : State) (m : Master) (r : MasterRec) : (s.setMaster m r).outClaims = s.outClaims := rfl
@[simp] theorem setMaster_tbClaim (s : State) (m : Master) (r : MasterRec) : (s.setMaster m r).tbClaim = s.tbClaim := rfl
@[simp] theorem setMaster_consent (s : State) (m : Master) (r : MasterRec) : (s.setMaster m r).consent = s.consent := rfl
@[simp] theorem setMaster_tbu (s : State) (m : Master) (r : MasterRec) : (s.setMaster m r).tbu = s.tbu := rfl
@[simp] theorem setMaster_table (s : State) (m : Master) (r : MasterRec) : (s.setMaster m r).table = s.table := rfl
@[simp] theorem setMaster_da (s : State) (m : Master) (r : MasterRec) : (s.setMaster m r).da = s.da := rfl
@[simp] theorem setMaster_db (s : State) (m : Master) (r : MasterRec) : (s.setMaster m r).db = s.db := rfl

/-! ### setSlot -/

@[simp] theorem setSlot_pending (s : State) (k : Slot) (r : SlotRec) : (s.setSlot k r).pending = s.pending := rfl
@[simp] theorem setSlot_freeCount (s : State) (k : Slot) (r : SlotRec) : (s.setSlot k r).freeCount = s.freeCount := rfl
@[simp] theorem setSlot_synPhase (s : State) (k : Slot) (r : SlotRec) : (s.setSlot k r).synPhase = s.synPhase := rfl
@[simp] theorem setSlot_partRank (s : State) (k : Slot) (r : SlotRec) : (s.setSlot k r).partRank = s.partRank := rfl
@[simp] theorem setSlot_now (s : State) (k : Slot) (r : SlotRec) : (s.setSlot k r).now = s.now := rfl
@[simp] theorem setSlot_resetLow (s : State) (k : Slot) (r : SlotRec) : (s.setSlot k r).resetLow = s.resetLow := rfl
@[simp] theorem setSlot_resetTaken (s : State) (k : Slot) (r : SlotRec) : (s.setSlot k r).resetTaken = s.resetTaken := rfl
@[simp] theorem setSlot_straps (s : State) (k : Slot) (r : SlotRec) : (s.setSlot k r).straps = s.straps := rfl
@[simp] theorem setSlot_links (s : State) (k : Slot) (r : SlotRec) : (s.setSlot k r).links = s.links := rfl
@[simp] theorem setSlot_masters (s : State) (k : Slot) (r : SlotRec) : (s.setSlot k r).masters = s.masters := rfl
@[simp] theorem setSlot_chans (s : State) (k : Slot) (r : SlotRec) : (s.setSlot k r).chans = s.chans := rfl
@[simp] theorem setSlot_outClaims (s : State) (k : Slot) (r : SlotRec) : (s.setSlot k r).outClaims = s.outClaims := rfl
@[simp] theorem setSlot_tbClaim (s : State) (k : Slot) (r : SlotRec) : (s.setSlot k r).tbClaim = s.tbClaim := rfl
@[simp] theorem setSlot_consent (s : State) (k : Slot) (r : SlotRec) : (s.setSlot k r).consent = s.consent := rfl
@[simp] theorem setSlot_tbu (s : State) (k : Slot) (r : SlotRec) : (s.setSlot k r).tbu = s.tbu := rfl
@[simp] theorem setSlot_table (s : State) (k : Slot) (r : SlotRec) : (s.setSlot k r).table = s.table := rfl
@[simp] theorem setSlot_da (s : State) (k : Slot) (r : SlotRec) : (s.setSlot k r).da = s.da := rfl
@[simp] theorem setSlot_db (s : State) (k : Slot) (r : SlotRec) : (s.setSlot k r).db = s.db := rfl

/-! ### setChan -/

@[simp] theorem setChan_pending (s : State) (o : Output) (c : Channel) : (s.setChan o c).pending = s.pending := rfl
@[simp] theorem setChan_freeCount (s : State) (o : Output) (c : Channel) : (s.setChan o c).freeCount = s.freeCount := rfl
@[simp] theorem setChan_synPhase (s : State) (o : Output) (c : Channel) : (s.setChan o c).synPhase = s.synPhase := rfl
@[simp] theorem setChan_partRank (s : State) (o : Output) (c : Channel) : (s.setChan o c).partRank = s.partRank := rfl
@[simp] theorem setChan_now (s : State) (o : Output) (c : Channel) : (s.setChan o c).now = s.now := rfl
@[simp] theorem setChan_resetLow (s : State) (o : Output) (c : Channel) : (s.setChan o c).resetLow = s.resetLow := rfl
@[simp] theorem setChan_resetTaken (s : State) (o : Output) (c : Channel) : (s.setChan o c).resetTaken = s.resetTaken := rfl
@[simp] theorem setChan_straps (s : State) (o : Output) (c : Channel) : (s.setChan o c).straps = s.straps := rfl
@[simp] theorem setChan_links (s : State) (o : Output) (c : Channel) : (s.setChan o c).links = s.links := rfl
@[simp] theorem setChan_masters (s : State) (o : Output) (c : Channel) : (s.setChan o c).masters = s.masters := rfl
@[simp] theorem setChan_slots (s : State) (o : Output) (c : Channel) : (s.setChan o c).slots = s.slots := rfl
@[simp] theorem setChan_outClaims (s : State) (o : Output) (c : Channel) : (s.setChan o c).outClaims = s.outClaims := rfl
@[simp] theorem setChan_tbClaim (s : State) (o : Output) (c : Channel) : (s.setChan o c).tbClaim = s.tbClaim := rfl
@[simp] theorem setChan_consent (s : State) (o : Output) (c : Channel) : (s.setChan o c).consent = s.consent := rfl
@[simp] theorem setChan_tbu (s : State) (o : Output) (c : Channel) : (s.setChan o c).tbu = s.tbu := rfl
@[simp] theorem setChan_table (s : State) (o : Output) (c : Channel) : (s.setChan o c).table = s.table := rfl
@[simp] theorem setChan_da (s : State) (o : Output) (c : Channel) : (s.setChan o c).da = s.da := rfl
@[simp] theorem setChan_db (s : State) (o : Output) (c : Channel) : (s.setChan o c).db = s.db := rfl

/-! ### setSq -/

@[simp] theorem setSq_pending (s : State) (o : Output) (r : OutRec) : (s.setSq o r).pending = s.pending := rfl
@[simp] theorem setSq_freeCount (s : State) (o : Output) (r : OutRec) : (s.setSq o r).freeCount = s.freeCount := rfl
@[simp] theorem setSq_synPhase (s : State) (o : Output) (r : OutRec) : (s.setSq o r).synPhase = s.synPhase := rfl
@[simp] theorem setSq_partRank (s : State) (o : Output) (r : OutRec) : (s.setSq o r).partRank = s.partRank := rfl
@[simp] theorem setSq_now (s : State) (o : Output) (r : OutRec) : (s.setSq o r).now = s.now := rfl
@[simp] theorem setSq_resetLow (s : State) (o : Output) (r : OutRec) : (s.setSq o r).resetLow = s.resetLow := rfl
@[simp] theorem setSq_resetTaken (s : State) (o : Output) (r : OutRec) : (s.setSq o r).resetTaken = s.resetTaken := rfl
@[simp] theorem setSq_straps (s : State) (o : Output) (r : OutRec) : (s.setSq o r).straps = s.straps := rfl
@[simp] theorem setSq_links (s : State) (o : Output) (r : OutRec) : (s.setSq o r).links = s.links := rfl
@[simp] theorem setSq_masters (s : State) (o : Output) (r : OutRec) : (s.setSq o r).masters = s.masters := rfl
@[simp] theorem setSq_slots (s : State) (o : Output) (r : OutRec) : (s.setSq o r).slots = s.slots := rfl
@[simp] theorem setSq_outClaims (s : State) (o : Output) (r : OutRec) : (s.setSq o r).outClaims = s.outClaims := rfl
@[simp] theorem setSq_tbClaim (s : State) (o : Output) (r : OutRec) : (s.setSq o r).tbClaim = s.tbClaim := rfl
@[simp] theorem setSq_consent (s : State) (o : Output) (r : OutRec) : (s.setSq o r).consent = s.consent := rfl
@[simp] theorem setSq_tbu (s : State) (o : Output) (r : OutRec) : (s.setSq o r).tbu = s.tbu := rfl
@[simp] theorem setSq_table (s : State) (o : Output) (r : OutRec) : (s.setSq o r).table = s.table := rfl
@[simp] theorem setSq_da (s : State) (o : Output) (r : OutRec) : (s.setSq o r).da = s.da := rfl
@[simp] theorem setSq_db (s : State) (o : Output) (r : OutRec) : (s.setSq o r).db = s.db := rfl

/-! ### setQueue -/

@[simp] theorem setQueue_pending (s : State) (o : Output) (q : List Entry) : (s.setQueue o q).pending = s.pending := rfl
@[simp] theorem setQueue_freeCount (s : State) (o : Output) (q : List Entry) : (s.setQueue o q).freeCount = s.freeCount := rfl
@[simp] theorem setQueue_synPhase (s : State) (o : Output) (q : List Entry) : (s.setQueue o q).synPhase = s.synPhase := rfl
@[simp] theorem setQueue_partRank (s : State) (o : Output) (q : List Entry) : (s.setQueue o q).partRank = s.partRank := rfl
@[simp] theorem setQueue_now (s : State) (o : Output) (q : List Entry) : (s.setQueue o q).now = s.now := rfl
@[simp] theorem setQueue_resetLow (s : State) (o : Output) (q : List Entry) : (s.setQueue o q).resetLow = s.resetLow := rfl
@[simp] theorem setQueue_resetTaken (s : State) (o : Output) (q : List Entry) : (s.setQueue o q).resetTaken = s.resetTaken := rfl
@[simp] theorem setQueue_straps (s : State) (o : Output) (q : List Entry) : (s.setQueue o q).straps = s.straps := rfl
@[simp] theorem setQueue_links (s : State) (o : Output) (q : List Entry) : (s.setQueue o q).links = s.links := rfl
@[simp] theorem setQueue_masters (s : State) (o : Output) (q : List Entry) : (s.setQueue o q).masters = s.masters := rfl
@[simp] theorem setQueue_slots (s : State) (o : Output) (q : List Entry) : (s.setQueue o q).slots = s.slots := rfl
@[simp] theorem setQueue_outClaims (s : State) (o : Output) (q : List Entry) : (s.setQueue o q).outClaims = s.outClaims := rfl
@[simp] theorem setQueue_tbClaim (s : State) (o : Output) (q : List Entry) : (s.setQueue o q).tbClaim = s.tbClaim := rfl
@[simp] theorem setQueue_consent (s : State) (o : Output) (q : List Entry) : (s.setQueue o q).consent = s.consent := rfl
@[simp] theorem setQueue_tbu (s : State) (o : Output) (q : List Entry) : (s.setQueue o q).tbu = s.tbu := rfl
@[simp] theorem setQueue_table (s : State) (o : Output) (q : List Entry) : (s.setQueue o q).table = s.table := rfl
@[simp] theorem setQueue_da (s : State) (o : Output) (q : List Entry) : (s.setQueue o q).da = s.da := rfl
@[simp] theorem setQueue_db (s : State) (o : Output) (q : List Entry) : (s.setQueue o q).db = s.db := rfl

/-! ### setBurst -/

@[simp] theorem setBurst_pending (s : State) (o : Output) (b : Option Burst) : (s.setBurst o b).pending = s.pending := rfl
@[simp] theorem setBurst_freeCount (s : State) (o : Output) (b : Option Burst) : (s.setBurst o b).freeCount = s.freeCount := rfl
@[simp] theorem setBurst_synPhase (s : State) (o : Output) (b : Option Burst) : (s.setBurst o b).synPhase = s.synPhase := rfl
@[simp] theorem setBurst_partRank (s : State) (o : Output) (b : Option Burst) : (s.setBurst o b).partRank = s.partRank := rfl
@[simp] theorem setBurst_now (s : State) (o : Output) (b : Option Burst) : (s.setBurst o b).now = s.now := rfl
@[simp] theorem setBurst_resetLow (s : State) (o : Output) (b : Option Burst) : (s.setBurst o b).resetLow = s.resetLow := rfl
@[simp] theorem setBurst_resetTaken (s : State) (o : Output) (b : Option Burst) : (s.setBurst o b).resetTaken = s.resetTaken := rfl
@[simp] theorem setBurst_straps (s : State) (o : Output) (b : Option Burst) : (s.setBurst o b).straps = s.straps := rfl
@[simp] theorem setBurst_links (s : State) (o : Output) (b : Option Burst) : (s.setBurst o b).links = s.links := rfl
@[simp] theorem setBurst_masters (s : State) (o : Output) (b : Option Burst) : (s.setBurst o b).masters = s.masters := rfl
@[simp] theorem setBurst_slots (s : State) (o : Output) (b : Option Burst) : (s.setBurst o b).slots = s.slots := rfl
@[simp] theorem setBurst_outClaims (s : State) (o : Output) (b : Option Burst) : (s.setBurst o b).outClaims = s.outClaims := rfl
@[simp] theorem setBurst_tbClaim (s : State) (o : Output) (b : Option Burst) : (s.setBurst o b).tbClaim = s.tbClaim := rfl
@[simp] theorem setBurst_consent (s : State) (o : Output) (b : Option Burst) : (s.setBurst o b).consent = s.consent := rfl
@[simp] theorem setBurst_tbu (s : State) (o : Output) (b : Option Burst) : (s.setBurst o b).tbu = s.tbu := rfl
@[simp] theorem setBurst_table (s : State) (o : Output) (b : Option Burst) : (s.setBurst o b).table = s.table := rfl
@[simp] theorem setBurst_da (s : State) (o : Output) (b : Option Burst) : (s.setBurst o b).da = s.da := rfl
@[simp] theorem setBurst_db (s : State) (o : Output) (b : Option Burst) : (s.setBurst o b).db = s.db := rfl

/-! ### setClaim -/

@[simp] theorem setClaim_pending (s : State) (t : Target) (r : ClaimRec) : (s.setClaim t r).pending = s.pending := by cases t <;> rfl
@[simp] theorem setClaim_freeCount (s : State) (t : Target) (r : ClaimRec) : (s.setClaim t r).freeCount = s.freeCount := by cases t <;> rfl
@[simp] theorem setClaim_synPhase (s : State) (t : Target) (r : ClaimRec) : (s.setClaim t r).synPhase = s.synPhase := by cases t <;> rfl
@[simp] theorem setClaim_partRank (s : State) (t : Target) (r : ClaimRec) : (s.setClaim t r).partRank = s.partRank := by cases t <;> rfl
@[simp] theorem setClaim_now (s : State) (t : Target) (r : ClaimRec) : (s.setClaim t r).now = s.now := by cases t <;> rfl
@[simp] theorem setClaim_resetLow (s : State) (t : Target) (r : ClaimRec) : (s.setClaim t r).resetLow = s.resetLow := by cases t <;> rfl
@[simp] theorem setClaim_resetTaken (s : State) (t : Target) (r : ClaimRec) : (s.setClaim t r).resetTaken = s.resetTaken := by cases t <;> rfl
@[simp] theorem setClaim_straps (s : State) (t : Target) (r : ClaimRec) : (s.setClaim t r).straps = s.straps := by cases t <;> rfl
@[simp] theorem setClaim_links (s : State) (t : Target) (r : ClaimRec) : (s.setClaim t r).links = s.links := by cases t <;> rfl
@[simp] theorem setClaim_masters (s : State) (t : Target) (r : ClaimRec) : (s.setClaim t r).masters = s.masters := by cases t <;> rfl
@[simp] theorem setClaim_slots (s : State) (t : Target) (r : ClaimRec) : (s.setClaim t r).slots = s.slots := by cases t <;> rfl
@[simp] theorem setClaim_chans (s : State) (t : Target) (r : ClaimRec) : (s.setClaim t r).chans = s.chans := by cases t <;> rfl
@[simp] theorem setClaim_consent (s : State) (t : Target) (r : ClaimRec) : (s.setClaim t r).consent = s.consent := by cases t <;> rfl
@[simp] theorem setClaim_tbu (s : State) (t : Target) (r : ClaimRec) : (s.setClaim t r).tbu = s.tbu := by cases t <;> rfl
@[simp] theorem setClaim_table (s : State) (t : Target) (r : ClaimRec) : (s.setClaim t r).table = s.table := by cases t <;> rfl
@[simp] theorem setClaim_da (s : State) (t : Target) (r : ClaimRec) : (s.setClaim t r).da = s.da := by cases t <;> rfl
@[simp] theorem setClaim_db (s : State) (t : Target) (r : ClaimRec) : (s.setClaim t r).db = s.db := by cases t <;> rfl

/-! ### setDet -/

@[simp] theorem setDet_pending (s : State) (d : Detector) (r : DetRec) : (s.setDet d r).pending = s.pending := by cases d <;> rfl
@[simp] theorem setDet_freeCount (s : State) (d : Detector) (r : DetRec) : (s.setDet d r).freeCount = s.freeCount := by cases d <;> rfl
@[simp] theorem setDet_synPhase (s : State) (d : Detector) (r : DetRec) : (s.setDet d r).synPhase = s.synPhase := by cases d <;> rfl
@[simp] theorem setDet_partRank (s : State) (d : Detector) (r : DetRec) : (s.setDet d r).partRank = s.partRank := by cases d <;> rfl
@[simp] theorem setDet_now (s : State) (d : Detector) (r : DetRec) : (s.setDet d r).now = s.now := by cases d <;> rfl
@[simp] theorem setDet_resetLow (s : State) (d : Detector) (r : DetRec) : (s.setDet d r).resetLow = s.resetLow := by cases d <;> rfl
@[simp] theorem setDet_resetTaken (s : State) (d : Detector) (r : DetRec) : (s.setDet d r).resetTaken = s.resetTaken := by cases d <;> rfl
@[simp] theorem setDet_straps (s : State) (d : Detector) (r : DetRec) : (s.setDet d r).straps = s.straps := by cases d <;> rfl
@[simp] theorem setDet_links (s : State) (d : Detector) (r : DetRec) : (s.setDet d r).links = s.links := by cases d <;> rfl
@[simp] theorem setDet_masters (s : State) (d : Detector) (r : DetRec) : (s.setDet d r).masters = s.masters := by cases d <;> rfl
@[simp] theorem setDet_slots (s : State) (d : Detector) (r : DetRec) : (s.setDet d r).slots = s.slots := by cases d <;> rfl
@[simp] theorem setDet_chans (s : State) (d : Detector) (r : DetRec) : (s.setDet d r).chans = s.chans := by cases d <;> rfl
@[simp] theorem setDet_outClaims (s : State) (d : Detector) (r : DetRec) : (s.setDet d r).outClaims = s.outClaims := by cases d <;> rfl
@[simp] theorem setDet_tbClaim (s : State) (d : Detector) (r : DetRec) : (s.setDet d r).tbClaim = s.tbClaim := by cases d <;> rfl
@[simp] theorem setDet_consent (s : State) (d : Detector) (r : DetRec) : (s.setDet d r).consent = s.consent := by cases d <;> rfl
@[simp] theorem setDet_tbu (s : State) (d : Detector) (r : DetRec) : (s.setDet d r).tbu = s.tbu := by cases d <;> rfl
@[simp] theorem setDet_table (s : State) (d : Detector) (r : DetRec) : (s.setDet d r).table = s.table := by cases d <;> rfl

/-! ### setTbu -/

@[simp] theorem setTbu_pending (s : State) (t : Tbu) : (s.setTbu t).pending = s.pending := rfl
@[simp] theorem setTbu_freeCount (s : State) (t : Tbu) : (s.setTbu t).freeCount = s.freeCount := rfl
@[simp] theorem setTbu_synPhase (s : State) (t : Tbu) : (s.setTbu t).synPhase = s.synPhase := rfl
@[simp] theorem setTbu_partRank (s : State) (t : Tbu) : (s.setTbu t).partRank = s.partRank := rfl
@[simp] theorem setTbu_now (s : State) (t : Tbu) : (s.setTbu t).now = s.now := rfl
@[simp] theorem setTbu_resetLow (s : State) (t : Tbu) : (s.setTbu t).resetLow = s.resetLow := rfl
@[simp] theorem setTbu_resetTaken (s : State) (t : Tbu) : (s.setTbu t).resetTaken = s.resetTaken := rfl
@[simp] theorem setTbu_straps (s : State) (t : Tbu) : (s.setTbu t).straps = s.straps := rfl
@[simp] theorem setTbu_links (s : State) (t : Tbu) : (s.setTbu t).links = s.links := rfl
@[simp] theorem setTbu_masters (s : State) (t : Tbu) : (s.setTbu t).masters = s.masters := rfl
@[simp] theorem setTbu_slots (s : State) (t : Tbu) : (s.setTbu t).slots = s.slots := rfl
@[simp] theorem setTbu_chans (s : State) (t : Tbu) : (s.setTbu t).chans = s.chans := rfl
@[simp] theorem setTbu_outClaims (s : State) (t : Tbu) : (s.setTbu t).outClaims = s.outClaims := rfl
@[simp] theorem setTbu_tbClaim (s : State) (t : Tbu) : (s.setTbu t).tbClaim = s.tbClaim := rfl
@[simp] theorem setTbu_consent (s : State) (t : Tbu) : (s.setTbu t).consent = s.consent := rfl
@[simp] theorem setTbu_table (s : State) (t : Tbu) : (s.setTbu t).table = s.table := rfl
@[simp] theorem setTbu_da (s : State) (t : Tbu) : (s.setTbu t).da = s.da := rfl
@[simp] theorem setTbu_db (s : State) (t : Tbu) : (s.setTbu t).db = s.db := rfl

/-! ### setProposals -/

@[simp] theorem setProposals_pending (s : State) (ps : List Proposal) : (s.setProposals ps).pending = s.pending := rfl
@[simp] theorem setProposals_freeCount (s : State) (ps : List Proposal) : (s.setProposals ps).freeCount = s.freeCount := rfl
@[simp] theorem setProposals_synPhase (s : State) (ps : List Proposal) : (s.setProposals ps).synPhase = s.synPhase := rfl
@[simp] theorem setProposals_partRank (s : State) (ps : List Proposal) : (s.setProposals ps).partRank = s.partRank := rfl
@[simp] theorem setProposals_now (s : State) (ps : List Proposal) : (s.setProposals ps).now = s.now := rfl
@[simp] theorem setProposals_resetLow (s : State) (ps : List Proposal) : (s.setProposals ps).resetLow = s.resetLow := rfl
@[simp] theorem setProposals_resetTaken (s : State) (ps : List Proposal) : (s.setProposals ps).resetTaken = s.resetTaken := rfl
@[simp] theorem setProposals_straps (s : State) (ps : List Proposal) : (s.setProposals ps).straps = s.straps := rfl
@[simp] theorem setProposals_links (s : State) (ps : List Proposal) : (s.setProposals ps).links = s.links := rfl
@[simp] theorem setProposals_masters (s : State) (ps : List Proposal) : (s.setProposals ps).masters = s.masters := rfl
@[simp] theorem setProposals_slots (s : State) (ps : List Proposal) : (s.setProposals ps).slots = s.slots := rfl
@[simp] theorem setProposals_chans (s : State) (ps : List Proposal) : (s.setProposals ps).chans = s.chans := rfl
@[simp] theorem setProposals_outClaims (s : State) (ps : List Proposal) : (s.setProposals ps).outClaims = s.outClaims := rfl
@[simp] theorem setProposals_tbClaim (s : State) (ps : List Proposal) : (s.setProposals ps).tbClaim = s.tbClaim := rfl
@[simp] theorem setProposals_tbu (s : State) (ps : List Proposal) : (s.setProposals ps).tbu = s.tbu := rfl
@[simp] theorem setProposals_table (s : State) (ps : List Proposal) : (s.setProposals ps).table = s.table := rfl
@[simp] theorem setProposals_da (s : State) (ps : List Proposal) : (s.setProposals ps).da = s.da := rfl
@[simp] theorem setProposals_db (s : State) (ps : List Proposal) : (s.setProposals ps).db = s.db := rfl

/-! ### reach -/

@[simp] theorem reach_pending (s : State) (t : Nat) : (s.reach t).pending = s.pending := rfl
@[simp] theorem reach_freeCount (s : State) (t : Nat) : (s.reach t).freeCount = s.freeCount := rfl
@[simp] theorem reach_synPhase (s : State) (t : Nat) : (s.reach t).synPhase = s.synPhase := rfl
@[simp] theorem reach_partRank (s : State) (t : Nat) : (s.reach t).partRank = s.partRank := rfl
@[simp] theorem reach_resetLow (s : State) (t : Nat) : (s.reach t).resetLow = s.resetLow := rfl
@[simp] theorem reach_resetTaken (s : State) (t : Nat) : (s.reach t).resetTaken = s.resetTaken := rfl
@[simp] theorem reach_straps (s : State) (t : Nat) : (s.reach t).straps = s.straps := rfl
@[simp] theorem reach_links (s : State) (t : Nat) : (s.reach t).links = s.links := rfl
@[simp] theorem reach_masters (s : State) (t : Nat) : (s.reach t).masters = s.masters := rfl
@[simp] theorem reach_slots (s : State) (t : Nat) : (s.reach t).slots = s.slots := rfl
@[simp] theorem reach_chans (s : State) (t : Nat) : (s.reach t).chans = s.chans := rfl
@[simp] theorem reach_outClaims (s : State) (t : Nat) : (s.reach t).outClaims = s.outClaims := rfl
@[simp] theorem reach_tbClaim (s : State) (t : Nat) : (s.reach t).tbClaim = s.tbClaim := rfl
@[simp] theorem reach_consent (s : State) (t : Nat) : (s.reach t).consent = s.consent := rfl
@[simp] theorem reach_tbu (s : State) (t : Nat) : (s.reach t).tbu = s.tbu := rfl
@[simp] theorem reach_table (s : State) (t : Nat) : (s.reach t).table = s.table := rfl
@[simp] theorem reach_da (s : State) (t : Nat) : (s.reach t).da = s.da := rfl
@[simp] theorem reach_db (s : State) (t : Nat) : (s.reach t).db = s.db := rfl

/-! ### addRef -/

@[simp] theorem addRef_pending (s : State) (k : Slot) : (s.addRef k).pending = s.pending := rfl
@[simp] theorem addRef_freeCount (s : State) (k : Slot) : (s.addRef k).freeCount = s.freeCount := rfl
@[simp] theorem addRef_synPhase (s : State) (k : Slot) : (s.addRef k).synPhase = s.synPhase := rfl
@[simp] theorem addRef_partRank (s : State) (k : Slot) : (s.addRef k).partRank = s.partRank := rfl
@[simp] theorem addRef_now (s : State) (k : Slot) : (s.addRef k).now = s.now := rfl
@[simp] theorem addRef_resetLow (s : State) (k : Slot) : (s.addRef k).resetLow = s.resetLow := rfl
@[simp] theorem addRef_resetTaken (s : State) (k : Slot) : (s.addRef k).resetTaken = s.resetTaken := rfl
@[simp] theorem addRef_straps (s : State) (k : Slot) : (s.addRef k).straps = s.straps := rfl
@[simp] theorem addRef_links (s : State) (k : Slot) : (s.addRef k).links = s.links := rfl
@[simp] theorem addRef_masters (s : State) (k : Slot) : (s.addRef k).masters = s.masters := rfl
@[simp] theorem addRef_chans (s : State) (k : Slot) : (s.addRef k).chans = s.chans := rfl
@[simp] theorem addRef_outClaims (s : State) (k : Slot) : (s.addRef k).outClaims = s.outClaims := rfl
@[simp] theorem addRef_tbClaim (s : State) (k : Slot) : (s.addRef k).tbClaim = s.tbClaim := rfl
@[simp] theorem addRef_consent (s : State) (k : Slot) : (s.addRef k).consent = s.consent := rfl
@[simp] theorem addRef_tbu (s : State) (k : Slot) : (s.addRef k).tbu = s.tbu := rfl
@[simp] theorem addRef_table (s : State) (k : Slot) : (s.addRef k).table = s.table := rfl
@[simp] theorem addRef_da (s : State) (k : Slot) : (s.addRef k).da = s.da := rfl
@[simp] theorem addRef_db (s : State) (k : Slot) : (s.addRef k).db = s.db := rfl

/-! ### dropRef -/

@[simp] theorem dropRef_pending (s : State) (k : Slot) : (s.dropRef k).pending = s.pending := rfl
@[simp] theorem dropRef_freeCount (s : State) (k : Slot) : (s.dropRef k).freeCount = s.freeCount := rfl
@[simp] theorem dropRef_synPhase (s : State) (k : Slot) : (s.dropRef k).synPhase = s.synPhase := rfl
@[simp] theorem dropRef_partRank (s : State) (k : Slot) : (s.dropRef k).partRank = s.partRank := rfl
@[simp] theorem dropRef_now (s : State) (k : Slot) : (s.dropRef k).now = s.now := rfl
@[simp] theorem dropRef_resetLow (s : State) (k : Slot) : (s.dropRef k).resetLow = s.resetLow := rfl
@[simp] theorem dropRef_resetTaken (s : State) (k : Slot) : (s.dropRef k).resetTaken = s.resetTaken := rfl
@[simp] theorem dropRef_straps (s : State) (k : Slot) : (s.dropRef k).straps = s.straps := rfl
@[simp] theorem dropRef_links (s : State) (k : Slot) : (s.dropRef k).links = s.links := rfl
@[simp] theorem dropRef_masters (s : State) (k : Slot) : (s.dropRef k).masters = s.masters := rfl
@[simp] theorem dropRef_chans (s : State) (k : Slot) : (s.dropRef k).chans = s.chans := rfl
@[simp] theorem dropRef_outClaims (s : State) (k : Slot) : (s.dropRef k).outClaims = s.outClaims := rfl
@[simp] theorem dropRef_tbClaim (s : State) (k : Slot) : (s.dropRef k).tbClaim = s.tbClaim := rfl
@[simp] theorem dropRef_consent (s : State) (k : Slot) : (s.dropRef k).consent = s.consent := rfl
@[simp] theorem dropRef_tbu (s : State) (k : Slot) : (s.dropRef k).tbu = s.tbu := rfl
@[simp] theorem dropRef_table (s : State) (k : Slot) : (s.dropRef k).table = s.table := rfl
@[simp] theorem dropRef_da (s : State) (k : Slot) : (s.dropRef k).da = s.da := rfl
@[simp] theorem dropRef_db (s : State) (k : Slot) : (s.dropRef k).db = s.db := rfl

/-! ### dropRefOpt -/

@[simp] theorem dropRefOpt_pending (s : State) (k : Option Slot) : (s.dropRefOpt k).pending = s.pending := by cases k <;> rfl
@[simp] theorem dropRefOpt_freeCount (s : State) (k : Option Slot) : (s.dropRefOpt k).freeCount = s.freeCount := by cases k <;> rfl
@[simp] theorem dropRefOpt_synPhase (s : State) (k : Option Slot) : (s.dropRefOpt k).synPhase = s.synPhase := by cases k <;> rfl
@[simp] theorem dropRefOpt_partRank (s : State) (k : Option Slot) : (s.dropRefOpt k).partRank = s.partRank := by cases k <;> rfl
@[simp] theorem dropRefOpt_now (s : State) (k : Option Slot) : (s.dropRefOpt k).now = s.now := by cases k <;> rfl
@[simp] theorem dropRefOpt_resetLow (s : State) (k : Option Slot) : (s.dropRefOpt k).resetLow = s.resetLow := by cases k <;> rfl
@[simp] theorem dropRefOpt_resetTaken (s : State) (k : Option Slot) : (s.dropRefOpt k).resetTaken = s.resetTaken := by cases k <;> rfl
@[simp] theorem dropRefOpt_straps (s : State) (k : Option Slot) : (s.dropRefOpt k).straps = s.straps := by cases k <;> rfl
@[simp] theorem dropRefOpt_links (s : State) (k : Option Slot) : (s.dropRefOpt k).links = s.links := by cases k <;> rfl
@[simp] theorem dropRefOpt_masters (s : State) (k : Option Slot) : (s.dropRefOpt k).masters = s.masters := by cases k <;> rfl
@[simp] theorem dropRefOpt_chans (s : State) (k : Option Slot) : (s.dropRefOpt k).chans = s.chans := by cases k <;> rfl
@[simp] theorem dropRefOpt_outClaims (s : State) (k : Option Slot) : (s.dropRefOpt k).outClaims = s.outClaims := by cases k <;> rfl
@[simp] theorem dropRefOpt_tbClaim (s : State) (k : Option Slot) : (s.dropRefOpt k).tbClaim = s.tbClaim := by cases k <;> rfl
@[simp] theorem dropRefOpt_consent (s : State) (k : Option Slot) : (s.dropRefOpt k).consent = s.consent := by cases k <;> rfl
@[simp] theorem dropRefOpt_tbu (s : State) (k : Option Slot) : (s.dropRefOpt k).tbu = s.tbu := by cases k <;> rfl
@[simp] theorem dropRefOpt_table (s : State) (k : Option Slot) : (s.dropRefOpt k).table = s.table := by cases k <;> rfl
@[simp] theorem dropRefOpt_da (s : State) (k : Option Slot) : (s.dropRefOpt k).da = s.da := by cases k <;> rfl
@[simp] theorem dropRefOpt_db (s : State) (k : Option Slot) : (s.dropRefOpt k).db = s.db := by cases k <;> rfl

/-! ### Reading a record of another kind -/

@[simp] theorem master_setLink (s : State) (m : Master) (l : Link) (j : Master) : (s.setLink m l).master j = s.master j := rfl
@[simp] theorem slot_setLink (s : State) (m : Master) (l : Link) (j : Slot) : (s.setLink m l).slot j = s.slot j := rfl
@[simp] theorem chan_setLink (s : State) (m : Master) (l : Link) (j : Output) : (s.setLink m l).chan j = s.chan j := rfl
@[simp] theorem sq_setLink (s : State) (m : Master) (l : Link) (j : Output) : (s.setLink m l).sq j = s.sq j := rfl
@[simp] theorem queue_setLink (s : State) (m : Master) (l : Link) (j : Output) : (s.setLink m l).queue j = s.queue j := rfl
@[simp] theorem burst_setLink (s : State) (m : Master) (l : Link) (j : Output) : (s.setLink m l).burst j = s.burst j := rfl
@[simp] theorem claim_setLink (s : State) (m : Master) (l : Link) (j : Target) : (s.setLink m l).claim j = s.claim j := by cases j <;> rfl
@[simp] theorem det_setLink (s : State) (m : Master) (l : Link) (j : Detector) : (s.setLink m l).det j = s.det j := by cases j <;> rfl
@[simp] theorem link_setMaster (s : State) (m : Master) (r : MasterRec) (j : Master) : (s.setMaster m r).link j = s.link j := rfl
@[simp] theorem slot_setMaster (s : State) (m : Master) (r : MasterRec) (j : Slot) : (s.setMaster m r).slot j = s.slot j := rfl
@[simp] theorem chan_setMaster (s : State) (m : Master) (r : MasterRec) (j : Output) : (s.setMaster m r).chan j = s.chan j := rfl
@[simp] theorem sq_setMaster (s : State) (m : Master) (r : MasterRec) (j : Output) : (s.setMaster m r).sq j = s.sq j := rfl
@[simp] theorem queue_setMaster (s : State) (m : Master) (r : MasterRec) (j : Output) : (s.setMaster m r).queue j = s.queue j := rfl
@[simp] theorem burst_setMaster (s : State) (m : Master) (r : MasterRec) (j : Output) : (s.setMaster m r).burst j = s.burst j := rfl
@[simp] theorem claim_setMaster (s : State) (m : Master) (r : MasterRec) (j : Target) : (s.setMaster m r).claim j = s.claim j := by cases j <;> rfl
@[simp] theorem det_setMaster (s : State) (m : Master) (r : MasterRec) (j : Detector) : (s.setMaster m r).det j = s.det j := by cases j <;> rfl
@[simp] theorem link_setSlot (s : State) (k : Slot) (r : SlotRec) (j : Master) : (s.setSlot k r).link j = s.link j := rfl
@[simp] theorem master_setSlot (s : State) (k : Slot) (r : SlotRec) (j : Master) : (s.setSlot k r).master j = s.master j := rfl
@[simp] theorem chan_setSlot (s : State) (k : Slot) (r : SlotRec) (j : Output) : (s.setSlot k r).chan j = s.chan j := rfl
@[simp] theorem sq_setSlot (s : State) (k : Slot) (r : SlotRec) (j : Output) : (s.setSlot k r).sq j = s.sq j := rfl
@[simp] theorem queue_setSlot (s : State) (k : Slot) (r : SlotRec) (j : Output) : (s.setSlot k r).queue j = s.queue j := rfl
@[simp] theorem burst_setSlot (s : State) (k : Slot) (r : SlotRec) (j : Output) : (s.setSlot k r).burst j = s.burst j := rfl
@[simp] theorem claim_setSlot (s : State) (k : Slot) (r : SlotRec) (j : Target) : (s.setSlot k r).claim j = s.claim j := by cases j <;> rfl
@[simp] theorem det_setSlot (s : State) (k : Slot) (r : SlotRec) (j : Detector) : (s.setSlot k r).det j = s.det j := by cases j <;> rfl
@[simp] theorem link_setChan (s : State) (o : Output) (c : Channel) (j : Master) : (s.setChan o c).link j = s.link j := rfl
@[simp] theorem master_setChan (s : State) (o : Output) (c : Channel) (j : Master) : (s.setChan o c).master j = s.master j := rfl
@[simp] theorem slot_setChan (s : State) (o : Output) (c : Channel) (j : Slot) : (s.setChan o c).slot j = s.slot j := rfl
@[simp] theorem claim_setChan (s : State) (o : Output) (c : Channel) (j : Target) : (s.setChan o c).claim j = s.claim j := by cases j <;> rfl
@[simp] theorem det_setChan (s : State) (o : Output) (c : Channel) (j : Detector) : (s.setChan o c).det j = s.det j := by cases j <;> rfl
@[simp] theorem link_setSq (s : State) (o : Output) (r : OutRec) (j : Master) : (s.setSq o r).link j = s.link j := rfl
@[simp] theorem master_setSq (s : State) (o : Output) (r : OutRec) (j : Master) : (s.setSq o r).master j = s.master j := rfl
@[simp] theorem slot_setSq (s : State) (o : Output) (r : OutRec) (j : Slot) : (s.setSq o r).slot j = s.slot j := rfl
@[simp] theorem claim_setSq (s : State) (o : Output) (r : OutRec) (j : Target) : (s.setSq o r).claim j = s.claim j := by cases j <;> rfl
@[simp] theorem det_setSq (s : State) (o : Output) (r : OutRec) (j : Detector) : (s.setSq o r).det j = s.det j := by cases j <;> rfl
@[simp] theorem link_setQueue (s : State) (o : Output) (q : List Entry) (j : Master) : (s.setQueue o q).link j = s.link j := rfl
@[simp] theorem master_setQueue (s : State) (o : Output) (q : List Entry) (j : Master) : (s.setQueue o q).master j = s.master j := rfl
@[simp] theorem slot_setQueue (s : State) (o : Output) (q : List Entry) (j : Slot) : (s.setQueue o q).slot j = s.slot j := rfl
@[simp] theorem claim_setQueue (s : State) (o : Output) (q : List Entry) (j : Target) : (s.setQueue o q).claim j = s.claim j := by cases j <;> rfl
@[simp] theorem det_setQueue (s : State) (o : Output) (q : List Entry) (j : Detector) : (s.setQueue o q).det j = s.det j := by cases j <;> rfl
@[simp] theorem link_setBurst (s : State) (o : Output) (b : Option Burst) (j : Master) : (s.setBurst o b).link j = s.link j := rfl
@[simp] theorem master_setBurst (s : State) (o : Output) (b : Option Burst) (j : Master) : (s.setBurst o b).master j = s.master j := rfl
@[simp] theorem slot_setBurst (s : State) (o : Output) (b : Option Burst) (j : Slot) : (s.setBurst o b).slot j = s.slot j := rfl
@[simp] theorem claim_setBurst (s : State) (o : Output) (b : Option Burst) (j : Target) : (s.setBurst o b).claim j = s.claim j := by cases j <;> rfl
@[simp] theorem det_setBurst (s : State) (o : Output) (b : Option Burst) (j : Detector) : (s.setBurst o b).det j = s.det j := by cases j <;> rfl
@[simp] theorem link_setClaim (s : State) (t : Target) (r : ClaimRec) (j : Master) : (s.setClaim t r).link j = s.link j := by cases t <;> rfl
@[simp] theorem master_setClaim (s : State) (t : Target) (r : ClaimRec) (j : Master) : (s.setClaim t r).master j = s.master j := by cases t <;> rfl
@[simp] theorem slot_setClaim (s : State) (t : Target) (r : ClaimRec) (j : Slot) : (s.setClaim t r).slot j = s.slot j := by cases t <;> rfl
@[simp] theorem chan_setClaim (s : State) (t : Target) (r : ClaimRec) (j : Output) : (s.setClaim t r).chan j = s.chan j := by cases t <;> rfl
@[simp] theorem sq_setClaim (s : State) (t : Target) (r : ClaimRec) (j : Output) : (s.setClaim t r).sq j = s.sq j := by cases t <;> rfl
@[simp] theorem queue_setClaim (s : State) (t : Target) (r : ClaimRec) (j : Output) : (s.setClaim t r).queue j = s.queue j := by cases t <;> rfl
@[simp] theorem burst_setClaim (s : State) (t : Target) (r : ClaimRec) (j : Output) : (s.setClaim t r).burst j = s.burst j := by cases t <;> rfl
@[simp] theorem det_setClaim (s : State) (t : Target) (r : ClaimRec) (j : Detector) : (s.setClaim t r).det j = s.det j := by cases t <;> cases j <;> rfl
@[simp] theorem link_setDet (s : State) (d : Detector) (r : DetRec) (j : Master) : (s.setDet d r).link j = s.link j := by cases d <;> rfl
@[simp] theorem master_setDet (s : State) (d : Detector) (r : DetRec) (j : Master) : (s.setDet d r).master j = s.master j := by cases d <;> rfl
@[simp] theorem slot_setDet (s : State) (d : Detector) (r : DetRec) (j : Slot) : (s.setDet d r).slot j = s.slot j := by cases d <;> rfl
@[simp] theorem chan_setDet (s : State) (d : Detector) (r : DetRec) (j : Output) : (s.setDet d r).chan j = s.chan j := by cases d <;> rfl
@[simp] theorem sq_setDet (s : State) (d : Detector) (r : DetRec) (j : Output) : (s.setDet d r).sq j = s.sq j := by cases d <;> rfl
@[simp] theorem queue_setDet (s : State) (d : Detector) (r : DetRec) (j : Output) : (s.setDet d r).queue j = s.queue j := by cases d <;> rfl
@[simp] theorem burst_setDet (s : State) (d : Detector) (r : DetRec) (j : Output) : (s.setDet d r).burst j = s.burst j := by cases d <;> rfl
@[simp] theorem claim_setDet (s : State) (d : Detector) (r : DetRec) (j : Target) : (s.setDet d r).claim j = s.claim j := by cases d <;> cases j <;> rfl
@[simp] theorem link_setTbu (s : State) (t : Tbu) (j : Master) : (s.setTbu t).link j = s.link j := rfl
@[simp] theorem master_setTbu (s : State) (t : Tbu) (j : Master) : (s.setTbu t).master j = s.master j := rfl
@[simp] theorem slot_setTbu (s : State) (t : Tbu) (j : Slot) : (s.setTbu t).slot j = s.slot j := rfl
@[simp] theorem chan_setTbu (s : State) (t : Tbu) (j : Output) : (s.setTbu t).chan j = s.chan j := rfl
@[simp] theorem sq_setTbu (s : State) (t : Tbu) (j : Output) : (s.setTbu t).sq j = s.sq j := rfl
@[simp] theorem queue_setTbu (s : State) (t : Tbu) (j : Output) : (s.setTbu t).queue j = s.queue j := rfl
@[simp] theorem burst_setTbu (s : State) (t : Tbu) (j : Output) : (s.setTbu t).burst j = s.burst j := rfl
@[simp] theorem claim_setTbu (s : State) (t : Tbu) (j : Target) : (s.setTbu t).claim j = s.claim j := by cases j <;> rfl
@[simp] theorem det_setTbu (s : State) (t : Tbu) (j : Detector) : (s.setTbu t).det j = s.det j := by cases j <;> rfl
@[simp] theorem link_setProposals (s : State) (ps : List Proposal) (j : Master) : (s.setProposals ps).link j = s.link j := rfl
@[simp] theorem master_setProposals (s : State) (ps : List Proposal) (j : Master) : (s.setProposals ps).master j = s.master j := rfl
@[simp] theorem slot_setProposals (s : State) (ps : List Proposal) (j : Slot) : (s.setProposals ps).slot j = s.slot j := rfl
@[simp] theorem chan_setProposals (s : State) (ps : List Proposal) (j : Output) : (s.setProposals ps).chan j = s.chan j := rfl
@[simp] theorem sq_setProposals (s : State) (ps : List Proposal) (j : Output) : (s.setProposals ps).sq j = s.sq j := rfl
@[simp] theorem queue_setProposals (s : State) (ps : List Proposal) (j : Output) : (s.setProposals ps).queue j = s.queue j := rfl
@[simp] theorem burst_setProposals (s : State) (ps : List Proposal) (j : Output) : (s.setProposals ps).burst j = s.burst j := rfl
@[simp] theorem claim_setProposals (s : State) (ps : List Proposal) (j : Target) : (s.setProposals ps).claim j = s.claim j := by cases j <;> rfl
@[simp] theorem det_setProposals (s : State) (ps : List Proposal) (j : Detector) : (s.setProposals ps).det j = s.det j := by cases j <;> rfl
@[simp] theorem link_reach (s : State) (t : Nat) (j : Master) : (s.reach t).link j = s.link j := rfl
@[simp] theorem master_reach (s : State) (t : Nat) (j : Master) : (s.reach t).master j = s.master j := rfl
@[simp] theorem slot_reach (s : State) (t : Nat) (j : Slot) : (s.reach t).slot j = s.slot j := rfl
@[simp] theorem chan_reach (s : State) (t : Nat) (j : Output) : (s.reach t).chan j = s.chan j := rfl
@[simp] theorem sq_reach (s : State) (t : Nat) (j : Output) : (s.reach t).sq j = s.sq j := rfl
@[simp] theorem queue_reach (s : State) (t : Nat) (j : Output) : (s.reach t).queue j = s.queue j := rfl
@[simp] theorem burst_reach (s : State) (t : Nat) (j : Output) : (s.reach t).burst j = s.burst j := rfl
@[simp] theorem claim_reach (s : State) (t : Nat) (j : Target) : (s.reach t).claim j = s.claim j := by cases j <;> rfl
@[simp] theorem det_reach (s : State) (t : Nat) (j : Detector) : (s.reach t).det j = s.det j := by cases j <;> rfl
@[simp] theorem link_addRef (s : State) (k : Slot) (j : Master) : (s.addRef k).link j = s.link j := rfl
@[simp] theorem master_addRef (s : State) (k : Slot) (j : Master) : (s.addRef k).master j = s.master j := rfl
@[simp] theorem chan_addRef (s : State) (k : Slot) (j : Output) : (s.addRef k).chan j = s.chan j := rfl
@[simp] theorem sq_addRef (s : State) (k : Slot) (j : Output) : (s.addRef k).sq j = s.sq j := rfl
@[simp] theorem queue_addRef (s : State) (k : Slot) (j : Output) : (s.addRef k).queue j = s.queue j := rfl
@[simp] theorem burst_addRef (s : State) (k : Slot) (j : Output) : (s.addRef k).burst j = s.burst j := rfl
@[simp] theorem claim_addRef (s : State) (k : Slot) (j : Target) : (s.addRef k).claim j = s.claim j := by cases j <;> rfl
@[simp] theorem det_addRef (s : State) (k : Slot) (j : Detector) : (s.addRef k).det j = s.det j := by cases j <;> rfl
@[simp] theorem link_dropRef (s : State) (k : Slot) (j : Master) : (s.dropRef k).link j = s.link j := rfl
@[simp] theorem master_dropRef (s : State) (k : Slot) (j : Master) : (s.dropRef k).master j = s.master j := rfl
@[simp] theorem chan_dropRef (s : State) (k : Slot) (j : Output) : (s.dropRef k).chan j = s.chan j := rfl
@[simp] theorem sq_dropRef (s : State) (k : Slot) (j : Output) : (s.dropRef k).sq j = s.sq j := rfl
@[simp] theorem queue_dropRef (s : State) (k : Slot) (j : Output) : (s.dropRef k).queue j = s.queue j := rfl
@[simp] theorem burst_dropRef (s : State) (k : Slot) (j : Output) : (s.dropRef k).burst j = s.burst j := rfl
@[simp] theorem claim_dropRef (s : State) (k : Slot) (j : Target) : (s.dropRef k).claim j = s.claim j := by cases j <;> rfl
@[simp] theorem det_dropRef (s : State) (k : Slot) (j : Detector) : (s.dropRef k).det j = s.det j := by cases j <;> rfl
@[simp] theorem link_dropRefOpt (s : State) (k : Option Slot) (j : Master) : (s.dropRefOpt k).link j = s.link j := by cases k <;> rfl
@[simp] theorem master_dropRefOpt (s : State) (k : Option Slot) (j : Master) : (s.dropRefOpt k).master j = s.master j := by cases k <;> rfl
@[simp] theorem chan_dropRefOpt (s : State) (k : Option Slot) (j : Output) : (s.dropRefOpt k).chan j = s.chan j := by cases k <;> rfl
@[simp] theorem sq_dropRefOpt (s : State) (k : Option Slot) (j : Output) : (s.dropRefOpt k).sq j = s.sq j := by cases k <;> rfl
@[simp] theorem queue_dropRefOpt (s : State) (k : Option Slot) (j : Output) : (s.dropRefOpt k).queue j = s.queue j := by cases k <;> rfl
@[simp] theorem burst_dropRefOpt (s : State) (k : Option Slot) (j : Output) : (s.dropRefOpt k).burst j = s.burst j := by cases k <;> rfl
@[simp] theorem claim_dropRefOpt (s : State) (k : Option Slot) (j : Target) : (s.dropRefOpt k).claim j = s.claim j := by cases k <;> cases j <;> rfl
@[simp] theorem det_dropRefOpt (s : State) (k : Option Slot) (j : Detector) : (s.dropRefOpt k).det j = s.det j := by cases k <;> cases j <;> rfl

/-! ### Reading back what was set -/

@[simp] theorem link_setLink_self (s : State) (m : Master) (l : Link) : (s.setLink m l).link m = l := by
  simp [link, setLink]

@[simp] theorem link_setLink_ne (s : State) {m j : Master} (l : Link) (h : j ≠ m) :
    (s.setLink m l).link j = s.link j := by
  simp [link, setLink, Fin.val_inj, h.symm]

@[simp] theorem master_setMaster_self (s : State) (m : Master) (r : MasterRec) : (s.setMaster m r).master m = r := by
  simp [master, setMaster]

@[simp] theorem master_setMaster_ne (s : State) {m j : Master} (r : MasterRec) (h : j ≠ m) :
    (s.setMaster m r).master j = s.master j := by
  simp [master, setMaster, Fin.val_inj, h.symm]

@[simp] theorem slot_setSlot_self (s : State) (k : Slot) (r : SlotRec) : (s.setSlot k r).slot k = r := by
  simp [slot, setSlot]

@[simp] theorem slot_setSlot_ne (s : State) {k j : Slot} (r : SlotRec) (h : j ≠ k) :
    (s.setSlot k r).slot j = s.slot j := by
  simp [slot, setSlot, Fin.val_inj, h.symm]

@[simp] theorem chan_setChan_self (s : State) (o : Output) (c : Channel) : (s.setChan o c).chan o = c := by
  simp [chan, setChan]

@[simp] theorem chan_setChan_ne (s : State) {o j : Output} (c : Channel) (h : j ≠ o) :
    (s.setChan o c).chan j = s.chan j := by
  simp [chan, setChan, Fin.val_inj, h.symm]

@[simp] theorem sq_setSq_self (s : State) (o : Output) (r : OutRec) : (s.setSq o r).sq o = r := by
  simp [sq, setSq]

@[simp] theorem sq_setSq_ne (s : State) {o j : Output} (r : OutRec) (h : j ≠ o) : (s.setSq o r).sq j = s.sq j := by
  simp [sq, setSq, h]

@[simp] theorem queue_setSq (s : State) (o j : Output) (r : OutRec) : (s.setSq o r).queue j = s.queue j := by
  by_cases h : j = o <;> simp [queue, setSq, h]

@[simp] theorem burst_setSq (s : State) (o j : Output) (r : OutRec) : (s.setSq o r).burst j = s.burst j := by
  by_cases h : j = o <;> simp [burst, setSq, h]

@[simp] theorem queue_setQueue_self (s : State) (o : Output) (q : List Entry) : (s.setQueue o q).queue o = q := by
  simp [queue, setQueue]

@[simp] theorem queue_setQueue_ne (s : State) {o j : Output} (q : List Entry) (h : j ≠ o) :
    (s.setQueue o q).queue j = s.queue j := by
  simp [queue, setQueue, h]

@[simp] theorem sq_setQueue (s : State) (o j : Output) (q : List Entry) : (s.setQueue o q).sq j = s.sq j := by
  by_cases h : j = o <;> simp [sq, setQueue, h]

@[simp] theorem burst_setQueue (s : State) (o j : Output) (q : List Entry) : (s.setQueue o q).burst j = s.burst j := by
  by_cases h : j = o <;> simp [burst, setQueue, h]

@[simp] theorem burst_setBurst_self (s : State) (o : Output) (b : Option Burst) : (s.setBurst o b).burst o = b := by
  simp [burst, setBurst]

@[simp] theorem burst_setBurst_ne (s : State) {o j : Output} (b : Option Burst) (h : j ≠ o) :
    (s.setBurst o b).burst j = s.burst j := by
  simp [burst, setBurst, h]

@[simp] theorem sq_setBurst (s : State) (o j : Output) (b : Option Burst) : (s.setBurst o b).sq j = s.sq j := by
  by_cases h : j = o <;> simp [sq, setBurst, h]

@[simp] theorem queue_setBurst (s : State) (o j : Output) (b : Option Burst) :
    (s.setBurst o b).queue j = s.queue j := by
  by_cases h : j = o <;> simp [queue, setBurst, h]

@[simp] theorem claim_setClaim_self (s : State) (t : Target) (r : ClaimRec) : (s.setClaim t r).claim t = r := by
  cases t <;> simp [claim, setClaim]

@[simp] theorem claim_setClaim_ne (s : State) {t j : Target} (r : ClaimRec) (h : j ≠ t) :
    (s.setClaim t r).claim j = s.claim j := by
  cases t with
  | tb => cases j with
    | tb => exact absurd rfl h
    | out o => rfl
  | out o => cases j with
    | tb => rfl
    | out p =>
      have hp : o ≠ p := fun e => h (by rw [e])
      simp [claim, setClaim, Fin.val_inj, hp]

@[simp] theorem det_setDet_self (s : State) (d : Detector) (r : DetRec) : (s.setDet d r).det d = r := by
  cases d <;> rfl

@[simp] theorem det_setDet_ne (s : State) {d j : Detector} (r : DetRec) (h : j ≠ d) :
    (s.setDet d r).det j = s.det j := by
  cases d <;> cases j <;> first | exact absurd rfl h | rfl

@[simp] theorem setTbu_tbu (s : State) (t : Tbu) : (s.setTbu t).tbu = t := rfl

@[simp] theorem setProposals_consent (s : State) (ps : List Proposal) :
    (s.setProposals ps).consent = { s.consent with proposals := ps } := rfl

@[simp] theorem reach_now (s : State) (t : Nat) : (s.reach t).now = max s.now t := rfl

/-! ### The last of two changes of one record stands -/

@[simp] theorem setLink_setLink (s : State) (m : Master) (a b : Link) : (s.setLink m a).setLink m b = s.setLink m b := by
  simp [setLink]
@[simp] theorem setMaster_setMaster (s : State) (m : Master) (a b : MasterRec) :
    (s.setMaster m a).setMaster m b = s.setMaster m b := by simp [setMaster]
@[simp] theorem setSlot_setSlot (s : State) (k : Slot) (a b : SlotRec) : (s.setSlot k a).setSlot k b = s.setSlot k b := by
  simp [setSlot]
@[simp] theorem setChan_setChan (s : State) (o : Output) (a b : Channel) : (s.setChan o a).setChan o b = s.setChan o b := by
  simp [setChan]
@[simp] theorem setSq_setSq (s : State) (o : Output) (a b : OutRec) : (s.setSq o a).setSq o b = s.setSq o b := by
  simp [setSq]
@[simp] theorem setQueue_setQueue (s : State) (o : Output) (a b : List Entry) :
    (s.setQueue o a).setQueue o b = s.setQueue o b := by simp [setQueue]
@[simp] theorem setBurst_setBurst (s : State) (o : Output) (a b : Option Burst) :
    (s.setBurst o a).setBurst o b = s.setBurst o b := by simp [setBurst]
@[simp] theorem setClaim_setClaim (s : State) (t : Target) (a b : ClaimRec) :
    (s.setClaim t a).setClaim t b = s.setClaim t b := by cases t <;> simp [setClaim]
@[simp] theorem setTbu_setTbu (s : State) (a b : Tbu) : (s.setTbu a).setTbu b = s.setTbu b := rfl
@[simp] theorem setDet_setDet (s : State) (d : Detector) (a b : DetRec) : (s.setDet d a).setDet d b = s.setDet d b := by
  cases d <;> rfl

end Sys2Proof.Machine.State
end

