-- ==== Sys2Proof/Laws/Inner.lean ====
section
/-! SUPPORT. `Inner s t`: all that an operation inside the blocks can do to the rest of the hub. Links change only by
notices that join a queue with room, master records only in their dropped flag, profile slots only in their refs; the
bounds and the FSE law are kept. Each shared operation has one lemma that says it is `Inner`. -/

namespace Sys2Proof.Laws

open Machine

structure Inner (s t : State) : Prop where
  pending : t.pending = s.pending
  freeCount : s.freeCount ≤ t.freeCount
  synPhase : t.freeCount = s.freeCount → t.synPhase = s.synPhase
  partRank : t.partRank = s.partRank
  resetLow : t.resetLow = s.resetLow
  straps : t.straps = s.straps
  now : s.now ≤ t.now
  link : ∀ m, (t.link m).rx = (s.link m).rx ∧ (t.link m).buf = (s.link m).buf ∧ (t.link m).stats = (s.link m).stats
    ∧ (t.link m).slot = (s.link m).slot ∧ (t.link m).tx = (s.link m).tx
  notices : ∀ m, (s.link m).queue.length ≤ 16 → (t.link m).queue.length ≤ 16
  master : ∀ m, t.master m = { s.master m with dropped := (t.master m).dropped }
  slot : ∀ k, t.slot k = { s.slot k with refs := (t.slot k).refs }
  entries : QueueBounds s → QueueBounds t
  table : TableBound s → TableBound t
  fse : FseLaw s → FseLaw t

namespace Inner

theorem refl (s : State) : Inner s s where
  pending := rfl
  freeCount := Nat.le_refl _
  synPhase _ := rfl
  partRank := rfl
  resetLow := rfl
  straps := rfl
  now := Nat.le_refl _
  link _ := ⟨rfl, rfl, rfl, rfl, rfl⟩
  notices _ h := h
  master _ := rfl
  slot _ := rfl
  entries h := h
  table h := h
  fse h := h

theorem trans {s t u : State} (h : Inner s t) (g : Inner t u) : Inner s u where
  pending := g.pending.trans h.pending
  freeCount := Nat.le_trans h.freeCount g.freeCount
  synPhase e := by
    have k : t.freeCount = s.freeCount := Nat.le_antisymm (e ▸ g.freeCount) h.freeCount
    exact (g.synPhase (e.trans k.symm)).trans (h.synPhase k)
  partRank := g.partRank.trans h.partRank
  resetLow := g.resetLow.trans h.resetLow
  straps := g.straps.trans h.straps
  now := Nat.le_trans h.now g.now
  link m := by
    obtain ⟨a, b, c, d, e⟩ := h.link m
    obtain ⟨a', b', c', d', e'⟩ := g.link m
    exact ⟨a'.trans a, b'.trans b, c'.trans c, d'.trans d, e'.trans e⟩
  notices m i := g.notices m (h.notices m i)
  master m := by rw [g.master m, h.master m]
  slot k := by rw [g.slot k, h.slot k]
  entries i := g.entries (h.entries i)
  table i := g.table (h.table i)
  fse i := g.fse (h.fse i)

/-- A fold of operations over a list. -/
theorem foldl {α : Type} (f : State → α → State) (h : ∀ s a, Inner s (f s a)) :
    ∀ (l : List α) (s : State), Inner s (l.foldl f s)
  | [], s => refl s
  | a :: l, s => (h s a).trans (foldl f h l (f s a))

end Inner

/-! ### Setters -/

theorem setSq_inner (s : State) (o : Output) (r : OutRec) : Inner s (s.setSq o r) where
  pending := rfl
  freeCount := Nat.le_refl _
  synPhase _ := rfl
  partRank := rfl
  resetLow := rfl
  straps := rfl
  now := Nat.le_refl _
  link _ := ⟨rfl, rfl, rfl, rfl, rfl⟩
  notices _ h := h
  master _ := rfl
  slot _ := rfl
  entries h p := by rw [State.queue_setSq]; exact h p
  table h := h
  fse h := h

theorem setBurst_inner (s : State) (o : Output) (b : Option Burst) : Inner s (s.setBurst o b) where
  pending := rfl
  freeCount := Nat.le_refl _
  synPhase _ := rfl
  partRank := rfl
  resetLow := rfl
  straps := rfl
  now := Nat.le_refl _
  link _ := ⟨rfl, rfl, rfl, rfl, rfl⟩
  notices _ h := h
  master _ := rfl
  slot _ := rfl
  entries h p := by rw [State.queue_setBurst]; exact h p
  table h := h
  fse h := h

theorem setQueue_inner (s : State) (o : Output) (q : List Entry)
    (h : (s.queue o).length ≤ 4 → q.length ≤ 4) : Inner s (s.setQueue o q) where
  pending := rfl
  freeCount := Nat.le_refl _
  synPhase _ := rfl
  partRank := rfl
  resetLow := rfl
  straps := rfl
  now := Nat.le_refl _
  link _ := ⟨rfl, rfl, rfl, rfl, rfl⟩
  notices _ h := h
  master _ := rfl
  slot _ := rfl
  entries i p := by
    by_cases e : p = o
    · subst e; rw [State.queue_setQueue_self]; exact h (i p)
    · rw [State.queue_setQueue_ne _ _ e]; exact i p
  table h := h
  fse h := h

theorem setClaim_inner (s : State) (t : Target) (r : ClaimRec) : Inner s (s.setClaim t r) := by
  cases t <;> exact ⟨rfl, Nat.le_refl _, fun _ => rfl, rfl, rfl, rfl, Nat.le_refl _, fun _ => ⟨rfl, rfl, rfl, rfl, rfl⟩, fun _ h => h,
    fun _ => rfl, fun _ => rfl, fun h => h, fun h => h, fun h => h⟩

theorem setDet_inner (s : State) (d : Detector) (r : DetRec) : Inner s (s.setDet d r) := by
  cases d <;> exact ⟨rfl, Nat.le_refl _, fun _ => rfl, rfl, rfl, rfl, Nat.le_refl _, fun _ => ⟨rfl, rfl, rfl, rfl, rfl⟩, fun _ h => h,
    fun _ => rfl, fun _ => rfl, fun h => h, fun h => h, fun h => h⟩

theorem setTbu_inner (s : State) (t : Tbu) (h : FseLaw s → FseLaw (s.setTbu t)) : Inner s (s.setTbu t) :=
  ⟨rfl, Nat.le_refl _, fun _ => rfl, rfl, rfl, rfl, Nat.le_refl _, fun _ => ⟨rfl, rfl, rfl, rfl, rfl⟩, fun _ h => h,
    fun _ => rfl, fun _ => rfl, fun h => h, fun h => h, h⟩

/-- A change of the Timebase Unit that keeps the lock, does not enter LOST and does not set FAIL. -/
theorem setTbu_inner_calm (s : State) (t : Tbu) (hs : t.state = .lost → s.tbu.state = .lost)
    (hl : t.lock = s.tbu.lock) (hf : t.fail = true → s.tbu.fail = true) : Inner s (s.setTbu t) := by
  refine setTbu_inner s t fun ⟨a, b, c⟩ => ⟨fun e => ?_, fun e => ?_, fun e => ?_⟩
  · exact ⟨fun hh => (a e).1 (hs hh), hl.trans (a e).2⟩
  · cases hh : t.fail with
    | false => exact hh
    | true => exact absurd (hf hh) (by rw [b e]; decide)
  · exact ⟨(c e).1, hl.trans (c e).2⟩

theorem reach_inner (s : State) (t : Nat) : Inner s (s.reach t) :=
  ⟨rfl, Nat.le_refl _, fun _ => rfl, rfl, rfl, rfl, Nat.le_max_left _ _, fun _ => ⟨rfl, rfl, rfl, rfl, rfl⟩, fun _ h => h,
    fun _ => rfl, fun _ => rfl, fun h => h, fun h => h, fun h => h⟩

theorem setProposals_inner (s : State) (ps : List Proposal)
    (h : s.consent.proposals.length ≤ 4 → ps.length ≤ 4) : Inner s (s.setProposals ps) :=
  ⟨rfl, Nat.le_refl _, fun _ => rfl, rfl, rfl, rfl, Nat.le_refl _, fun _ => ⟨rfl, rfl, rfl, rfl, rfl⟩, fun _ h => h,
    fun _ => rfl, fun _ => rfl, fun h => h, h, fun h => h⟩

theorem setRefs_inner (s : State) (k : Slot) (n : Nat) : Inner s (s.setSlot k { s.slot k with refs := n }) where
  pending := rfl
  freeCount := Nat.le_refl _
  synPhase _ := rfl
  partRank := rfl
  resetLow := rfl
  straps := rfl
  now := Nat.le_refl _
  link _ := ⟨rfl, rfl, rfl, rfl, rfl⟩
  notices _ h := h
  master _ := rfl
  slot j := by
    by_cases e : j = k
    · subst e; rw [State.slot_setSlot_self]
    · rw [State.slot_setSlot_ne _ _ e]
  entries h := h
  table h := h
  fse h := h

theorem addRef_inner (s : State) (k : Slot) : Inner s (s.addRef k) := setRefs_inner s k _

theorem dropRef_inner (s : State) (k : Slot) : Inner s (s.dropRef k) := setRefs_inner s k _

theorem dropRefOpt_inner (s : State) (k : Option Slot) : Inner s (s.dropRefOpt k) := by
  cases k with
  | none => exact .refl s
  | some k => exact dropRef_inner s k

/-! ### Notices (R158) -/

theorem handMarked_inner (s : State) (m : Master) (c : Bool) (n : Notice) : Inner s (s.handMarked m c n) := by
  unfold State.handMarked
  split
  · split
    · rename_i h
      refine ⟨rfl, Nat.le_refl _, fun _ => rfl, rfl, rfl, rfl, Nat.le_refl _, fun j => ?_, fun j i => ?_, fun _ => rfl, fun _ => rfl,
        fun h => h, fun h => h, fun h => h⟩
      · by_cases e : j = m
        · subst e; rw [State.link_setLink_self]; exact ⟨rfl, rfl, rfl, rfl, rfl⟩
        · rw [State.link_setLink_ne _ _ e]; exact ⟨rfl, rfl, rfl, rfl, rfl⟩
      · by_cases e : j = m
        · subst e
          rw [State.link_setLink_self]
          simp only [List.length_append, List.length_singleton, noticeLimit] at h ⊢
          omega
        · rw [State.link_setLink_ne _ _ e]; exact i
    · refine ⟨rfl, Nat.le_refl _, fun _ => rfl, rfl, rfl, rfl, Nat.le_refl _, fun _ => ⟨rfl, rfl, rfl, rfl, rfl⟩, fun _ h => h, fun j => ?_,
        fun _ => rfl, fun h => h, fun h => h, fun h => h⟩
      by_cases e : j = m
      · subst e; rw [State.master_setMaster_self]
      · rw [State.master_setMaster_ne _ _ e]
  · exact .refl s

theorem hand_inner (s : State) (m : Master) (n : Notice) : Inner s (s.hand m n) := handMarked_inner s m false n

theorem handAll_inner (s : State) (ms : List Master) (n : Notice) : Inner s (s.handAll ms n) :=
  .foldl _ (fun s m => hand_inner s m n) ms s

end Sys2Proof.Laws
end

