-- ==== Sys2Proof/Laws/Channels.lean ====
section
/-! SUPPORT. The operations of an output channel are `Inner`: Frame Sequencer, Change Queue, Strobe Unit. -/

namespace Sys2Proof.Laws

open Machine

/-! ### Frame Sequencer -/

theorem outputNotice_inner (s : State) (o : Output) (prev : OutState) : Inner s (outputNotice s o prev) :=
  handAll_inner _ _ _

theorem setOutState_inner (s : State) (o : Output) (st : OutState) : Inner s (setOutState s o st) :=
  (setSq_inner _ _ _).trans (outputNotice_inner _ _ _)

theorem completeFrame_inner (s : State) (o : Output) (cut : Bool) : Inner s (completeFrame s o cut) := by
  unfold completeFrame
  split
  · exact (setSq_inner _ _ _).trans (handAll_inner _ _ _)
  · exact .refl s

theorem bind_inner (s : State) (o : Output) (k : Slot) : Inner s (Machine.bind s o k) := by
  have h := ((addRef_inner s k).trans (dropRefOpt_inner _ (s.sq o).current)).trans
    (setSq_inner _ o { (((s.addRef k).dropRefOpt (s.sq o).current).sq o) with current := some k })
  unfold Machine.bind
  dsimp only
  split
  · exact h.trans (setOutState_inner _ _ _)
  · exact h

theorem returnToBound_inner (s : State) (o : Output) : Inner s (returnToBound s o) :=
  (setSq_inner _ _ _).trans (setOutState_inner _ _ _)

theorem mapSq_inner (s : State) (f : State → Output → OutRec) : Inner s (s.mapSq f) :=
  .foldl _ (fun s o => setSq_inner s o (f s o)) _ s

/-! ### Change Queue -/

theorem addEntryRef_inner (s : State) (k : EntryKind) : Inner s (addEntryRef s k) := by
  cases k with
  | change k => exact addRef_inner s k
  | stop => exact .refl s

theorem dropEntryRef_inner (s : State) (k : EntryKind) : Inner s (dropEntryRef s k) := by
  cases k with
  | change k => exact dropRef_inner s k
  | stop => exact .refl s

theorem queue_addEntryRef (s : State) (k : EntryKind) (o : Output) : (addEntryRef s k).queue o = s.queue o := by
  cases k <;> rfl

theorem appendEntry_inner (s : State) (o : Output) (e : Entry) : Inner s (appendEntry s o e) := by
  unfold appendEntry
  split
  · exact .refl s
  · rename_i h
    refine (addEntryRef_inner s e.kind).trans (setQueue_inner _ _ _ fun _ => ?_)
    rw [queue_addEntryRef, List.length_append, List.length_singleton]
    have : ¬4 ≤ (s.queue o).length := fun g => h (decide_eq_true g)
    omega

theorem changeDone_inner (s : State) (o : Output) (k : DoneKind) (w : Option (Master × Byte)) (p : Option Nat)
    (c : ChangeOutcome) : Inner s (changeDone s o k w p c) := handAll_inner _ _ _

theorem entryLeft_inner (o : Output) (c : ChangeOutcome) (s : State) (e : Entry) : Inner s (entryLeft o c s e) :=
  (dropEntryRef_inner s e.kind).trans (changeDone_inner _ _ _ _ _ _)

theorem removeEntries_inner (s : State) (o : Output) (p : Entry → Bool) (c : ChangeOutcome) :
    Inner s (removeEntries s o p c) :=
  (setQueue_inner s o _ fun h => Nat.le_trans (List.length_filter_le _ _) h).trans
    (.foldl _ (entryLeft_inner o c) _ _)

theorem dropCut_inner (s : State) (o : Output) (c : ChangeOutcome) : Inner s (dropCut s o c) := by
  unfold dropCut
  split
  · exact .refl s
  · exact (setSq_inner _ _ _).trans (changeDone_inner _ _ _ _ _ _)

theorem clearNext_inner (s : State) (o : Output) : Inner s (clearNext s o) :=
  (dropRefOpt_inner _ _).trans (setSq_inner _ _ _)

theorem orphanAppend_inner (s : State) (o : Output) (k : EntryKind) : Inner s (orphanAppend s o k) :=
  (removeEntries_inner _ _ _ _).trans (appendEntry_inner _ _ _)

theorem queueDeparture_inner (s : State) (o : Output) (m : Master) : Inner s (queueDeparture s o m) := by
  unfold queueDeparture
  dsimp only
  split
  · exact (removeEntries_inner _ _ _ _).trans (dropCut_inner _ _ _)
  · exact removeEntries_inner _ _ _ _

theorem queueStandby_inner (s : State) (o : Output) : Inner s (queueStandby s o) :=
  ((clearNext_inner s o).trans (removeEntries_inner _ _ _ _)).trans (dropCut_inner _ _ _)

/-! ### Strobe Unit -/

theorem finishBurst_inner (s : State) (o : Output) (b : Burst) (c : BurstOutcome) : Inner s (finishBurst s o b c) :=
  (setBurst_inner _ _ _).trans (handAll_inner _ _ _)

theorem endBurst_inner (s : State) (o : Output) (c : BurstOutcome) : Inner s (endBurst s o c) := by
  unfold endBurst
  split
  · exact .refl s
  · exact finishBurst_inner _ _ _ _

theorem strobeLine_inner (s : State) (o : Output) : Inner s (strobeLine s o) := by
  unfold strobeLine
  split
  · exact .refl s
  · split
    · exact setBurst_inner _ _ _
    · exact finishBurst_inner _ _ _ _

theorem strobeSwap_inner (s : State) (o : Output) : Inner s (strobeSwap s o) := by
  unfold strobeSwap
  split
  · exact .refl s
  · split
    · exact strobeLine_inner _ _
    · exact finishBurst_inner _ _ _ _

theorem strobeDeparture_inner (s : State) (o : Output) (m : Master) : Inner s (strobeDeparture s o m) := by
  unfold strobeDeparture
  split
  · exact endBurst_inner _ _ _
  · exact .refl s

end Sys2Proof.Laws
end

