-- ==== Sys2Proof/Laws/Clocks.lean ====
section
/-! SUPPORT. The operations of the Timebase Unit are `Inner`. -/

namespace Sys2Proof.Laws

open Machine

theorem startOne_inner (s : State) (o : Output) : Inner s (startOne s o) :=
  ((setSq_inner _ _ _).trans (strobeLine_inner _ _)).trans (outputNotice_inner _ _ _)

theorem startAll_inner (s : State) (os : List Output) : Inner s (startAll s os) := .foldl _ startOne_inner os s

theorem detectorsUnruled_inner (s : State) : Inner s { s with da := s.da.xoLost, db := s.db.xoLost } :=
  (setDet_inner s .da s.da.xoLost).trans (setDet_inner _ .db s.db.xoLost)

theorem setXo_inner (s : State) (x : XoState) : Inner s (s.setTbu { s.tbu with xo := x }) :=
  setTbu_inner_calm _ _ id rfl id

theorem setSynth_inner (s : State) (x : SynthState) : Inner s (s.setTbu { s.tbu with synth := x }) :=
  setTbu_inner_calm _ _ id rfl id

theorem setXoCheck_inner (s : State) (x : Option XoCheck) : Inner s (s.setTbu { s.tbu with xoCheck := x }) :=
  setTbu_inner_calm _ _ id rfl id

theorem settleXo_inner (s : State) : Inner s (settleXo s) := by
  unfold settleXo
  split
  · split
    · exact setXo_inner _ _
    · exact .refl s
  · exact (setXo_inner s .off).trans (detectorsUnruled_inner _)

theorem settleClocks_inner (s : State) : Inner s (settleClocks s) := by
  unfold settleClocks
  split
  · exact settleXo_inner s
  · exact (setSynth_inner s .stopped).trans (settleXo_inner _)

theorem abandonLock_inner (s : State) : Inner s (abandonLock s) := by
  unfold abandonLock
  split
  · exact .refl s
  · exact setTbu_inner_calm _ _ id rfl id

theorem setContext_inner (s : State) (src : Source) (v : Option Settings) : Inner s (setContext s src v) :=
  setTbu_inner_calm _ _ id rfl id

theorem switchNotice_inner (s : State) (sw : Switch) (e : ClockEvent) : Inner s (switchNotice s sw e) :=
  handAll_inner _ _ _

theorem failNotice_inner (s : State) (e : ClockEvent) : Inner s (failNotice s e) := handAll_inner _ _ _

theorem endNotice_inner (s : State) (sw : Option Switch) (e : Switch → ClockEvent) : Inner s (endNotice s sw e) := by
  cases sw with
  | none => exact .refl s
  | some sw => exact switchNotice_inner _ _ _

/-- A state other than LOST, with FAIL clear or as it was. -/
theorem setState_inner (s : State) (st : TbuState) (h : st ≠ .lost) :
    Inner s (s.setTbu { s.tbu with state := st }) := setTbu_inner_calm _ _ (fun e => absurd e h) rfl id

theorem complete_inner (s : State) (sw : Switch) (aligned : Bool) (moment : List Output) :
    Inner s (complete s sw aligned moment) := by
  unfold complete
  dsimp only
  refine Inner.trans ?_ (switchNotice_inner _ _ _)
  refine Inner.trans ?_ (startAll_inner _ _)
  refine Inner.trans ?_ (mapSq_inner _ _)
  refine Inner.trans ?_ (setXoCheck_inner _ _)
  refine Inner.trans ?_ (settleClocks_inner _)
  exact setTbu_inner_calm s _ (fun e => by cases e) rfl (fun e => by cases e)

theorem examine_inner (s : State) (moment : List Output) : Inner s (examine s moment) := by
  unfold examine
  dsimp only
  have h := startAll_inner s (s.startSet moment)
  split
  · split
    · split
      · exact h.trans (complete_inner _ _ _ _)
      · exact h
    · exact h
  · exact h

theorem emittedStart_inner (s : State) (o : Output) : Inner s (emittedStart s o) := by
  unfold emittedStart
  split
  · split
    · exact complete_inner _ _ _ _
    · exact examine_inner _ _
  · exact examine_inner _ _

theorem leftRunning_inner (s : State) (o : Output) : Inner s (leftRunning s o) := by
  unfold leftRunning
  split
  · split
    · exact complete_inner _ _ _ _
    · exact examine_inner _ _
  · exact examine_inner _ _

theorem targetReady_inner (s : State) : Inner s (targetReady s) := by
  unfold targetReady
  split
  · exact complete_inner _ _ _ _
  · split
    · exact complete_inner _ _ _ _
    · split
      · exact setState_inner _ _ (fun e => by cases e)
      · exact complete_inner _ _ _ _
  · exact .refl s

theorem beginLock_inner (s : State) (src : Source) (c : Settings) : Inner s (beginLock s src c) :=
  setTbu_inner_calm _ _ id rfl id

theorem readyTarget_inner (s : State) (sw : Switch) : Inner s (readyTarget s sw) := by
  unfold readyTarget
  split
  · split
    · exact targetReady_inner _
    · split
      · exact beginLock_inner _ _ _
      · exact .refl s
  · exact .refl s

theorem progress_inner (s : State) : Inner s (progress s) := by
  unfold progress
  split
  · exact readyTarget_inner _ _
  · exact readyTarget_inner _ _
  · exact .refl s

theorem losesReadiness_inner (s : State) : Inner s (losesReadiness s) := by
  unfold losesReadiness
  split
  · exact abandonLock_inner _
  · exact abandonLock_inner _
  · exact (setState_inner _ _ (fun e => by cases e)).trans (abandonLock_inner _)
  · exact .refl s

theorem beginSwitch_inner (s : State) (st : TbuState) (sw : Switch) (ended : Option Switch) (h : st ≠ .lost) :
    Inner s (beginSwitch s st sw ended) := by
  unfold beginSwitch
  exact ((((setState_inner s st h).trans (settleClocks_inner _)).trans (endNotice_inner _ _ _)).trans
    (switchNotice_inner _ _ _)).trans (progress_inner _)

theorem takeClock_inner (s : State) (sel : Selection) (align : Option Output) (origin : SwitchOrigin) :
    Inner s (takeClock s sel align origin) := by
  unfold takeClock
  dsimp only
  have back : ∀ cur old, Inner s (endNotice (settleClocks ((abandonLock s).setTbu
      { (abandonLock s).tbu with state := .running cur })) old ClockEvent.superseded) := fun cur old =>
    (((abandonLock_inner s).trans (setState_inner _ _ (fun e => by cases e))).trans (settleClocks_inner _)).trans
      (endNotice_inner _ _ _)
  split
  · exact beginSwitch_inner _ _ _ _ (fun e => by cases e)
  · split
    · exact back _ _
    · exact (abandonLock_inner s).trans (beginSwitch_inner _ _ _ _ (fun e => by cases e))
  · split
    · exact back _ _
    · exact (abandonLock_inner s).trans (beginSwitch_inner _ _ _ _ (fun e => by cases e))
  · exact (abandonLock_inner s).trans (beginSwitch_inner _ _ _ _ (fun e => by cases e))
  · exact beginSwitch_inner _ _ _ _ (fun e => by cases e)
  · exact setState_inner _ _ (fun e => by cases e)

/-- Fail-safe acts only with FSE 1. -/
theorem failSafe_inner (s : State) (c : FailCause) (src : Source) (h : s.straps.fse = true) :
    Inner s (failSafe s c src) := by
  unfold failSafe
  dsimp only
  refine Inner.trans ?_ (failNotice_inner _ _)
  refine Inner.trans ?_ (endNotice_inner _ _ _)
  refine Inner.trans ?_ (mapSq_inner _ _)
  refine Inner.trans ?_ (settleClocks_inner _)
  exact setTbu_inner s _ fun ⟨a, _, c⟩ => ⟨fun e => ⟨fun x => (by cases x), (a e).2⟩,
    fun e => absurd (Eq.trans (Eq.symm h) e) (by decide), fun e => absurd (Eq.trans (Eq.symm h) (c e).1) (by decide)⟩

/-- Entry to LOST happens only with FSE 0. -/
theorem enterLost_inner (s : State) (c : FailCause) (src : Source) (h : s.straps.fse = false) :
    Inner s (enterLost s c src) := by
  unfold enterLost
  dsimp only
  refine Inner.trans ?_ (failNotice_inner _ _)
  refine Inner.trans ?_ (mapSq_inner _ _)
  refine Inner.trans ?_ (settleClocks_inner _)
  exact setTbu_inner s _ fun ⟨_, b, c⟩ => ⟨fun e => absurd (Eq.trans (Eq.symm h) e) (by decide), b, c⟩

theorem sourceFails_inner (s : State) (c : FailCause) (src : Source) : Inner s (sourceFails s c src) := by
  unfold sourceFails
  split
  · rename_i h; exact failSafe_inner _ _ _ h
  · rename_i h; exact enterLost_inner _ _ _ (Bool.eq_false_iff.mpr h)

theorem referenceAbsent_inner (s : State) (src : Source) : Inner s (referenceAbsent s src) := by
  unfold referenceAbsent
  dsimp only
  refine (setContext_inner s src none).trans ?_
  split
  · exact sourceFails_inner _ _ _
  · split
    · exact losesReadiness_inner _
    · exact .refl _

theorem startUpPath_inner (s : State) (sel : Selection) (origin : SwitchOrigin) (two : Bool) :
    Inner s (startUpPath s sel origin two) := by
  unfold startUpPath
  dsimp only
  split
  · exact (setState_inner _ _ (fun e => by cases e)).trans (settleClocks_inner _)
  · split
    · exact beginSwitch_inner _ _ _ _ (fun e => by cases e)
    · exact beginSwitch_inner _ _ _ _ (fun e => by cases e)

/-! ### Events -/

theorem sourceBecomesReady_inner (s : State) (src : Source) : Inner s (sourceBecomesReady s src) := by
  unfold sourceBecomesReady
  split
  · exact progress_inner _
  · exact .refl s

/-- A source that no switch in flight is for becomes READY, and nothing changes (R124). -/
theorem sourceBecomesReady_of_other {s : State} {src : Source}
    (h : ∀ sw, s.tbu.state.switch = some sw → sw.target.source ≠ src) : sourceBecomesReady s src = s := by
  unfold sourceBecomesReady uses
  cases e : s.tbu.state.switch with
  | none => rfl
  | some sw => exact if_neg (by simp [h sw e])

/-- The source of the target of a switch in flight becomes READY, and the target is readied (R114). -/
theorem sourceBecomesReady_of_target {s : State} {sw : Switch} (h : s.tbu.state.switch = some sw) :
    sourceBecomesReady s sw.target.source = progress s := by
  unfold sourceBecomesReady uses
  rw [h]
  exact if_pos (by simp)

theorem xoBecomesReady_inner (s : State) : Inner s (xoBecomesReady s) := by
  unfold xoBecomesReady
  split
  · exact (setXo_inner s .ready).trans (sourceBecomesReady_inner _ _)
  · exact .refl s
  · exact .refl s

/-! ### A lock -/

@[simp] theorem synthLocks_synth (s : State) : (synthLocks s).tbu.synth = .locked := rfl
@[simp] theorem synthLocks_ctx (s : State) : (synthLocks s).tbu.ctx = s.tbu.ctx := rfl
@[simp] theorem synthLocks_tbuState (s : State) : (synthLocks s).tbu.state = s.tbu.state := rfl
@[simp] theorem synthLocks_synPhase (s : State) : (synthLocks s).synPhase = Config.lockPhase s.freeCount := rfl
@[simp] theorem synthLocks_freeCount (s : State) : (synthLocks s).freeCount = s.freeCount + 1 := rfl
@[simp] theorem synthLocks_now (s : State) : (synthLocks s).now = s.now := rfl
@[simp] theorem synthLocks_sq (s : State) (o : Output) : (synthLocks s).sq o = s.sq o := rfl

/-- A lock draws the free phase of the synthesizer's clock. -/
theorem synthLocks_inner (s : State) : Inner s (synthLocks s) :=
  (setSynth_inner s .locked).trans
    ⟨rfl, Nat.le_succ _, fun e => absurd e (Nat.succ_ne_self _), rfl, rfl, rfl, Nat.le_refl _,
      fun _ => ⟨rfl, rfl, rfl, rfl, rfl⟩, fun _ h => h, fun _ => rfl, fun _ => rfl, fun h => h, fun h => h, fun h => h⟩

theorem lockFor_inner (s : State) (sw : Switch) : Inner s (lockFor s sw) := by
  unfold lockFor
  split
  · dsimp only
    split
    · refine Inner.trans ?_ (targetReady_inner _)
      refine Inner.trans ?_ (synthLocks_inner _)
      exact (reach_inner _ _).trans (setContext_inner _ _ _)
    · exact (reach_inner _ _).trans (setSynth_inner _ _)
  · exact .refl s

theorem lockCompletes_inner (s : State) : Inner s (lockCompletes s) := by
  unfold lockCompletes
  split
  · exact lockFor_inner _ _
  · exact lockFor_inner _ _
  · exact .refl s

theorem alignmentExpires_inner (s : State) : Inner s (alignmentExpires s) := by
  unfold alignmentExpires
  split
  · exact (reach_inner _ _).trans (complete_inner _ _ _ _)
  · exact .refl s

/-- The fallback to IRC direct acts only with FSE 1. -/
theorem fallBack_inner (s : State) (sw : Switch) (h : s.straps.fse = true) : Inner s (fallBack s sw) := by
  unfold fallBack
  dsimp only
  refine Inner.trans ?_ (examine_inner _ _)
  refine Inner.trans ?_ (switchNotice_inner _ _ _)
  refine Inner.trans ?_ (settleClocks_inner _)
  exact setTbu_inner s _ fun ⟨a, _, c⟩ => ⟨fun e => ⟨fun x => (by cases x), (a e).2⟩,
    fun e => absurd (Eq.trans (Eq.symm h) e) (by decide), fun e => absurd (Eq.trans (Eq.symm h) (c e).1) (by decide)⟩

theorem lockAtDeadline_inner (s : State) (sw : Switch) (d : Nat) : Inner s (lockAtDeadline s sw d) := by
  unfold lockAtDeadline
  split
  · split
    · exact setContext_inner _ _ _
    · exact .refl s
  · exact .refl s

theorem switchExpires_inner (s : State) : Inner s (switchExpires s) := by
  unfold switchExpires
  split
  · exact (((((reach_inner _ _).trans (lockAtDeadline_inner _ _ _)).trans (abandonLock_inner _)).trans (setState_inner _ _ (fun e => by cases e))).trans
      (settleClocks_inner _)).trans (switchNotice_inner _ _ _)
  · rename_i sw deadline _
    dsimp only
    have h := ((reach_inner s deadline).trans (lockAtDeadline_inner _ sw deadline)).trans (abandonLock_inner _)
    split
    · rename_i hf; exact h.trans (fallBack_inner _ _ hf)
    · rename_i hf
      have hf' := Bool.eq_false_iff.mpr hf
      have g : Inner (abandonLock (lockAtDeadline (s.reach deadline) sw deadline)) (switchNotice (settleClocks
          ((abandonLock (lockAtDeadline (s.reach deadline) sw deadline)).setTbu
            { (abandonLock (lockAtDeadline (s.reach deadline) sw deadline)).tbu with state := .lost }))
          sw (.timeout sw)) := by
        refine Inner.trans ?_ (switchNotice_inner _ _ _)
        refine Inner.trans ?_ (settleClocks_inner _)
        exact setTbu_inner _ _ fun ⟨_, b, c⟩ => ⟨fun e => absurd (Eq.trans (Eq.symm e) hf') (by decide), b, c⟩
      exact (h.trans g).trans (enterLost_inner _ _ _ (by rw [g.straps]; exact hf'))
  · exact .refl s

theorem activityCheck_inner (s : State) (seen : Bool) : Inner s (activityCheck s seen) := by
  unfold activityCheck
  split
  · exact .refl s
  · rename_i c _
    dsimp only
    refine (reach_inner s c.due).trans ?_
    split
    · exact setXoCheck_inner _ _
    · split
      · exact setXoCheck_inner _ _
      · exact sourceFails_inner _ _ _

/-! ### A loss of lock -/

/-- In SWITCHING and PREPARING a loss of lock is the loss of the context and of nothing else, and none at all while the
synthesizer is stopped (R106, R107, log entry 26). -/
theorem targetLockLost_locking {s : State} (h : ∀ cur sw d, s.tbu.state ≠ .waitAlign cur sw d) (sw : Switch) :
    targetLockLost s sw = if s.tbu.synth = .stopped then s else setContext s sw.target.source none := by
  unfold targetLockLost
  split
  · rename_i cur x d e
    exact absurd e (h cur x d)
  · rfl

theorem targetLockLost_inner (s : State) (sw : Switch) : Inner s (targetLockLost s sw) := by
  unfold targetLockLost
  split
  · exact ((setContext_inner _ _ _).trans (losesReadiness_inner _)).trans (progress_inner _)
  · split
    · exact .refl s
    · exact setContext_inner _ _ _

theorem lockLost_inner (s : State) : Inner s (lockLost s) := by
  unfold lockLost
  split
  · exact (setContext_inner _ _ _).trans (sourceFails_inner _ _ _)
  · split
    · exact targetLockLost_inner _ _
    · exact .refl s
  · exact .refl s

end Sys2Proof.Laws
end

