-- ==== Sys2Proof/Laws/Frames.lean ====
section
/-! SUPPORT. Lines, frames, standby entry and detectors are `Inner`. -/

namespace Sys2Proof.Laws

open Machine

/-! ### Lines and frames -/

theorem takeHead_inner (s : State) (o : Output) (e : Entry) (rest : List Entry) (h : s.queue o = e :: rest) :
    Inner s (takeHead s o e rest) :=
  setQueue_inner _ _ _ fun g => by rw [h] at g; exact g

theorem unsettleFrame_inner (s : State) (o : Output) : Inner s (unsettleFrame s o) := setSq_inner _ _ _

theorem intake_inner (s : State) (o : Output) : Inner s (intake s o) := by
  unfold intake
  split
  · exact .refl s
  · rename_i e rest he
    split
    · split
      · dsimp only
        refine Inner.trans ?_ (unsettleFrame_inner _ _)
        refine Inner.trans ?_ (setSq_inner _ _ _)
        exact (takeHead_inner s o e rest he).trans (addRef_inner _ _)
      · split
        · dsimp only
          refine Inner.trans ?_ (leftRunning_inner _ _)
          refine Inner.trans ?_ (setOutState_inner _ _ _)
          exact (takeHead_inner s o e rest he).trans (unsettleFrame_inner _ _)
        · exact .refl s
    · exact .refl s

theorem cutFrame_inner (s : State) (o : Output) (c : PendingCut) : Inner s (cutFrame s o c) := by
  have notice : ∀ (b : Bool) (t : State), Inner t (if b = true then outputNotice t o .stopping else t) := by
    intro b t
    cases b
    · exact .refl t
    · exact outputNotice_inner _ _ _
  unfold cutFrame
  dsimp only
  refine Inner.trans ?_ (emittedStart_inner _ _)
  refine Inner.trans ?_ (notice _ _)
  refine Inner.trans ?_ (changeDone_inner _ _ _ _ _ _)
  refine Inner.trans ?_ (strobeLine_inner _ _)
  refine Inner.trans ?_ (removeEntries_inner _ _ _ _)
  refine Inner.trans ?_ (removeEntries_inner _ _ _ _)
  refine Inner.trans ?_ (setSq_inner _ _ _)
  refine Inner.trans ?_ (dropRefOpt_inner _ _)
  refine Inner.trans ?_ (addRef_inner _ _)
  exact (completeFrame_inner _ _ _).trans (clearNext_inner _ _)

theorem nextLine_inner (s : State) (o : Output) : Inner s (nextLine s o) := by
  unfold nextLine
  dsimp only
  have h := (setSq_inner s o { s.sq o with line := (s.sq o).line + 1, tick := 0, lineEnd := false }).trans (strobeLine_inner _ o)
  split
  · exact h.trans (intake_inner _ _)
  · exact h

theorem lineStart_inner (s : State) (o : Output) : Inner s (lineStart s o) := by
  unfold lineStart
  split
  · split
    · exact cutFrame_inner _ _ _
    · exact nextLine_inner _ _
  · exact nextLine_inner _ _

theorem stopTakesEffect_inner (s : State) (o : Output) : Inner s (stopTakesEffect s o) := by
  unfold stopTakesEffect
  dsimp only
  refine Inner.trans ?_ (setOutState_inner _ _ _)
  refine Inner.trans ?_ (setSq_inner _ _ _)
  refine Inner.trans ?_ (endBurst_inner _ _ _)
  refine Inner.trans ?_ (removeEntries_inner _ _ _ _)
  exact (completeFrame_inner _ _ _).trans (removeEntries_inner _ _ _ _)

theorem profileSwap_inner (s : State) (o : Output) (k : Slot) : Inner s (profileSwap s o k) := by
  unfold profileSwap
  dsimp only
  refine Inner.trans ?_ (emittedStart_inner _ _)
  refine Inner.trans ?_ (strobeSwap_inner _ _)
  refine Inner.trans ?_ (removeEntries_inner _ _ _ _)
  refine Inner.trans ?_ (setSq_inner _ _ _)
  refine Inner.trans ?_ (clearNext_inner _ _)
  refine Inner.trans ?_ (dropRefOpt_inner _ _)
  exact (completeFrame_inner _ _ _).trans (addRef_inner _ _)

theorem frameGoesOn_inner (s : State) (o : Output) : Inner s (frameGoesOn s o) := by
  have start : ∀ (b : Bool) (t : State), Inner t (if b = true then emittedStart t o else t) := by
    intro b t
    cases b
    · exact .refl t
    · exact emittedStart_inner _ _
  unfold frameGoesOn
  dsimp only
  refine Inner.trans ?_ (start _ _)
  refine Inner.trans ?_ (strobeLine_inner _ _)
  exact (completeFrame_inner _ _ _).trans (setSq_inner _ _ _)

theorem frameBoundary_inner (s : State) (o : Output) : Inner s (frameBoundary s o) := by
  unfold frameBoundary
  split
  · exact cutFrame_inner _ _ _
  · split
    · exact stopTakesEffect_inner _ _
    · split
      · exact profileSwap_inner _ _ _
      · exact frameGoesOn_inner _ _

theorem lineEnds_inner (s : State) (o : Output) : Inner s (lineEnds s o) := by
  unfold lineEnds
  split
  · exact frameBoundary_inner _ _
  · exact lineStart_inner _ _

/-! ### Standby entry -/

theorem standbyRest_inner (s : State) (o : Output) : Inner s (standbyRest s o) :=
  (setSq_inner _ _ _).trans (setOutState_inner _ _ _)

theorem standbyOutput_inner (s : State) (o : Output) : Inner s (standbyOutput s o) := by
  unfold standbyOutput
  dsimp only
  have h := (queueStandby_inner s o).trans (endBurst_inner _ o .standby)
  split
  · exact h
  · exact h
  · exact h.trans (standbyRest_inner _ _)
  · exact h.trans (standbyRest_inner _ _)
  · exact (h.trans (standbyRest_inner _ _)).trans (examine_inner _ _)

theorem tbuStandby_inner (s : State) : Inner s (tbuStandby s) := by
  unfold tbuStandby
  dsimp only
  refine Inner.trans ?_ (endNotice_inner _ _ _)
  refine Inner.trans ?_ (settleClocks_inner _)
  exact setTbu_inner_calm _ _ (fun e => by cases e) rfl id

theorem enterStandby_inner (s : State) : Inner s (enterStandby s) :=
  (Inner.foldl _ standbyOutput_inner _ s).trans (tbuStandby_inner _)

/-! ### Detectors -/

theorem presenceChanged_inner (s : State) (d : Detector) (c : RefCause) (e : Bool) :
    Inner s (presenceChanged s d c e) := by
  unfold presenceChanged
  dsimp only
  refine Inner.trans (t := referenceNotice s d c) (handAll_inner _ _ _) ?_
  split
  · exact sourceBecomesReady_inner _ _
  · exact referenceAbsent_inner _ _

theorem gateCompletes_inner (s : State) (d : Detector) (edges xoCycles : Nat) :
    Inner s (gateCompletes s d edges xoCycles) := by
  unfold gateCompletes
  dsimp only
  have h := (reach_inner s ((s.det d).gateStart + gateTime)).trans (setDet_inner _ d
    ⟨(detMove ((s.reach ((s.det d).gateStart + gateTime)).table.ref d) (s.det d).state (s.det d).good
        (gateResult (s.reach ((s.det d).gateStart + gateTime)).table d (gateTiming (s.det d) xoCycles) edges xoCycles)).1,
      (detMove ((s.reach ((s.det d).gateStart + gateTime)).table.ref d) (s.det d).state (s.det d).good
        (gateResult (s.reach ((s.det d).gateStart + gateTime)).table d (gateTiming (s.det d) xoCycles) edges xoCycles)).2,
      some (gateResult (s.reach ((s.det d).gateStart + gateTime)).table d (gateTiming (s.det d) xoCycles) edges xoCycles),
      some (gateTiming (s.det d) xoCycles), (s.det d).gateStart + gateTime,
      (s.reach ((s.det d).gateStart + gateTime)).tbu.xo == .ready⟩)
  split
  · exact h
  · exact h.trans (presenceChanged_inner _ _ _ _)

theorem detectorRestart_inner (s : State) (d : Detector) : Inner s (detectorRestart s d) := by
  unfold detectorRestart
  dsimp only
  split
  · exact (setDet_inner _ _ _).trans (presenceChanged_inner _ _ _ _)
  · exact setDet_inner _ _ _

end Sys2Proof.Laws
end

