-- ==== Sys2Proof/Laws/Rounds.lean ====
section
/-! SUPPORT. Consent rounds and claims are `Inner`. -/

namespace Sys2Proof.Laws

open Machine

/-! ### The Consent Unit -/

theorem freeProposal_inner (s : State) (id : Nat) : Inner s (freeProposal s id) :=
  setProposals_inner _ _ fun h => Nat.le_trans (List.length_filter_le _ _) h

theorem updateProposal_inner (s : State) (id : Nat) (f : Proposal → Proposal) : Inner s (updateProposal s id f) :=
  setProposals_inner _ _ fun h => by rw [List.length_map]; exact h

theorem addRefOpt_inner (s : State) (k : Option Slot) : Inner s (addRefOpt s k) := by
  cases k with
  | none => exact .refl s
  | some k => exact addRef_inner s k

theorem reserve_inner (s : State) (w : Matter) (m : Master) (tag : Byte) (id : Nat) : Inner s (reserve s w m tag id) := by
  unfold reserve
  dsimp only
  split
  · exact addRefOpt_inner _ _
  · exact (addRefOpt_inner _ _).trans (appendEntry_inner _ _ _)

theorem addProposal_inner (s : State) (p : Proposal) (id : Nat) (h : s.consent.proposals.length < 4) :
    Inner s { s with consent := ⟨s.consent.proposals ++ [p], id⟩ } :=
  ⟨rfl, Nat.le_refl _, fun _ => rfl, rfl, rfl, rfl, Nat.le_refl _, fun _ => ⟨rfl, rfl, rfl, rfl, rfl⟩, fun _ h => h,
    fun _ => rfl, fun _ => rfl, fun h => h,
    fun _ => by show (s.consent.proposals ++ [p]).length ≤ 4; rw [List.length_append, List.length_singleton]; omega,
    fun h => h⟩

theorem consent_appendEntry (s : State) (o : Output) (e : Entry) : (appendEntry s o e).consent = s.consent := by
  unfold appendEntry; split
  · rfl
  · cases e.kind <;> rfl

theorem consent_reserve (s : State) (w : Matter) (m : Master) (tag : Byte) (id : Nat) :
    (reserve s w m tag id).consent = s.consent := by
  have h : ∀ (t : State) k, (addRefOpt t k).consent = t.consent := fun t k => by cases k <;> rfl
  unfold reserve
  dsimp only
  split
  · exact h _ _
  · rw [consent_appendEntry, h]

theorem openProposal_inner (s : State) (m : Master) (tag : Byte) (w : Matter) (window : Nat) :
    Inner s (openProposal s m tag w window).state := by
  unfold openProposal
  split
  · exact .refl s
  · split
    · exact .refl s
    · split
      · exact .refl s
      · split
        · exact .refl s
        · rename_i h _
          dsimp only
          refine Inner.trans ?_ (handAll_inner _ _ _)
          refine Inner.trans (reserve_inner s w m tag s.newId) (addProposal_inner _ _ _ ?_)
          rw [consent_reserve]
          exact Nat.lt_of_not_le h

theorem proposalEnd_inner (s : State) (p : Proposal) (c : RoundOutcome) (b : Bool) : Inner s (proposalEnd s p c b) :=
  .foldl _ (fun s m => handMarked_inner s m b _) _ s

theorem endProposal_inner (s : State) (p : Proposal) (c : RoundOutcome) : Inner s (endProposal s p c) := by
  unfold endProposal
  dsimp only
  refine Inner.trans ?_ (proposalEnd_inner _ _ _ _)
  refine Inner.trans ?_ (freeProposal_inner _ _)
  refine Inner.trans ?_ (dropRefOpt_inner _ _)
  split
  · exact .refl s
  · exact removeEntries_inner _ _ _ _

theorem queueReserved_inner (s : State) (o : Output) (id : Nat) : Inner s (queueReserved s o id) :=
  setQueue_inner _ _ _ fun h => by rw [List.length_map]; exact h

theorem enterWaiting_inner (s : State) (o : Output) : Inner s (enterWaiting s o) :=
  (setOutState_inner _ _ _).trans (examine_inner _ _)

theorem carryChange_inner (s : State) (id : Nat) (o : Output) (k : Slot) : Inner s (carryChange s id o k).1 := by
  unfold carryChange
  split
  · exact queueReserved_inner _ _ _
  · exact (removeEntries_inner _ _ _ _).trans (bind_inner _ _ _)

theorem carryStop_inner (s : State) (id : Nat) (o : Output) : Inner s (carryStop s id o).1 := by
  unfold carryStop
  split
  · exact queueReserved_inner _ _ _
  · exact Inner.trans (removeEntries_inner s o (Entry.isReservedBy id) .applied) (returnToBound_inner _ _)
  · exact removeEntries_inner _ _ _ _
  · exact removeEntries_inner _ _ _ _
  · exact removeEntries_inner _ _ _ _

theorem carryStart_inner (s : State) (o : Output) : Inner s (carryStart s o).1 := by
  unfold carryStart
  split
  · exact enterWaiting_inner _ _
  · exact .refl s

theorem carryExclusive_inner (s : State) (id : Nat) (t : Target) (m : Master) :
    Inner s (carryExclusive s id t m).1 := by
  unfold carryExclusive
  dsimp only
  exact (setClaim_inner _ _ _).trans (.foldl _ (fun s j => hand_inner s j _) _ _)

theorem carryClock_inner (s : State) (p : Proposal) (sel : Selection) (a : Option Output) :
    Inner s (carryClock s p sel a).1 := by
  unfold carryClock
  split
  · exact .refl s
  · exact .refl s
  · exact takeClock_inner _ _ _ _

theorem takeReset_inner (s : State) : Inner s { s with resetTaken := true } :=
  ⟨rfl, Nat.le_refl _, fun _ => rfl, rfl, rfl, rfl, Nat.le_refl _, fun _ => ⟨rfl, rfl, rfl, rfl, rfl⟩, fun _ h => h,
    fun _ => rfl, fun _ => rfl, fun h => h, fun h => h, fun h => h⟩

theorem applyMatter_inner (s : State) (p : Proposal) : Inner s (applyMatter s p).1 := by
  unfold applyMatter
  split
  · exact carryChange_inner _ _ _ _
  · exact carryStop_inner _ _ _
  · exact carryStart_inner _ _
  · exact carryExclusive_inner _ _ _ _
  · exact carryClock_inner _ _ _ _
  · dsimp only
    exact enterStandby_inner s
  · exact takeReset_inner s

theorem carry_inner (s : State) (p : Proposal) : Inner s (carry s p) := by
  unfold carry
  dsimp only
  refine Inner.trans ?_ (proposalEnd_inner _ _ _ _)
  refine Inner.trans ?_ (freeProposal_inner _ _)
  exact (applyMatter_inner _ _).trans (dropRefOpt_inner _ _)

theorem carryIfAgreed_inner (s : State) (id : Nat) : Inner s (carryIfAgreed s id) := by
  unfold carryIfAgreed
  split
  · exact .refl s
  · split
    · exact carry_inner _ _
    · exact .refl s

theorem leaveProposal_inner (s : State) (p : Proposal) (m : Master) : Inner s (leaveProposal s p m) := by
  unfold leaveProposal
  split
  · exact endProposal_inner _ _ _
  · split
    · exact (updateProposal_inner _ _ _).trans (carryIfAgreed_inner _ _)
    · exact .refl s

theorem consentDeparture_inner (s : State) (m : Master) : Inner s (consentDeparture s m) :=
  .foldl _ (fun s id => by
    unfold leaveById
    split
    · exact .refl s
    · exact leaveProposal_inner _ _ _) _ s

/-! ### Claims -/

theorem orphanStop_inner (s : State) (o : Output) : Inner s (orphanStop s o) := by
  unfold orphanStop
  split
  · exact orphanAppend_inner _ _ _
  · exact returnToBound_inner _ _
  · exact .refl s
  · exact .refl s
  · exact .refl s

theorem orphanFallback_inner (s : State) (o : Output) (k : Slot) : Inner s (orphanFallback s o k) := by
  unfold orphanFallback
  split
  · exact orphanAppend_inner _ _ _
  · exact orphanAppend_inner _ _ _
  · exact bind_inner _ _ _
  · exact bind_inner _ _ _
  · exact bind_inner _ _ _

theorem applyPolicy_inner (s : State) (o : Output) (p : Policy) : Inner s (applyPolicy s o p) := by
  cases p with
  | keep => exact .refl s
  | stop => exact orphanStop_inner _ _
  | fallback k => exact orphanFallback_inner _ _ _

theorem settle_inner (s : State) (t : Target) : Inner s (settle s t) := by
  unfold settle
  dsimp only
  refine Inner.trans ?_ (dropRefOpt_inner _ _)
  refine Inner.trans ?_ (setClaim_inner _ _ _)
  split
  · exact .refl s
  · exact applyPolicy_inner _ _ _

theorem releaseProposal_inner (s : State) (t : Target) (m : Master) : Inner s (releaseProposal s t m) := by
  unfold releaseProposal
  split
  · exact .refl s
  · exact leaveProposal_inner _ _ _

theorem removeHolder_inner (s : State) (t : Target) (m : Master) : Inner s (removeHolder s t m) := by
  unfold removeHolder
  dsimp only
  have h := (setClaim_inner s t { s.claim t with holders := (s.claim t).holders.filter fun h => h.master != m }).trans
    (releaseProposal_inner _ t m)
  split
  · exact h.trans (settle_inner _ _)
  · exact h

theorem claimsDeparture_inner (s : State) (m : Master) : Inner s (claimsDeparture s m) :=
  .foldl _ (fun s t => by
    split
    · exact removeHolder_inner _ _ _
    · exact .refl s) _ s

theorem claimFree_inner (s : State) (m : Master) (t : Target) (a : ClaimArgs) : Inner s (claimFree s m t a).state := by
  unfold claimFree
  split
  · exact .refl s
  · exact (addRefOpt_inner _ _).trans (setClaim_inner _ _ _)

theorem claimByConsent_inner (s : State) (m : Master) (tag : Byte) (t : Target) (a : ClaimArgs) (f : State → State)
    (hf : ∀ u, Inner u (f u)) : Inner s (claimByConsent s m tag t a f).state := by
  unfold claimByConsent
  dsimp only
  split
  · exact (openProposal_inner _ _ _ _ _).trans (hf _)
  · exact openProposal_inner _ _ _ _ _

theorem claimRequest_inner (s : State) (m : Master) (f : Frame) : Inner s (claimRequest s m f).state := by
  unfold claimRequest
  split
  · exact .refl s
  · split
    · exact .refl s
    · split
      · exact claimFree_inner _ _ _ _
      · unfold claimShared
        split
        · split
          · exact setClaim_inner _ _ _
          · split
            · exact (setClaim_inner _ _ _).trans (setClaim_inner _ _ _)
            · exact claimByConsent_inner _ _ _ _ _ _ fun u => setClaim_inner _ _ _
        · split
          · exact setClaim_inner _ _ _
          · exact claimByConsent_inner _ _ _ _ _ _ fun u => setClaim_inner _ _ _
      · unfold claimExclusive
        split
        · exact (setClaim_inner _ _ _).trans (setClaim_inner _ _ _)
        · exact .refl s

theorem okay_state (s : State) : (okay s).state = s := rfl

theorem setPolicy_inner (s : State) (t : Target) (p : Policy) : Inner s (setPolicy s t p) :=
  ((addRefOpt_inner _ _).trans (dropRefOpt_inner _ _)).trans (setClaim_inner _ _ _)

theorem claimSetRequest_inner (s : State) (m : Master) (f : Frame) : Inner s (claimSetRequest s m f).state := by
  unfold claimSetRequest withOutput
  split
  · exact .refl s
  · dsimp only
    split
    · exact .refl s
    · split
      · exact .refl s
      · split
        · exact .refl s
        · split
          · exact .refl s
          · rw [okay_state]
            exact setPolicy_inner _ _ _

theorem releaseRequest_inner (s : State) (m : Master) (f : Frame) : Inner s (releaseRequest s m f).state := by
  unfold releaseRequest
  split
  · exact .refl s
  · split
    · exact removeHolder_inner _ _ _
    · exact .refl s

end Sys2Proof.Laws
end

