-- ==== Sys2Proof/Laws/Alignment.lean ====
section
/-! SUPPORT. The align output of a switch in WAIT_ALIGN is in RUNNING (`AlignLaw`): what each shared operation and each
owner of a request or an event does to that. Most leave the Timebase Unit's state and the outputs' states alone (`Same`),
or take no output out of RUNNING (`Still`); the others end in a state of the unit other than WAIT_ALIGN (`Away`). -/

namespace Sys2Proof.Laws

open Machine

/-- The state of the Timebase Unit and the states of the outputs are the same. -/
structure Same (s t : State) : Prop where
  unit : t.tbu.state = s.tbu.state
  out : ∀ o, (t.sq o).state = (s.sq o).state

/-- The state of the Timebase Unit is the same, and no output has left RUNNING. -/
structure Still (s t : State) : Prop where
  unit : t.tbu.state = s.tbu.state
  running : ∀ o, (s.sq o).state = .running → (t.sq o).state = .running

/-- The Timebase Unit is not in WAIT_ALIGN. -/
def Away (s : State) : Prop := ∀ cur sw d, s.tbu.state ≠ .waitAlign cur sw d

theorem Away.law {s : State} (h : Away s) : AlignLaw s := fun cur sw d e => absurd e (h cur sw d)

theorem Away.of_state {s : State} {st : TbuState} (e : s.tbu.state = st) (h : ∀ cur sw d, st ≠ .waitAlign cur sw d) :
    Away s := fun cur sw d g => h cur sw d (e.symm.trans g)

namespace Same

theorem refl (s : State) : Same s s := ⟨rfl, fun _ => rfl⟩

theorem trans {s t u : State} (h : Same s t) (g : Same t u) : Same s u :=
  ⟨g.unit.trans h.unit, fun o => (g.out o).trans (h.out o)⟩

theorem foldl {α : Type} (f : State → α → State) (h : ∀ s a, Same s (f s a)) :
    ∀ (l : List α) (s : State), Same s (l.foldl f s)
  | [], s => refl s
  | a :: l, s => (h s a).trans (foldl f h l (f s a))

theorem still {s t : State} (h : Same s t) : Still s t := ⟨h.unit, fun o k => (h.out o).trans k⟩

theorem away {s t : State} (h : Same s t) (k : Away s) : Away t := fun cur sw d e => k cur sw d (h.unit.symm.trans e)

/-- The law looks at the states only. -/
theorem law {s t : State} (h : Same s t) (k : AlignLaw s) : AlignLaw t := fun cur sw d e => by
  obtain ⟨o, ha, hr⟩ := k cur sw d (h.unit.symm.trans e)
  exact ⟨o, ha, (h.out o).trans hr⟩

end Same

namespace Still

theorem refl (s : State) : Still s s := ⟨rfl, fun _ h => h⟩

theorem trans {s t u : State} (h : Still s t) (g : Still t u) : Still s u :=
  ⟨g.unit.trans h.unit, fun o k => g.running o (h.running o k)⟩

theorem foldl {α : Type} (f : State → α → State) (h : ∀ s a, Still s (f s a)) :
    ∀ (l : List α) (s : State), Still s (l.foldl f s)
  | [], s => refl s
  | a :: l, s => (h s a).trans (foldl f h l (f s a))

theorem away {s t : State} (h : Still s t) (k : Away s) : Away t := fun cur sw d e => k cur sw d (h.unit.symm.trans e)

theorem law {s t : State} (h : Still s t) (k : AlignLaw s) : AlignLaw t := fun cur sw d e => by
  obtain ⟨o, ha, hr⟩ := k cur sw d (h.unit.symm.trans e)
  exact ⟨o, ha, h.running o hr⟩

end Still

/-! ### Setters and notices -/

theorem setSq_still (s : State) (o : Output) (r : OutRec) (h : (s.sq o).state = .running → r.state = .running) :
    Still s (s.setSq o r) := ⟨rfl, fun p k => by
  by_cases e : p = o
  · subst e; rw [State.sq_setSq_self]; exact h k
  · rw [State.sq_setSq_ne _ _ e]; exact k⟩

theorem setSq_same (s : State) (o : Output) (r : OutRec) (h : r.state = (s.sq o).state) : Same s (s.setSq o r) :=
  ⟨rfl, fun p => by
    by_cases e : p = o
    · subst e; rw [State.sq_setSq_self]; exact h
    · rw [State.sq_setSq_ne _ _ e]⟩

theorem setBurst_same (s : State) (o : Output) (b : Option Burst) : Same s (s.setBurst o b) := ⟨rfl, fun p => by simp⟩

theorem setQueue_same (s : State) (o : Output) (q : List Entry) : Same s (s.setQueue o q) := ⟨rfl, fun p => by simp⟩

theorem setClaim_same (s : State) (t : Target) (r : ClaimRec) : Same s (s.setClaim t r) := by
  cases t <;> exact ⟨rfl, fun _ => rfl⟩

theorem setDet_same (s : State) (d : Detector) (r : DetRec) : Same s (s.setDet d r) := by
  cases d <;> exact ⟨rfl, fun _ => rfl⟩

theorem setTbu_same (s : State) (t : Tbu) (h : t.state = s.tbu.state) : Same s (s.setTbu t) := ⟨h, fun _ => rfl⟩

theorem reach_same (s : State) (t : Nat) : Same s (s.reach t) := ⟨rfl, fun _ => rfl⟩

theorem setProposals_same (s : State) (ps : List Proposal) : Same s (s.setProposals ps) := ⟨rfl, fun _ => rfl⟩

theorem setSlot_same (s : State) (k : Slot) (r : SlotRec) : Same s (s.setSlot k r) := ⟨rfl, fun _ => rfl⟩

theorem setLink_same (s : State) (m : Master) (l : Link) : Same s (s.setLink m l) := ⟨rfl, fun _ => rfl⟩

theorem setMaster_same (s : State) (m : Master) (r : MasterRec) : Same s (s.setMaster m r) := ⟨rfl, fun _ => rfl⟩

theorem dropRefOpt_same (s : State) (k : Option Slot) : Same s (s.dropRefOpt k) := by
  cases k <;> exact ⟨rfl, fun _ => rfl⟩

theorem addRefOpt_same (s : State) (k : Option Slot) : Same s (addRefOpt s k) := by
  cases k <;> exact ⟨rfl, fun _ => rfl⟩

theorem handMarked_same (s : State) (m : Master) (c : Bool) (n : Notice) : Same s (s.handMarked m c n) := by
  unfold State.handMarked
  split
  · split <;> exact ⟨rfl, fun _ => rfl⟩
  · exact .refl s

theorem handAll_same (s : State) (ms : List Master) (n : Notice) : Same s (s.handAll ms n) :=
  .foldl _ (fun s m => handMarked_same s m false n) ms s

/-! ### Output channels -/

theorem outputNotice_same (s : State) (o : Output) (prev : OutState) : Same s (outputNotice s o prev) := handAll_same _ _ _

theorem setOutState_still (s : State) (o : Output) (st : OutState) (h : (s.sq o).state = .running → st = .running) :
    Still s (setOutState s o st) := (setSq_still s o _ h).trans (outputNotice_same _ _ _).still

theorem completeFrame_same (s : State) (o : Output) (cut : Bool) : Same s (completeFrame s o cut) := by
  unfold completeFrame
  split
  · exact (setSq_same _ _ _ (by rfl)).trans (handAll_same _ _ _)
  · exact .refl s

theorem dropEntryRef_same (s : State) (k : EntryKind) : Same s (dropEntryRef s k) := by
  cases k <;> exact ⟨rfl, fun _ => rfl⟩

theorem changeDone_same (s : State) (o : Output) (k : DoneKind) (w : Option (Master × Byte)) (p : Option Nat)
    (c : ChangeOutcome) : Same s (changeDone s o k w p c) := handAll_same _ _ _

theorem appendEntry_same (s : State) (o : Output) (e : Entry) : Same s (appendEntry s o e) := by
  have h : Same s (addEntryRef s e.kind) := by cases e.kind <;> exact ⟨rfl, fun _ => rfl⟩
  unfold appendEntry
  split
  · exact .refl s
  · exact h.trans (setQueue_same _ _ _)

theorem entryLeft_same (o : Output) (c : ChangeOutcome) (s : State) (e : Entry) : Same s (entryLeft o c s e) :=
  (dropEntryRef_same s e.kind).trans (changeDone_same _ _ _ _ _ _)

theorem removeEntries_same (s : State) (o : Output) (p : Entry → Bool) (c : ChangeOutcome) :
    Same s (removeEntries s o p c) := (setQueue_same s o _).trans (.foldl _ (entryLeft_same o c) _ _)

theorem dropCut_same (s : State) (o : Output) (c : ChangeOutcome) : Same s (dropCut s o c) := by
  unfold dropCut
  split
  · exact .refl s
  · exact (setSq_same _ _ _ (by rfl)).trans (changeDone_same _ _ _ _ _ _)

theorem clearNext_same (s : State) (o : Output) : Same s (clearNext s o) :=
  (dropRefOpt_same _ _).trans (setSq_same _ _ _ (by rfl))

theorem orphanAppend_same (s : State) (o : Output) (k : EntryKind) : Same s (orphanAppend s o k) :=
  (removeEntries_same _ _ _ _).trans (appendEntry_same _ _ _)

theorem queueDeparture_same (s : State) (o : Output) (m : Master) : Same s (queueDeparture s o m) := by
  unfold queueDeparture
  dsimp only
  split
  · exact (removeEntries_same _ _ _ _).trans (dropCut_same _ _ _)
  · exact removeEntries_same _ _ _ _

theorem bind_still (s : State) (o : Output) (k : Slot) : Still s (Machine.bind s o k) := by
  have h : Same s (((s.addRef k).dropRefOpt (s.sq o).current).setSq o
      { ((s.addRef k).dropRefOpt (s.sq o).current).sq o with current := some k }) :=
    ((setSlot_same _ _ _).trans (dropRefOpt_same _ _)).trans (setSq_same _ _ _ (by rfl))
  unfold Machine.bind
  dsimp only
  split
  · rename_i e
    refine h.still.trans (setOutState_still _ _ _ fun g => ?_)
    rw [h.out o, e] at g; cases g
  · exact h.still

theorem returnToBound_still (s : State) (o : Output) (h : (s.sq o).state ≠ .running) : Still s (returnToBound s o) := by
  have k : Same s (s.setSq o { s.sq o with wakeStart := false }) := setSq_same _ _ _ rfl
  exact k.still.trans (setOutState_still _ _ _ fun g => absurd ((k.out o).symm.trans g) h)

theorem mapSq_same (s : State) (f : State → Output → OutRec) (h : ∀ u o, (f u o).state = (u.sq o).state) :
    Same s (s.mapSq f) := .foldl _ (fun u o => setSq_same u o _ (h u o)) _ s

theorem mark_state (r : OutRec) (f : FrameStatus → FrameStatus) : (r.mark f).state = r.state := by
  unfold OutRec.mark; split <;> rfl

theorem finishBurst_same (s : State) (o : Output) (b : Burst) (c : BurstOutcome) : Same s (finishBurst s o b c) :=
  (setBurst_same _ _ _).trans (handAll_same _ _ _)

theorem endBurst_same (s : State) (o : Output) (c : BurstOutcome) : Same s (endBurst s o c) := by
  unfold endBurst
  split
  · exact .refl s
  · exact finishBurst_same _ _ _ _

theorem strobeLine_same (s : State) (o : Output) : Same s (strobeLine s o) := by
  unfold strobeLine
  split
  · exact .refl s
  · split
    · exact setBurst_same _ _ _
    · exact finishBurst_same _ _ _ _

theorem strobeSwap_same (s : State) (o : Output) : Same s (strobeSwap s o) := by
  unfold strobeSwap
  split
  · exact .refl s
  · split
    · exact strobeLine_same _ _
    · exact finishBurst_same _ _ _ _

/-! ### The Timebase Unit -/

theorem startOne_still (s : State) (o : Output) : Still s (startOne s o) :=
  ((setSq_still s o ((s.sq o).beginRun s.tbu.fail) fun _ => rfl).trans (strobeLine_same _ _).still).trans
    (outputNotice_same _ _ _).still

theorem startAll_still (s : State) (os : List Output) : Still s (startAll s os) := .foldl _ startOne_still os s

theorem settleXo_same (s : State) : Same s (settleXo s) := by
  unfold settleXo
  split
  · split <;> exact ⟨rfl, fun _ => rfl⟩
  · exact ⟨rfl, fun _ => rfl⟩

theorem settleClocks_same (s : State) : Same s (settleClocks s) := by
  unfold settleClocks
  split
  · exact settleXo_same s
  · exact (setTbu_same s _ (by rfl)).trans (settleXo_same _)

theorem abandonLock_same (s : State) : Same s (abandonLock s) := by
  unfold abandonLock
  split
  · exact .refl s
  · exact setTbu_same _ _ rfl

theorem setContext_same (s : State) (src : Source) (v : Option Settings) : Same s (setContext s src v) :=
  setTbu_same _ _ rfl

theorem endNotice_same (s : State) (sw : Option Switch) (e : Switch → ClockEvent) : Same s (endNotice s sw e) := by
  cases sw with
  | none => exact .refl s
  | some sw => exact handAll_same _ _ _

/-- The unit goes to a state other than WAIT_ALIGN. -/
theorem setState_away (s : State) (t : Tbu) (h : ∀ cur sw d, t.state ≠ .waitAlign cur sw d) : Away (s.setTbu t) := h

theorem complete_away (s : State) (sw : Switch) (aligned : Bool) (moment : List Output) :
    Away (complete s sw aligned moment) := by
  unfold complete
  dsimp only
  refine (handAll_same _ _ _).away ((startAll_still _ _).away ((mapSq_same _ _ fun u o => ?_).away
    ((setTbu_same _ _ (by rfl)).away ((settleClocks_same _).away (setState_away s _ (by nofun))))))
  unfold OutRec.completion
  split
  · split
    · exact mark_state _ _
    · split
      · rfl
      · exact mark_state _ _
  · rfl

theorem examine_law {s : State} (moment : List Output) (h : AlignLaw s) : AlignLaw (examine s moment) := by
  have k := (startAll_still s (s.startSet moment)).law h
  unfold examine
  dsimp only
  split
  · split
    · split
      · exact (complete_away _ _ _ _).law
      · exact k
    · exact k
  · exact k

theorem emittedStart_law {s : State} (o : Output) (h : AlignLaw s) : AlignLaw (emittedStart s o) := by
  unfold emittedStart
  split
  · split
    · exact (complete_away _ _ _ _).law
    · exact examine_law _ h
  · exact examine_law _ h

/-- The law but for the output `o`, which has just left RUNNING, is whole again once that is handed on (R116). -/
theorem leftRunning_law {s : State} (o : Output) (h : ∀ cur sw d, s.tbu.state = .waitAlign cur sw d →
    ∃ a, sw.align = some a ∧ (a = o ∨ (s.sq a).state = .running)) : AlignLaw (leftRunning s o) := by
  unfold leftRunning
  split
  · rename_i cur sw d e
    split
    · exact (complete_away _ _ _ _).law
    · rename_i ha
      refine examine_law _ fun cur' sw' d' e' => ?_
      obtain ⟨a, hs, hr⟩ := h cur' sw' d' e'
      refine ⟨a, hs, hr.resolve_left fun g => ?_⟩
      rw [e] at e'; cases e'
      exact ha (g ▸ hs)
  · rename_i hw
    exact examine_law _ (Away.law fun cur sw d e => hw cur sw d e)

theorem targetReady_law {s : State} (h : AlignLaw s) : AlignLaw (targetReady s) := by
  unfold targetReady
  split
  · exact (complete_away _ _ _ _).law
  · rename_i cur sw d e
    split
    · exact (complete_away _ _ _ _).law
    · rename_i o ho
      split
      · rename_i hr
        intro cur' sw' d' e'
        cases e'
        exact ⟨o, ho, hr⟩
      · exact (complete_away _ _ _ _).law
  · exact h

theorem progress_law {s : State} (h : AlignLaw s) : AlignLaw (progress s) := by
  have ready (sw : Switch) : AlignLaw (readyTarget s sw) := by
    unfold readyTarget
    split
    · split
      · exact targetReady_law h
      · split
        · exact (setTbu_same s _ (by rfl)).law h
        · exact h
    · exact h
  unfold progress
  split
  · exact ready _
  · exact ready _
  · exact h

theorem losesReadiness_law {s : State} (h : AlignLaw s) : AlignLaw (losesReadiness s) := by
  unfold losesReadiness
  split
  · exact (abandonLock_same s).law h
  · exact (abandonLock_same s).law h
  · exact ((abandonLock_same _).away (setState_away s _ (by nofun))).law
  · exact h

theorem beginSwitch_law (s : State) (st : TbuState) (sw : Switch) (ended : Option Switch)
    (h : ∀ cur sw d, st ≠ .waitAlign cur sw d) : AlignLaw (beginSwitch s st sw ended) :=
  progress_law ((handAll_same _ _ _).away ((endNotice_same _ _ _).away ((settleClocks_same _).away
    (setState_away s _ h)))).law

theorem takeClock_law (s : State) (sel : Selection) (align : Option Output) (origin : SwitchOrigin) :
    AlignLaw (takeClock s sel align origin) := by
  have back (cur : Selection) (old : Option Switch) : AlignLaw (endNotice (settleClocks ((abandonLock s).setTbu
      { (abandonLock s).tbu with state := .running cur })) old ClockEvent.superseded) :=
    ((endNotice_same _ _ _).away ((settleClocks_same _).away (setState_away _ _ (by nofun)))).law
  unfold takeClock
  dsimp only
  split
  · exact beginSwitch_law _ _ _ _ nofun
  · split
    · exact back _ _
    · exact beginSwitch_law _ _ _ _ nofun
  · split
    · exact back _ _
    · exact beginSwitch_law _ _ _ _ nofun
  · exact beginSwitch_law _ _ _ _ nofun
  · exact beginSwitch_law _ _ _ _ nofun
  · exact (setState_away s _ (by nofun)).law

theorem sourceFails_law (s : State) (c : FailCause) (src : Source) : AlignLaw (sourceFails s c src) := by
  unfold sourceFails
  split
  · refine ((handAll_same _ _ _).away ((endNotice_same _ _ _).away ((mapSq_same _ _ fun u o => mark_state _ _).away
      ((settleClocks_same _).away (setState_away s _ (by nofun)))))).law
  · refine ((handAll_same _ _ _).away ((mapSq_same _ _ fun u o => ?_).away
      ((settleClocks_same _).away (setState_away s _ (by nofun))))).law
    unfold OutRec.freeze; split <;> rfl

theorem referenceAbsent_law {s : State} (src : Source) (h : AlignLaw s) : AlignLaw (referenceAbsent s src) := by
  have k := (setContext_same s src none).law h
  unfold referenceAbsent
  dsimp only
  split
  · exact sourceFails_law _ _ _
  · split
    · exact losesReadiness_law k
    · exact k

/-- After the start-up path no switch waits for an output (R168). -/
theorem startUpPath_law (s : State) (sel : Selection) (origin : SwitchOrigin) (two : Bool) :
    AlignLaw (startUpPath s sel origin two) := by
  unfold startUpPath
  dsimp only
  split
  · exact ((settleClocks_same _).away (setState_away s _ (by nofun))).law
  · split
    · exact beginSwitch_law _ _ _ _ nofun
    · exact beginSwitch_law _ _ _ _ nofun

theorem sourceBecomesReady_law {s : State} (src : Source) (h : AlignLaw s) : AlignLaw (sourceBecomesReady s src) := by
  unfold sourceBecomesReady
  split
  · exact progress_law h
  · exact h

theorem xoBecomesReady_law {s : State} (h : AlignLaw s) : AlignLaw (xoBecomesReady s) := by
  unfold xoBecomesReady
  split
  · exact sourceBecomesReady_law _ ((setTbu_same s _ (by rfl)).law h)
  · exact h
  · exact h

theorem synthLocks_same (s : State) : Same s (synthLocks s) := ⟨rfl, fun _ => rfl⟩

theorem lockCompletes_law {s : State} (h : AlignLaw s) : AlignLaw (lockCompletes s) := by
  have lock (sw : Switch) : AlignLaw (lockFor s sw) := by
    unfold lockFor
    split
    · dsimp only
      split
      · exact targetReady_law ((synthLocks_same _).law ((setContext_same _ _ _).law ((reach_same _ _).law h)))
      · exact (setTbu_same _ _ (by rfl)).law ((reach_same _ _).law h)
    · exact h
  unfold lockCompletes
  split
  · exact lock _
  · exact lock _
  · exact h

theorem alignmentExpires_law {s : State} (h : AlignLaw s) : AlignLaw (alignmentExpires s) := by
  unfold alignmentExpires
  split
  · exact (complete_away _ _ _ _).law
  · exact h

theorem switchExpires_law {s : State} (h : AlignLaw s) : AlignLaw (switchExpires s) := by
  unfold switchExpires
  split
  · exact ((handAll_same _ _ _).away ((settleClocks_same _).away (setState_away _ _ (by nofun)))).law
  · dsimp only
    split
    · exact examine_law _ ((handAll_same _ _ _).away ((settleClocks_same _).away (setState_away _ _ (by nofun)))).law
    · unfold enterLost
      refine ((handAll_same _ _ _).away ((mapSq_same _ _ fun u o => ?_).away
        ((settleClocks_same _).away (setState_away _ _ (by nofun))))).law
      unfold OutRec.freeze; split <;> rfl
  · exact h

theorem activityCheck_law {s : State} (seen : Bool) (h : AlignLaw s) : AlignLaw (activityCheck s seen) := by
  unfold activityCheck
  split
  · exact h
  · dsimp only
    split
    · exact (setTbu_same _ _ (by rfl)).law ((reach_same _ _).law h)
    · split
      · exact (setTbu_same _ _ (by rfl)).law ((reach_same _ _).law h)
      · exact sourceFails_law _ _ _

theorem targetLockLost_law {s : State} (sw : Switch) (h : AlignLaw s) : AlignLaw (targetLockLost s sw) := by
  unfold targetLockLost
  split
  · exact progress_law (losesReadiness_law ((setContext_same _ _ _).law h))
  · split
    · exact h
    · exact (setContext_same _ _ _).law h

theorem lockLost_law {s : State} (h : AlignLaw s) : AlignLaw (lockLost s) := by
  unfold lockLost
  split
  · exact sourceFails_law _ _ _
  · split
    · exact targetLockLost_law _ h
    · exact h
  · exact h

/-! ### Lines and frames -/

theorem unsettleFrame_same (s : State) (o : Output) : Same s (unsettleFrame s o) := setSq_same _ _ _ (mark_state _ _)

theorem intake_law {s : State} (o : Output) (h : AlignLaw s) : AlignLaw (intake s o) := by
  unfold intake
  split
  · exact h
  · rename_i e rest _
    split
    · split
      · dsimp only
        exact (unsettleFrame_same _ _).law ((setSq_same _ _ _ (by rfl)).law ((setSlot_same _ _ _).law
          ((setQueue_same s o ({ e with state := .taken } :: rest)).law h)))
      · split
        · have k := ((setQueue_same s o ({ e with state := .taken } :: rest)).trans (unsettleFrame_same _ o)).law h
          refine leftRunning_law o fun cur sw d g => ?_
          have t := outputNotice_same ((unsettleFrame (takeHead s o e rest) o).setSq o
            { (unsettleFrame (takeHead s o e rest) o).sq o with state := .stopping }) o
            ((unsettleFrame (takeHead s o e rest) o).sq o).state
          obtain ⟨a, ha, hr⟩ := k cur sw d (t.unit.symm.trans g)
          refine ⟨a, ha, ?_⟩
          by_cases q : a = o
          · exact .inl q
          · refine .inr ((t.out a).trans ?_)
            rw [State.sq_setSq_ne _ _ q]; exact hr
        · exact h
    · exact h

theorem beginFrame_state (r : OutRec) (phase : Nat) (fail : Bool) : (r.beginFrame phase fail).state = r.state := rfl

theorem cutFrame_law {s : State} (o : Output) (c : PendingCut) (h : AlignLaw s) : AlignLaw (cutFrame s o c) := by
  unfold cutFrame
  dsimp only
  refine emittedStart_law _ ?_
  have notice (b : Bool) (t : State) (k : AlignLaw t) : AlignLaw (if b = true then outputNotice t o .stopping else t) := by
    cases b
    · exact k
    · exact (outputNotice_same _ _ _).law k
  refine notice _ _ ((changeDone_same _ _ _ _ _ _).law ((strobeLine_same _ _).law ((removeEntries_same _ _ _ _).law
    ((removeEntries_same _ _ _ _).law ((setSq_still _ _ _ fun _ => by rw [beginFrame_state]).law ?_)))))
  exact (dropRefOpt_same _ _).law ((setSlot_same _ _ _).law ((clearNext_same _ _).law ((completeFrame_same _ _ _).law h)))

theorem lineStart_law {s : State} (o : Output) (h : AlignLaw s) : AlignLaw (lineStart s o) := by
  have next : AlignLaw (nextLine s o) := by
    have k : AlignLaw (strobeLine (s.setSq o { s.sq o with line := (s.sq o).line + 1, tick := 0, lineEnd := false }) o) :=
      (strobeLine_same _ _).law ((setSq_same s o _ (by rfl)).law h)
    unfold nextLine
    dsimp only
    split
    · exact intake_law _ k
    · exact k
  unfold lineStart
  split
  · split
    · exact cutFrame_law _ _ h
    · exact next
  · exact next

theorem toRest_state (r : OutRec) : r.toRest.state = r.state := rfl

theorem stopTakesEffect_law {s : State} (o : Output) (hs : (s.sq o).state = .stopping) (h : AlignLaw s) :
    AlignLaw (stopTakesEffect s o) := by
  unfold stopTakesEffect
  dsimp only
  have k := (((completeFrame_same s o false).trans (removeEntries_same _ o Entry.isTaken .applied)).trans
    (removeEntries_same _ o Entry.isQueued .discarded)).trans (endBurst_same _ o .stopped)
  have k := k.trans (setSq_same _ o _ (toRest_state _))
  refine (setOutState_still _ _ _ fun g => ?_).law (k.law h)
  rw [k.out o, hs] at g; cases g

theorem frameBoundary_law {s : State} (o : Output) (h : AlignLaw s) : AlignLaw (frameBoundary s o) := by
  unfold frameBoundary
  split
  · exact cutFrame_law _ _ h
  · split
    · rename_i hs; exact stopTakesEffect_law _ hs h
    · split
      · unfold profileSwap
        dsimp only
        refine emittedStart_law _ ((strobeSwap_same _ _).law ((removeEntries_same _ _ _ _).law ?_))
        refine (setSq_same _ _ _ (by rw [beginFrame_state])).law ((clearNext_same _ _).law ((dropRefOpt_same _ _).law ?_))
        exact (setSlot_same _ _ _).law ((completeFrame_same _ _ _).law h)
      · have k : AlignLaw (strobeLine ((completeFrame s o false).setSq o (((completeFrame s o false).sq o).beginFrame
            ((((completeFrame s o false).sq o).phase + 1) % ((completeFrame s o false).geom o).fd)
            (completeFrame s o false).tbu.fail)) o) :=
          (strobeLine_same _ _).law ((setSq_same _ _ _ (by rfl)).law ((completeFrame_same _ _ _).law h))
        unfold frameGoesOn
        dsimp only
        split
        · exact emittedStart_law _ k
        · exact k

theorem lineEnds_law {s : State} (o : Output) (h : AlignLaw s) : AlignLaw (lineEnds s o) := by
  unfold lineEnds
  split
  · exact frameBoundary_law _ h
  · exact lineStart_law _ h

/-- Time passes, and no state changes. -/
theorem timePasses_same (s : State) : Same s (timePasses s) := by
  have tick : Same s (tickAll s) := mapSq_same _ _ fun u o => by
    unfold OutRec.tickOnce
    split
    · split <;> rfl
    · rfl
  have later (u : State) (n : Nat) : Same u (Machine.pass u n) := ⟨rfl, fun _ => rfl⟩
  have part (u : State) (n : Nat) : Same u { u with synPhase := n } := ⟨rfl, fun _ => rfl⟩
  have count (u : State) (k : Same s u) (n : Nat) (x : XoState) :
      Same s { u with freeCount := n, tbu := { s.tbu with xo := x } } := ⟨rfl, k.out⟩
  refine count _ ?_ _ _
  unfold clockEdge
  split
  · exact later _ _
  · exact tick.trans (later _ _)
  · exact (tick.trans (later _ _)).trans (part _ _)
  · split
    · exact tick
    · exact later _ _

/-- After standby entry the unit is in STANDBY (R172). -/
theorem enterStandby_law (s : State) : AlignLaw (enterStandby s) :=
  have k (u : State) : AlignLaw (tbuStandby u) :=
    ((endNotice_same _ _ _).away ((settleClocks_same _).away (setState_away u _ (by nofun)))).law
  k _

/-! ### Detectors -/

theorem presenceChanged_law {s : State} (d : Detector) (c : RefCause) (e : Bool) (h : AlignLaw s) :
    AlignLaw (presenceChanged s d c e) := by
  have k : AlignLaw (referenceNotice s d c) := (handAll_same _ _ _).law h
  unfold presenceChanged
  dsimp only
  split
  · exact sourceBecomesReady_law _ k
  · exact referenceAbsent_law _ k

theorem gateCompletes_law {s : State} (d : Detector) (edges xoCycles : Nat) (h : AlignLaw s) :
    AlignLaw (gateCompletes s d edges xoCycles) := by
  unfold gateCompletes
  dsimp only
  split
  · exact (setDet_same _ _ _).law ((reach_same _ _).law h)
  · exact presenceChanged_law _ _ _ ((setDet_same _ _ _).law ((reach_same _ _).law h))

theorem setRefEntry_law {s : State} (d : Detector) (e : RefEntry) (h : AlignLaw s) : AlignLaw (setRefEntry s d e) := by
  have restart (u : State) (k : AlignLaw u) : AlignLaw (detectorRestart u d) := by
    unfold detectorRestart
    dsimp only
    split
    · exact presenceChanged_law _ _ _ ((setDet_same _ _ _).law k)
    · exact (setDet_same _ _ _).law k
  unfold setRefEntry
  split
  · exact h
  · exact restart _ h

/-! ### Rounds and claims -/

theorem openProposal_same (s : State) (m : Master) (tag : Byte) (w : Matter) (window : Nat) :
    Same s (openProposal s m tag w window).state := by
  have reserved (id : Nat) : Same s (reserve s w m tag id) := by
    unfold reserve
    dsimp only
    split
    · exact addRefOpt_same _ _
    · exact (addRefOpt_same _ _).trans (appendEntry_same _ _ _)
  have added (u : State) (k : Same s u) (c) : Same s { u with consent := c } := ⟨k.unit, k.out⟩
  unfold openProposal
  repeat' split
  all_goals first | exact .refl s | exact (added _ (reserved _) _).trans (handAll_same _ _ _)

theorem proposalEnd_same (s : State) (p : Proposal) (c : RoundOutcome) (b : Bool) : Same s (proposalEnd s p c b) :=
  .foldl _ (fun s m => handMarked_same s m b _) _ s

theorem endProposal_same (s : State) (p : Proposal) (c : RoundOutcome) : Same s (endProposal s p c) := by
  unfold endProposal
  dsimp only
  refine Same.trans (Same.trans (Same.trans ?_ (dropRefOpt_same _ _)) (setProposals_same _ _)) (proposalEnd_same _ _ _ _)
  split
  · exact .refl s
  · exact removeEntries_same _ _ _ _

theorem enterWaiting_law {s : State} (o : Output) (hs : (s.sq o).state ≠ .running) (h : AlignLaw s) :
    AlignLaw (enterWaiting s o) := examine_law _ ((setOutState_still _ _ _ fun g => absurd g hs).law h)

theorem applyMatter_law {s : State} (p : Proposal) (h : AlignLaw s) : AlignLaw (applyMatter s p).1 := by
  unfold applyMatter
  split
  · unfold carryChange
    split
    · exact (setQueue_same _ _ _).law h
    · exact (bind_still _ _ _).law ((removeEntries_same _ _ _ _).law h)
  · unfold carryStop
    split
    · exact (setQueue_same _ _ _).law h
    · rename_i hs
      have k (o : Output) := removeEntries_same s o (Entry.isReservedBy p.id) .applied
      refine (returnToBound_still _ _ fun g => ?_).law ((k _).law h)
      rw [(k _).out, hs] at g; cases g
    · exact (removeEntries_same _ _ _ _).law h
    · exact (removeEntries_same _ _ _ _).law h
    · exact (removeEntries_same _ _ _ _).law h
  · unfold carryStart
    split
    · rename_i hs; exact enterWaiting_law _ (by rw [hs]; nofun) h
    · exact h
  · unfold carryExclusive
    dsimp only
    exact (Same.foldl _ (fun s m => handMarked_same s m false _) _ _).law ((setClaim_same _ _ _).law h)
  · unfold carryClock
    split
    · exact h
    · exact h
    · exact takeClock_law _ _ _ _
  · dsimp only
    exact enterStandby_law s
  · exact h

theorem carryIfAgreed_law {s : State} (id : Nat) (h : AlignLaw s) : AlignLaw (carryIfAgreed s id) := by
  unfold carryIfAgreed
  split
  · exact h
  · split
    · exact (proposalEnd_same _ _ _ _).law ((setProposals_same _ _).law ((dropRefOpt_same _ _).law (applyMatter_law _ h)))
    · exact h

theorem leaveProposal_law {s : State} (p : Proposal) (m : Master) (h : AlignLaw s) : AlignLaw (leaveProposal s p m) := by
  unfold leaveProposal
  split
  · exact (endProposal_same _ _ _).law h
  · split
    · exact carryIfAgreed_law _ ((setProposals_same _ _).law h)
    · exact h

theorem foldl_law {α : Type} {f : State → α → State} (h : ∀ s a, AlignLaw s → AlignLaw (f s a)) :
    ∀ (l : List α) {s : State}, AlignLaw s → AlignLaw (l.foldl f s)
  | [], _, k => k
  | a :: l, s, k => foldl_law h l (h s a k)

theorem applyPolicy_still (s : State) (o : Output) (p : Policy) : Still s (applyPolicy s o p) := by
  unfold applyPolicy
  split
  · exact .refl s
  · unfold orphanStop
    split
    · exact (orphanAppend_same _ _ _).still
    · rename_i hs; exact returnToBound_still _ _ (by rw [hs]; nofun)
    · exact .refl s
    · exact .refl s
    · exact .refl s
  · unfold orphanFallback
    split
    · exact (orphanAppend_same _ _ _).still
    · exact (orphanAppend_same _ _ _).still
    · exact bind_still _ _ _
    · exact bind_still _ _ _
    · exact bind_still _ _ _

theorem removeHolder_law {s : State} (t : Target) (m : Master) (h : AlignLaw s) : AlignLaw (removeHolder s t m) := by
  have k : AlignLaw (releaseProposal (s.setClaim t
      { s.claim t with holders := (s.claim t).holders.filter fun h => h.master != m }) t m) := by
    unfold releaseProposal
    split
    · exact (setClaim_same _ _ _).law h
    · exact leaveProposal_law _ _ ((setClaim_same _ _ _).law h)
  unfold removeHolder
  dsimp only
  split
  · unfold settle
    dsimp only
    refine (dropRefOpt_same _ _).law ((setClaim_same _ _ _).law ?_)
    split
    · exact k
    · exact (applyPolicy_still _ _ _).law k
  · exact k

/-! ### Departure and leases -/

theorem runPart_law {s : State} (m : Master) (p : Part) (h : AlignLaw s) : AlignLaw (runPart m s p) := by
  unfold runPart
  split
  · exact foldl_law (fun s t k => by
      split
      · exact removeHolder_law _ _ k
      · exact k) _ h
  · exact foldl_law (fun s id k => by
      unfold leaveById
      split
      · exact k
      · exact leaveProposal_law _ _ k) _ h
  · exact (queueDeparture_same _ _ _).law h
  · exact (Same.foldl _ (fun s k => setSlot_same s k _) _ s).law h
  · unfold strobeDeparture
    split
    · exact (endBurst_same _ _ _).law h
    · exact h

theorem depart_law {s : State} (m : Master) (r : DepartReason) (h : AlignLaw s) : AlignLaw (depart s m r) := by
  have k := foldl_law (fun s p => runPart_law m p) (departureOrder s.partRank) h
  have flushed (u : State) (k : AlignLaw u) : AlignLaw (flushLink u m) :=
    (setMaster_same _ _ _).law ((setLink_same _ _ _).law k)
  have left (u : State) (k : AlignLaw u) : AlignLaw (monitorPart u m r) := by
    unfold monitorPart
    dsimp only
    refine (handAll_same _ _ _).law ?_
    split
    · exact (setMaster_same _ _ _).law k
    · exact (setLink_same _ _ _).law ((setMaster_same _ _ _).law k)
  exact left _ (flushed _ k)

theorem leaseExpires_law {s : State} (m : Master) (h : AlignLaw s) : AlignLaw (leaseExpires s m) := by
  unfold leaseExpires
  split
  · exact h
  · split
    · exact (handMarked_same _ _ _ _).law ((setMaster_same _ _ _).law ((reach_same _ _).law h))
    · exact depart_law _ _ ((reach_same _ _).law h)
    · exact h
    · exact h

theorem proposalLapses_law {s : State} (id : Nat) (h : AlignLaw s) : AlignLaw (proposalLapses s id) := by
  unfold proposalLapses
  split
  · exact h
  · exact (endProposal_same _ _ _).law ((reach_same _ _).law h)

/-! ### Owners of requests -/

theorem withOutput_law {s : State} {n : Nat} {act : Output → Reply} (h : AlignLaw s) (k : ∀ o, AlignLaw (act o).state) :
    AlignLaw (withOutput s n act).state := by
  unfold withOutput
  split
  · exact h
  · exact k _

theorem claimRequest_same (s : State) (m : Master) (f : Frame) : Same s (claimRequest s m f).state := by
  have byConsent (t : Target) (a : ClaimArgs) (g : State → State) (hg : ∀ u, Same u (g u)) :
      Same s (claimByConsent s m f.tag t a g).state := by
    unfold claimByConsent
    dsimp only
    split
    · exact (openProposal_same _ _ _ _ _).trans (hg _)
    · exact openProposal_same _ _ _ _ _
  unfold claimRequest claimFree claimShared claimExclusive
  repeat' split
  all_goals first
    | exact .refl s
    | exact byConsent _ _ _ fun u => setClaim_same _ _ _
    | exact setClaim_same _ _ _
    | exact (addRefOpt_same _ _).trans (setClaim_same _ _ _)
    | exact Same.trans (setClaim_same _ _ _) (setClaim_same _ _ _)

theorem setPolicy_same (s : State) (t : Target) (p : Policy) : Same s (setPolicy s t p) :=
  ((addRefOpt_same _ _).trans (dropRefOpt_same _ _)).trans (setClaim_same _ _ _)

theorem claimSetRequest_same (s : State) (m : Master) (f : Frame) : Same s (claimSetRequest s m f).state := by
  unfold claimSetRequest withOutput
  split
  · exact .refl s
  · dsimp only
    repeat' split
    all_goals first
      | exact .refl s
      | (rw [okay_state]; exact setPolicy_same _ _ _)

theorem releaseRequest_law {s : State} (m : Master) (f : Frame) (h : AlignLaw s) : AlignLaw (releaseRequest s m f).state := by
  unfold releaseRequest
  split
  · exact h
  · split
    · exact removeHolder_law _ _ h
    · exact h

theorem changeRequest_law {s : State} (m : Master) (f : Frame) (h : AlignLaw s) : AlignLaw (changeRequest s m f).state := by
  refine withOutput_law h fun o => ?_
  split
  · exact h
  · split
    · exact h
    · split
      · unfold changeSole
        split
        · exact (bind_still _ _ _).law h
        · exact (bind_still _ _ _).law h
        · exact (bind_still _ _ _).law h
        · exact h
        · split
          · exact h
          · exact (appendEntry_same _ _ _).law h
      · exact (openProposal_same _ _ _ _ _).law h

theorem stopRequest_law {s : State} (m : Master) (f : Frame) (h : AlignLaw s) : AlignLaw (stopRequest s m f).state := by
  refine withOutput_law h fun o => ?_
  split
  · exact h
  · split
    · unfold stopSole
      split
      · split
        · exact h
        · exact (appendEntry_same _ _ _).law h
      · rename_i hs; exact (returnToBound_still _ _ (by rw [hs]; nofun)).law h
      · exact h
      · exact h
      · exact h
    · exact (openProposal_same _ _ _ _ _).law h

theorem startRequest_law {s : State} (m : Master) (f : Frame) (h : AlignLaw s) : AlignLaw (startRequest s m f).state := by
  unfold startRequest
  split
  · exact h
  · refine withOutput_law h fun o => ?_
    split
    · exact h
    · split
      · exact (openProposal_same _ _ _ _ _).law h
      · split
        · rename_i hs; exact enterWaiting_law _ (by rw [hs]; nofun) h
        · exact h

/-- Outputs that are not in RUNNING go to WAITING. -/
theorem setWaiting_still : ∀ (os : List Output) (s : State), (∀ o ∈ os, (s.sq o).state ≠ .running) →
    Still s (setWaiting s os)
  | [], s, _ => .refl s
  | o :: os, s, h => by
    refine Still.trans (t := s.setSq o { s.sq o with state := .waiting })
      (setSq_still _ _ _ fun g => absurd g (h o (.head _))) (setWaiting_still os _ fun p hp => ?_)
    by_cases e : p = o
    · subst e; rw [State.sq_setSq_self]; nofun
    · rw [State.sq_setSq_ne _ _ e]; exact h p (.tail _ hp)

theorem handMoves_still (s : State) (moved starting : List Output) : Still s (handMoves s moved starting) := by
  refine .foldl _ (fun s o => ?_) allOutputs s
  dsimp only
  have h : Still s (if moved.contains o then outputNotice s o .bound else s) := by
    split
    · exact (outputNotice_same _ _ _).still
    · exact .refl s
  split
  · exact h.trans (startOne_still _ _)
  · exact h

theorem groupStartRequest_law {s : State} (m : Master) (f : Frame) (h : AlignLaw s) :
    AlignLaw (groupStartRequest s m f).state := by
  unfold groupStartRequest
  repeat' split
  all_goals first | exact h | skip
  dsimp only
  split
  · exact h
  · refine (handMoves_still _ _ _).law ((setWaiting_still _ _ fun o ho g => ?_).law h)
    simp [groupMovers, g] at ho

theorem cutRequest_law {s : State} (m : Master) (f : Frame) (h : AlignLaw s) : AlignLaw (cutRequest s m f).state := by
  refine withOutput_law h fun o => ?_
  dsimp only
  repeat' split
  all_goals first | exact h | exact (setSq_same _ _ _ (by rfl)).law ((dropCut_same _ _ _).law h)

theorem outputSetRequest_law {s : State} (m : Master) (f : Frame) (h : AlignLaw s) :
    AlignLaw (outputSetRequest s m f).state := by
  have set (r : OutRec) (g : GroupArg) (p : Option Polarity) : (r.applySet g p).state = r.state := by
    have a : (r.setGroup g).state = r.state := by cases g <;> rfl
    cases p with
    | none => exact a
    | some p =>
      refine Eq.trans ?_ a
      show ((r.setGroup g).setPolarity p).state = _
      unfold OutRec.setPolarity
      split
      · split <;> rfl
      · rfl
  refine withOutput_law h fun o => ?_
  dsimp only
  repeat' split
  all_goals first | exact h | exact (setSq_same _ _ _ (set _ _ _)).law h

theorem burstRequest_law {s : State} (m : Master) (f : Frame) (h : AlignLaw s) : AlignLaw (burstRequest s m f).state := by
  refine withOutput_law h fun o => ?_
  split
  · unfold burstTake
    repeat' split
    all_goals first | exact h | exact (setBurst_same _ _ _).law h
  · exact h

theorem burstEndRequest_law {s : State} (m : Master) (f : Frame) (h : AlignLaw s) :
    AlignLaw (burstEndRequest s m f).state := by
  refine withOutput_law h fun o => ?_
  repeat' split
  all_goals first | exact h | exact (finishBurst_same _ _ _ _).law h

theorem clockRequest_law {s : State} (m : Master) (f : Frame) (h : AlignLaw s) : AlignLaw (clockRequest s m f).state := by
  unfold clockRequest
  dsimp only
  repeat' split
  all_goals first
    | exact h
    | exact takeClock_law _ _ _ _
    | exact (openProposal_same _ _ _ _ _).law h

theorem sourceSetRequest_law {s : State} (m : Master) (f : Frame) (h : AlignLaw s) :
    AlignLaw (sourceSetRequest s m f).state := by
  have xo (e : XoEntry) : AlignLaw (setXoEntry s e) := by
    unfold setXoEntry
    dsimp only
    refine (settleXo_same _).law ?_
    split
    · exact (setContext_same _ _ _).law h
    · exact h
  unfold sourceSetRequest sourceSetXo sourceSetRef
  repeat' split
  all_goals first | exact h | exact xo _ | exact setRefEntry_law _ _ h

theorem selectLockRequest_law {s : State} (m : Master) (h : AlignLaw s) : AlignLaw (selectLockRequest s m).state := by
  unfold selectLockRequest
  repeat' split
  all_goals exact h

theorem voteRequest_law {s : State} (m : Master) (f : Frame) (h : AlignLaw s) : AlignLaw (voteRequest s m f).state := by
  unfold voteRequest
  repeat' split
  all_goals first
    | exact h
    | exact carryIfAgreed_law _ ((setProposals_same _ _).law h)
    | exact (endProposal_same _ _ _).law h

theorem withdrawRequest_law {s : State} (m : Master) (f : Frame) (h : AlignLaw s) :
    AlignLaw (withdrawRequest s m f).state := by
  unfold withdrawRequest
  repeat' split
  all_goals first | exact h | exact (endProposal_same _ _ _).law h

theorem standbyRequest_law {s : State} (m : Master) (f : Frame) (h : AlignLaw s) : AlignLaw (standbyRequest s m f).state := by
  unfold standbyRequest
  split
  · rw [okay_state]; exact enterStandby_law s
  · exact (openProposal_same _ _ _ _ _).law h

theorem wakeRequest_law {s : State} (h : AlignLaw s) : AlignLaw (wakeRequest s).state := by
  unfold wakeRequest
  split
  · refine (handMoves_still _ _ _).law ((setWaiting_still _ _ fun o ho g => ?_).law (startUpPath_law _ _ _ _))
    simp [g] at ho
  · exact h

theorem deviceResetRequest_law {s : State} (m : Master) (f : Frame) (h : AlignLaw s) :
    AlignLaw (deviceResetRequest s m f).state := by
  unfold deviceResetRequest
  split
  · exact h
  · exact (openProposal_same _ _ _ _ _).law h

end Sys2Proof.Laws
end

