-- ==== Sys2Proof/Laws/Notices.lean ====
section
/-! SUPPORT. Handing a notice changes links and master records only (R158). -/

namespace Sys2Proof.Machine.State

@[simp] theorem handMarked_pending (s : State) (m : Master) (c : Bool) (n : Notice) :
    (s.handMarked m c n).pending = s.pending := by
  unfold handMarked; split <;> [split; skip] <;> rfl

@[simp] theorem hand_pending (s : State) (m : Master) (n : Notice) : (s.hand m n).pending = s.pending := handMarked_pending s m false n

@[simp] theorem handAll_pending (s : State) (ms : List Master) (n : Notice) : (s.handAll ms n).pending = s.pending := by
  unfold handAll
  induction ms generalizing s with
  | nil => rfl
  | cons m ms ih => rw [List.foldl_cons, ih, hand_pending]

@[simp] theorem handMarked_freeCount (s : State) (m : Master) (c : Bool) (n : Notice) :
    (s.handMarked m c n).freeCount = s.freeCount := by
  unfold handMarked; split <;> [split; skip] <;> rfl

@[simp] theorem handMarked_synPhase (s : State) (m : Master) (c : Bool) (n : Notice) :
    (s.handMarked m c n).synPhase = s.synPhase := by
  unfold handMarked; split <;> [split; skip] <;> rfl

@[simp] theorem hand_freeCount (s : State) (m : Master) (n : Notice) : (s.hand m n).freeCount = s.freeCount := handMarked_freeCount s m false n

@[simp] theorem hand_synPhase (s : State) (m : Master) (n : Notice) : (s.hand m n).synPhase = s.synPhase := handMarked_synPhase s m false n

@[simp] theorem handAll_freeCount (s : State) (ms : List Master) (n : Notice) : (s.handAll ms n).freeCount = s.freeCount := by
  unfold handAll
  induction ms generalizing s with
  | nil => rfl
  | cons m ms ih => rw [List.foldl_cons, ih, hand_freeCount]

@[simp] theorem handAll_synPhase (s : State) (ms : List Master) (n : Notice) : (s.handAll ms n).synPhase = s.synPhase := by
  unfold handAll
  induction ms generalizing s with
  | nil => rfl
  | cons m ms ih => rw [List.foldl_cons, ih, hand_synPhase]

@[simp] theorem handMarked_partRank (s : State) (m : Master) (c : Bool) (n : Notice) :
    (s.handMarked m c n).partRank = s.partRank := by
  unfold handMarked; split <;> [split; skip] <;> rfl

@[simp] theorem hand_partRank (s : State) (m : Master) (n : Notice) : (s.hand m n).partRank = s.partRank := handMarked_partRank s m false n

@[simp] theorem handAll_partRank (s : State) (ms : List Master) (n : Notice) : (s.handAll ms n).partRank = s.partRank := by
  unfold handAll
  induction ms generalizing s with
  | nil => rfl
  | cons m ms ih => rw [List.foldl_cons, ih, hand_partRank]

@[simp] theorem handMarked_now (s : State) (m : Master) (c : Bool) (n : Notice) :
    (s.handMarked m c n).now = s.now := by
  unfold handMarked; split <;> [split; skip] <;> rfl

@[simp] theorem hand_now (s : State) (m : Master) (n : Notice) : (s.hand m n).now = s.now := handMarked_now s m false n

@[simp] theorem handAll_now (s : State) (ms : List Master) (n : Notice) : (s.handAll ms n).now = s.now := by
  unfold handAll
  induction ms generalizing s with
  | nil => rfl
  | cons m ms ih => rw [List.foldl_cons, ih, hand_now]

@[simp] theorem handMarked_resetLow (s : State) (m : Master) (c : Bool) (n : Notice) :
    (s.handMarked m c n).resetLow = s.resetLow := by
  unfold handMarked; split <;> [split; skip] <;> rfl

@[simp] theorem hand_resetLow (s : State) (m : Master) (n : Notice) : (s.hand m n).resetLow = s.resetLow := handMarked_resetLow s m false n

@[simp] theorem handAll_resetLow (s : State) (ms : List Master) (n : Notice) : (s.handAll ms n).resetLow = s.resetLow := by
  unfold handAll
  induction ms generalizing s with
  | nil => rfl
  | cons m ms ih => rw [List.foldl_cons, ih, hand_resetLow]

@[simp] theorem handMarked_resetTaken (s : State) (m : Master) (c : Bool) (n : Notice) :
    (s.handMarked m c n).resetTaken = s.resetTaken := by
  unfold handMarked; split <;> [split; skip] <;> rfl

@[simp] theorem hand_resetTaken (s : State) (m : Master) (n : Notice) : (s.hand m n).resetTaken = s.resetTaken := handMarked_resetTaken s m false n

@[simp] theorem handAll_resetTaken (s : State) (ms : List Master) (n : Notice) : (s.handAll ms n).resetTaken = s.resetTaken := by
  unfold handAll
  induction ms generalizing s with
  | nil => rfl
  | cons m ms ih => rw [List.foldl_cons, ih, hand_resetTaken]

@[simp] theorem handMarked_straps (s : State) (m : Master) (c : Bool) (n : Notice) :
    (s.handMarked m c n).straps = s.straps := by
  unfold handMarked; split <;> [split; skip] <;> rfl

@[simp] theorem hand_straps (s : State) (m : Master) (n : Notice) : (s.hand m n).straps = s.straps := handMarked_straps s m false n

@[simp] theorem handAll_straps (s : State) (ms : List Master) (n : Notice) : (s.handAll ms n).straps = s.straps := by
  unfold handAll
  induction ms generalizing s with
  | nil => rfl
  | cons m ms ih => rw [List.foldl_cons, ih, hand_straps]

@[simp] theorem handMarked_slots (s : State) (m : Master) (c : Bool) (n : Notice) :
    (s.handMarked m c n).slots = s.slots := by
  unfold handMarked; split <;> [split; skip] <;> rfl

@[simp] theorem hand_slots (s : State) (m : Master) (n : Notice) : (s.hand m n).slots = s.slots := handMarked_slots s m false n

@[simp] theorem handAll_slots (s : State) (ms : List Master) (n : Notice) : (s.handAll ms n).slots = s.slots := by
  unfold handAll
  induction ms generalizing s with
  | nil => rfl
  | cons m ms ih => rw [List.foldl_cons, ih, hand_slots]

@[simp] theorem handMarked_chans (s : State) (m : Master) (c : Bool) (n : Notice) :
    (s.handMarked m c n).chans = s.chans := by
  unfold handMarked; split <;> [split; skip] <;> rfl

@[simp] theorem hand_chans (s : State) (m : Master) (n : Notice) : (s.hand m n).chans = s.chans := handMarked_chans s m false n

@[simp] theorem handAll_chans (s : State) (ms : List Master) (n : Notice) : (s.handAll ms n).chans = s.chans := by
  unfold handAll
  induction ms generalizing s with
  | nil => rfl
  | cons m ms ih => rw [List.foldl_cons, ih, hand_chans]

@[simp] theorem handMarked_outClaims (s : State) (m : Master) (c : Bool) (n : Notice) :
    (s.handMarked m c n).outClaims = s.outClaims := by
  unfold handMarked; split <;> [split; skip] <;> rfl

@[simp] theorem hand_outClaims (s : State) (m : Master) (n : Notice) : (s.hand m n).outClaims = s.outClaims := handMarked_outClaims s m false n

@[simp] theorem handAll_outClaims (s : State) (ms : List Master) (n : Notice) : (s.handAll ms n).outClaims = s.outClaims := by
  unfold handAll
  induction ms generalizing s with
  | nil => rfl
  | cons m ms ih => rw [List.foldl_cons, ih, hand_outClaims]

@[simp] theorem handMarked_tbClaim (s : State) (m : Master) (c : Bool) (n : Notice) :
    (s.handMarked m c n).tbClaim = s.tbClaim := by
  unfold handMarked; split <;> [split; skip] <;> rfl

@[simp] theorem hand_tbClaim (s : State) (m : Master) (n : Notice) : (s.hand m n).tbClaim = s.tbClaim := handMarked_tbClaim s m false n

@[simp] theorem handAll_tbClaim (s : State) (ms : List Master) (n : Notice) : (s.handAll ms n).tbClaim = s.tbClaim := by
  unfold handAll
  induction ms generalizing s with
  | nil => rfl
  | cons m ms ih => rw [List.foldl_cons, ih, hand_tbClaim]

@[simp] theorem handMarked_consent (s : State) (m : Master) (c : Bool) (n : Notice) :
    (s.handMarked m c n).consent = s.consent := by
  unfold handMarked; split <;> [split; skip] <;> rfl

@[simp] theorem hand_consent (s : State) (m : Master) (n : Notice) : (s.hand m n).consent = s.consent := handMarked_consent s m false n

@[simp] theorem handAll_consent (s : State) (ms : List Master) (n : Notice) : (s.handAll ms n).consent = s.consent := by
  unfold handAll
  induction ms generalizing s with
  | nil => rfl
  | cons m ms ih => rw [List.foldl_cons, ih, hand_consent]

@[simp] theorem handMarked_tbu (s : State) (m : Master) (c : Bool) (n : Notice) :
    (s.handMarked m c n).tbu = s.tbu := by
  unfold handMarked; split <;> [split; skip] <;> rfl

@[simp] theorem hand_tbu (s : State) (m : Master) (n : Notice) : (s.hand m n).tbu = s.tbu := handMarked_tbu s m false n

@[simp] theorem handAll_tbu (s : State) (ms : List Master) (n : Notice) : (s.handAll ms n).tbu = s.tbu := by
  unfold handAll
  induction ms generalizing s with
  | nil => rfl
  | cons m ms ih => rw [List.foldl_cons, ih, hand_tbu]

@[simp] theorem handMarked_table (s : State) (m : Master) (c : Bool) (n : Notice) :
    (s.handMarked m c n).table = s.table := by
  unfold handMarked; split <;> [split; skip] <;> rfl

@[simp] theorem hand_table (s : State) (m : Master) (n : Notice) : (s.hand m n).table = s.table := handMarked_table s m false n

@[simp] theorem handAll_table (s : State) (ms : List Master) (n : Notice) : (s.handAll ms n).table = s.table := by
  unfold handAll
  induction ms generalizing s with
  | nil => rfl
  | cons m ms ih => rw [List.foldl_cons, ih, hand_table]

@[simp] theorem handMarked_da (s : State) (m : Master) (c : Bool) (n : Notice) :
    (s.handMarked m c n).da = s.da := by
  unfold handMarked; split <;> [split; skip] <;> rfl

@[simp] theorem hand_da (s : State) (m : Master) (n : Notice) : (s.hand m n).da = s.da := handMarked_da s m false n

@[simp] theorem handAll_da (s : State) (ms : List Master) (n : Notice) : (s.handAll ms n).da = s.da := by
  unfold handAll
  induction ms generalizing s with
  | nil => rfl
  | cons m ms ih => rw [List.foldl_cons, ih, hand_da]

@[simp] theorem handMarked_db (s : State) (m : Master) (c : Bool) (n : Notice) :
    (s.handMarked m c n).db = s.db := by
  unfold handMarked; split <;> [split; skip] <;> rfl

@[simp] theorem hand_db (s : State) (m : Master) (n : Notice) : (s.hand m n).db = s.db := handMarked_db s m false n

@[simp] theorem handAll_db (s : State) (ms : List Master) (n : Notice) : (s.handAll ms n).db = s.db := by
  unfold handAll
  induction ms generalizing s with
  | nil => rfl
  | cons m ms ih => rw [List.foldl_cons, ih, hand_db]

@[simp] theorem slot_handMarked (s : State) (m : Master) (c : Bool) (n : Notice) (j : Slot) : (s.handMarked m c n).slot j = s.slot j := by
  simp only [slot, handMarked_slots]

@[simp] theorem slot_hand (s : State) (m : Master) (n : Notice) (j : Slot) : (s.hand m n).slot j = s.slot j := by
  simp only [slot, hand_slots]

@[simp] theorem slot_handAll (s : State) (ms : List Master) (n : Notice) (j : Slot) : (s.handAll ms n).slot j = s.slot j := by
  simp only [slot, handAll_slots]

@[simp] theorem chan_handMarked (s : State) (m : Master) (c : Bool) (n : Notice) (j : Output) : (s.handMarked m c n).chan j = s.chan j := by
  simp only [chan, handMarked_chans]

@[simp] theorem chan_hand (s : State) (m : Master) (n : Notice) (j : Output) : (s.hand m n).chan j = s.chan j := by
  simp only [chan, hand_chans]

@[simp] theorem chan_handAll (s : State) (ms : List Master) (n : Notice) (j : Output) : (s.handAll ms n).chan j = s.chan j := by
  simp only [chan, handAll_chans]

@[simp] theorem sq_handMarked (s : State) (m : Master) (c : Bool) (n : Notice) (j : Output) : (s.handMarked m c n).sq j = s.sq j := by
  simp only [sq, chan, handMarked_chans]

@[simp] theorem sq_hand (s : State) (m : Master) (n : Notice) (j : Output) : (s.hand m n).sq j = s.sq j := by
  simp only [sq, chan, hand_chans]

@[simp] theorem sq_handAll (s : State) (ms : List Master) (n : Notice) (j : Output) : (s.handAll ms n).sq j = s.sq j := by
  simp only [sq, chan, handAll_chans]

@[simp] theorem queue_handMarked (s : State) (m : Master) (c : Bool) (n : Notice) (j : Output) : (s.handMarked m c n).queue j = s.queue j := by
  simp only [queue, chan, handMarked_chans]

@[simp] theorem queue_hand (s : State) (m : Master) (n : Notice) (j : Output) : (s.hand m n).queue j = s.queue j := by
  simp only [queue, chan, hand_chans]

@[simp] theorem queue_handAll (s : State) (ms : List Master) (n : Notice) (j : Output) : (s.handAll ms n).queue j = s.queue j := by
  simp only [queue, chan, handAll_chans]

@[simp] theorem burst_handMarked (s : State) (m : Master) (c : Bool) (n : Notice) (j : Output) : (s.handMarked m c n).burst j = s.burst j := by
  simp only [burst, chan, handMarked_chans]

@[simp] theorem burst_hand (s : State) (m : Master) (n : Notice) (j : Output) : (s.hand m n).burst j = s.burst j := by
  simp only [burst, chan, hand_chans]

@[simp] theorem burst_handAll (s : State) (ms : List Master) (n : Notice) (j : Output) : (s.handAll ms n).burst j = s.burst j := by
  simp only [burst, chan, handAll_chans]

@[simp] theorem claim_handMarked (s : State) (m : Master) (c : Bool) (n : Notice) (t : Target) : (s.handMarked m c n).claim t = s.claim t := by
  cases t <;> simp only [claim, handMarked_outClaims, handMarked_tbClaim]

@[simp] theorem det_handMarked (s : State) (m : Master) (c : Bool) (n : Notice) (d : Detector) : (s.handMarked m c n).det d = s.det d := by
  cases d <;> simp only [det, handMarked_da, handMarked_db]

@[simp] theorem claim_hand (s : State) (m : Master) (n : Notice) (t : Target) : (s.hand m n).claim t = s.claim t := by
  cases t <;> simp only [claim, hand_outClaims, hand_tbClaim]

@[simp] theorem det_hand (s : State) (m : Master) (n : Notice) (d : Detector) : (s.hand m n).det d = s.det d := by
  cases d <;> simp only [det, hand_da, hand_db]

@[simp] theorem claim_handAll (s : State) (ms : List Master) (n : Notice) (t : Target) : (s.handAll ms n).claim t = s.claim t := by
  cases t <;> simp only [claim, handAll_outClaims, handAll_tbClaim]

@[simp] theorem det_handAll (s : State) (ms : List Master) (n : Notice) (d : Detector) : (s.handAll ms n).det d = s.det d := by
  cases d <;> simp only [det, handAll_da, handAll_db]

/-- A master's lease record is not touched but for the dropped flag. -/
@[simp] theorem state_handMarked (s : State) (m : Master) (c : Bool) (n : Notice) (j : Master) :
    ((s.handMarked m c n).master j).state = (s.master j).state := by
  unfold handMarked
  split
  · split
    · rfl
    · by_cases e : j = m
      · subst e; rw [master_setMaster_self]
      · rw [master_setMaster_ne _ _ e]
  · rfl

@[simp] theorem joined_handMarked (s : State) (m : Master) (c : Bool) (n : Notice) (j : Master) :
    (s.handMarked m c n).joined j = s.joined j := by
  simp only [joined, MasterRec.isJoined, state_handMarked]

@[simp] theorem joined_hand (s : State) (m : Master) (n : Notice) (j : Master) : (s.hand m n).joined j = s.joined j :=
  joined_handMarked s m false n j

/-- A notice to another master leaves a link as it is. -/
theorem link_hand_ne (s : State) {m j : Master} (n : Notice) (h : j ≠ m) : (s.hand m n).link j = s.link j := by
  unfold hand handMarked
  split
  · split
    · rw [link_setLink_ne _ _ h]
    · rfl
  · rfl

/-- A notice to a master that is not joined is discarded (R158). -/
theorem hand_of_not_joined (s : State) {m : Master} (n : Notice) (h : s.joined m = false) : s.hand m n = s := by
  unfold hand handMarked; rw [h]; rfl

/-- A notice to a joined master with room in its queue joins it (R158). -/
theorem hand_of_room (s : State) {m : Master} (n : Notice) (h : s.joined m = true)
    (hq : (s.link m).queue.length < 16) :
    s.hand m n = s.setLink m { s.link m with queue := (s.link m).queue ++ [⟨n, false⟩] } := by
  unfold hand handMarked noticeLimit; rw [if_pos h, if_pos hq]

/-- A notice to a joined master whose queue holds 16 is dropped, and its dropped flag set (R158). -/
theorem hand_of_full (s : State) {m : Master} (n : Notice) (h : s.joined m = true)
    (hq : 16 ≤ (s.link m).queue.length) :
    s.hand m n = s.setMaster m { s.master m with dropped := true } := by
  unfold hand handMarked noticeLimit; rw [if_pos h, if_neg (Nat.not_lt.mpr hq)]

@[simp] theorem handAll_nil (s : State) (n : Notice) : s.handAll [] n = s := rfl

@[simp] theorem handAll_cons (s : State) (m : Master) (ms : List Master) (n : Notice) :
    s.handAll (m :: ms) n = (s.hand m n).handAll ms n := rfl

end Sys2Proof.Machine.State
end

