-- ==== Sys2Proof/Laws/Effects.lean ====
section
/-! SUPPORT. What the shared operations leave as it was: notices touch notice queues and dropped flags only, marks touch
output records only, the XO and the synthesizer touch the Timebase Unit and the gates only; and where no output waits,
nothing starts. -/

namespace Sys2Proof.Laws

open Machine

/-! ### Only notices -/

theorem OnlyNotices.refl (s : State) : OnlyNotices s s := ⟨fun _ => rfl, fun _ => rfl⟩

theorem OnlyNotices.trans {s t u : State} (h : OnlyNotices s t) (g : OnlyNotices t u) : OnlyNotices s u :=
  ⟨fun m => by rw [g.1 m, h.1 m], fun m => by rw [g.2 m, h.2 m]⟩

/-- States with the same links and master records. -/
theorem OnlyNotices.of_eq {s t : State} (hl : t.links = s.links) (hm : t.masters = s.masters) : OnlyNotices s t :=
  ⟨fun m => by simp only [State.link, hl], fun m => by simp only [State.master, hm]⟩

theorem onlyNotices_handMarked (s : State) (m : Master) (c : Bool) (n : Notice) : OnlyNotices s (s.handMarked m c n) := by
  unfold State.handMarked
  split
  · split
    · refine ⟨fun j => ?_, fun j => rfl⟩
      by_cases e : j = m
      · subst e; rw [State.link_setLink_self]
      · rw [State.link_setLink_ne _ _ e]
    · refine ⟨fun j => rfl, fun j => ?_⟩
      by_cases e : j = m
      · subst e; rw [State.master_setMaster_self]
      · rw [State.master_setMaster_ne _ _ e]
  · exact OnlyNotices.refl s

theorem onlyNotices_handAll (s : State) (ms : List Master) (n : Notice) : OnlyNotices s (s.handAll ms n) := by
  induction ms generalizing s with
  | nil => exact OnlyNotices.refl s
  | cons m ms ih => exact OnlyNotices.trans (onlyNotices_handMarked s m false n) (ih _)

/-- A notice changes no field but links and master records. -/
theorem handMarked_eq (s : State) (m : Master) (c : Bool) (n : Notice) :
    s.handMarked m c n = { s with links := (s.handMarked m c n).links, masters := (s.handMarked m c n).masters } := by
  unfold State.handMarked
  split
  · split <;> rfl
  · rfl

theorem handAll_eq (s : State) (ms : List Master) (n : Notice) :
    s.handAll ms n = { s with links := (s.handAll ms n).links, masters := (s.handAll ms n).masters } := by
  induction ms generalizing s with
  | nil => rfl
  | cons m ms ih =>
    have h : s.hand m n = { s with links := (s.hand m n).links, masters := (s.hand m n).masters } :=
      handMarked_eq s m false n
    rw [State.handAll_cons, ih (s.hand m n)]
    exact congrArg (fun u : State => { u with links := ((s.hand m n).handAll ms n).links,
                                              masters := ((s.hand m n).handAll ms n).masters }) h

/-- Notices look at links and master records only. -/
theorem handMarked_congr {s t : State} (hl : t.links = s.links) (hm : t.masters = s.masters) (m : Master) (c : Bool)
    (n : Notice) : (t.handMarked m c n).links = (s.handMarked m c n).links
      ∧ (t.handMarked m c n).masters = (s.handMarked m c n).masters := by
  have hj : t.joined m = s.joined m := by simp only [State.joined, State.master, hm]
  have hk : t.link m = s.link m := by simp only [State.link, hl]
  have hr : t.master m = s.master m := by simp only [State.master, hm]
  simp only [State.handMarked, hj, hk, hr]
  split_ifs
  · exact ⟨by simp only [State.setLink, hl], hm⟩
  · exact ⟨hl, by simp only [State.setMaster, hm]⟩
  · exact ⟨hl, hm⟩

theorem handAll_congr {s t : State} (hl : t.links = s.links) (hm : t.masters = s.masters) (ms : List Master)
    (n : Notice) : (t.handAll ms n).links = (s.handAll ms n).links
      ∧ (t.handAll ms n).masters = (s.handAll ms n).masters := by
  induction ms generalizing s t with
  | nil => exact ⟨hl, hm⟩
  | cons m ms ih =>
    have h := handMarked_congr hl hm m false n
    exact ih h.1 h.2

/-- A change outside links and master records may be made before or after the notices. -/
theorem handAll_setSq (s : State) (o : Output) (r : OutRec) (ms : List Master) (n : Notice) :
    (s.setSq o r).handAll ms n = (s.handAll ms n).setSq o r := by
  have h := handAll_congr (s := s) (t := s.setSq o r) rfl rfl ms n
  rw [handAll_eq (s.setSq o r), handAll_eq s, h.1, h.2]
  rfl

theorem handAll_setQueue (s : State) (o : Output) (q : List Entry) (ms : List Master) (n : Notice) :
    (s.setQueue o q).handAll ms n = (s.handAll ms n).setQueue o q := by
  have h := handAll_congr (s := s) (t := s.setQueue o q) rfl rfl ms n
  rw [handAll_eq (s.setQueue o q), handAll_eq s, h.1, h.2]
  rfl

theorem handAll_setSlot (s : State) (k : Slot) (r : SlotRec) (ms : List Master) (n : Notice) :
    (s.setSlot k r).handAll ms n = (s.handAll ms n).setSlot k r := by
  have h := handAll_congr (s := s) (t := s.setSlot k r) rfl rfl ms n
  rw [handAll_eq (s.setSlot k r), handAll_eq s, h.1, h.2]
  rfl

/-! ### Setting a record as it was -/

theorem setChan_self (s : State) (o : Output) : s.setChan o (s.chan o) = s := by
  simp [State.setChan, State.chan]

theorem setSq_self (s : State) (o : Output) : s.setSq o (s.sq o) = s := setChan_self s o

theorem setQueue_self (s : State) (o : Output) : s.setQueue o (s.queue o) = s := setChan_self s o

theorem setSlot_self (s : State) (k : Slot) : s.setSlot k (s.slot k) = s := by
  simp [State.setSlot, State.slot]

/-- The record and the queue of an output are set in either order. -/
theorem setSq_setQueue (s : State) (o : Output) (r : OutRec) (q : List Entry) :
    (s.setSq o r).setQueue o q = (s.setQueue o q).setSq o r := by
  simp [State.setSq, State.setQueue]

/-! ### Marks on every output -/

/-- A change of output records leaves every other field, and every queue and burst, as it was. -/
theorem mapSq_fold_eq (f : State → Output → OutRec) (l : List Output) (s : State) :
    l.foldl (fun s o => s.setSq o (f s o)) s
      = { s with chans := (l.foldl (fun s o => s.setSq o (f s o)) s).chans } := by
  induction l generalizing s with
  | nil => rfl
  | cons o l ih => rw [List.foldl_cons, ih]; rfl

theorem mapSq_eq (s : State) (f : State → Output → OutRec) : s.mapSq f = { s with chans := (s.mapSq f).chans } :=
  mapSq_fold_eq f allOutputs s

theorem mapSq_fold_chan (f : State → Output → OutRec) (o : Output) (l : List Output) (s : State) (hn : l.Nodup)
    (hf : ∀ t : State, t.chan o = s.chan o → t = { s with chans := t.chans } → f t o = f s o) :
    (l.foldl (fun s o => s.setSq o (f s o)) s).chan o
      = if o ∈ l then { s.chan o with sq := f s o } else s.chan o := by
  induction l generalizing s with
  | nil => rfl
  | cons p l ih =>
    rw [List.foldl_cons]
    have hn' := List.nodup_cons.mp hn
    by_cases e : o = p
    · subst e
      have h := mapSq_fold_other f o l (s.setSq o (f s o)) hn'.1
      rw [h, if_pos List.mem_cons_self]
      simp [State.setSq]
    · have hc : (s.setSq p (f s p)).chan o = s.chan o := by simp [State.setSq, e]
      have h2 : f (s.setSq p (f s p)) o = f s o := hf _ hc rfl
      rw [ih (s.setSq p (f s p)) hn'.2 (fun t ht he => by
        rw [h2]; exact hf t (ht.trans hc) (by rw [he]; rfl)), hc, h2]
      simp [e]
where
  mapSq_fold_other (f : State → Output → OutRec) (o : Output) (l : List Output) (s : State) (h : o ∉ l) :
      (l.foldl (fun s o => s.setSq o (f s o)) s).chan o = s.chan o := by
    induction l generalizing s with
    | nil => rfl
    | cons p l ih =>
      have h' := not_or.mp (fun g => h (List.mem_cons.mpr g))
      rw [List.foldl_cons, ih _ h'.2]
      simp [State.setSq, h'.1]

/-- The channel of an output after every record is changed, where the change of its own record looks at nothing that
the others' change: its record is the changed one, its queue and burst stand. -/
theorem chan_mapSq (s : State) (f : State → Output → OutRec) (o : Output)
    (hf : ∀ t : State, t.chan o = s.chan o → t = { s with chans := t.chans } → f t o = f s o) :
    (s.mapSq f).chan o = { s.chan o with sq := f s o } := by
  have h := mapSq_fold_chan f o allOutputs s (by decide) hf
  rw [if_pos (by fin_cases o <;> decide)] at h
  exact h

/-! ### The XO and the synthesizer -/

theorem settleXo_eq (s : State) : settleXo s
    = { s with tbu := { s.tbu with xo := (settleXo s).tbu.xo }, da := (settleXo s).da, db := (settleXo s).db } := by
  unfold settleXo
  split
  · split <;> rfl
  · rfl

/-- Settling the clocks touches the XO, the synthesizer and the gates only (R101, R107, R122). -/
theorem settleClocks_eq (s : State) : settleClocks s
    = { s with tbu := { s.tbu with xo := (settleClocks s).tbu.xo, synth := (settleClocks s).tbu.synth }
               da := (settleClocks s).da, db := (settleClocks s).db } := by
  unfold settleClocks
  split
  · rw [settleXo_eq s]
  · rw [settleXo_eq]; rfl

/-! ### Where no output waits -/

theorem startSet_of_none_waiting {s : State} (h : ∀ o, (s.sq o).state ≠ .waiting) (moment : List Output) :
    s.startSet moment = [] := by
  refine List.filter_eq_nil_iff.mpr fun o _ => ?_
  simp [State.mayStart, h o]

theorem startSet_of_no_timebase {s : State} (h : s.tbu.state.current = none) (moment : List Output) :
    s.startSet moment = [] := by
  refine List.filter_eq_nil_iff.mpr fun o _ => ?_
  simp [State.mayStart, TbuState.hasTimebase, h]

/-- Where no output may start, examining the waiting ones changes nothing. -/
theorem examine_of_none {s : State} {moment : List Output} (h : s.startSet moment = []) : examine s moment = s := by
  unfold examine
  simp only [h, startAll, List.foldl_nil]
  split
  · split
    · simp
    · rfl
  · rfl

theorem examine_of_none_waiting {s : State} (h : ∀ o, (s.sq o).state ≠ .waiting) (moment : List Output) :
    examine s moment = s := examine_of_none (startSet_of_none_waiting h moment)

theorem emittedStart_of_undisturbed {s : State} (h : Undisturbed s) (o : Output) : emittedStart s o = s := by
  unfold emittedStart
  split
  · rename_i e; exact absurd e (h.2 _ _ _)
  · exact examine_of_none_waiting h.1 _

theorem leftRunning_of_undisturbed {s : State} (h : Undisturbed s) (o : Output) : leftRunning s o = s := by
  unfold leftRunning
  split
  · rename_i e; exact absurd e (h.2 _ _ _)
  · exact examine_of_none_waiting h.1 _

/-- The Strobe Unit does nothing at the line start of an output without a burst. -/
theorem strobeLine_of_none {s : State} {o : Output} (h : s.burst o = none) : strobeLine s o = s := by
  simp only [strobeLine, h]

theorem strobeSwap_of_none {s : State} {o : Output} (h : s.burst o = none) : strobeSwap s o = s := by
  simp only [strobeSwap, h]

end Sys2Proof.Laws
end

