-- ==== Sys2Proof/Laws/Books.lean ====
section
/-! SUPPORT. The books of a state: what the laws of the records speak of (references, taken entries, claims, rounds).
Most operations leave the books as they are, and each of those has one lemma here that says so. -/

namespace Sys2Proof.Laws

open Machine

/-- What the laws of the records see of one output. -/
structure View where
  current : Option Slot
  next : Option Slot
  queue : List Entry
  cut : Option Slot
  stopping : Bool

/-- What the laws of the records see of a state. -/
structure Books where
  slot : Slot → SlotRec
  view : Output → View
  claim : Target → ClaimRec
  proposals : List Proposal
  joined : Master → Bool

def viewOf (r : OutRec) (q : List Entry) : View :=
  ⟨r.current, r.next, q, r.cut.map PendingCut.slot, r.state == .stopping⟩

def books (s : State) : Books :=
  ⟨s.slot, fun o => viewOf (s.sq o) (s.queue o), s.claim, s.consent.proposals, s.joined⟩

/-- States with the same fields in the books. -/
theorem books_of_eq {s t : State} (hs : t.slots = s.slots) (hc : t.chans = s.chans) (ho : t.outClaims = s.outClaims)
    (ht : t.tbClaim = s.tbClaim) (hp : t.consent = s.consent) (hm : t.masters = s.masters) : books t = books s := by
  have e1 : t.slot = s.slot := funext fun k => by simp only [State.slot, hs]
  have e2 : t.chan = s.chan := funext fun o => by simp only [State.chan, hc]
  have e3 : t.claim = s.claim := funext fun g => by cases g <;> simp only [State.claim, ho, ht]
  have e4 : t.joined = s.joined := funext fun m => by simp only [State.joined, State.master, hm]
  simp only [books, State.sq, State.queue, e1, e2, e3, e4, hp]

/-! ### Single records -/

@[simp] theorem books_setTbu (s : State) (t : Tbu) : books (s.setTbu t) = books s := rfl
@[simp] theorem books_setLink (s : State) (m : Master) (l : Link) : books (s.setLink m l) = books s := rfl
@[simp] theorem books_reach (s : State) (t : Nat) : books (s.reach t) = books s := rfl
@[simp] theorem books_setDet (s : State) (d : Detector) (r : DetRec) : books (s.setDet d r) = books s := by
  cases d <;> rfl

@[simp] theorem books_setBurst (s : State) (o : Output) (b : Option Burst) : books (s.setBurst o b) = books s := by
  have e (p : Output) : viewOf ((s.setBurst o b).sq p) ((s.setBurst o b).queue p) = viewOf (s.sq p) (s.queue p) := by
    rw [State.sq_setBurst, State.queue_setBurst]
  simp only [books, e]; rfl

/-- An output record changes in fields that the books do not hold. -/
theorem books_setSq (s : State) (o : Output) (r : OutRec)
    (h : viewOf r (s.queue o) = viewOf (s.sq o) (s.queue o)) : books (s.setSq o r) = books s := by
  have e (p : Output) : viewOf ((s.setSq o r).sq p) ((s.setSq o r).queue p) = viewOf (s.sq p) (s.queue p) := by
    by_cases hp : p = o
    · subst hp; rw [State.sq_setSq_self, State.queue_setSq]; exact h
    · rw [State.sq_setSq_ne _ _ hp, State.queue_setSq]
  simp only [books, e]; rfl

/-- A master's record changes, and it is joined as before. -/
theorem books_setMaster (s : State) (m : Master) (r : MasterRec) (h : r.isJoined = s.joined m) :
    books (s.setMaster m r) = books s := by
  have e : (s.setMaster m r).joined = s.joined := funext fun j => by
    by_cases hj : j = m
    · subst hj; rw [State.joined, State.master_setMaster_self, h]
    · rw [State.joined, State.master_setMaster_ne _ _ hj]; rfl
  simp only [books, e]; rfl

/-! ### Notices -/

@[simp] theorem books_handMarked (s : State) (m : Master) (c : Bool) (n : Notice) :
    books (s.handMarked m c n) = books s := by
  unfold State.handMarked
  split
  · split
    · rfl
    · exact books_setMaster _ _ _ rfl
  · rfl

@[simp] theorem books_hand (s : State) (m : Master) (n : Notice) : books (s.hand m n) = books s :=
  books_handMarked s m false n

/-- A fold of operations that leave the books. -/
theorem books_foldl {α : Type} (f : State → α → State) (h : ∀ s a, books (f s a) = books s) (l : List α) (s : State) :
    books (l.foldl f s) = books s := by
  induction l generalizing s with
  | nil => rfl
  | cons a l ih => exact (ih (f s a)).trans (h s a)

@[simp] theorem books_handAll (s : State) (ms : List Master) (n : Notice) : books (s.handAll ms n) = books s :=
  books_foldl _ (fun s m => books_hand s m n) ms s

@[simp] theorem books_outputNotice (s : State) (o : Output) (prev : OutState) :
    books (outputNotice s o prev) = books s := books_handAll _ _ _

@[simp] theorem books_changeDone (s : State) (o : Output) (k : DoneKind) (w : Option (Master × Byte)) (p : Option Nat)
    (c : ChangeOutcome) : books (changeDone s o k w p c) = books s := books_handAll _ _ _

@[simp] theorem books_switchNotice (s : State) (sw : Switch) (e : ClockEvent) : books (switchNotice s sw e) = books s :=
  books_handAll _ _ _

@[simp] theorem books_failNotice (s : State) (e : ClockEvent) : books (failNotice s e) = books s := books_handAll _ _ _

@[simp] theorem books_endNotice (s : State) (sw : Option Switch) (e : Switch → ClockEvent) :
    books (endNotice s sw e) = books s := by
  cases sw with
  | none => rfl
  | some sw => exact books_switchNotice _ _ _

@[simp] theorem books_proposalEnd (s : State) (p : Proposal) (c : RoundOutcome) (b : Bool) :
    books (proposalEnd s p c b) = books s := books_foldl _ (fun s m => books_handMarked s m b _) _ s

/-! ### The output channel -/

/-- Neither state is STOPPING. -/
theorem books_setOutState (s : State) (o : Output) (st : OutState) (h : (s.sq o).state ≠ .stopping)
    (g : st ≠ .stopping) : books (setOutState s o st) = books s := by
  refine (books_outputNotice _ _ _).trans (books_setSq _ _ _ ?_)
  simp [viewOf, h, g]

@[simp] theorem books_completeFrame (s : State) (o : Output) (cut : Bool) : books (completeFrame s o cut) = books s := by
  unfold completeFrame
  split
  · exact (books_handAll _ _ _).trans (books_setSq _ _ _ rfl)
  · rfl

theorem books_returnToBound (s : State) (o : Output) (h : (s.sq o).state ≠ .stopping) :
    books (returnToBound s o) = books s := by
  refine (books_setOutState _ o .bound ?_ nofun).trans (books_setSq s o { s.sq o with wakeStart := false } rfl)
  rwa [State.sq_setSq_self]

/-- Marks on every output. -/
theorem books_mapSq (s : State) (f : State → Output → OutRec)
    (h : ∀ t o, viewOf (f t o) (t.queue o) = viewOf (t.sq o) (t.queue o)) : books (s.mapSq f) = books s :=
  books_foldl _ (fun t o => books_setSq t o (f t o) (h t o)) _ s

theorem viewOf_mark (r : OutRec) (f : FrameStatus → FrameStatus) (q : List Entry) :
    viewOf (r.mark f) q = viewOf r q := by
  unfold OutRec.mark; split <;> rfl

theorem viewOf_completion (r : OutRec) (spare : Bool) (q : List Entry) :
    viewOf (r.completion spare) q = viewOf r q := by
  unfold OutRec.completion
  split
  · split
    · exact viewOf_mark _ _ _
    · split
      · rfl
      · exact viewOf_mark _ _ _
  · rfl

theorem viewOf_freeze (r : OutRec) (p : Pins) (q : List Entry) : viewOf (r.freeze p) q = viewOf r q := by
  unfold OutRec.freeze; split <;> rfl

@[simp] theorem books_unsettleFrame (s : State) (o : Output) : books (unsettleFrame s o) = books s :=
  books_setSq _ _ _ (viewOf_mark _ _ _)

/-! ### Bursts -/

@[simp] theorem books_finishBurst (s : State) (o : Output) (b : Burst) (c : BurstOutcome) :
    books (finishBurst s o b c) = books s := (books_handAll _ _ _).trans (books_setBurst _ _ _)

@[simp] theorem books_endBurst (s : State) (o : Output) (c : BurstOutcome) : books (endBurst s o c) = books s := by
  unfold endBurst; split <;> simp

@[simp] theorem books_strobeLine (s : State) (o : Output) : books (strobeLine s o) = books s := by
  unfold strobeLine
  split
  · rfl
  · split <;> simp

@[simp] theorem books_strobeSwap (s : State) (o : Output) : books (strobeSwap s o) = books s := by
  unfold strobeSwap
  split
  · rfl
  · split <;> simp

@[simp] theorem books_strobeDeparture (s : State) (o : Output) (m : Master) :
    books (strobeDeparture s o m) = books s := by
  unfold strobeDeparture; split <;> simp

/-! ### Starts of waiting outputs -/

/-- An output that is not STOPPING starts. -/
theorem books_startOne (s : State) (o : Output) (h : (s.sq o).state ≠ .stopping) : books (startOne s o) = books s := by
  refine (books_outputNotice _ _ _).trans ((books_strobeLine _ _).trans (books_setSq _ _ _ ?_))
  simp [viewOf, OutRec.beginRun, OutRec.applyPolarity, h]

theorem stopping_of_books {s t : State} (h : books t = books s) (o : Output) :
    (t.sq o).state = .stopping ↔ (s.sq o).state = .stopping := by
  have e := congrArg (fun b => (b.view o).stopping) h
  simpa [books, viewOf] using congrArg (· = true) e

theorem books_startAll (os : List Output) (s : State) (h : ∀ o ∈ os, (s.sq o).state ≠ .stopping) :
    books (startAll s os) = books s := by
  induction os generalizing s with
  | nil => rfl
  | cons o os ih =>
    have e := books_startOne s o (h o List.mem_cons_self)
    refine (ih (startOne s o) fun p hp hs => ?_).trans e
    exact h p (List.mem_cons_of_mem _ hp) ((stopping_of_books e p).mp hs)

theorem waiting_of_startSet {s : State} {moment : List Output} {o : Output} (h : o ∈ s.startSet moment) :
    (s.sq o).state = .waiting := by
  have h := (List.mem_filter.mp h).2
  simp only [State.mayStart, Bool.and_eq_true, beq_iff_eq] at h
  exact h.1.1

@[simp] theorem books_startSet (s : State) (moment : List Output) : books (startAll s (s.startSet moment)) = books s :=
  books_startAll _ _ fun o h => by rw [waiting_of_startSet h]; exact nofun

/-! ### The Timebase Unit -/

@[simp] theorem books_settleXo (s : State) : books (settleXo s) = books s := by
  unfold settleXo
  split
  · split <;> simp
  · rfl

@[simp] theorem books_settleClocks (s : State) : books (settleClocks s) = books s := by
  unfold settleClocks; split <;> simp

@[simp] theorem books_abandonLock (s : State) : books (abandonLock s) = books s := by
  unfold abandonLock; split <;> simp

@[simp] theorem books_setContext (s : State) (src : Source) (v : Option Settings) :
    books (setContext s src v) = books s := rfl

@[simp] theorem books_complete (s : State) (sw : Switch) (aligned : Bool) (moment : List Output) :
    books (complete s sw aligned moment) = books s := by
  unfold complete
  simp only [books_switchNotice, books_startSet]
  rw [books_mapSq _ _ fun t o => viewOf_completion _ _ _]
  simp

@[simp] theorem books_examine (s : State) (moment : List Output) : books (examine s moment) = books s := by
  unfold examine
  dsimp only
  split
  · split
    · split <;> simp
    · simp
  · simp

@[simp] theorem books_emittedStart (s : State) (o : Output) : books (emittedStart s o) = books s := by
  unfold emittedStart
  split
  · split <;> simp
  · simp

@[simp] theorem books_leftRunning (s : State) (o : Output) : books (leftRunning s o) = books s := by
  unfold leftRunning
  split
  · split <;> simp
  · simp

@[simp] theorem books_targetReady (s : State) : books (targetReady s) = books s := by
  unfold targetReady
  split
  · simp
  · split
    · simp
    · split <;> simp
  · rfl

@[simp] theorem books_readyTarget (s : State) (sw : Switch) : books (readyTarget s sw) = books s := by
  unfold readyTarget beginLock
  split
  · split
    · simp
    · split <;> simp
  · rfl

@[simp] theorem books_progress (s : State) : books (progress s) = books s := by
  unfold progress; split <;> simp

@[simp] theorem books_losesReadiness (s : State) : books (losesReadiness s) = books s := by
  unfold losesReadiness; split <;> simp

@[simp] theorem books_beginSwitch (s : State) (st : TbuState) (sw : Switch) (ended : Option Switch) :
    books (beginSwitch s st sw ended) = books s := by simp [beginSwitch]

@[simp] theorem books_takeClock (s : State) (sel : Selection) (align : Option Output) (origin : SwitchOrigin) :
    books (takeClock s sel align origin) = books s := by
  unfold takeClock
  dsimp only
  split
  · simp
  · split <;> simp
  · split <;> simp
  · simp
  · simp
  · simp

@[simp] theorem books_sourceFails (s : State) (c : FailCause) (src : Source) : books (sourceFails s c src) = books s := by
  unfold sourceFails
  split
  · unfold failSafe
    simp only [books_failNotice, books_endNotice]
    rw [books_mapSq _ (fun s o => (s.sq o).failSafe) fun t o => viewOf_mark _ _ _]
    simp
  · unfold enterLost
    simp only [books_failNotice]
    rw [books_mapSq _ _ fun t o => viewOf_freeze _ _ _]
    simp

@[simp] theorem books_referenceAbsent (s : State) (src : Source) : books (referenceAbsent s src) = books s := by
  unfold referenceAbsent
  dsimp only
  split
  · simp
  · split <;> simp

@[simp] theorem books_startUpPath (s : State) (sel : Selection) (origin : SwitchOrigin) (two : Bool) :
    books (startUpPath s sel origin two) = books s := by
  unfold startUpPath
  dsimp only
  split
  · simp
  · split <;> simp

@[simp] theorem books_sourceBecomesReady (s : State) (src : Source) : books (sourceBecomesReady s src) = books s := by
  unfold sourceBecomesReady; split <;> simp

@[simp] theorem books_presenceChanged (s : State) (d : Detector) (c : RefCause) (e : Bool) :
    books (presenceChanged s d c e) = books s := by
  unfold presenceChanged referenceNotice
  dsimp only
  split <;> simp

/-! ### The events of the Timebase Unit and the detectors -/

@[simp] theorem books_xoBecomesReady (s : State) : books (xoBecomesReady s) = books s := by
  unfold xoBecomesReady; split <;> simp

@[simp] theorem books_synthLocks (s : State) : books (synthLocks s) = books s := rfl

@[simp] theorem books_lockCompletes (s : State) : books (lockCompletes s) = books s := by
  have h (sw : Switch) : books (lockFor s sw) = books s := by
    unfold lockFor
    split
    · dsimp only
      split <;> simp
    · rfl
  unfold lockCompletes
  split
  · exact h _
  · exact h _
  · rfl

@[simp] theorem books_alignmentExpires (s : State) : books (alignmentExpires s) = books s := by
  unfold alignmentExpires; split <;> simp

@[simp] theorem books_lockAtDeadline (s : State) (sw : Switch) (d : Nat) : books (lockAtDeadline s sw d) = books s := by
  unfold lockAtDeadline
  split
  · split <;> simp
  · rfl

@[simp] theorem books_switchExpires (s : State) : books (switchExpires s) = books s := by
  unfold switchExpires
  split
  · simp
  · dsimp only
    split
    · simp [fallBack]
    · unfold enterLost
      simp only [books_failNotice]
      rw [books_mapSq _ _ fun t o => viewOf_freeze _ _ _]
      simp
  · rfl

@[simp] theorem books_activityCheck (s : State) (seen : Bool) : books (activityCheck s seen) = books s := by
  unfold activityCheck
  split
  · rfl
  · dsimp only
    split
    · simp
    · split <;> simp

@[simp] theorem books_targetLockLost (s : State) (sw : Switch) : books (targetLockLost s sw) = books s := by
  unfold targetLockLost
  split
  · simp
  · split <;> simp

@[simp] theorem books_lockLost (s : State) : books (lockLost s) = books s := by
  unfold lockLost
  split
  · simp
  · split <;> simp
  · rfl

@[simp] theorem books_gateCompletes (s : State) (d : Detector) (edges xoCycles : Nat) :
    books (gateCompletes s d edges xoCycles) = books s := by
  unfold gateCompletes
  dsimp only
  split <;> simp

@[simp] theorem books_setTable (s : State) (t : SourceTable) : books { s with table := t } = books s := rfl

@[simp] theorem books_detectorRestart (s : State) (d : Detector) : books (detectorRestart s d) = books s := by
  unfold detectorRestart
  dsimp only
  split <;> simp

end Sys2Proof.Laws
end

