-- ==== Sys2Proof/Laws/Works.lean ====
section
/-! SUPPORT. `Works s t`: from a state that meets the laws of references and of taken entries, an operation on the
outputs ends in one that does, and leaves claims, rounds and membership as they were. `Moves s t o w`: it changes the
view of the output `o` alone, to `w`, and keeps the law of references. -/

namespace Sys2Proof.Laws

open Machine

namespace View

def withCurrent (v : View) (k : Option Slot) : View := { v with current := k }
def withNext (v : View) (k : Option Slot) : View := { v with next := k }
def withQueue (v : View) (q : List Entry) : View := { v with queue := q }
def withCut (v : View) (k : Option Slot) : View := { v with cut := k }
def withStopping (v : View) (b : Bool) : View := { v with stopping := b }

end View

namespace Books

/-! ### Updates of the books -/

def setSlot (b : Books) (k : Slot) (r : SlotRec) : Books := { b with slot := fun j => if j = k then r else b.slot j }

def addRef (b : Books) (k : Slot) : Books := b.setSlot k { b.slot k with refs := (b.slot k).refs + 1 }

def dropRef (b : Books) (k : Slot) : Books := b.setSlot k { b.slot k with refs := (b.slot k).refs - 1 }

def dropRefOpt (b : Books) : Option Slot → Books
  | none => b
  | some k => b.dropRef k

def setView (b : Books) (o : Output) (v : View) : Books := { b with view := fun p => if p = o then v else b.view p }

def setClaim (b : Books) (t : Target) (c : ClaimRec) : Books :=
  { b with claim := fun g => if g = t then c else b.claim g }

def setProposals (b : Books) (ps : List Proposal) : Books := { b with proposals := ps }

@[simp] theorem slot_setView (b : Books) (o : Output) (v : View) : (b.setView o v).slot = b.slot := rfl
@[simp] theorem claim_setView (b : Books) (o : Output) (v : View) : (b.setView o v).claim = b.claim := rfl
@[simp] theorem proposals_setView (b : Books) (o : Output) (v : View) : (b.setView o v).proposals = b.proposals := rfl
@[simp] theorem joined_setView (b : Books) (o : Output) (v : View) : (b.setView o v).joined = b.joined := rfl
@[simp] theorem view_setView_self (b : Books) (o : Output) (v : View) : (b.setView o v).view o = v := if_pos rfl
@[simp] theorem view_setView_ne (b : Books) {o p : Output} (v : View) (h : p ≠ o) :
    (b.setView o v).view p = b.view p := if_neg h
@[simp] theorem setView_setView (b : Books) (o : Output) (v w : View) :
    (b.setView o v).setView o w = b.setView o w := by
  simp only [setView, Books.mk.injEq, true_and, and_true]
  funext p; split <;> rfl

@[simp] theorem view_addRef (b : Books) (k : Slot) : (b.addRef k).view = b.view := rfl
@[simp] theorem claim_addRef (b : Books) (k : Slot) : (b.addRef k).claim = b.claim := rfl
@[simp] theorem proposals_addRef (b : Books) (k : Slot) : (b.addRef k).proposals = b.proposals := rfl
@[simp] theorem joined_addRef (b : Books) (k : Slot) : (b.addRef k).joined = b.joined := rfl
@[simp] theorem view_dropRef (b : Books) (k : Slot) : (b.dropRef k).view = b.view := rfl
@[simp] theorem claim_dropRef (b : Books) (k : Slot) : (b.dropRef k).claim = b.claim := rfl
@[simp] theorem proposals_dropRef (b : Books) (k : Slot) : (b.dropRef k).proposals = b.proposals := rfl
@[simp] theorem joined_dropRef (b : Books) (k : Slot) : (b.dropRef k).joined = b.joined := rfl
@[simp] theorem view_dropRefOpt (b : Books) (k : Option Slot) : (b.dropRefOpt k).view = b.view := by cases k <;> rfl
@[simp] theorem claim_dropRefOpt (b : Books) (k : Option Slot) : (b.dropRefOpt k).claim = b.claim := by cases k <;> rfl
@[simp] theorem proposals_dropRefOpt (b : Books) (k : Option Slot) : (b.dropRefOpt k).proposals = b.proposals := by
  cases k <;> rfl
@[simp] theorem joined_dropRefOpt (b : Books) (k : Option Slot) : (b.dropRefOpt k).joined = b.joined := by
  cases k <;> rfl

theorem slot_addRef (b : Books) (k j : Slot) :
    (b.addRef k).slot j = { b.slot j with refs := (b.slot j).refs + (k == j).toNat } := by
  by_cases h : j = k
  · subst h; simp [addRef, setSlot]
  · simp [addRef, setSlot, h, beq_false_of_ne (Ne.symm h)]

theorem slot_dropRef (b : Books) (k j : Slot) :
    (b.dropRef k).slot j = { b.slot j with refs := (b.slot j).refs - (k == j).toNat } := by
  by_cases h : j = k
  · subst h; simp [dropRef, setSlot]
  · simp [dropRef, setSlot, h, beq_false_of_ne (Ne.symm h)]

theorem slot_dropRefOpt (b : Books) (k : Option Slot) (j : Slot) :
    (b.dropRefOpt k).slot j = { b.slot j with refs := (b.slot j).refs - (k == some j).toNat } := by
  cases k with
  | none => rfl
  | some k => exact slot_dropRef b k j

theorem setView_addRef (b : Books) (o : Output) (w : View) (k : Slot) :
    (b.setView o w).addRef k = (b.addRef k).setView o w := rfl
theorem setView_dropRefOpt (b : Books) (o : Output) (w : View) (k : Option Slot) :
    (b.setView o w).dropRefOpt k = (b.dropRefOpt k).setView o w := by cases k <;> rfl

@[simp] theorem setView_self (b : Books) (o : Output) : b.setView o (b.view o) = b := by
  have e : (fun p => if p = o then b.view o else b.view p) = b.view := funext fun p => by
    split
    · rename_i h; rw [h]
    · rfl
  simp only [setView, e]

/-! ### The reference of an entry -/

def kindSlot : EntryKind → Option Slot
  | .change k => some k
  | .stop => none

/-- The references of entries that have left are dropped. -/
def dropEntries (b : Books) (es : List Entry) : Books := es.foldl (fun b e => b.dropRefOpt (kindSlot e.kind)) b

@[simp] theorem view_dropEntries (b : Books) (es : List Entry) : (b.dropEntries es).view = b.view := by
  induction es generalizing b with
  | nil => rfl
  | cons e es ih => exact (ih _).trans (view_dropRefOpt _ _)
@[simp] theorem claim_dropEntries (b : Books) (es : List Entry) : (b.dropEntries es).claim = b.claim := by
  induction es generalizing b with
  | nil => rfl
  | cons e es ih => exact (ih _).trans (claim_dropRefOpt _ _)
@[simp] theorem proposals_dropEntries (b : Books) (es : List Entry) : (b.dropEntries es).proposals = b.proposals := by
  induction es generalizing b with
  | nil => rfl
  | cons e es ih => exact (ih _).trans (proposals_dropRefOpt _ _)
@[simp] theorem joined_dropEntries (b : Books) (es : List Entry) : (b.dropEntries es).joined = b.joined := by
  induction es generalizing b with
  | nil => rfl
  | cons e es ih => exact (ih _).trans (joined_dropRefOpt _ _)

/-! ### The laws of references and taken entries -/

/-- The change entries of a queue that name slot `k`. -/
def changes (q : List Entry) (k : Slot) : Nat := (q.filter fun e => e.kind == .change k).length

theorem kindSlot_eq (e : Entry) (k : Slot) : (kindSlot e.kind == some k) = (e.kind == .change k) := by
  cases h : e.kind with
  | stop => rfl
  | change j => by_cases g : j = k <;> simp [kindSlot, g]

theorem changes_cons (e : Entry) (q : List Entry) (k : Slot) :
    changes (e :: q) k = (kindSlot e.kind == some k).toNat + changes q k := by
  rw [kindSlot_eq]
  unfold changes
  cases h : e.kind == .change k
  · rw [List.filter_cons_of_neg (by simp [h])]; simp
  · rw [List.filter_cons_of_pos (by simp [h])]; simp [Nat.add_comm]

theorem changes_append (p q : List Entry) (k : Slot) : changes (p ++ q) k = changes p k + changes q k := by
  simp [changes]

/-- The entries that leave and those that stay are the whole queue. -/
theorem changes_filter (q : List Entry) (p : Entry → Bool) (k : Slot) :
    changes (q.filter p) k + changes (q.filter fun e => !p e) k = changes q k := by
  induction q with
  | nil => rfl
  | cons e q ih =>
    cases h : p e
    · rw [List.filter_cons_of_neg (by simp [h]), List.filter_cons_of_pos (by simp [h]), changes_cons, changes_cons]
      omega
    · rw [List.filter_cons_of_pos (by simp [h]), List.filter_cons_of_neg (by simp [h]), changes_cons, changes_cons]
      omega

theorem slot_dropEntries (b : Books) (es : List Entry) (k : Slot) :
    (b.dropEntries es).slot k = { b.slot k with refs := (b.slot k).refs - changes es k } := by
  induction es generalizing b with
  | nil => rfl
  | cons e es ih =>
    refine (ih _).trans ?_
    rw [slot_dropRefOpt, changes_cons]
    simp only [Nat.sub_add_eq]

/-- The places of one output that name slot `k`. -/
def names (v : View) (k : Slot) : Nat := (v.current == some k).toNat + (v.next == some k).toNat + changes v.queue k

/-- The places that name slot `k` (R10). -/
def places (b : Books) (k : Slot) : Nat :=
  (allOutputs.map fun o => names (b.view o) k + ((b.claim (.out o)).policy == .fallback k).toNat).sum
  + (b.proposals.filter fun p => p.matter.payloadSlot == some k).length

/-- The slot of a TAKEN STOP heads the queue. -/
def takenStop : List Entry → Bool
  | [] => false
  | e :: _ => e.state == .taken && e.kind == .stop

/-- What R16, R17 and R52 say of one output. -/
def ViewOk (v : View) : Prop :=
  (∀ e ∈ v.queue.tail, e.state ≠ .taken) ∧ v.next = takenChange v.queue ∧ v.stopping = takenStop v.queue

/-- The law of references (R3, R8, R10). -/
structure RefsOk (b : Books) : Prop where
  count : ∀ k, (b.slot k).refs = b.places k
  fixed : ∀ k, 0 < (b.slot k).refs → (b.slot k).state = .fixedSlot
  cuts : ∀ o k, (b.view o).cut = some k → (b.slot k).state = .fixedSlot

theorem sum_update (f g : Output → Nat) (o : Output) (h : ∀ p, p ≠ o → f p = g p) :
    (allOutputs.map f).sum + g o = (allOutputs.map g).sum + f o := by
  have e (p : Output) (q : p ≠ o) := h p q
  fin_cases o <;> simp only [allOutputs, List.map_cons, List.map_nil, List.sum_cons, List.sum_nil] <;> simp at e ⊢ <;>
    (have h0 := e 0; have h1 := e 1; have h2 := e 2; have h3 := e 3; have h4 := e 4; have h5 := e 5; have h6 := e 6
     have h7 := e 7; simp at h0 h1 h2 h3 h4 h5 h6 h7; omega)

theorem places_setView (b : Books) (o : Output) (v : View) (k : Slot) :
    (b.setView o v).places k + names (b.view o) k = b.places k + names v k := by
  have h := sum_update (fun p => names ((b.setView o v).view p) k + ((b.claim (.out p)).policy == .fallback k).toNat)
    (fun p => names (b.view p) k + ((b.claim (.out p)).policy == .fallback k).toNat) o
    fun p hp => by simp [hp]
  simp only [view_setView_self] at h
  simp only [places, claim_setView, proposals_setView]
  omega

theorem names_le_places (b : Books) (o : Output) (k : Slot) : names (b.view o) k ≤ b.places k := by
  have h := places_setView b o ⟨none, none, [], none, false⟩ k
  have z : names ⟨none, none, [], none, false⟩ k = 0 := rfl
  omega

/-- One output's places change from `v` to `w`, and the references follow. -/
theorem RefsOk.setView {b b' : Books} {o : Output} {w : View} (h : RefsOk b)
    (hv : b'.view = (b.setView o w).view) (hc : b'.claim = b.claim) (hp : b'.proposals = b.proposals)
    (hr : ∀ k, (b'.slot k).refs + names (b.view o) k = (b.slot k).refs + names w k)
    (hs : ∀ k, (b'.slot k).state = (b.slot k).state)
    (hf : ∀ k, names (b.view o) k < names w k → (b.slot k).state = .fixedSlot)
    (hcut : ∀ k, w.cut = some k → (b.slot k).state = .fixedSlot) : RefsOk b' := by
  have hq (k : Slot) : b'.places k = (b.setView o w).places k := by
    simp only [places, hv, hc, hp, claim_setView, proposals_setView]
  refine ⟨fun k => ?_, fun k hk => ?_, fun p k hk => ?_⟩
  · have := places_setView b o w k; have := hr k; have := h.count k; rw [hq]; omega
  · rw [hs]
    by_cases g : names (b.view o) k < names w k
    · exact hf k g
    · exact h.fixed k (by have := hr k; omega)
  · rw [hs]
    rw [hv] at hk
    by_cases e : p = o
    · subst e; rw [view_setView_self] at hk; exact hcut k hk
    · rw [view_setView_ne _ _ e] at hk; exact h.cuts p k hk

end Books

open Books

/-! ### Updates of a state in its books -/

theorem books_setSlot (s : State) (k : Slot) (r : SlotRec) : books (s.setSlot k r) = (books s).setSlot k r := by
  have e : (s.setSlot k r).slot = fun j => if j = k then r else s.slot j := funext fun j => by
    split
    · rename_i h; subst h; exact State.slot_setSlot_self _ _ _
    · rename_i h; exact State.slot_setSlot_ne _ _ h
  simp only [books, e]; rfl

@[simp] theorem books_addRef (s : State) (k : Slot) : books (s.addRef k) = (books s).addRef k := books_setSlot _ _ _

@[simp] theorem books_dropRef (s : State) (k : Slot) : books (s.dropRef k) = (books s).dropRef k := books_setSlot _ _ _

@[simp] theorem books_dropRefOpt (s : State) (k : Option Slot) : books (s.dropRefOpt k) = (books s).dropRefOpt k := by
  cases k with
  | none => rfl
  | some k => exact books_dropRef _ _

theorem books_setSq_eq (s : State) (o : Output) (r : OutRec) :
    books (s.setSq o r) = (books s).setView o (viewOf r (s.queue o)) := by
  have e : (fun p => viewOf ((s.setSq o r).sq p) ((s.setSq o r).queue p))
      = fun p => if p = o then viewOf r (s.queue o) else viewOf (s.sq p) (s.queue p) := funext fun p => by
    split
    · rename_i h; subst h; rw [State.sq_setSq_self, State.queue_setSq]
    · rename_i h; rw [State.sq_setSq_ne _ _ h, State.queue_setSq]
  simp only [books, e]; rfl

theorem books_setQueue (s : State) (o : Output) (q : List Entry) :
    books (s.setQueue o q) = (books s).setView o (viewOf (s.sq o) q) := by
  have e : (fun p => viewOf ((s.setQueue o q).sq p) ((s.setQueue o q).queue p))
      = fun p => if p = o then viewOf (s.sq o) q else viewOf (s.sq p) (s.queue p) := funext fun p => by
    split
    · rename_i h; subst h; rw [State.queue_setQueue_self, State.sq_setQueue]
    · rename_i h; rw [State.queue_setQueue_ne _ _ h, State.sq_setQueue]
  simp only [books, e]; rfl

/-! ### The relations -/

def Refs (s : State) : Prop := RefsOk (books s)
def Taken (s : State) : Prop := ∀ o, ViewOk ((books s).view o)

/-- The RESERVED entries of a queue (R49). -/
def reservedOf (q : List Entry) : List Entry := q.filter fun e => e.state == .reserved

theorem reservedOf_append (q r : List Entry) : reservedOf (q ++ r) = reservedOf q ++ reservedOf r :=
  List.filter_append ..

theorem reservedOf_cons_of_ne {e : Entry} (h : e.state ≠ .reserved) (q : List Entry) :
    reservedOf (e :: q) = reservedOf q := List.filter_cons_of_neg (by simp [h])

/-- Entries leave, none of them RESERVED. -/
theorem reservedOf_filter {q : List Entry} {p : Entry → Bool} (hp : ∀ e, e.state = .reserved → p e = false) :
    reservedOf (q.filter fun e => !p e) = reservedOf q := by
  unfold reservedOf
  rw [List.filter_filter]
  refine List.filter_congr fun e _ => ?_
  by_cases h : e.state = .reserved
  · simp [h, hp e h]
  · simp [h]

/-- What the books of `t` say after an operation on the outputs of `s` that leaves the RESERVED entries. -/
structure Worked (s t : State) : Prop where
  refs : Refs t
  taken : Taken t
  reserved : ∀ o, reservedOf ((books t).view o).queue = reservedOf ((books s).view o).queue
  slotState : ∀ k, ((books t).slot k).state = ((books s).slot k).state
  claim : (books t).claim = (books s).claim
  proposals : (books t).proposals = (books s).proposals
  joined : (books t).joined = (books s).joined

/-- What the books of `t` say after an operation that brings the output `o` of `s` to the view `w`. -/
structure Moved (s t : State) (o : Output) (w : View) : Prop where
  refs : Refs t
  view : (books t).view = ((books s).setView o w).view
  slotState : ∀ k, ((books t).slot k).state = ((books s).slot k).state
  claim : (books t).claim = (books s).claim
  proposals : (books t).proposals = (books s).proposals
  joined : (books t).joined = (books s).joined

def Works (s t : State) : Prop := Refs s → Taken s → Worked s t

def Moves (s t : State) (o : Output) (w : View) : Prop := Refs s → Moved s t o w

namespace Works

theorem of_books {s t : State} (h : books t = books s) : Works s t := fun a b =>
  ⟨by rwa [Refs, h], by rwa [Taken, h], fun _ => by rw [h], fun _ => by rw [h], by rw [h], by rw [h], by rw [h]⟩

theorem refl (s : State) : Works s s := of_books rfl

theorem trans {s t u : State} (h : Works s t) (g : Works t u) : Works s u := fun a b =>
  have h := h a b
  have g := g h.refs h.taken
  ⟨g.refs, g.taken, fun o => (g.reserved o).trans (h.reserved o), fun k => (g.slotState k).trans (h.slotState k), g.claim.trans h.claim,
    g.proposals.trans h.proposals, g.joined.trans h.joined⟩

/-- An operation that leaves the books comes after, or before. -/
theorem after {s t u : State} (h : Works s t) (g : books u = books t) : Works s u := h.trans (of_books g)
theorem before {s t u : State} (g : books t = books s) (h : Works t u) : Works s u := (of_books g).trans h

theorem foldl {α : Type} (f : State → α → State) (h : ∀ s a, Works s (f s a)) :
    ∀ (l : List α) (s : State), Works s (l.foldl f s)
  | [], s => refl s
  | a :: l, s => (h s a).trans (foldl f h l (f s a))

end Works

namespace Moves

theorem of_books {s t : State} (o : Output) (h : books t = books s) : Moves s t o ((books s).view o) := fun a =>
  ⟨by rwa [Refs, h], by rw [setView_self, h], fun _ => by rw [h], by rw [h], by rw [h], by rw [h]⟩

theorem trans {s t u : State} {o : Output} {v w : View} (h : Moves s t o v) (g : Moves t u o w) : Moves s u o w := by
  intro a
  have h := h a
  have g := g h.refs
  refine ⟨g.refs, ?_, fun k => (g.slotState k).trans (h.slotState k), g.claim.trans h.claim,
    g.proposals.trans h.proposals, g.joined.trans h.joined⟩
  rw [g.view]
  funext p
  by_cases e : p = o
  · subst e; rw [view_setView_self, view_setView_self]
  · rw [view_setView_ne _ _ e, view_setView_ne _ _ e, h.view, view_setView_ne _ _ e]

theorem after {s t u : State} {o : Output} {w : View} (h : Moves s t o w) (g : books u = books t) :
    Moves s u o w := fun a =>
  have h := h a
  ⟨by rw [Refs, g]; exact h.refs, by rw [g, h.view], fun k => by rw [g, h.slotState], by rw [g, h.claim],
    by rw [g, h.proposals], by rw [g, h.joined]⟩

theorem before {s t u : State} {o : Output} {w : View} (g : books t = books s) (h : Moves t u o w) :
    Moves s u o w := fun a =>
  have h := h (by rwa [Refs, g])
  ⟨h.refs, by rw [h.view]; simp only [setView, g], fun k => by rw [h.slotState, g], by rw [h.claim, g],
    by rw [h.proposals, g], by rw [h.joined, g]⟩

/-- The output ends with a view that obeys its law. -/
theorem takes {s t : State} {o : Output} {w : View} (h : Moved s t o w)
    (k : ViewOk ((books s).view o) → ViewOk w) (b : Taken s) : Taken t := fun p => by
  rw [h.view]
  by_cases e : p = o
  · subst e; rw [view_setView_self]; exact k (b p)
  · rw [view_setView_ne _ _ e]; exact b p

/-- The output ends with a view that obeys its law, with the RESERVED entries it had. -/
theorem works {s t : State} {o : Output} {w : View} (h : Moves s t o w)
    (k : ViewOk ((books s).view o) → ViewOk w)
    (q : reservedOf w.queue = reservedOf ((books s).view o).queue) : Works s t := by
  intro a b
  have h := h a
  refine ⟨h.refs, takes h k b, fun p => ?_, h.slotState, h.claim, h.proposals, h.joined⟩
  rw [h.view]
  by_cases e : p = o
  · subst e; rw [view_setView_self]; exact q
  · rw [view_setView_ne _ _ e]

/-- References change with the places of one output. -/
theorem of_setView {s t : State} {b : Books} (o : Output) (w : View) (e : books t = b.setView o w)
    (hv : b.view = (books s).view) (hc : b.claim = (books s).claim) (hp : b.proposals = (books s).proposals)
    (hj : b.joined = (books s).joined) (hs : ∀ k, (b.slot k).state = ((books s).slot k).state)
    (refs : Refs s →
      (∀ k, (b.slot k).refs + names ((books s).view o) k = ((books s).slot k).refs + names w k)
      ∧ (∀ k, names ((books s).view o) k < names w k → ((books s).slot k).state = .fixedSlot)
      ∧ ∀ k, w.cut = some k → ((books s).slot k).state = .fixedSlot) : Moves s t o w := by
  intro a
  obtain ⟨hr, hf, hcut⟩ := refs a
  refine ⟨?_, by rw [e]; simp only [setView, hv], fun k => by rw [e]; exact hs k, by rw [e]; exact hc,
    by rw [e]; exact hp, by rw [e]; exact hj⟩
  refine RefsOk.setView (o := o) (w := w) a ?_ ?_ ?_ ?_ ?_ hf hcut
  · rw [e]; simp only [setView, hv]
  · rw [e]; exact hc
  · rw [e]; exact hp
  · rw [e]; exact hr
  · rw [e]; exact hs

/-- The view that the operation is said to end with may be given in another form. -/
theorem ends {s t : State} {o : Output} {v w : View} (h : Moves s t o v) (e : v = w) : Moves s t o w := e ▸ h

end Moves

/-- The view of an output after an operation. -/
theorem Moved.self {s t : State} {o : Output} {w : View} (h : Moved s t o w) : (books t).view o = w := by
  rw [h.view, view_setView_self]

end Sys2Proof.Laws
end

