-- ==== Sys2Proof/Laws/Moves.lean ====
section
/-! SUPPORT. The operations on one output, its change queue and its profile: the view each ends with, with the
references moved along. -/

namespace Sys2Proof.Laws

open Machine Books

/-! ### Single updates -/

theorem names_le_refs {b : Books} (a : RefsOk b) (o : Output) (k : Slot) : names (b.view o) k ≤ (b.slot k).refs := by
  rw [a.count k]; exact names_le_places b o k

/-- A record that names the same slots, with a cut on a FIXED slot. -/
theorem setSq_moves (s : State) (o : Output) (r : OutRec) (hc : r.current = (s.sq o).current)
    (hn : r.next = (s.sq o).next)
    (hk : ∀ k, r.cut.map PendingCut.slot = some k → ((books s).slot k).state = .fixedSlot) :
    Moves s (s.setSq o r) o (viewOf r (s.queue o)) := by
  refine .of_setView (b := books s) o _ (books_setSq_eq s o r) rfl rfl rfl rfl (fun _ => rfl) fun a => ?_
  have e (k : Slot) : names (viewOf r (s.queue o)) k = names ((books s).view o) k := by
    show names (viewOf r (s.queue o)) k = names (viewOf (s.sq o) (s.queue o)) k
    simp only [names, viewOf, hc, hn]
  exact ⟨fun k => by rw [e], fun k h => absurd h (by rw [e]; exact Nat.lt_irrefl _), hk⟩

/-- A record with the same pending cut that names the same slots. -/
theorem setSq_moves' (s : State) (o : Output) (r : OutRec) (hc : r.current = (s.sq o).current)
    (hn : r.next = (s.sq o).next) (hk : r.cut = (s.sq o).cut) : Moves s (s.setSq o r) o (viewOf r (s.queue o)) :=
  fun a => setSq_moves s o r hc hn (fun k h => a.cuts o k (by rw [hk] at h; exact h)) a

theorem setOutState_moves (s : State) (o : Output) (st : OutState) :
    Moves s (setOutState s o st) o (((books s).view o).withStopping (st == .stopping)) :=
  (setSq_moves' s o { s.sq o with state := st } rfl rfl rfl).after (books_outputNotice _ _ _)

/-- The output's current profile becomes the FIXED slot `k`. -/
theorem rebind_moves (s : State) (o : Output) (k : Slot) (r : OutRec) (hk : ((books s).slot k).state = .fixedSlot)
    (hc : r.current = some k) (hn : r.next = (s.sq o).next)
    (hcut : r.cut = (s.sq o).cut ∨ r.cut = none) :
    Moves s (((s.addRef k).dropRefOpt (s.sq o).current).setSq o r) o (viewOf r (s.queue o)) := by
  refine .of_setView (b := ((books s).addRef k).dropRefOpt (s.sq o).current) o _ ?_ (by simp) (by simp) (by simp)
    (by simp) (fun j => by rw [slot_dropRefOpt, slot_addRef]) fun a => ?_
  · rw [books_setSq_eq, books_dropRefOpt, books_addRef, State.queue_dropRefOpt, State.queue_addRef]
  · have e (j : Slot) : names (viewOf r (s.queue o)) j + ((s.sq o).current == some j).toNat
        = names ((books s).view o) j + (k == j).toNat := by
      show names (viewOf r (s.queue o)) j + _ = names (viewOf (s.sq o) (s.queue o)) j + _
      simp only [names, viewOf, hc, hn, Option.some_beq_some]
      omega
    have l (j : Slot) : ((s.sq o).current == some j).toNat ≤ names ((books s).view o) j := by
      show _ ≤ names (viewOf (s.sq o) (s.queue o)) j
      simp only [names, viewOf]; omega
    refine ⟨fun j => ?_, fun j h => ?_, fun j h => ?_⟩
    · have := e j; have := l j; have := names_le_refs a o j
      rw [slot_dropRefOpt, slot_addRef]
      dsimp only
      omega
    · by_cases q : k = j
      · exact q ▸ hk
      · have := e j; rw [beq_false_of_ne q] at this; simp only [Bool.toNat_false] at this; omega
    · rcases hcut with g | g
      · exact a.cuts o j (by rw [← h]; show (s.sq o).cut.map _ = r.cut.map _; rw [g])
      · rw [show (viewOf r (s.queue o)).cut = r.cut.map PendingCut.slot from rfl, g] at h; cases h

/-! ### The change queue -/

theorem setQueue_moves (s : State) (o : Output) (q : List Entry) (h : ∀ k, changes q k = changes (s.queue o) k) :
    Moves s (s.setQueue o q) o (((books s).view o).withQueue q) := by
  refine .of_setView (b := books s) o _ (books_setQueue s o q) rfl rfl rfl rfl (fun _ => rfl) fun a => ?_
  have e (k : Slot) : names (((books s).view o).withQueue q) k = names ((books s).view o) k := by
    show names ((viewOf (s.sq o) (s.queue o)).withQueue q) k = names (viewOf (s.sq o) (s.queue o)) k
    simp only [names, viewOf, View.withQueue, h]
  exact ⟨fun k => by rw [e], fun k h => absurd h (by rw [e]; exact Nat.lt_irrefl _), fun k h => a.cuts o k h⟩

theorem clearNext_moves (s : State) (o : Output) :
    Moves s (clearNext s o) o (((books s).view o).withNext none) := by
  refine .of_setView (b := (books s).dropRefOpt (s.sq o).next) o _ ?_ (by simp) (by simp) (by simp)
    (by simp) (fun j => by rw [slot_dropRefOpt]) fun a => ?_
  · show books ((s.dropRefOpt (s.sq o).next).setSq o _) = _
    rw [books_setSq_eq, books_dropRefOpt, State.queue_dropRefOpt, State.sq_dropRefOpt]; rfl
  · have e (j : Slot) : names (((books s).view o).withNext none) j + ((s.sq o).next == some j).toNat
        = names ((books s).view o) j := by
      show names ((viewOf (s.sq o) (s.queue o)).withNext none) j + _ = names (viewOf (s.sq o) (s.queue o)) j
      simp [names, viewOf, View.withNext]; omega
    refine ⟨fun j => ?_, fun j h => ?_, fun j h => a.cuts o j h⟩
    · have := e j; have := names_le_refs a o j
      rw [slot_dropRefOpt]; dsimp only; omega
    · have := e j; omega

theorem books_entryLeft (o : Output) (c : ChangeOutcome) (s : State) (e : Entry) :
    books (entryLeft o c s e) = (books s).dropRefOpt (kindSlot e.kind) := by
  unfold entryLeft
  rw [books_changeDone]
  cases e.kind with
  | change k => exact books_dropRef s k
  | stop => rfl

theorem books_entriesLeft (o : Output) (c : ChangeOutcome) (es : List Entry) (s : State) :
    books (es.foldl (entryLeft o c) s) = (books s).dropEntries es := by
  induction es generalizing s with
  | nil => rfl
  | cons e es ih => exact (ih _).trans (by rw [books_entryLeft]; rfl)

theorem setView_dropEntries (b : Books) (o : Output) (w : View) (es : List Entry) :
    (b.setView o w).dropEntries es = (b.dropEntries es).setView o w := by
  induction es generalizing b with
  | nil => rfl
  | cons e es ih =>
    show ((b.setView o w).dropRefOpt _).dropEntries es = _
    rw [setView_dropRefOpt, ih]; rfl

theorem removeEntries_moves (s : State) (o : Output) (p : Entry → Bool) (c : ChangeOutcome) :
    Moves s (removeEntries s o p c) o (((books s).view o).withQueue ((s.queue o).filter fun e => !p e)) := by
  refine .of_setView (b := (books s).dropEntries ((s.queue o).filter p)) o _ ?_ (by simp) (by simp) (by simp)
    (by simp) (fun j => by rw [slot_dropEntries]) fun a => ?_
  · unfold removeEntries
    rw [books_entriesLeft, books_setQueue, setView_dropEntries]; rfl
  · have e (j : Slot) : names (((books s).view o).withQueue ((s.queue o).filter fun e => !p e)) j
        + changes ((s.queue o).filter p) j = names ((books s).view o) j := by
      have := changes_filter (s.queue o) p j
      show names ((viewOf (s.sq o) (s.queue o)).withQueue ((s.queue o).filter fun e => !p e)) j + _
        = names (viewOf (s.sq o) (s.queue o)) j
      simp only [names, viewOf, View.withQueue]; omega
    refine ⟨fun j => ?_, fun j h => ?_, fun j h => a.cuts o j h⟩
    · have := e j; have := names_le_refs a o j
      rw [slot_dropEntries]; dsimp only; omega
    · have := e j; omega

theorem appendEntry_moves (s : State) (o : Output) (e : Entry)
    (h : ∀ k, e.kind = .change k → ((books s).slot k).state = .fixedSlot) :
    Moves s (appendEntry s o e) o
      (((books s).view o).withQueue (if s.queueFull o then s.queue o else s.queue o ++ [e])) := by
  unfold appendEntry
  split
  · exact .of_books o rfl
  · cases g : e.kind with
    | stop =>
      refine setQueue_moves s o _ fun k => ?_
      rw [changes_append, changes_cons, g]; rfl
    | change k =>
      refine .of_setView (b := (books s).addRef k) o _ ?_ rfl rfl rfl rfl (fun j => by rw [slot_addRef]) fun a => ?_
      · show books ((s.addRef k).setQueue o _) = _
        rw [books_setQueue, books_addRef]; rfl
      · have x (j : Slot) : names (((books s).view o).withQueue (s.queue o ++ [e])) j
            = names ((books s).view o) j + (k == j).toNat := by
          have : changes (s.queue o ++ [e]) j = changes (s.queue o) j + (k == j).toNat := by
            rw [changes_append, changes_cons, g]; simp [kindSlot, changes]
          show names ((viewOf (s.sq o) (s.queue o)).withQueue (s.queue o ++ [e])) j
            = names (viewOf (s.sq o) (s.queue o)) j + _
          simp only [names, viewOf, View.withQueue, this]; omega
        refine ⟨fun j => ?_, fun j l => ?_, fun j l => a.cuts o j l⟩
        · have := x j
          rw [slot_addRef]; dsimp only; omega
        · by_cases q : k = j
          · exact q ▸ h k g
          · have := x j; rw [beq_false_of_ne q] at this; simp only [Bool.toNat_false] at this; omega

theorem dropCut_moves (s : State) (o : Output) (c : ChangeOutcome) :
    Moves s (dropCut s o c) o (((books s).view o).withCut none) := by
  unfold dropCut
  split
  · rename_i h
    refine (Moves.of_books o rfl).ends ?_
    show viewOf (s.sq o) (s.queue o) = (viewOf (s.sq o) (s.queue o)).withCut none
    simp [viewOf, View.withCut, h]
  · exact (setSq_moves s o { s.sq o with cut := none } rfl rfl nofun).after (books_changeDone _ _ _ _ _ _)

theorem bind_moves (s : State) (o : Output) (k : Slot) (hk : ((books s).slot k).state = .fixedSlot) :
    Moves s (Machine.bind s o k) o (((books s).view o).withCurrent (some k)) := by
  unfold Machine.bind
  dsimp only
  rw [State.sq_dropRefOpt, State.sq_addRef]
  have h := rebind_moves s o k { s.sq o with current := some k } hk rfl rfl (.inl rfl)
  split
  · rename_i g
    refine h.after (books_setOutState _ o .bound ?_ nofun)
    rw [State.sq_setSq_self]; simp [g]
  · exact h

end Sys2Proof.Laws
end

