-- ==== Sys2Proof/Laws/Turns.lean ====
section
/-! SUPPORT. Frame turns, standby entry, orphan policies and the steps of an idle hub are `Works`. -/

namespace Sys2Proof.Laws

open Machine Books

/-! ### Views that obey their law -/

theorem takenChange_none {q : List Entry} (h : ∀ e ∈ q, e.state ≠ .taken) : takenChange q = none := by
  cases q with
  | nil => rfl
  | cons e q =>
    have := h e List.mem_cons_self
    simp only [takenChange]
    split
    · rename_i g _; exact absurd g this
    · rfl

theorem takenStop_false {q : List Entry} (h : ∀ e ∈ q, e.state ≠ .taken) : takenStop q = false := by
  cases q with
  | nil => rfl
  | cons e q =>
    have := h e List.mem_cons_self
    simp [takenStop, this]

/-- Nothing is taken. -/
theorem viewOk_untaken {v : View} (h : ∀ e ∈ v.queue, e.state ≠ .taken) (hn : v.next = none)
    (hs : v.stopping = false) : ViewOk v :=
  ⟨fun e he => h e (List.mem_of_mem_tail he), by rw [hn, takenChange_none h], by rw [hs, takenStop_false h]⟩

theorem takenChange_of_taken {e : Entry} {rest : List Entry} (h : e.state = .taken) :
    takenChange (e :: rest) = kindSlot e.kind := by
  simp only [takenChange, kindSlot, h]
  cases e.kind <;> rfl

theorem takenStop_of_taken {e : Entry} {rest : List Entry} (h : e.state = .taken) :
    takenStop (e :: rest) = (e.kind == .stop) := by simp [takenStop, h]

theorem takenChange_taken (e : Entry) (rest : List Entry) :
    takenChange ({ e with state := .taken } :: rest) = kindSlot e.kind := takenChange_of_taken rfl

theorem takenStop_taken (e : Entry) (rest : List Entry) :
    takenStop ({ e with state := .taken } :: rest) = (e.kind == .stop) := takenStop_of_taken rfl

/-- The rest of a queue is untaken, and when its head is untaken nothing is taken. -/
theorem Books.ViewOk.untaken {v : View} (h : ViewOk v) (hh : ∀ e ∈ v.queue.head?, e.state ≠ .taken) :
    (∀ e ∈ v.queue, e.state ≠ .taken) ∧ v.next = none ∧ v.stopping = false := by
  have k : ∀ e ∈ v.queue, e.state ≠ .taken := by
    obtain ⟨h1, _, _⟩ := h
    cases g : v.queue with
    | nil => nofun
    | cons e q =>
      rw [g] at h1 hh
      intro x hx
      rcases List.mem_cons.mp hx with rfl | hx
      · exact hh x rfl
      · exact h1 x hx
  exact ⟨k, by rw [h.2.1, takenChange_none k], by rw [h.2.2, takenStop_false k]⟩

/-- Untaken entries leave. -/
theorem Books.ViewOk.filter {v : View} (h : ViewOk v) {p : Entry → Bool} (hp : ∀ e, e.state = .taken → p e = false) :
    ViewOk (v.withQueue (v.queue.filter fun e => !p e)) := by
  cases g : v.queue with
  | nil =>
    have k := h.untaken (by rw [g]; nofun)
    exact viewOk_untaken nofun k.2.1 k.2.2
  | cons e q =>
    by_cases t : e.state = .taken
    · obtain ⟨h1, h2, h3⟩ := h
      rw [g] at h1 h2 h3
      rw [List.filter_cons_of_pos (by rw [hp e t]; rfl)]
      refine ⟨fun x hx => h1 x (List.mem_filter.mp hx).1, ?_, ?_⟩
      · show v.next = _; rw [h2, takenChange_of_taken t]; exact (takenChange_of_taken t).symm
      · show v.stopping = _; rw [h3, takenStop_of_taken t]; exact (takenStop_of_taken t).symm
    · have k := h.untaken (by rw [g]; intro x hx; cases hx; exact t)
      refine viewOk_untaken (fun x hx => k.1 x ?_) k.2.1 k.2.2
      rw [g]; exact (List.mem_filter.mp hx).1

/-- An untaken entry joins the tail. -/
theorem Books.ViewOk.append {v : View} (h : ViewOk v) {e : Entry} (he : e.state ≠ .taken) :
    ViewOk (v.withQueue (v.queue ++ [e])) := by
  cases g : v.queue with
  | nil =>
    have k := h.untaken (by rw [g]; nofun)
    refine viewOk_untaken (fun x hx => ?_) k.2.1 k.2.2
    rw [List.mem_singleton.mp hx]; exact he
  | cons x q =>
    obtain ⟨h1, h2, h3⟩ := h
    rw [g] at h1 h2 h3
    refine ⟨fun y hy => ?_, h2, h3⟩
    rcases List.mem_append.mp hy with hy | hy
    · exact h1 y hy
    · rw [List.mem_singleton.mp hy]; exact he

/-- Entries change, a TAKEN one excepted, and none becomes TAKEN. -/
theorem Books.ViewOk.map {v : View} (h : ViewOk v) {f : Entry → Entry} (hf : ∀ e, e.state = .taken → f e = e)
    (hg : ∀ e, (f e).state = .taken → e.state = .taken) : ViewOk (v.withQueue (v.queue.map f)) := by
  cases g : v.queue with
  | nil =>
    have k := h.untaken (by rw [g]; nofun)
    exact viewOk_untaken nofun k.2.1 k.2.2
  | cons e q =>
    by_cases t : e.state = .taken
    · obtain ⟨h1, h2, h3⟩ := h
      rw [g] at h1 h2 h3
      rw [List.map_cons, hf e t]
      refine ⟨fun x hx => ?_, ?_, ?_⟩
      · obtain ⟨y, hy, rfl⟩ := List.mem_map.mp hx
        exact fun l => h1 y hy (hg y l)
      · show v.next = _; rw [h2, takenChange_of_taken t]; exact (takenChange_of_taken t).symm
      · show v.stopping = _; rw [h3, takenStop_of_taken t]; exact (takenStop_of_taken t).symm
    · have k := h.untaken (by rw [g]; intro x hx; cases hx; exact t)
      refine viewOk_untaken (fun x hx => ?_) k.2.1 k.2.2
      rw [← g] at hx
      obtain ⟨y, hy, rfl⟩ := List.mem_map.mp hx
      exact fun l => k.1 y hy (hg y l)

/-! ### Operations that concern no TAKEN entry -/

theorem setSq_works (s : State) (o : Output) (r : OutRec) (hc : r.current = (s.sq o).current)
    (hn : r.next = (s.sq o).next) (hk : r.cut = (s.sq o).cut)
    (hs : (r.state == .stopping) = ((s.sq o).state == .stopping)) : Works s (s.setSq o r) := by
  refine .of_books (books_setSq s o r ?_)
  simp only [viewOf, hc, hn, hk, hs]

theorem bind_works (s : State) (o : Output) (k : Slot) (hk : ((books s).slot k).state = .fixedSlot) :
    Works s (Machine.bind s o k) := (bind_moves s o k hk).works id rfl

theorem appendEntry_works (s : State) (o : Output) (e : Entry) (he : e.state = .queued)
    (h : ∀ k, e.kind = .change k → ((books s).slot k).state = .fixedSlot) : Works s (appendEntry s o e) := by
  refine (appendEntry_moves s o e h).works (fun v => ?_) ?_
  · split
    · exact v
    · exact v.append (by rw [he]; exact nofun)
  · split
    · rfl
    · exact (reservedOf_append _ _).trans (by
        rw [reservedOf_cons_of_ne (by rw [he]; exact nofun)]; exact List.append_nil _)

theorem removeEntries_works (s : State) (o : Output) (p : Entry → Bool) (c : ChangeOutcome)
    (hp : ∀ e, e.state ≠ .queued → p e = false) : Works s (removeEntries s o p c) :=
  (removeEntries_moves s o p c).works (fun v => v.filter fun e h => hp e (by rw [h]; exact nofun))
    (reservedOf_filter fun e h => hp e (by rw [h]; exact nofun))

theorem isQueued_other (e : Entry) (h : e.state ≠ .queued) : e.isQueued = false := by simp [Entry.isQueued, h]

theorem isReservedBy_taken (id : Nat) (e : Entry) (h : e.state = .taken) : e.isReservedBy id = false := by
  simp [Entry.isReservedBy, h]

theorem dropCut_works (s : State) (o : Output) (c : ChangeOutcome) : Works s (dropCut s o c) :=
  (dropCut_moves s o c).works id rfl

theorem orphanAppend_works (s : State) (o : Output) (k : EntryKind)
    (h : ∀ j, k = .change j → ((books s).slot j).state = .fixedSlot) : Works s (orphanAppend s o k) := by
  intro a b
  have g := removeEntries_works s o Entry.isQueued .discarded isQueued_other
  refine g.trans (appendEntry_works _ _ _ rfl fun j e => ?_) a b
  rw [(g a b).slotState]; exact h j e

theorem queueDeparture_works (s : State) (o : Output) (m : Master) : Works s (queueDeparture s o m) := by
  have g := removeEntries_works s o (fun e => e.isQueued && e.origin.map Prod.fst == some m) .discarded
    fun e h => by rw [isQueued_other e h]; rfl
  unfold queueDeparture
  dsimp only
  split
  · exact g.trans (dropCut_works _ _ _)
  · exact g

theorem returnToBound_works (s : State) (o : Output) (h : (s.sq o).state = .waiting) :
    Works s (returnToBound s o) := .of_books (books_returnToBound s o (by rw [h]; exact nofun))

theorem orphanStop_works (s : State) (o : Output) : Works s (orphanStop s o) := by
  unfold orphanStop
  split
  · exact orphanAppend_works _ _ _ nofun
  · rename_i h; exact returnToBound_works _ _ h
  · exact .refl s
  · exact .refl s
  · exact .refl s

theorem orphanFallback_works (s : State) (o : Output) (k : Slot) (h : ((books s).slot k).state = .fixedSlot) :
    Works s (orphanFallback s o k) := by
  have c : ∀ j, EntryKind.change k = .change j → ((books s).slot j).state = .fixedSlot := fun j e => by cases e; exact h
  unfold orphanFallback
  split
  · exact orphanAppend_works _ _ _ c
  · exact orphanAppend_works _ _ _ c
  · exact bind_works _ _ _ h
  · exact bind_works _ _ _ h
  · exact bind_works _ _ _ h

theorem applyPolicy_works (s : State) (o : Output) (p : Policy)
    (h : ∀ k, p = .fallback k → ((books s).slot k).state = .fixedSlot) : Works s (applyPolicy s o p) := by
  cases p with
  | keep => exact .refl s
  | stop => exact orphanStop_works s o
  | fallback k => exact orphanFallback_works s o k (h k rfl)

/-! ### Turns of a frame -/

/-- The places of the output's queue and record name FIXED slots. -/
theorem fixed_of_names {b : Books} (a : RefsOk b) {o : Output} {k : Slot} (h : 0 < names (b.view o) k) :
    (b.slot k).state = .fixedSlot := a.fixed k (Nat.lt_of_lt_of_le h (names_le_refs a o k))

/-- next comes to name the FIXED slot `k`. -/
theorem setNext_moves (s : State) (o : Output) (k : Slot) (h : (s.sq o).next = none)
    (hk : ((books s).slot k).state = .fixedSlot) :
    Moves s ((s.addRef k).setSq o { s.sq o with next := some k }) o (((books s).view o).withNext (some k)) := by
  refine .of_setView (b := (books s).addRef k) o _ ?_ rfl rfl rfl rfl (fun j => by rw [slot_addRef]) fun a => ?_
  · rw [books_setSq_eq, books_addRef, State.queue_addRef]; rfl
  · have x (j : Slot) : names (((books s).view o).withNext (some k)) j
        = names ((books s).view o) j + (k == j).toNat := by
      show names ((viewOf (s.sq o) (s.queue o)).withNext (some k)) j = names (viewOf (s.sq o) (s.queue o)) j + _
      simp only [names, viewOf, View.withNext, h, Option.some_beq_some]
      simp; omega
    refine ⟨fun j => ?_, fun j l => ?_, fun j l => a.cuts o j l⟩
    · have := x j
      rw [slot_addRef]; dsimp only; omega
    · by_cases q : k = j
      · exact q ▸ hk
      · have := x j; rw [beq_false_of_ne q] at this; simp only [Bool.toNat_false] at this; omega

theorem takeHead_moves (s : State) (o : Output) (e : Entry) (rest : List Entry) (h : s.queue o = e :: rest) :
    Moves s (takeHead s o e rest) o (((books s).view o).withQueue ({ e with state := .taken } :: rest)) :=
  setQueue_moves s o _ fun k => by rw [h, changes_cons, changes_cons]

theorem intake_works (s : State) (o : Output) : Works s (intake s o) := by
  unfold intake
  split
  · exact .refl s
  · rename_i e rest g
    split
    · rename_i q
      have q : e.state ≠ .taken := fun t => by simp [Entry.isQueued, t] at q
      intro a b
      have u := (b o).untaken (by
        show ∀ x ∈ (s.queue o).head?, _
        rw [g]; intro x hx; cases hx; exact q)
      have rq : reservedOf ({ e with state := .taken } :: rest) = reservedOf ((books s).view o).queue := by
        show _ = reservedOf (s.queue o)
        rw [g, reservedOf_cons_of_ne (fun h => by cases h), reservedOf_cons_of_ne fun h => by
          simp [Entry.isQueued, h] at *]
      have ur : ∀ x ∈ rest, x.state ≠ .taken := fun x hx => u.1 x (by
        show x ∈ s.queue o; rw [g]; exact List.mem_cons_of_mem _ hx)
      cases k : e.kind with
      | change j =>
        have hj : ((books s).slot j).state = .fixedSlot := by
          refine fixed_of_names a (o := o) ?_
          show 0 < _ + changes (s.queue o) j
          rw [g, changes_cons, k]; simp [kindSlot]
        have t := takeHead_moves s o e rest g
        have n := setNext_moves (takeHead s o e rest) o j
          (by show ((s.setQueue o _).sq o).next = none; rw [State.sq_setQueue]; exact u.2.1)
          (by rw [(t a).slotState]; exact hj)
        refine ((t.trans n).after (books_unsettleFrame _ _)).works (fun _ => ?_) (by rw [(t a).self]; exact rq) a b
        rw [(t a).self]
        refine ⟨ur, ?_, ?_⟩
        · show some j = _
          exact ((takenChange_taken e rest).trans (by simp [k, kindSlot])).symm
        · show ((books s).view o).stopping = _
          rw [u.2.2]
          exact ((takenStop_taken e rest).trans (by simp [k])).symm
      | stop =>
        dsimp only
        split
        · have t := (takeHead_moves s o e rest g).after (books_unsettleFrame _ o)
          have n := setOutState_moves (unsettleFrame (takeHead s o e rest) o) o .stopping
          refine ((t.trans n).after (books_leftRunning _ _)).works (fun _ => ?_) (by rw [(t a).self]; exact rq) a b
          rw [(t a).self]
          refine ⟨ur, ?_, ?_⟩
          · show ((books s).view o).next = _
            rw [u.2.1]
            exact ((takenChange_taken e rest).trans (by simp [k, kindSlot])).symm
          · exact ((takenStop_taken e rest).trans (by rw [k]; rfl)).symm
        · exact Works.refl s a b
    · exact .refl s

theorem nextLine_works (s : State) (o : Output) : Works s (nextLine s o) := by
  have h : Works s (strobeLine (s.setSq o { s.sq o with line := (s.sq o).line + 1, tick := 0, lineEnd := false }) o) :=
    (setSq_works s o { s.sq o with line := (s.sq o).line + 1, tick := 0, lineEnd := false } rfl rfl rfl rfl).after
      (books_strobeLine _ _)
  unfold nextLine
  dsimp only
  split
  · exact h.trans (intake_works _ _)
  · exact h

theorem mem_filter_not {q : List Entry} {p : Entry → Bool} {e : Entry} (h : e ∈ q.filter fun e => !p e) :
    e ∈ q ∧ p e = false := by
  obtain ⟨h1, h2⟩ := List.mem_filter.mp h
  exact ⟨h1, by simpa using h2⟩

theorem isQueued_reserved (e : Entry) (h : e.state = .reserved) : e.isQueued = false := by simp [Entry.isQueued, h]

theorem isTaken_reserved (e : Entry) (h : e.state = .reserved) : e.isTaken = false := by simp [Entry.isTaken, h]

/-- TAKEN entries leave: nothing is taken then. -/
theorem untaken_filter (q : List Entry) : ∀ e ∈ q.filter (fun e => !e.isTaken), e.state ≠ .taken := fun e h t => by
  have := (mem_filter_not h).2
  simp [Entry.isTaken, t] at this


theorem cutFrame_works (s : State) (o : Output) (c : PendingCut) (h : (s.sq o).cut = some c) :
    Works s (cutFrame s o c) := by
  intro a b
  unfold cutFrame
  dsimp only
  have h1 := (clearNext_moves (completeFrame s o true) o).before (books_completeFrame s o true)
  generalize hs1 : clearNext (completeFrame s o true) o = s1 at h1
  have hk : ((books s1).slot c.slot).state = .fixedSlot := by
    rw [(h1 a).slotState]; exact a.cuts o c.slot (by show (s.sq o).cut.map _ = _; rw [h]; rfl)
  have h2 (f : Bool) := rebind_moves s1 o c.slot
    (({ s1.sq o with state := .running, current := some c.slot, cut := none } : OutRec).beginFrame 0 f) hk rfl rfl
    (.inr rfl)
  rw [State.sq_dropRefOpt, State.sq_addRef]
  have h3 := h1.trans (h2 ((s1.addRef c.slot).dropRefOpt (s1.sq o).current).tbu.fail)
  generalize ((s1.addRef c.slot).dropRefOpt (s1.sq o).current).setSq o _ = s2 at h3
  have h4 := h3.trans (removeEntries_moves s2 o Entry.isTaken .superseded)
  generalize hs3 : removeEntries s2 o Entry.isTaken .superseded = s3 at h4
  have h5 := h4.trans (removeEntries_moves s3 o Entry.isQueued .superseded)
  generalize removeEntries s3 o Entry.isQueued .superseded = s4 at h5
  have v1 := (h1 a).self
  have v2 := (h3 a).self
  have v3 := (h4 a).self
  refine (h5.works (fun _ => viewOk_untaken (fun e he => ?_) ?_ ?_) ?_).after ?_ a b
  · have he : e ∈ ((books s3).view o).queue := (List.mem_filter.mp he).1
    rw [v3] at he
    exact untaken_filter _ e he
  · show ((books s3).view o).next = none
    rw [v3]
    show ((books s2).view o).next = none
    rw [v2]
    exact congrArg View.next v1
  · show ((books s3).view o).stopping = false
    rw [v3]
    show ((books s2).view o).stopping = false
    rw [v2]; rfl
  · refine (reservedOf_filter isQueued_reserved).trans ?_
    show reservedOf ((books s3).view o).queue = _
    rw [v3]
    refine (reservedOf_filter isTaken_reserved).trans ?_
    show reservedOf ((books s2).view o).queue = _
    rw [v2]
    show reservedOf ((books s1).view o).queue = _
    rw [v1, books_completeFrame]; rfl
  · rw [books_emittedStart]
    split
    · rw [books_outputNotice, books_changeDone, books_strobeLine]
    · rw [books_changeDone, books_strobeLine]

theorem lineStart_works (s : State) (o : Output) : Works s (lineStart s o) := by
  unfold lineStart
  split
  · rename_i c h
    split
    · exact cutFrame_works s o c h
    · exact nextLine_works s o
  · exact nextLine_works s o

/-- While a STOP is taken, next is absent. -/
theorem Books.ViewOk.next_of_stopping {v : View} (h : ViewOk v) (g : v.stopping = true) : v.next = none := by
  obtain ⟨_, h2, h3⟩ := h
  rw [g] at h3
  cases q : v.queue with
  | nil => rw [q] at h3; cases h3
  | cons e rest =>
    rw [q] at h2 h3
    simp only [takenStop] at h3
    obtain ⟨t, k⟩ := Bool.and_eq_true_iff.mp h3.symm
    rw [h2, takenChange_of_taken (beq_iff_eq.mp t), beq_iff_eq.mp k]; rfl

theorem stopTakesEffect_works (s : State) (o : Output) (hs : (s.sq o).state = .stopping) :
    Works s (stopTakesEffect s o) := by
  intro a b
  unfold stopTakesEffect
  dsimp only
  have h1 := (removeEntries_moves (completeFrame s o false) o Entry.isTaken .applied).before
    (books_completeFrame s o false)
  generalize removeEntries (completeFrame s o false) o Entry.isTaken .applied = s1 at h1
  have h2 := (h1.trans (removeEntries_moves s1 o Entry.isQueued .discarded)).after (books_endBurst _ o .stopped)
  generalize endBurst (removeEntries s1 o Entry.isQueued .discarded) o .stopped = s2 at h2
  have h3 := h2.trans (setSq_moves' s2 o (s2.sq o).toRest rfl rfl rfl)
  generalize s2.setSq o (s2.sq o).toRest = s3 at h3
  have v1 := (h1 a).self
  have v2 := (h2 a).self
  have v3 := (h3 a).self
  refine (h3.trans (setOutState_moves s3 o .bound)).works (fun v => viewOk_untaken (fun e he => ?_) ?_ rfl) ?_ a b
  · have he : e ∈ ((books s3).view o).queue := he
    rw [v3] at he
    have he : e ∈ ((books s2).view o).queue := he
    rw [v2] at he
    have he : e ∈ ((books s1).view o).queue := (mem_filter_not he).1
    rw [v1] at he
    exact untaken_filter _ e he
  · show ((books s3).view o).next = none
    rw [v3]
    show ((books s2).view o).next = none
    rw [v2]
    show ((books s1).view o).next = none
    rw [v1, books_completeFrame]
    exact v.next_of_stopping (by show ((s.sq o).state == .stopping) = true; rw [hs]; rfl)
  · show reservedOf ((books s3).view o).queue = _
    rw [v3]
    show reservedOf ((books s2).view o).queue = _
    rw [v2]
    refine (reservedOf_filter isQueued_reserved).trans ?_
    show reservedOf ((books s1).view o).queue = _
    rw [v1]
    refine (reservedOf_filter isTaken_reserved).trans ?_
    show reservedOf ((books (completeFrame s o false)).view o).queue = _
    rw [books_completeFrame]

/-- next gives way to current. -/
theorem swap_moves (s : State) (o : Output) (k : Slot) (r : OutRec) (hk : ((books s).slot k).state = .fixedSlot)
    (hc : r.current = some k) (hn : r.next = none) (hcut : r.cut = (s.sq o).cut) :
    Moves s ((((s.addRef k).dropRefOpt (s.sq o).current).dropRefOpt (s.sq o).next).setSq o r) o
      (viewOf r (s.queue o)) := by
  refine .of_setView (b := (((books s).addRef k).dropRefOpt (s.sq o).current).dropRefOpt (s.sq o).next) o _ ?_
    (by simp) (by simp) (by simp) (by simp) (fun j => by rw [slot_dropRefOpt, slot_dropRefOpt, slot_addRef])
    fun a => ?_
  · rw [books_setSq_eq, books_dropRefOpt, books_dropRefOpt, books_addRef, State.queue_dropRefOpt,
      State.queue_dropRefOpt, State.queue_addRef]
  · have e (j : Slot) : names (viewOf r (s.queue o)) j + ((s.sq o).current == some j).toNat
        + ((s.sq o).next == some j).toNat = names ((books s).view o) j + (k == j).toNat := by
      show names (viewOf r (s.queue o)) j + _ + _ = names (viewOf (s.sq o) (s.queue o)) j + _
      simp only [names, viewOf, hc, hn, Option.some_beq_some]
      simp; omega
    have l (j : Slot) : ((s.sq o).current == some j).toNat + ((s.sq o).next == some j).toNat
        ≤ names ((books s).view o) j := by
      show _ ≤ names (viewOf (s.sq o) (s.queue o)) j
      simp only [names, viewOf]; omega
    refine ⟨fun j => ?_, fun j h => ?_, fun j h => a.cuts o j ?_⟩
    · have := e j; have := l j; have := names_le_refs a o j
      rw [slot_dropRefOpt, slot_dropRefOpt, slot_addRef]
      dsimp only
      omega
    · by_cases q : k = j
      · exact q ▸ hk
      · have := e j; rw [beq_false_of_ne q] at this; simp only [Bool.toNat_false] at this; omega
    · rw [← h]; show (s.sq o).cut.map _ = r.cut.map _; rw [hcut]

theorem takenChange_some {q : List Entry} {k : Slot} (h : takenChange q = some k) : 0 < changes q k := by
  cases q with
  | nil => cases h
  | cons e rest =>
    by_cases t : e.state = .taken
    · rw [takenChange_of_taken t] at h
      rw [changes_cons, h]; simp
    · simp only [takenChange] at h
      split at h
      · rename_i g _; exact absurd g t
      · cases h

theorem swapped_moves (s : State) (o : Output) (k : Slot) (f : Bool) (hk : ((books s).slot k).state = .fixedSlot) :
    Moves s ((clearNext ((s.addRef k).dropRefOpt (s.sq o).current) o).setSq o
        (({ (clearNext ((s.addRef k).dropRefOpt (s.sq o).current) o).sq o with current := some k }).beginFrame 0 f)) o
      ((((books s).view o).withNext none).withCurrent (some k)) := by
  have hr : (clearNext ((s.addRef k).dropRefOpt (s.sq o).current) o).sq o = { s.sq o with next := none } := by
    unfold clearNext
    dsimp only
    rw [State.sq_setSq_self, State.sq_dropRefOpt, State.sq_dropRefOpt, State.sq_addRef]
  have e : ∀ r, (clearNext ((s.addRef k).dropRefOpt (s.sq o).current) o).setSq o r
      = (((s.addRef k).dropRefOpt (s.sq o).current).dropRefOpt (s.sq o).next).setSq o r := fun r => by
    unfold clearNext
    dsimp only
    rw [State.setSq_setSq, State.sq_dropRefOpt, State.sq_addRef]
  rw [e, hr]
  exact swap_moves s o k (({ s.sq o with next := none, current := some k } : OutRec).beginFrame 0 f) hk rfl rfl rfl

theorem profileSwap_works (s : State) (o : Output) (k : Slot) (hk : takenChange (s.queue o) = some k)
    (hs : (s.sq o).state ≠ .stopping) : Works s (profileSwap s o k) := by
  intro a b
  unfold profileSwap
  dsimp only
  have h0 : books (completeFrame s o false) = books s := books_completeFrame s o false
  generalize completeFrame s o false = s0 at h0
  have hf : ((books s0).slot k).state = .fixedSlot := by
    rw [h0]
    refine fixed_of_names a (o := o) ?_
    have := takenChange_some hk
    show 0 < _ + changes (s.queue o) k
    omega
  have h2 := (swapped_moves s0 o k (clearNext ((s0.addRef k).dropRefOpt (s0.sq o).current) o).tbu.fail hf).before h0
  generalize State.setSq (clearNext ((s0.addRef k).dropRefOpt (s0.sq o).current) o) o _ = s1 at h2
  have v2 := (h2 a).self
  refine ((h2.trans (removeEntries_moves s1 o Entry.isTaken .applied)).works (fun v =>
    viewOk_untaken (untaken_filter _) ?_ ?_) ?_).after ?_ a b
  · show ((books s1).view o).next = none
    rw [v2]; rfl
  · show ((books s1).view o).stopping = false
    rw [v2, h0]
    show ((s.sq o).state == .stopping) = false
    exact beq_false_of_ne hs
  · refine (reservedOf_filter isTaken_reserved).trans ?_
    show reservedOf ((books s1).view o).queue = _
    rw [v2, h0]; rfl
  · rw [books_emittedStart, books_strobeSwap]

theorem frameGoesOn_works (s : State) (o : Output) : Works s (frameGoesOn s o) := by
  refine .of_books ?_
  unfold frameGoesOn
  dsimp only
  have h (t : State) (n : Nat) (f : Bool) : books (strobeLine (t.setSq o ((t.sq o).beginFrame n f)) o) = books t := by
    rw [books_strobeLine]; exact books_setSq t o _ rfl
  split
  · rw [books_emittedStart, h, books_completeFrame]
  · rw [h, books_completeFrame]

theorem frameBoundary_works (s : State) (o : Output) : Works s (frameBoundary s o) := by
  unfold frameBoundary
  split
  · rename_i c h; exact cutFrame_works s o c h
  · split
    · rename_i h; exact stopTakesEffect_works s o h
    · rename_i h
      split
      · rename_i k g; exact profileSwap_works s o k g h
      · exact frameGoesOn_works s o

theorem lineEnds_works (s : State) (o : Output) : Works s (lineEnds s o) := by
  unfold lineEnds
  split
  · exact frameBoundary_works s o
  · exact lineStart_works s o

/-! ### Standby entry -/

theorem standbyOutput_works (s : State) (o : Output) : Works s (standbyOutput s o) := by
  intro a b
  unfold standbyOutput queueStandby
  dsimp only
  have h1 := clearNext_moves s o
  generalize clearNext s o = s1 at h1
  have h2 := h1.trans (removeEntries_moves s1 o (fun e => e.isQueued || e.isTaken) .discarded)
  generalize removeEntries s1 o (fun e => e.isQueued || e.isTaken) .discarded = s2 at h2
  have h3 := (h2.trans (dropCut_moves s2 o .superseded)).after (books_endBurst _ o .standby)
  generalize endBurst (dropCut s2 o .superseded) o .standby = s3 at h3
  have v1 := (h1 a).self
  have v2 := (h2 a).self
  have v3 := (h3 a).self
  have hq : ∀ e ∈ ((books s3).view o).queue, e.state ≠ .taken := fun e he t => by
    rw [v3] at he
    have he : e ∈ ((books s2).view o).queue := he
    rw [v2] at he
    have := (mem_filter_not he).2
    simp [Entry.isTaken, t] at this
  have hn : ((books s3).view o).next = none := by
    rw [v3]
    show ((books s2).view o).next = none
    rw [v2]
    show ((books s1).view o).next = none
    rw [v1]; rfl
  have hr : reservedOf ((books s3).view o).queue = reservedOf ((books s).view o).queue := by
    rw [v3]
    show reservedOf ((books s2).view o).queue = _
    rw [v2]
    refine (reservedOf_filter (p := fun e => e.isQueued || e.isTaken) fun e h => by
      rw [isQueued_reserved e h, isTaken_reserved e h]; rfl).trans ?_
    show reservedOf ((books s1).view o).queue = _
    rw [v1]; rfl
  have rest (hs : (s3.sq o).state ≠ .stopping) : Works s s3 := h3.works (fun _ => by
    rw [← v3]
    exact viewOk_untaken hq hn (by show ((s3.sq o).state == .stopping) = false; exact beq_false_of_ne hs))
    (by rw [← v3]; exact hr)
  have toBound : Works s (standbyRest s3 o) := by
    refine ((h3.trans (setSq_moves' s3 o
      { (s3.sq o).toRest with resumeMark := (s3.sq o).resumeMark || (s3.sq o).state != .stopping } rfl rfl rfl)).trans
        (setOutState_moves _ o .bound)).works (fun _ => viewOk_untaken ?_ ?_ rfl) ?_
    · intro e he
      refine hq e ?_
      have he : e ∈ (State.setSq s3 o _).queue o := he
      rw [State.queue_setSq] at he
      exact he
    · show (State.sq (s3.setSq o _) o).next = none
      rw [State.sq_setSq_self]
      exact hn
    · show reservedOf ((State.setSq s3 o _).queue o) = _
      rw [State.queue_setSq]; exact hr
  split
  · rename_i g; exact rest (by rw [g]; exact nofun) a b
  · rename_i g; exact rest (by rw [g]; exact nofun) a b
  · exact toBound a b
  · exact toBound a b
  · exact toBound.after (books_examine _ _) a b

theorem enterStandby_works (s : State) : Works s (enterStandby s) := by
  refine (Works.foldl standbyOutput standbyOutput_works allOutputs s).after ?_
  show books (tbuStandby _) = _
  unfold tbuStandby
  simp only [books_endNotice, books_setTbu, books_settleClocks]

/-! ### Groups, wake and idle steps -/

theorem books_setWaiting (os : List Output) (s : State) (h : ∀ o ∈ os, (s.sq o).state ≠ .stopping) :
    books (setWaiting s os) = books s := by
  induction os generalizing s with
  | nil => rfl
  | cons o os ih =>
    have e : books (s.setSq o { s.sq o with state := .waiting }) = books s := books_setSq s o _ (by
      simp [viewOf, beq_false_of_ne (h o List.mem_cons_self)])
    exact (ih _ fun p hp hs => h p (List.mem_cons_of_mem _ hp) ((stopping_of_books e p).mp hs)).trans e

theorem books_handMoves (s : State) (moved starting : List Output)
    (h : ∀ o ∈ starting, (s.sq o).state ≠ .stopping) : books (handMoves s moved starting) = books s := by
  unfold handMoves
  generalize allOutputs = os
  induction os generalizing s with
  | nil => rfl
  | cons o os ih =>
    rw [List.foldl_cons]
    have e : books (if starting.contains o then
        startOne (if moved.contains o then outputNotice s o .bound else s) o
        else (if moved.contains o then outputNotice s o .bound else s)) = books s := by
      have e1 : books (if moved.contains o then outputNotice s o .bound else s) = books s := by split <;> simp
      split
      · rename_i g
        rw [books_startOne _ _ fun l => h o (List.contains_iff_mem.mp g) ((stopping_of_books e1 o).mp l), e1]
      · exact e1
    exact (ih _ fun p hp l => h p hp ((stopping_of_books e p).mp l)).trans e

@[simp] theorem books_handMoves_startSet (s : State) (moved moment : List Output) :
    books (handMoves s moved (s.startSet moment)) = books s :=
  books_handMoves _ _ _ fun o h => by rw [waiting_of_startSet h]; exact nofun

theorem books_groupMove (s : State) (m : Master) (g : Group) : books (groupMove s (groupMovers s m g)) = books s := by
  unfold groupMove
  dsimp only
  rw [books_handMoves_startSet, books_setWaiting]
  intro o h
  have h := (List.mem_filter.mp h).2
  simp only [Bool.and_eq_true, beq_iff_eq] at h
  rw [h.1.2]; exact nofun

@[simp] theorem books_resumeOutputs (s : State) (marked : List Output) : books (resumeOutputs s marked) = books s := by
  unfold resumeOutputs
  dsimp only
  rw [books_handMoves_startSet, books_setWaiting]
  intro o h
  rw [beq_iff_eq.mp (List.mem_filter.mp h).2]; exact nofun

@[simp] theorem books_wakeMarks (s : State) (os : List Output) :
    books (os.foldl (fun s o => s.setSq o (s.sq o).wake) s) = books s :=
  books_foldl _ (fun s o => books_setSq s o (s.sq o).wake rfl) os s

theorem tickAll_now (s : State) : (tickAll s).now = s.now := by unfold tickAll; rw [mapSq_eq]

@[simp] theorem books_tickAll (s : State) : books (tickAll s) = books s :=
  books_mapSq s _ fun t o => by
    unfold OutRec.tickOnce
    split
    · split <;> rfl
    · rfl

@[simp] theorem books_pass (s : State) (n : Nat) : books (pass s n) = books s := rfl

@[simp] theorem books_synTick (s : State) (c : Settings) : books (synTick s c) = books s := by
  refine Eq.trans ?_ (books_tickAll s)
  unfold synTick Machine.pass
  generalize tickAll s = t
  rfl

/-- `M` times the IRC cycles that a synthesized tick passes, with the part left over, is `P Q` and the part before it,
each part being less than a cycle (R104). -/
theorem synTick_time (s : State) {c : Settings} (h : 0 < c.m) :
    ∃ n, (synTick s c).now = s.now + n ∧ c.m * n + (synTick s c).synPhase = s.synPhase % c.m + c.p * c.q
      ∧ (synTick s c).synPhase < c.m :=
  ⟨_, congrArg (· + _) (tickAll_now s), Nat.div_add_mod _ _, Nat.mod_lt _ h⟩

@[simp] theorem books_clockEdge (s : State) : books (clockEdge s) = books s := by
  unfold clockEdge
  split
  · simp
  · simp
  · simp
  · split <;> simp

@[simp] theorem books_timePasses (s : State) : books (timePasses s) = books s := by
  refine Eq.trans ?_ (books_clockEdge s)
  unfold timePasses
  generalize clockEdge s = t
  rfl

theorem idle_works (s : State) : Works s (idle s) := by
  unfold idle
  split
  · exact .refl s
  · split
    · exact lineEnds_works s _
    · exact .of_books (books_timePasses s)

end Sys2Proof.Laws
end

