-- ==== Sys2Proof/Laws/Records.lean ====
section
/-! SUPPORT. `Sound s`: the laws of the records together, in the books (`recordLaws_iff_sound`). What frees, adds or
changes a proposal, a claim record or a slot, and what that does to the references. -/

namespace Sys2Proof.Laws

open Machine Books

/-! ### The laws -/

/-- What R64 says of one claim record. -/
structure ClaimOk (joined : Master → Bool) (c : ClaimRec) : Prop where
  free_iff : c.mode = .free ↔ c.holders = []
  keep : c.mode = .free → c.policy = .keep
  one : c.mode = .exclusive → c.holders.length = 1
  nodup : (c.holders.map Holder.master).Nodup
  mem : ∀ h ∈ c.holders, joined h.master = true

/-- What R64 says of the record of TB besides. -/
def TbOk (c : ClaimRec) : Prop := c.policy = .keep ∧ ∀ h ∈ c.holders, h.level = .none

def ClaimsOk (b : Books) : Prop := (∀ t, ClaimOk b.joined (b.claim t)) ∧ TbOk (b.claim .tb)

/-- What R78 says of the Proposal Table. -/
structure Table (ps : List Proposal) : Prop where
  bound : ps.length ≤ 4
  ids : (ps.map Proposal.id).Nodup
  targets : (ps.map fun p => p.matter.target).Nodup

/-- What R78 says of the voters of one proposal, decided or not. -/
structure Voters (p : Proposal) : Prop where
  proposer : p.proposer ∉ p.required
  required : p.required = allMasters.filter fun m => p.required.contains m
  accepted : p.accepted = allMasters.filter fun m => p.accepted.contains m
  subset : ∀ m ∈ p.accepted, m ∈ p.required

/-- The proposer holds the target (R79). -/
def Held (b : Books) (p : Proposal) : Prop :=
  ∀ t, p.matter.target = some t → p.proposer ∈ (b.claim t).holders.map Holder.master

/-- What R49 says of the RESERVED entries. -/
def ReservedOk (b : Books) : Prop :=
  ∀ o, reservedOf (b.view o).queue = b.proposals.filterMap (reservation o)

structure Sound (s : State) : Prop where
  refs : Refs s
  taken : Taken s
  reserved : ReservedOk (books s)
  claims : ClaimsOk (books s)
  table : Table (books s).proposals
  held : ∀ p ∈ (books s).proposals, Held (books s) p
  voters : ∀ p ∈ (books s).proposals, Voters p
  undecided : ∀ p ∈ (books s).proposals, p.accepted ≠ p.required

theorem refs_iff (s : State) : Refs s ↔ RefLaw s := by
  have e (k : Slot) : (books s).places k = placesNaming s k := rfl
  constructor
  · intro h
    exact ⟨fun k => h.count k, h.fixed, fun o c hc => h.cuts o c.slot (by
      show (s.sq o).cut.map _ = _; rw [hc]; rfl)⟩
  · rintro ⟨h1, h2, h3⟩
    refine ⟨fun k => h1 k, h2, fun o k hk => ?_⟩
    obtain ⟨c, hc, rfl⟩ := Option.map_eq_some_iff.mp (show (s.sq o).cut.map _ = _ from hk)
    exact h3 o c hc

theorem takenChange_iff (q : List Entry) (k : Slot) :
    takenChange q = some k ↔ ∃ e, q.head? = some e ∧ e.state = .taken ∧ e.kind = .change k := by
  cases q with
  | nil => simp [takenChange]
  | cons e q =>
    by_cases t : e.state = .taken
    · rw [takenChange_of_taken t]
      cases h : e.kind <;> simp [kindSlot, h, t]
    · have : takenChange (e :: q) = none := by
        simp only [takenChange]
        split
        · rename_i g _; exact absurd g t
        · rfl
      simp [this, t]

theorem takenStop_iff (q : List Entry) :
    takenStop q = true ↔ ∃ e, q.head? = some e ∧ e.state = .taken ∧ e.kind = .stop := by
  cases q <;> simp [takenStop]

theorem taken_iff (s : State) : Taken s ↔ TakenLaw s := by
  refine forall_congr' fun o => and_congr Iff.rfl (and_congr ?_ ?_)
  · show (s.sq o).next = takenChange (s.queue o) ↔ _
    constructor
    · intro h k; rw [h]; exact takenChange_iff _ _
    · intro h
      refine Option.ext fun k => ?_
      rw [h k, takenChange_iff]
  · show ((s.sq o).state == .stopping) = takenStop (s.queue o) ↔ _
    rw [← takenStop_iff, Bool.eq_iff_iff, beq_iff_eq]

theorem isHolder_iff (s : State) (t : Target) (m : Master) :
    s.isHolder t m = true ↔ m ∈ ((books s).claim t).holders.map Holder.master := List.contains_iff_mem

theorem recordLaws_iff_sound (s : State) : RecordLaws s ↔ Sound s := by
  unfold RecordLaws
  rw [← refs_iff, ← taken_iff]
  constructor
  · rintro ⟨h1, h2, hr, ⟨c1, c2, c3⟩, r1, r2, r3, r4⟩
    refine ⟨h1, h2, hr, ⟨fun t => ?_, c2, c3⟩, ⟨r1, r2, r3⟩, fun p hp t ht => ?_, fun p hp => ?_, fun p hp => ?_⟩
    · obtain ⟨a, b, c, d, e⟩ := c1 t
      exact ⟨a, b, c, d, e⟩
    · exact (isHolder_iff s t _).mp ((r4 p hp).1 t ht)
    · obtain ⟨_, b, c, d, e, _⟩ := r4 p hp
      exact ⟨b, c, d, e⟩
    · exact (r4 p hp).2.2.2.2.2
  · rintro ⟨h1, h2, hr, ⟨c1, c2, c3⟩, ⟨r1, r2, r3⟩, hh, hv, hu⟩
    refine ⟨h1, h2, hr, ⟨fun t => ?_, c2, c3⟩, r1, r2, r3, fun p hp => ?_⟩
    · obtain ⟨a, b, c, d, e⟩ := c1 t
      exact ⟨a, b, c, d, e⟩
    · obtain ⟨b, c, d, e⟩ := hv p hp
      exact ⟨fun t ht => (isHolder_iff s t _).mpr (hh p hp t ht), b, c, d, e, hu p hp⟩

/-- An operation on the outputs keeps the laws. -/
theorem Sound.works {s t : State} (h : Sound s) (w : Works s t) : Sound t := by
  obtain ⟨r, k, q, _, hc, hp, hj⟩ := w h.refs h.taken
  refine ⟨r, k, fun o => by rw [q o, hp]; exact h.reserved o, ?_, by rw [hp]; exact h.table, ?_, by rw [hp]; exact h.voters, by rw [hp]; exact h.undecided⟩
  · unfold ClaimsOk; rw [hc, hj]; exact h.claims
  · rw [hp]; intro p m; unfold Held; rw [hc]; exact h.held p m

theorem Sound.of_books {s t : State} (h : Sound s) (e : books t = books s) : Sound t := h.works (.of_books e)

/-! ### References of proposals -/

/-- The proposals whose payload names slot `k`. -/
def payloads (ps : List Proposal) (k : Slot) : Nat := (ps.filter fun p => p.matter.payloadSlot == some k).length

theorem payloads_cons (p : Proposal) (ps : List Proposal) (k : Slot) :
    payloads (p :: ps) k = (p.matter.payloadSlot == some k).toNat + payloads ps k := by
  unfold payloads
  cases h : p.matter.payloadSlot == some k
  · rw [List.filter_cons_of_neg (by simp [h])]; simp
  · rw [List.filter_cons_of_pos (by simp [h])]; simp [Nat.add_comm]

theorem payloads_append (ps qs : List Proposal) (k : Slot) :
    payloads (ps ++ qs) k = payloads ps k + payloads qs k := by simp [payloads]

theorem filter_id_of_not_mem {ps : List Proposal} {x : Nat} (h : x ∉ ps.map Proposal.id) :
    ps.filter (fun q => q.id != x) = ps := List.filter_eq_self.mpr fun q hq => by
  have : q.id ≠ x := fun e => h (e ▸ List.mem_map_of_mem hq)
  simp [this]

/-- One proposal is freed: its payload names its slot no longer. -/
theorem payloads_free {ps : List Proposal} {p : Proposal} (hp : p ∈ ps) (hn : (ps.map Proposal.id).Nodup) (k : Slot) :
    payloads (ps.filter fun q => q.id != p.id) k + (p.matter.payloadSlot == some k).toNat = payloads ps k := by
  induction ps with
  | nil => cases hp
  | cons q ps ih =>
    rw [List.map_cons, List.nodup_cons] at hn
    rcases List.mem_cons.mp hp with rfl | hp
    · rw [List.filter_cons_of_neg (by simp), filter_id_of_not_mem hn.1, payloads_cons]; omega
    · have : q.id ≠ p.id := fun e => hn.1 (e ▸ List.mem_map_of_mem hp)
      rw [List.filter_cons_of_pos (by simp [this]), payloads_cons, payloads_cons]
      have := ih hp hn.2
      omega

namespace Books

theorem places_eq (b : Books) (k : Slot) : b.places k
    = (allOutputs.map fun o => names (b.view o) k + ((b.claim (.out o)).policy == .fallback k).toNat).sum
      + payloads b.proposals k := rfl

theorem payloads_le_places (b : Books) (k : Slot) : payloads b.proposals k ≤ b.places k := by
  rw [places_eq]; omega

/-- Proposals change, and the references follow. -/
theorem RefsOk.setProposals {b b' : Books} (h : RefsOk b) (hv : b'.view = b.view) (hc : b'.claim = b.claim)
    (hs : ∀ k, (b'.slot k).state = (b.slot k).state)
    (hr : ∀ k, (b'.slot k).refs + payloads b.proposals k = (b.slot k).refs + payloads b'.proposals k)
    (hf : ∀ k, payloads b.proposals k < payloads b'.proposals k → (b.slot k).state = .fixedSlot) : RefsOk b' := by
  refine ⟨fun k => ?_, fun k hk => ?_, fun o k hk => ?_⟩
  · have := hr k; have := h.count k
    rw [places_eq] at this
    rw [places_eq, hv, hc]; omega
  · rw [hs]
    by_cases g : payloads b.proposals k < payloads b'.proposals k
    · exact hf k g
    · exact h.fixed k (by have := hr k; omega)
  · rw [hs]; rw [hv] at hk; exact h.cuts o k hk

end Books

theorem payload_fixed {s : State} (a : Refs s) {p : Proposal} (hp : p ∈ (books s).proposals) {k : Slot}
    (hk : p.matter.payloadSlot = some k) : ((books s).slot k).state = .fixedSlot := by
  refine a.fixed k ?_
  rw [a.count k]
  refine Nat.lt_of_lt_of_le ?_ (payloads_le_places _ k)
  exact List.length_pos_of_mem (List.mem_filter.mpr ⟨hp, by rw [hk]; simp⟩)

@[simp] theorem books_setProposals (s : State) (ps : List Proposal) :
    books (s.setProposals ps) = (books s).setProposals ps := rfl

/-- A proposal is freed with its payload's reference (R86, R90). -/
theorem refs_free {s : State} (a : Refs s) {p : Proposal} (hp : p ∈ (books s).proposals)
    (hn : ((books s).proposals.map Proposal.id).Nodup) :
    Refs (freeProposal (s.dropRefOpt p.matter.payloadSlot) p.id) := by
  have e : books (freeProposal (s.dropRefOpt p.matter.payloadSlot) p.id)
      = ((books s).dropRefOpt p.matter.payloadSlot).setProposals
          ((books s).proposals.filter fun q => q.id != p.id) := by
    unfold freeProposal
    rw [books_setProposals, books_dropRefOpt]
    congr 1
    rw [State.dropRefOpt_consent]; rfl
  show RefsOk _
  rw [e]
  refine RefsOk.setProposals a (by simp [Books.setProposals]) (by simp [Books.setProposals]) (fun k => ?_) (fun k => ?_)
    fun k h => ?_
  · show (((books s).dropRefOpt _).slot k).state = _
    rw [slot_dropRefOpt]
  · show (((books s).dropRefOpt _).slot k).refs + _ = _ + payloads ((books s).proposals.filter _) k
    have := payloads_free hp hn k
    have := a.count k; have := payloads_le_places (books s) k
    rw [slot_dropRefOpt]; dsimp only; omega
  · have : payloads (books s).proposals k < payloads ((books s).proposals.filter fun q => q.id != p.id) k := h
    have := payloads_free hp hn k
    omega

/-! ### References of claim records -/

/-- The orphan policy of one output's record changes, and the references follow. -/
theorem Books.RefsOk.setPolicy {b b' : Books} (h : RefsOk b) (o : Output) (hv : b'.view = b.view)
    (hc : ∀ p, p ≠ o → b'.claim (.out p) = b.claim (.out p)) (hp : b'.proposals = b.proposals)
    (hs : ∀ k, (b'.slot k).state = (b.slot k).state)
    (hr : ∀ k, (b'.slot k).refs + ((b.claim (.out o)).policy == .fallback k).toNat
      = (b.slot k).refs + ((b'.claim (.out o)).policy == .fallback k).toNat)
    (hf : ∀ k, (b'.claim (.out o)).policy = .fallback k → (b.slot k).state = .fixedSlot) : RefsOk b' := by
  have e (k : Slot) : b'.places k + ((b.claim (.out o)).policy == .fallback k).toNat
      = b.places k + ((b'.claim (.out o)).policy == .fallback k).toNat := by
    have := sum_update (fun q => names (b'.view q) k + ((b'.claim (.out q)).policy == .fallback k).toNat)
      (fun q => names (b.view q) k + ((b.claim (.out q)).policy == .fallback k).toNat) o
      fun q hq => by simp only [hv, hc q hq]
    simp only [hv] at this
    rw [places_eq, places_eq, hp]
    simp only [hv]
    omega
  refine ⟨fun k => ?_, fun k hk => ?_, fun q k hk => ?_⟩
  · have := hr k; have := h.count k; have := e k; omega
  · rw [hs]
    by_cases g : (b'.claim (.out o)).policy = .fallback k
    · exact hf k g
    · refine h.fixed k ?_
      have := hr k
      rw [show ((b'.claim (.out o)).policy == .fallback k) = false from beq_false_of_ne g] at this
      simp only [Bool.toNat_false] at this
      omega
  · rw [hs]; rw [hv] at hk; exact h.cuts q k hk

/-- Claim records change, and no policy does. -/
theorem Books.RefsOk.of_policies {b b' : Books} (h : RefsOk b) (hsl : b'.slot = b.slot) (hv : b'.view = b.view)
    (hc : ∀ p, (b'.claim (.out p)).policy = (b.claim (.out p)).policy) (hp : b'.proposals = b.proposals) :
    RefsOk b' := by
  have e (k : Slot) : b'.places k = b.places k := by
    rw [places_eq, places_eq, hp, hv]; simp only [hc]
  exact ⟨fun k => by rw [hsl, e]; exact h.count k, fun k => by rw [hsl]; exact h.fixed k,
    fun o k => by rw [hsl, hv]; exact h.cuts o k⟩

theorem mem_allOutputs (o : Output) : o ∈ allOutputs := by fin_cases o <;> simp [allOutputs]

theorem policy_fixed {s : State} (a : Refs s) {o : Output} {k : Slot}
    (h : ((books s).claim (.out o)).policy = .fallback k) : ((books s).slot k).state = .fixedSlot := by
  refine a.fixed k ?_
  rw [a.count k, places_eq]
  refine Nat.lt_of_lt_of_le ?_ (Nat.le_add_right _ _)
  refine Nat.lt_of_lt_of_le ?_ (List.single_le_sum (by simp) _
    (List.mem_map_of_mem (a := o) (mem_allOutputs o)))
  rw [h]; simp

theorem books_setClaim (s : State) (t : Target) (c : ClaimRec) : books (s.setClaim t c) = (books s).setClaim t c := by
  have e : (s.setClaim t c).claim = fun g => if g = t then c else s.claim g := funext fun g => by
    split
    · rename_i h; subst h; exact State.claim_setClaim_self _ _ _
    · rename_i h; exact State.claim_setClaim_ne _ _ h
  have e2 : (s.setClaim t c).chan = s.chan := by cases t <;> rfl
  have e3 : (s.setClaim t c).slot = s.slot := by cases t <;> rfl
  have e4 : (s.setClaim t c).joined = s.joined := by cases t <;> rfl
  have e5 : (s.setClaim t c).consent = s.consent := by cases t <;> rfl
  simp only [books, e, e3, e4, e5, State.sq, State.queue, e2]; rfl

end Sys2Proof.Laws
end

