-- ==== Sys2Proof/Laws/Ends.lean ====
section
/-! SUPPORT. The ends of a proposal, its carrying, and the votes keep the laws of the records. -/

namespace Sys2Proof.Laws

open Machine Books

/-! ### Nobody joins a list -/

/-- No master holds in `t` what it did not hold in `s`. -/
def Shrinks (s t : State) : Prop :=
  ∀ g m, m ∈ ((books t).claim g).holders.map Holder.master → m ∈ ((books s).claim g).holders.map Holder.master

theorem Shrinks.trans {s t u : State} (h : Shrinks s t) (g : Shrinks t u) : Shrinks s u := fun x m k => h x m (g x m k)

theorem Shrinks.of_claim {s t : State} (h : (books t).claim = (books s).claim) : Shrinks s t := fun g m k => by
  rw [← h]; exact k

theorem Shrinks.refl (s : State) : Shrinks s s := .of_claim rfl

/-! ### A proposal ends -/

/-- The entry is not the RESERVED one of `p` in the queue of `o`. -/
def notFor (p : Proposal) (o : Output) (e : Entry) : Bool := !((reservation o p).isSome && e.pid == some p.id)

theorem reservation_pid {o : Output} {q : Proposal} {e : Entry} (h : reservation o q = some e) : e.pid = some q.id := by
  unfold reservation at h
  split at h
  · split at h
    · cases h; rfl
    · cases h
  · split at h
    · cases h; rfl
    · cases h
  · cases h

theorem reservation_of_reserves {p : Proposal} {o q : Output} {k : EntryKind} (h : p.matter.reserves = some (o, k)) :
    (reservation q p).isSome = (q == o) := by
  unfold reservation
  cases e : p.matter <;> rw [e] at h <;> simp only [Matter.reserves] at h
  · cases h
    by_cases g : o = q
    · simp [g]
    · simp [g, Ne.symm g]
  · cases h
    by_cases g : o = q
    · simp [g]
    · simp [g, Ne.symm g]
  all_goals cases h

theorem reservation_of_none {p : Proposal} (h : p.matter.reserves = none) (q : Output) : reservation q p = none := by
  unfold reservation
  cases e : p.matter <;> rw [e] at h <;> first | rfl | cases h

theorem filter_notFor_of_none {p : Proposal} {o : Output} (h : (reservation o p).isSome = false) (q : List Entry) :
    q.filter (notFor p o) = q := List.filter_eq_self.mpr fun e _ => by simp [notFor, h]

/-- The RESERVED entries of a table without `p`. -/
theorem reservations_free {ps : List Proposal} {p : Proposal} (h : ∀ q ∈ ps, q.id = p.id → q = p) (o : Output) :
    (ps.filterMap (reservation o)).filter (notFor p o)
      = (ps.filter fun q => q.id != p.id).filterMap (reservation o) := by
  induction ps with
  | nil => rfl
  | cons q ps ih =>
    have ih := ih fun x hx => h x (.tail _ hx)
    by_cases e : q.id = p.id
    · obtain rfl := h q (.head _) e
      rw [List.filter_cons_of_neg (by simp), ← ih, List.filterMap_cons]
      cases g : reservation o q with
      | none => rfl
      | some x => exact List.filter_cons_of_neg (by simp [notFor, g, reservation_pid g])
    · rw [List.filter_cons_of_pos (by simp [e]), List.filterMap_cons, List.filterMap_cons, ← ih]
      cases g : reservation o q with
      | none => rfl
      | some x => exact List.filter_cons_of_pos (by simp [notFor, reservation_pid g, e])

/-- What the books of `t` say after an operation on the outputs of `s` by which the RESERVED entry of `p` is no more. -/
structure Freed (s t : State) (p : Proposal) : Prop where
  refs : Refs t
  taken : Taken t
  reserved : ∀ o, reservedOf ((books t).view o).queue = (reservedOf ((books s).view o).queue).filter (notFor p o)
  slotState : ∀ k, ((books t).slot k).state = ((books s).slot k).state
  claim : (books t).claim = (books s).claim
  proposals : (books t).proposals = (books s).proposals
  joined : (books t).joined = (books s).joined

theorem Worked.freed {s t : State} {p : Proposal} (h : Worked s t) (g : p.matter.reserves = none) : Freed s t p :=
  ⟨h.refs, h.taken, fun o => by
    rw [h.reserved, filter_notFor_of_none (by rw [reservation_of_none g]; rfl)], h.slotState, h.claim, h.proposals,
    h.joined⟩

theorem Freed.works {s u t : State} {p : Proposal} (h : Freed s u p) (w : Works u t) : Freed s t p :=
  have w := w h.refs h.taken
  ⟨w.refs, w.taken, fun o => (w.reserved o).trans (h.reserved o), fun k => (w.slotState k).trans (h.slotState k),
    w.claim.trans h.claim, w.proposals.trans h.proposals, w.joined.trans h.joined⟩

/-- The output of `p` ends with a view that obeys its law, without the RESERVED entry of `p`. -/
theorem freed_of_moves {s t : State} {o : Output} {w : View} {p : Proposal} {r : EntryKind}
    (hp : p.matter.reserves = some (o, r)) (h : Moves s t o w) (k : ViewOk ((books s).view o) → ViewOk w)
    (q : reservedOf w.queue = (reservedOf ((books s).view o).queue).filter (notFor p o)) (a : Refs s) (b : Taken s) :
    Freed s t p := by
  have h := h a
  refine ⟨h.refs, Moves.takes h k b, fun x => ?_, h.slotState, h.claim, h.proposals, h.joined⟩
  rw [h.view]
  by_cases e : x = o
  · subst e; rw [view_setView_self]; exact q
  · rw [view_setView_ne _ _ e,
      filter_notFor_of_none (by rw [reservation_of_reserves hp]; exact beq_false_of_ne e)]

/-- The RESERVED entry of `p` leaves the queue. -/
theorem removeReserved_freed {s : State} {o : Output} {p : Proposal} {r : EntryKind}
    (hp : p.matter.reserves = some (o, r)) (c : ChangeOutcome) (a : Refs s) (b : Taken s) :
    Freed s (removeEntries s o (Entry.isReservedBy p.id) c) p := by
  refine freed_of_moves hp (removeEntries_moves s o (Entry.isReservedBy p.id) c)
    (fun v => v.filter (isReservedBy_taken p.id)) ?_ a b
  show reservedOf ((s.queue o).filter fun e => !e.isReservedBy p.id) = (reservedOf (s.queue o)).filter (notFor p o)
  unfold reservedOf
  rw [List.filter_filter, List.filter_filter]
  refine List.filter_congr fun e _ => ?_
  simp only [notFor, reservation_of_reserves hp, Entry.isReservedBy]
  cases e.state == .reserved <;> simp

/-- The RESERVED entry of `p` becomes QUEUED in its place. -/
theorem queueReserved_freed {s : State} {o : Output} {p : Proposal} {r : EntryKind}
    (hp : p.matter.reserves = some (o, r)) (a : Refs s) (b : Taken s) : Freed s (queueReserved s o p.id) p := by
  have f (e : Entry) : (if e.isReservedBy p.id then { e with state := .queued } else e : Entry).kind = e.kind := by
    split <;> rfl
  refine freed_of_moves hp (setQueue_moves s o _ fun k => ?_) (fun v => ?_) ?_ a b
  · induction s.queue o with
    | nil => rfl
    | cons e q ih => rw [List.map_cons, changes_cons, changes_cons, f, ih]
  · refine v.map (fun e h => by rw [isReservedBy_taken p.id e h]; rfl) fun e h => ?_
    split at h
    · cases h
    · exact h
  · show reservedOf ((s.queue o).map fun e => if e.isReservedBy p.id then { e with state := .queued } else e)
      = (reservedOf (s.queue o)).filter (notFor p o)
    induction s.queue o with
    | nil => rfl
    | cons e q ih =>
      rw [List.map_cons]
      by_cases g : e.isReservedBy p.id
      · rw [if_pos g, reservedOf_cons_of_ne (fun h => by cases h), ih]
        obtain ⟨g1, g2⟩ := Bool.and_eq_true_iff.mp g
        unfold reservedOf
        rw [List.filter_cons_of_pos (p := fun e : Entry => e.state == .reserved) g1, List.filter_cons_of_neg]
        simp [notFor, reservation_of_reserves hp, g2]
      · rw [if_neg g]
        by_cases g1 : e.state = .reserved
        · have g2 : notFor p o e = true := by
            simp only [Entry.isReservedBy, g1] at g
            simp only [notFor, reservation_of_reserves hp]
            simpa using g
          unfold reservedOf at ih ⊢
          rw [List.filter_cons_of_pos (by simp [g1]), List.filter_cons_of_pos (by simp [g1]),
            List.filter_cons_of_pos g2, ih]
        · rw [reservedOf_cons_of_ne g1, reservedOf_cons_of_ne g1, ih]

/-- The proposal `p` is gone, and nothing has changed but the outputs. -/
structure Ended (s t : State) (p : Proposal) : Prop where
  refs : Refs t
  taken : Taken t
  reserved : ∀ o, reservedOf ((books t).view o).queue = (reservedOf ((books s).view o).queue).filter (notFor p o)
  claim : (books t).claim = (books s).claim
  proposals : (books t).proposals = (books s).proposals.filter fun q => q.id != p.id
  joined : (books t).joined = (books s).joined

theorem Table.free {ps : List Proposal} (h : Table ps) (x : Nat) : Table (ps.filter fun q => q.id != x) :=
  ⟨(List.length_filter_le _ _).trans h.bound, h.ids.sublist (List.filter_sublist.map _),
    h.targets.sublist (List.filter_sublist.map _)⟩

/-- What frees a proposal after an operation on the outputs. -/
theorem ended_of_freed {s u t : State} {p : Proposal} (w : Freed s u p) (hp : p ∈ (books s).proposals)
    (hn : Table (books s).proposals) (e : books t = books (freeProposal (u.dropRefOpt p.matter.payloadSlot) p.id)) :
    Ended s t p := by
  have q : (books (freeProposal (u.dropRefOpt p.matter.payloadSlot) p.id)).proposals
      = (books s).proposals.filter fun q => q.id != p.id := by
    rw [← w.proposals]
    unfold freeProposal
    rw [books_setProposals, State.dropRefOpt_consent]; rfl
  have r := refs_free w.refs (p := p) (by rw [w.proposals]; exact hp) (by rw [w.proposals]; exact hn.ids)
  have v : (books (freeProposal (u.dropRefOpt p.matter.payloadSlot) p.id)).view = (books u).view := by
    unfold freeProposal; rw [books_setProposals, books_dropRefOpt]; exact view_dropRefOpt _ _
  have c : (books (freeProposal (u.dropRefOpt p.matter.payloadSlot) p.id)).claim = (books u).claim := by
    unfold freeProposal; rw [books_setProposals, books_dropRefOpt]; exact claim_dropRefOpt _ _
  have j : (books (freeProposal (u.dropRefOpt p.matter.payloadSlot) p.id)).joined = (books u).joined := by
    unfold freeProposal; rw [books_setProposals, books_dropRefOpt]; exact joined_dropRefOpt _ _
  refine ⟨?_, ?_, fun o => ?_, ?_, ?_, ?_⟩
  · show RefsOk _; rw [e]; exact r
  · intro o; rw [e, v]; exact w.taken o
  · rw [e, v]; exact w.reserved o
  · rw [e, c, w.claim]
  · rw [e, q]
  · rw [e, j, w.joined]

theorem endProposal_ended {s : State} {p : Proposal} (c : RoundOutcome) (a : Refs s) (b : Taken s)
    (hp : p ∈ (books s).proposals) (hn : Table (books s).proposals) : Ended s (endProposal s p c) p := by
  unfold endProposal
  dsimp only
  have e := books_proposalEnd
  cases h : p.matter.reserves with
  | none => exact ended_of_freed ((Works.refl s a b).freed h) hp hn (books_proposalEnd _ _ _ _)
  | some r => exact ended_of_freed (removeReserved_freed h .withdrawn a b) hp hn (books_proposalEnd _ _ _ _)

/-- One proposal of the table has an id. -/
theorem Table.same {ps : List Proposal} (h : Table ps) {p : Proposal} (hp : p ∈ ps) : ∀ q ∈ ps, q.id = p.id → q = p :=
  fun _ hq e => List.inj_on_of_nodup_map h.ids hq hp e

theorem Ended.reservedOk {s t : State} {p : Proposal} (h : Ended s t p) (hr : ReservedOk (books s))
    (hn : Table (books s).proposals) (hp : p ∈ (books s).proposals) : ReservedOk (books t) := fun o => by
  rw [h.reserved, hr o, h.proposals, reservations_free (hn.same hp)]

/-- The rest of the table meets the laws once `p` is gone. -/
theorem Ended.sound {s t : State} {p : Proposal} (h : Ended s t p) (hr : ReservedOk (books s))
    (hp : p ∈ (books s).proposals) (hc : ClaimsOk (books s)) (hn : Table (books s).proposals)
    (ho : ∀ q ∈ (books s).proposals, q.id ≠ p.id → Held (books s) q ∧ Voters q ∧ q.accepted ≠ q.required) :
    Sound t := by
  have o : ∀ q ∈ (books t).proposals, Held (books s) q ∧ Voters q ∧ q.accepted ≠ q.required := fun q hq => by
    rw [h.proposals] at hq
    obtain ⟨h1, h2⟩ := List.mem_filter.mp hq
    exact ho q h1 (by simpa using h2)
  refine ⟨h.refs, h.taken, h.reservedOk hr hn hp, ?_, by rw [h.proposals]; exact hn.free _, fun q hq => ?_, fun q hq => (o q hq).2.1,
    fun q hq => (o q hq).2.2⟩
  · unfold ClaimsOk; rw [h.claim, h.joined]; exact hc
  · unfold Held; rw [h.claim]; exact (o q hq).1

theorem endProposal_sound {s : State} {p : Proposal} (c : RoundOutcome) (h : Sound s) (hp : p ∈ (books s).proposals) :
    Sound (endProposal s p c) :=
  (endProposal_ended c h.refs h.taken hp h.table).sound h.reserved hp h.claims h.table fun q hq _ =>
    ⟨h.held q hq, h.voters q hq, h.undecided q hq⟩

/-! ### A proposal carries -/

theorem carryChange_freed {s : State} {p : Proposal} {o : Output} {k : Slot} (h : p.matter = .outputChange o k)
    (hk : ((books s).slot k).state = .fixedSlot) (a : Refs s) (b : Taken s) : Freed s (carryChange s p.id o k).1 p := by
  have hp : p.matter.reserves = some (o, .change k) := by rw [h]; rfl
  unfold carryChange
  split
  · exact queueReserved_freed hp a b
  · have f := removeReserved_freed hp .applied a b
    exact f.works (bind_works _ o k (by rw [f.slotState]; exact hk))

theorem removeEntries_sq (s : State) (o : Output) (p : Entry → Bool) (c : ChangeOutcome) (q : Output) :
    (removeEntries s o p c).sq q = s.sq q := by
  have e : ∀ (es : List Entry) (t : State), (es.foldl (entryLeft o c) t).chans = t.chans := fun es => by
    induction es with
    | nil => exact fun _ => rfl
    | cons x es ih =>
      intro t
      refine (ih _).trans ?_
      have d : (dropEntryRef t x.kind).chans = t.chans := by cases x.kind <;> rfl
      unfold entryLeft changeDone
      rw [handAll_eq, ← d]
  unfold removeEntries
  rw [State.sq, State.chan, e]
  exact State.sq_setQueue s o q _

theorem carryStop_freed {s : State} {p : Proposal} {o : Output} (h : p.matter = .outputStop o) (a : Refs s)
    (b : Taken s) : Freed s (carryStop s p.id o).1 p := by
  have hp : p.matter.reserves = some (o, .stop) := by rw [h]; rfl
  have f (c : ChangeOutcome) := removeReserved_freed hp c a b
  unfold carryStop
  split
  · exact queueReserved_freed hp a b
  · rename_i w
    exact (f .applied).works (returnToBound_works _ o (by rw [removeEntries_sq]; exact w))
  · exact f _
  · exact f _
  · exact f _

theorem enterWaiting_works (s : State) (o : Output) (h : (s.sq o).state = .bound) : Works s (enterWaiting s o) := by
  refine .of_books ?_
  unfold enterWaiting
  rw [books_examine, books_setOutState s o .waiting (by rw [h]; exact nofun) nofun]

theorem carryStart_works (s : State) (o : Output) : Works s (carryStart s o).1 := by
  unfold carryStart
  split
  · rename_i h; exact enterWaiting_works s o h
  · exact .refl s

theorem carryClock_works (s : State) (p : Proposal) (sel : Selection) (al : Option Output) :
    Works s (carryClock s p sel al).1 := by
  unfold carryClock
  split
  · exact .refl s
  · exact .refl s
  · exact .of_books (books_takeClock _ _ _ _)

/-- Carrying anything but a CLAIM_EXCLUSIVE is an operation on the outputs. -/
theorem applyMatter_freed {s : State} {p : Proposal} (h : ∀ t, p.matter ≠ .claimExclusive t)
    (hp : p ∈ (books s).proposals) (a : Refs s) (b : Taken s) : Freed s (applyMatter s p).1 p := by
  have plain {t : State} (w : Works s t) (g : p.matter.reserves = none) : Freed s t p := (w a b).freed g
  unfold applyMatter
  split
  · rename_i o k g
    exact carryChange_freed g (payload_fixed a hp (by rw [g]; rfl)) a b
  · rename_i g; exact carryStop_freed g a b
  · rename_i g; exact plain (carryStart_works _ _) (by rw [g]; rfl)
  · rename_i t g; exact absurd g (h t)
  · rename_i sel al g; exact plain (carryClock_works s p sel al) (by rw [g]; rfl)
  · rename_i g; dsimp only; exact plain (enterStandby_works s) (by rw [g]; rfl)
  · rename_i g
    exact plain (t := { s with resetTaken := true }) (Works.of_books rfl) (by rw [g]; rfl)

theorem books_carryExclusive (s : State) (id : Nat) (t : Target) (m : Master) :
    books (carryExclusive s id t m).1 = (books s).setClaim t { s.claim t with
      mode := .exclusive, holders := (s.claim t).holders.filter fun h => h.master == m } := by
  unfold carryExclusive
  exact (books_foldl _ (fun s j => books_hand s j _) _ _).trans (books_setClaim _ _ _)

theorem setClaim_policy (b : Books) (t : Target) (c : ClaimRec) (h : c.policy = (b.claim t).policy) (g : Target) :
    ((b.setClaim t c).claim g).policy = (b.claim g).policy := by
  by_cases e : g = t
  · subst e; rw [show (b.setClaim g c).claim g = c from if_pos rfl, h]
  · rw [show (b.setClaim t c).claim g = b.claim g from if_neg e]

/-- The one entry of a master in a holder list. -/
theorem holders_of_one {l : List Holder} (hn : (l.map Holder.master).Nodup) {m : Master}
    (hm : m ∈ l.map Holder.master) : (l.filter fun h => h.master == m).length = 1 := by
  induction l with
  | nil => cases hm
  | cons h l ih =>
    rw [List.map_cons, List.nodup_cons] at hn
    rcases List.mem_cons.mp hm with rfl | hm
    · have : l.filter (fun x => x.master == h.master) = [] := List.filter_eq_nil_iff.mpr fun x hx e =>
        hn.1 (beq_iff_eq.mp e ▸ List.mem_map_of_mem hx)
      rw [List.filter_cons_of_pos (by simp), this]; rfl
    · have : h.master ≠ m := fun e => hn.1 (e ▸ hm)
      rw [List.filter_cons_of_neg (by simp [this])]; exact ih hn.2 hm

theorem ClaimOk.exclusive {j : Master → Bool} {c : ClaimRec} (h : ClaimOk j c) {m : Master}
    (hm : m ∈ c.holders.map Holder.master) :
    ClaimOk j { c with mode := .exclusive, holders := c.holders.filter fun h => h.master == m } := by
  have l := holders_of_one h.nodup hm
  refine ⟨⟨nofun, fun e => ?_⟩, nofun, fun _ => l, h.nodup.sublist (List.filter_sublist.map _),
    fun x hx => h.mem x (List.mem_filter.mp hx).1⟩
  have e : c.holders.filter (fun h => h.master == m) = [] := e
  rw [e] at l; cases l

/-- A record changes with its policy kept. -/
theorem refs_setClaim {s : State} (a : Refs s) (t : Target) (c : ClaimRec) (h : c.policy = (s.claim t).policy) :
    RefsOk ((books s).setClaim t c) :=
  a.of_policies rfl rfl (fun _ => setClaim_policy _ _ _ h _) rfl

/-- What carries and is then freed: the laws hold if they held for every other proposal, and this one's proposer holds
its target. -/
theorem carry_sound {s : State} {p : Proposal} (a : Refs s) (b : Taken s) (hr : ReservedOk (books s)) (hc : ClaimsOk (books s))
    (hn : Table (books s).proposals) (hp : p ∈ (books s).proposals) (hh : Held (books s) p)
    (ho : ∀ q ∈ (books s).proposals, q.id ≠ p.id → Held (books s) q ∧ Voters q ∧ q.accepted ≠ q.required) :
    Sound (carry s p) ∧ Shrinks s (carry s p) := by
  have e (r : State × RoundOutcome) (x : Bool) : books (proposalEnd (freeProposal (r.1.dropRefOpt p.matter.payloadSlot)
      p.id) p r.2 x) = books (freeProposal (r.1.dropRefOpt p.matter.payloadSlot) p.id) := books_proposalEnd _ _ _ _
  by_cases h : ∃ t, p.matter = .claimExclusive t
  · obtain ⟨t, ht⟩ := h
    have pl : p.matter.payloadSlot = none := by rw [ht]; rfl
    have hm := hh t (by rw [ht]; rfl)
    have ea : applyMatter s p = carryExclusive s p.id t p.proposer := by unfold applyMatter; rw [ht]
    have ee : books (carry s p) = ((books s).setClaim t { s.claim t with
        mode := .exclusive, holders := (s.claim t).holders.filter fun h => h.master == p.proposer }).setProposals
          ((books s).proposals.filter fun q => q.id != p.id) := by
      unfold carry
      dsimp only
      rw [e, ea]
      have d : (carryExclusive s p.id t p.proposer).1.consent = s.consent := by
        unfold carryExclusive
        dsimp only
        have g : ∀ (l : List Master) (n : Notice) (u : State),
            (l.foldl (fun s m => s.hand m n) u).consent = u.consent :=
          fun l n u => by
            show (u.handAll l n).consent = _
            rw [handAll_eq]
        rw [g]
        cases t <;> rfl
      unfold freeProposal
      rw [pl]
      show books ((carryExclusive s p.id t p.proposer).1.setProposals _) = _
      rw [books_setProposals, books_carryExclusive]
      show _ = Books.setProposals _ (s.consent.proposals.filter fun q => q.id != p.id)
      rw [← d]; rfl
    generalize hcn : ({ s.claim t with
      mode := .exclusive, holders := (s.claim t).holders.filter fun h => h.master == p.proposer } : ClaimRec) = c at ee
    have self : (books (carry s p)).claim t = c := by rw [ee]; exact if_pos rfl
    have other (g : Target) (hg : g ≠ t) : (books (carry s p)).claim g = (books s).claim g := by
      rw [ee]; exact if_neg hg
    have ps : (books (carry s p)).proposals = (books s).proposals.filter fun q => q.id != p.id := by rw [ee]; rfl
    have jn : (books (carry s p)).joined = (books s).joined := by rw [ee]; rfl
    have fewer (l : List Proposal) (k : Slot) :
        payloads (l.filter fun q => q.id != p.id) k ≤ payloads l k := by
      unfold payloads
      exact (List.filter_sublist.filter _).length_le
    refine ⟨⟨?_, ?_, fun o => ?_, ⟨fun g => ?_, ?_⟩, by rw [ps]; exact hn.free _, fun q hq => ?_, fun q hq => ?_, fun q hq => ?_⟩,
      fun g m hg => ?_⟩
    · show RefsOk _
      rw [ee]
      refine RefsOk.setProposals (b := (books s).setClaim t c) (refs_setClaim a t c (by rw [← hcn])) rfl rfl
        (fun _ => rfl) (fun k => ?_) fun k l => absurd l (Nat.not_lt.mpr (fewer _ k))
      have := payloads_free hp hn.ids k
      rw [pl] at this
      show _ + payloads (books s).proposals k = _ + payloads ((books s).proposals.filter _) k
      simp at this
      rw [this]; rfl
    · intro o; rw [ee]; exact b o
    · rw [ps, ← reservations_free (hn.same hp), ← hr o,
        filter_notFor_of_none (by rw [reservation_of_none (by rw [ht]; rfl)]; rfl), ee]
      rfl
    · rw [jn]
      by_cases hg : g = t
      · subst hg; rw [self, ← hcn]; exact (hc.1 g).exclusive hm
      · rw [other g hg]; exact hc.1 g
    · by_cases hg : Target.tb = t
      · subst hg
        rw [self, ← hcn]
        exact ⟨hc.2.1, fun x hx => hc.2.2 x (List.mem_filter.mp hx).1⟩
      · rw [other _ hg]; exact hc.2
    · rw [ps] at hq
      obtain ⟨h1, h2⟩ := List.mem_filter.mp hq
      have hid : q.id ≠ p.id := by simpa using h2
      intro g hg
      have : g ≠ t := fun l => by
        subst l
        have hpt : p.matter.target = some g := by rw [ht]; rfl
        have := List.inj_on_of_nodup_map hn.targets h1 hp (by rw [hg, hpt])
        exact hid (by rw [this])
      rw [other g this]
      exact (ho q h1 hid).1 g hg
    · rw [ps] at hq
      obtain ⟨h1, h2⟩ := List.mem_filter.mp hq
      exact (ho q h1 (by simpa using h2)).2.1
    · rw [ps] at hq
      obtain ⟨h1, h2⟩ := List.mem_filter.mp hq
      exact (ho q h1 (by simpa using h2)).2.2
    · by_cases l : g = t
      · subst l
        rw [self, ← hcn] at hg
        obtain ⟨x, hx, rfl⟩ := List.mem_map.mp hg
        exact List.mem_map_of_mem (List.mem_filter.mp hx).1
      · rw [other g l] at hg; exact hg
  · have h : ∀ t, p.matter ≠ .claimExclusive t := fun t l => h ⟨t, l⟩
    have w := applyMatter_freed h hp a b
    have en : Ended s (carry s p) p := ended_of_freed w hp hn (by unfold carry; dsimp only; exact e _ _)
    exact ⟨en.sound hr hp hc hn ho, .of_claim en.claim⟩

end Sys2Proof.Laws
end

