-- ==== Sys2Proof/Laws/Votes.lean ====
section
/-! SUPPORT. Votes, the removal of a voter, and the opening of a proposal keep the laws of the records. -/

namespace Sys2Proof.Laws

open Machine Books

/-! ### Sets of masters in the order of their numbers -/

theorem mem_allMasters (m : Master) : m ∈ allMasters := by fin_cases m <;> simp [allMasters]

theorem ordered_filter (q : Master → Bool) :
    allMasters.filter q = allMasters.filter fun m => (allMasters.filter q).contains m := by
  refine List.filter_congr fun m hm => ?_
  rw [Bool.eq_iff_iff, List.contains_iff_mem, List.mem_filter]
  exact ⟨fun h => ⟨hm, h⟩, fun h => h.2⟩

theorem ordered_sub {l : List Master} (h : l = allMasters.filter fun m => l.contains m) (q : Master → Bool) :
    l.filter q = allMasters.filter fun m => (l.filter q).contains m := by
  have e : l.filter q = allMasters.filter fun m => q m && l.contains m := by
    conv_lhs => rw [h]
    rw [List.filter_filter]
  rw [e]; exact ordered_filter _

theorem Voters.without {p : Proposal} (h : Voters p) (m : Master) : Voters (p.without m) :=
  ⟨fun x => h.proposer (List.mem_filter.mp x).1, ordered_sub h.required _, ordered_sub h.accepted _, fun x hx => by
    obtain ⟨h1, h2⟩ := List.mem_filter.mp hx
    exact List.mem_filter.mpr ⟨h.subset x h1, h2⟩⟩

theorem Voters.accept {p : Proposal} (h : Voters p) {m : Master} (hm : m ∈ p.required) : Voters (p.accept m) := by
  refine ⟨h.proposer, h.required, ordered_filter fun x => p.accepted.contains x || x == m, fun x hx => ?_⟩
  have hx := (List.mem_filter.mp hx).2
  rcases Bool.or_eq_true_iff.mp hx with hx | hx
  · exact h.subset x (List.contains_iff_mem.mp hx)
  · rw [beq_iff_eq.mp hx]; exact hm

/-! ### Finding a proposal -/

theorem proposal_mem {s : State} {id : Nat} {p : Proposal} (h : s.proposal id = some p) :
    p ∈ (books s).proposals ∧ p.id = id :=
  ⟨List.mem_of_find?_eq_some h, beq_iff_eq.mp (List.find?_some (p := fun p : Proposal => p.id == id) h)⟩

theorem proposalOn_mem {s : State} {t : Option Target} {p : Proposal} (h : s.proposalOn t = some p) :
    p ∈ (books s).proposals ∧ p.matter.target = t :=
  ⟨List.mem_of_find?_eq_some h, beq_iff_eq.mp (List.find?_some (p := fun p : Proposal => p.matter.target == t) h)⟩

theorem proposalOn_none {s : State} {t : Option Target} (h : s.proposalOn t = none) :
    ∀ p ∈ (books s).proposals, p.matter.target ≠ t := fun p hp e => by
  have := List.find?_eq_none.mp h p hp
  simp [e] at this

theorem find_of_mem {ps : List Proposal} {p : Proposal} (hp : p ∈ ps) (hn : (ps.map Proposal.id).Nodup) :
    ps.find? (fun q => q.id == p.id) = some p := by
  induction ps with
  | nil => cases hp
  | cons q ps ih =>
    rw [List.map_cons, List.nodup_cons] at hn
    rcases List.mem_cons.mp hp with rfl | hp
    · rw [List.find?_cons_of_pos (by simp)]
    · have : q.id ≠ p.id := fun e => hn.1 (e ▸ List.mem_map_of_mem hp)
      rw [List.find?_cons_of_neg (by simp [this])]; exact ih hp hn.2

theorem proposal_of_mem {s : State} {p : Proposal} (hp : p ∈ (books s).proposals) (hn : Table (books s).proposals) :
    s.proposal p.id = some p := find_of_mem hp hn.ids

/-! ### A vote -/

/-- A change of the record of a proposal that leaves it the same proposal. -/
structure SameProposal (f : Proposal → Proposal) : Prop where
  id : ∀ p, (f p).id = p.id
  matter : ∀ p, (f p).matter = p.matter
  proposer : ∀ p, (f p).proposer = p.proposer
  tag : ∀ p, (f p).tag = p.tag

theorem sameProposal_without (m : Master) : SameProposal (·.without m) :=
  ⟨fun _ => rfl, fun _ => rfl, fun _ => rfl, fun _ => rfl⟩
theorem sameProposal_accept (m : Master) : SameProposal (·.accept m) :=
  ⟨fun _ => rfl, fun _ => rfl, fun _ => rfl, fun _ => rfl⟩

/-- A proposal that stays the same keeps its RESERVED entry. -/
theorem reservation_congr {p q : Proposal} (hi : q.id = p.id) (hm : q.matter = p.matter) (hp : q.proposer = p.proposer)
    (ht : q.tag = p.tag) (o : Output) : reservation o q = reservation o p := by
  unfold reservation
  rw [hm, hp, ht, hi]

theorem payloads_map {ps : List Proposal} {g : Proposal → Proposal} (h : ∀ p, (g p).matter = p.matter) (k : Slot) :
    payloads (ps.map g) k = payloads ps k := by
  induction ps with
  | nil => rfl
  | cons p ps ih => rw [List.map_cons, payloads_cons, payloads_cons, h, ih]

/-- The record of `p` changes, and the proposal carries if all its voters have accepted. -/
theorem agreed_sound {s : State} {p : Proposal} {f : Proposal → Proposal} (hf : SameProposal f) (a : Refs s)
    (b : Taken s) (hr : ReservedOk (books s)) (hc : ClaimsOk (books s)) (hn : Table (books s).proposals) (hp : p ∈ (books s).proposals)
    (hh : ∀ q ∈ (books s).proposals, Held (books s) q) (hv : Voters (f p))
    (ho : ∀ q ∈ (books s).proposals, q.id ≠ p.id → Voters q ∧ q.accepted ≠ q.required) :
    Sound (carryIfAgreed (updateProposal s p.id f) p.id)
      ∧ Shrinks s (carryIfAgreed (updateProposal s p.id f) p.id) := by
  generalize hg : (fun q : Proposal => if q.id == p.id then f q else q) = g
  have gid (q : Proposal) : (g q).id = q.id := by rw [← hg]; dsimp only; split <;> simp [hf.id]
  have gm (q : Proposal) : (g q).matter = q.matter := by rw [← hg]; dsimp only; split <;> simp [hf.matter]
  have gp (q : Proposal) : (g q).proposer = q.proposer := by rw [← hg]; dsimp only; split <;> simp [hf.proposer]
  have gt (q : Proposal) : (g q).tag = q.tag := by rw [← hg]; dsimp only; split <;> simp [hf.tag]
  have gself : g p = f p := by rw [← hg]; simp
  have gother (q : Proposal) (h : q.id ≠ p.id) : g q = q := by rw [← hg]; simp [h]
  have eu : updateProposal s p.id f = s.setProposals ((books s).proposals.map g) := by rw [← hg]; rfl
  rw [eu]
  generalize hu : s.setProposals ((books s).proposals.map g) = u
  have bu : books u = (books s).setProposals ((books s).proposals.map g) := by rw [← hu]; rfl
  have ps : (books u).proposals = (books s).proposals.map g := by rw [bu]; rfl
  have ua : Refs u := by
    show RefsOk _
    rw [bu]
    refine RefsOk.setProposals a rfl rfl (fun _ => rfl) (fun k => ?_) fun k l => ?_
    · show _ + _ = _ + payloads ((books s).proposals.map g) k
      rw [payloads_map gm]; rfl
    · have l : payloads (books s).proposals k < payloads ((books s).proposals.map g) k := l
      rw [payloads_map gm] at l
      exact absurd l (Nat.lt_irrefl _)
  have ub : Taken u := by intro o; rw [bu]; exact b o
  have ur : ReservedOk (books u) := fun o => by
    rw [ps, List.filterMap_map, show reservation o ∘ g = reservation o from
      funext fun q => reservation_congr (gid q) (gm q) (gp q) (gt q) o, bu]
    exact hr o
  have uc : ClaimsOk (books u) := by rw [bu]; exact hc
  have un : Table (books u).proposals := by
    rw [ps]
    refine ⟨by rw [List.length_map]; exact hn.bound, ?_, ?_⟩
    · rw [List.map_map, show Proposal.id ∘ g = Proposal.id from funext gid]; exact hn.ids
    · rw [List.map_map, show (fun q => q.matter.target) ∘ g = fun q => q.matter.target from
        funext fun q => congrArg Matter.target (gm q)]
      exact hn.targets
  have up : f p ∈ (books u).proposals := by rw [ps, ← gself]; exact List.mem_map_of_mem hp
  have heldU (q : Proposal) (h : Held (books s) q) : Held (books u) (g q) := by
    intro t ht
    rw [gm] at ht
    rw [gp, bu]
    exact h t ht
  have uh : ∀ q ∈ (books u).proposals, Held (books u) q := fun q hq => by
    rw [ps] at hq
    obtain ⟨r, hr, rfl⟩ := List.mem_map.mp hq
    exact heldU r (hh r hr)
  have uo : ∀ q ∈ (books u).proposals, q.id ≠ p.id → Voters q ∧ q.accepted ≠ q.required := fun q hq hi => by
    rw [ps] at hq
    obtain ⟨r, hr, rfl⟩ := List.mem_map.mp hq
    rw [gid] at hi
    rw [gother r hi]; exact ho r hr hi
  have su : Shrinks s u := .of_claim (by rw [bu]; rfl)
  have found : u.proposal p.id = some (f p) := by
    have := proposal_of_mem up un
    rwa [hf.id] at this
  unfold carryIfAgreed
  rw [found]
  dsimp only
  split
  · have h := carry_sound ua ub ur uc un up (uh _ up) fun q hq hi => ⟨uh q hq, uo q hq (by rwa [hf.id] at hi)⟩
    exact ⟨h.1, su.trans h.2⟩
  · rename_i hne
    have self (q : Proposal) (hq : q ∈ (books u).proposals) (hi : q.id = p.id) : q = f p :=
      List.inj_on_of_nodup_map un.ids hq up (by rw [hi, hf.id])
    refine ⟨⟨ua, ub, ur, uc, un, uh, fun q hq => ?_, fun q hq => ?_⟩, su⟩
    · by_cases hi : q.id = p.id
      · rw [self q hq hi]; exact hv
      · exact (uo q hq hi).1
    · by_cases hi : q.id = p.id
      · rw [self q hq hi]; exact hne
      · exact (uo q hq hi).2

theorem accept_sound {s : State} {p : Proposal} {m : Master} (h : Sound s) (hp : p ∈ (books s).proposals)
    (hm : m ∈ p.required) : Sound (carryIfAgreed (updateProposal s p.id (·.accept m)) p.id) :=
  (agreed_sound (sameProposal_accept m) h.refs h.taken h.reserved h.claims h.table hp h.held ((h.voters p hp).accept hm)
    fun q hq _ => ⟨h.voters q hq, h.undecided q hq⟩).1

/-- The master stops depending on the target of an open proposal (R89). -/
theorem leaveProposal_sound {s : State} {p : Proposal} (m : Master) (h : Sound s) (hp : p ∈ (books s).proposals) :
    Sound (leaveProposal s p m) ∧ Shrinks s (leaveProposal s p m) := by
  unfold leaveProposal
  split
  · exact ⟨endProposal_sound _ h hp, .of_claim (endProposal_ended _ h.refs h.taken hp h.table).claim⟩
  · split
    · exact agreed_sound (sameProposal_without m) h.refs h.taken h.reserved h.claims h.table hp h.held ((h.voters p hp).without m)
        fun q hq _ => ⟨h.voters q hq, h.undecided q hq⟩
    · exact ⟨h, .refl s⟩

theorem consentDeparture_sound {s : State} (m : Master) (h : Sound s) :
    Sound (consentDeparture s m) ∧ Shrinks s (consentDeparture s m) := by
  unfold consentDeparture
  generalize (((s.consent.proposals.map Proposal.id).foldr insertNat [])) = ids
  induction ids generalizing s with
  | nil => exact ⟨h, .refl s⟩
  | cons id ids ih =>
    have k : Sound (leaveById m s id) ∧ Shrinks s (leaveById m s id) := by
      unfold leaveById
      split
      · exact ⟨h, .refl s⟩
      · rename_i p hp; exact leaveProposal_sound m h (proposal_mem hp).1
    have := ih k.1
    exact ⟨this.1, k.2.trans this.2⟩

theorem proposalLapses_sound {s : State} (id : Nat) (h : Sound s) : Sound (proposalLapses s id) := by
  unfold proposalLapses
  split
  · exact h
  · rename_i p hp
    exact endProposal_sound _ (h.of_books (books_reach s p.deadline)) (proposal_mem hp).1

/-! ### A new id (R83) -/

theorem allocate_used {used : List Nat} : ∀ (fuel n : Nat), allocate used fuel n ∈ used →
    ∀ i, i < fuel → nextId^[i + 1] n ∈ used
  | 0, _, _, _, hi => absurd hi (Nat.not_lt_zero _)
  | fuel + 1, n, h, i, hi => by
    unfold allocate at h
    split at h
    · rename_i g
      cases i with
      | zero => exact List.contains_iff_mem.mp g
      | succ i => exact allocate_used fuel (nextId n) h i (Nat.lt_of_succ_lt_succ hi)
    · rename_i g
      exact absurd (List.contains_iff_mem.mpr h) g

/-- With at most 3 ids in use the new one is none of them. -/
theorem allocate_fresh {used : List Nat} (h : used.length ≤ 3) (n : Nat) : allocate used 4 n ∉ used := by
  intro g
  have k := allocate_used 4 n g
  have c (i : Nat) (hi : i < 4) := k i hi
  have h0 := c 0 (by omega); have h1 := c 1 (by omega); have h2 := c 2 (by omega); have h3 := c 3 (by omega)
  simp only [Function.iterate_succ, Function.iterate_zero, Function.comp, id] at h0 h1 h2 h3
  have d : [nextId n, nextId (nextId n), nextId (nextId (nextId n)), nextId (nextId (nextId (nextId n)))].Nodup := by
    simp only [List.nodup_cons, List.mem_cons, List.not_mem_nil, or_false, not_or, List.nodup_nil, and_true,
      not_false_eq_true, nextId]
    refine ⟨⟨?_, ?_, ?_⟩, ⟨?_, ?_⟩, ?_⟩ <;> split_ifs <;> omega
  have := (List.subperm_of_subset d (l₂ := used) (by
    intro x hx
    simp only [List.mem_cons, List.not_mem_nil, or_false] at hx
    rcases hx with rfl | rfl | rfl | rfl <;> assumption)).length_le
  simp at this
  omega

/-! ### Opening (R82 to R84) -/

/-- The proposal `p` has been opened, and nothing else has changed but its reservations. -/
structure Opened (s t : State) (p : Proposal) : Prop where
  refs : Refs t
  taken : Taken t
  reserved : ReservedOk (books t)
  claim : (books t).claim = (books s).claim
  joined : (books t).joined = (books s).joined
  proposals : (books t).proposals = (books s).proposals ++ [p]
  table : Table ((books s).proposals ++ [p])
  voters : Voters p
  undecided : p.accepted ≠ p.required

theorem Opened.sound {s t : State} {p : Proposal} (h : Opened s t p) (k : Sound s) (hp : Held (books s) p) :
    Sound t := by
  have o : ∀ q ∈ (books t).proposals, q ∈ (books s).proposals ∨ q = p := fun q hq => by
    rw [h.proposals] at hq
    rcases List.mem_append.mp hq with hq | hq
    · exact .inl hq
    · exact .inr (List.mem_singleton.mp hq)
  refine ⟨h.refs, h.taken, h.reserved, ?_, by rw [h.proposals]; exact h.table, fun q hq => ?_, fun q hq => ?_, fun q hq => ?_⟩
  · unfold ClaimsOk; rw [h.claim, h.joined]; exact k.claims
  · unfold Held; rw [h.claim]
    rcases o q hq with g | rfl
    · exact k.held q g
    · exact hp
  · rcases o q hq with g | rfl
    · exact k.voters q g
    · exact h.voters
  · rcases o q hq with g | rfl
    · exact k.undecided q g
    · exact h.undecided


/-- What the books of `t` say after the reservation of the proposal `p`, but for its payload's reference. -/
structure Reserved (s t : State) (p : Proposal) : Prop where
  refs : Refs t
  taken : Taken t
  reserved : ∀ o, reservedOf ((books t).view o).queue
    = reservedOf ((books s).view o).queue ++ (reservation o p).toList
  slotState : ∀ k, ((books t).slot k).state = ((books s).slot k).state
  claim : (books t).claim = (books s).claim
  proposals : (books t).proposals = (books s).proposals
  joined : (books t).joined = (books s).joined

theorem reserved_of_plain {s : State} {p : Proposal} (a : Refs s) (b : Taken s) (h : p.matter.reserves = none) :
    Reserved s s p :=
  ⟨a, b, fun o => by rw [reservation_of_none h]; exact (List.append_nil _).symm, fun _ => rfl, rfl, rfl, rfl⟩

/-- The RESERVED entry of a proposal joins a queue that has room. -/
theorem reserved_of_append {s : State} {p : Proposal} {o : Output} {e : Entry} (a : Refs s) (b : Taken s)
    (hf : s.queueFull o = false) (he : e.state = .reserved) (hp : ∀ q, reservation q p = if o = q then some e else none)
    (hk : ∀ k, e.kind = .change k → ((books s).slot k).state = .fixedSlot) : Reserved s (appendEntry s o e) p := by
  have h := appendEntry_moves s o e hk
  have k : Taken (appendEntry s o e) := Moves.takes (h a) (fun v => by
    rw [hf]; exact v.append (by rw [he]; exact nofun)) b
  have h := h a
  refine ⟨h.refs, k, fun q => ?_, h.slotState, h.claim, h.proposals, h.joined⟩
  rw [h.view, hp]
  by_cases g : q = o
  · subst g
    rw [view_setView_self, hf, if_pos rfl]
    refine (reservedOf_append _ _).trans (congrArg _ ?_)
    exact List.filter_cons_of_pos (by simp [he])
  · rw [view_setView_ne _ _ g, if_neg fun x => g x.symm]; simp

/-- What a proposal reserves: its entry, and its payload's reference. -/
theorem reserve_worked {s : State} (p : Proposal) (a : Refs s) (b : Taken s)
    (hq : reservationFull s p.matter = false)
    (hw : ∀ k, p.matter.payloadSlot = some k → ((books s).slot k).state = .fixedSlot) :
    ∃ u, Reserved s u p ∧ books (reserve s p.matter p.proposer p.tag p.id) = match p.matter.payloadSlot with
      | none => books u
      | some k => (books u).addRef k := by
  cases h : p.matter with
  | outputChange o k =>
    refine ⟨_, reserved_of_append (o := o) (e := ⟨.change k, some (p.proposer, p.tag), .reserved, some p.id⟩) a b
      (by rw [h] at hq; exact hq) rfl (fun q => by simp only [reservation, h]) fun j e => ?_, ?_⟩
    · cases e; exact hw k (by rw [h]; rfl)
    · show books (appendEntry (s.addRef k) o _) = _
      have q : (s.addRef k).queueFull o = s.queueFull o := rfl
      unfold appendEntry
      rw [q]
      split
      · exact books_addRef s k
      · dsimp only [addEntryRef]
        show books (((s.addRef k).addRef k).setQueue o _) = (books ((s.addRef k).setQueue o _)).addRef k
        rw [books_setQueue, books_setQueue, books_addRef, books_addRef, setView_addRef]
        rfl
  | outputStop o =>
    exact ⟨_, reserved_of_append (o := o) (e := ⟨.stop, some (p.proposer, p.tag), .reserved, some p.id⟩) a b
      (by rw [h] at hq; exact hq) rfl (fun q => by simp only [reservation, h]) nofun, rfl⟩
  | outputStart o => exact ⟨s, reserved_of_plain a b (by rw [h]; rfl), rfl⟩
  | claimExclusive t => exact ⟨s, reserved_of_plain a b (by rw [h]; rfl), rfl⟩
  | clockChange sel al => exact ⟨s, reserved_of_plain a b (by rw [h]; rfl), rfl⟩
  | standby => exact ⟨s, reserved_of_plain a b (by rw [h]; rfl), rfl⟩
  | deviceReset => exact ⟨s, reserved_of_plain a b (by rw [h]; rfl), rfl⟩

theorem requiredFor_eq (s : State) (w : Matter) (m : Master) :
    ∃ q : Master → Bool, requiredFor s w m = allMasters.filter fun j => q j && j != m := by
  unfold requiredFor
  split
  · exact ⟨_, rfl⟩
  · exact ⟨_, rfl⟩

theorem openProposal_opened {s : State} (m : Master) (tag : Byte) (w : Matter) (window : Nat) (h : Sound s)
    (hr : requiredFor s w m ≠ []) (hw : ∀ k, w.payloadSlot = some k → ((books s).slot k).state = .fixedSlot) :
    ((openProposal s m tag w window).code ≠ .proposed ∧ (openProposal s m tag w window).state = s)
    ∨ (openProposal s m tag w window).code = .proposed
      ∧ ∃ p, Opened s (openProposal s m tag w window).state p ∧ p.matter = w ∧ p.proposer = m := by
  unfold openProposal
  split
  · exact .inl ⟨nofun, rfl⟩
  · rename_i units _
    split
    · exact .inl ⟨nofun, rfl⟩
    · rename_i hfree
      split
      · exact .inl ⟨nofun, rfl⟩
      · rename_i hroom
        split
        · exact .inl ⟨nofun, rfl⟩
        · rename_i hfull
          refine .inr ⟨rfl, ?_⟩
          dsimp only
          obtain ⟨u, wk, eu⟩ := reserve_worked ⟨s.newId, w, m, tag, requiredFor s w m, [], 0⟩ h.refs h.taken
            (Bool.eq_false_iff.mpr hfull) hw
          dsimp only at eu
          have cons := consent_reserve s w m tag s.newId
          generalize reserve s w m tag s.newId = v at eu cons
          generalize hpp : (⟨s.newId, w, m, tag, requiredFor s w m, [], v.now + tenMs units⟩ : Proposal) = p
          have pm : p.matter = w := by rw [← hpp]
          have pp : p.proposer = m := by rw [← hpp]
          have hroom : s.consent.proposals.length ≤ 3 := by
            have : ¬4 ≤ s.consent.proposals.length := hroom
            omega
          refine ⟨p, ?_, pm, pp⟩
          have eb : books (State.handAll { v with consent := ⟨v.consent.proposals ++ [p], s.newId⟩ }
              (requiredFor s w m) (.proposalOpen s.newId w m (requiredFor s w m) units))
              = (books v).setProposals ((books s).proposals ++ [p]) := by
            rw [books_handAll]
            show Books.setProposals (books v) (v.consent.proposals ++ [p]) = _
            rw [cons]; rfl
          have vview : (books v).view = (books u).view := by rw [eu]; split <;> rfl
          have vclaim : (books v).claim = (books u).claim := by rw [eu]; split <;> rfl
          have vjoined : (books v).joined = (books u).joined := by rw [eu]; split <;> rfl
          have vslot (k : Slot) : (books v).slot k = { (books u).slot k with
              refs := ((books u).slot k).refs + (w.payloadSlot == some k).toNat } := by
            rw [eu]
            split
            · rename_i g; rw [g]; rfl
            · rename_i j g; rw [g, slot_addRef, Option.some_beq_some]
          refine ⟨?_, ?_, fun o => ?_, ?_, ?_, ?_, ⟨?_, ?_, ?_⟩, ⟨?_, ?_, ?_, ?_⟩, ?_⟩
          · show RefsOk _
            rw [eb]
            refine RefsOk.setProposals wk.refs vview vclaim (fun k => ?_) (fun k => ?_) fun k l => ?_
            · show ((books v).slot k).state = _
              rw [vslot]
            · show ((books v).slot k).refs + _ = _ + payloads ((books s).proposals ++ [p]) k
              rw [vslot, wk.proposals, payloads_append, payloads_cons, pm]
              show _ + _ + _ = _ + (_ + (_ + payloads [] k))
              show _ = _ + (_ + (_ + 0))
              omega
            · have l : payloads (books u).proposals k < payloads ((books s).proposals ++ [p]) k := l
              rw [wk.proposals, payloads_append, payloads_cons, pm] at l
              have l : payloads (books s).proposals k
                < payloads (books s).proposals k + ((w.payloadSlot == some k).toNat + 0) := l
              rw [wk.slotState]
              refine hw k ?_
              by_cases g : w.payloadSlot = some k
              · exact g
              · rw [beq_false_of_ne g] at l; simp at l
          · intro o; rw [eb]
            show ViewOk ((books v).view o)
            rw [vview]; exact wk.taken o
          · rw [eb]
            show reservedOf ((books v).view o).queue = ((books s).proposals ++ [p]).filterMap (reservation o)
            have e : reservation o ⟨s.newId, w, m, tag, requiredFor s w m, [], 0⟩ = reservation o p := by
              rw [← hpp]; rfl
            rw [vview, wk.reserved, h.reserved, List.filterMap_append, e, List.filterMap_cons, List.filterMap_nil]
            cases reservation o p <;> rfl
          · rw [eb]; exact vclaim.trans wk.claim
          · rw [eb]; exact vjoined.trans wk.joined
          · rw [eb]; rfl
          · rw [List.length_append]
            show s.consent.proposals.length + 1 ≤ 4
            omega
          · rw [List.map_append]
            refine List.nodup_append.mpr ⟨h.table.ids, by simp, fun x hx y hy e => ?_⟩
            rw [List.map_singleton, List.mem_singleton] at hy
            have : s.newId ∉ s.consent.proposals.map Proposal.id :=
              allocate_fresh (by rw [List.length_map]; exact hroom) _
            exact this (by rw [e, hy, ← hpp] at hx; exact hx)
          · rw [List.map_append]
            refine List.nodup_append.mpr ⟨h.table.targets, by simp, fun x hx y hy e => ?_⟩
            rw [List.map_singleton, List.mem_singleton] at hy
            obtain ⟨q, hq, rfl⟩ := List.mem_map.mp hx
            have free : s.proposalOn w.target = none := by
              cases g : s.proposalOn w.target with
              | none => rfl
              | some _ => rw [g] at hfree; exact absurd rfl hfree
            exact proposalOn_none free q hq (by rw [e, hy, pm])
          · rw [← hpp]
            show m ∉ requiredFor s w m
            obtain ⟨q, hq⟩ := requiredFor_eq s w m
            rw [hq]; intro k
            simpa using (List.mem_filter.mp k).2
          · rw [← hpp]
            obtain ⟨q, hq⟩ := requiredFor_eq s w m
            show requiredFor s w m = allMasters.filter fun j => (requiredFor s w m).contains j
            rw [hq]; exact ordered_filter _
          · rw [← hpp]; rfl
          · rw [← hpp]; nofun
          · rw [← hpp]; exact fun e => hr e.symm

end Sys2Proof.Laws
end

