-- ==== Sys2Proof/Laws/Holders.lean ====
section
/-! SUPPORT. The Claim Table's operations keep the laws of the records. -/

namespace Sys2Proof.Laws

open Machine Books

@[simp] theorem claim_setClaim_self (b : Books) (t : Target) (c : ClaimRec) : (b.setClaim t c).claim t = c := if_pos rfl
@[simp] theorem claim_setClaim_ne (b : Books) {t g : Target} (c : ClaimRec) (h : g ≠ t) :
    (b.setClaim t c).claim g = b.claim g := if_neg h

/-! ### A record changes with its holders kept -/

/-- A record changes, keeping its policy and every holder. -/
theorem setClaim_sound {s : State} (h : Sound s) (t : Target) (c : ClaimRec) (hp : c.policy = (s.claim t).policy)
    (hc : ClaimOk (books s).joined c) (ht : t = .tb → TbOk c)
    (hm : ∀ m ∈ (s.claim t).holders.map Holder.master, m ∈ c.holders.map Holder.master) : Sound (s.setClaim t c) := by
  have e := books_setClaim s t c
  refine ⟨?_, ?_, by rw [e]; exact h.reserved, ⟨fun g => ?_, ?_⟩, by rw [e]; exact h.table, fun q hq g hg => ?_, by rw [e]; exact h.voters,
    by rw [e]; exact h.undecided⟩
  · show RefsOk _; rw [e]; exact refs_setClaim h.refs t c hp
  · intro o; rw [e]; exact h.taken o
  · rw [e]
    by_cases k : g = t
    · subst k; rw [claim_setClaim_self]; exact hc
    · rw [claim_setClaim_ne _ _ k]; exact h.claims.1 g
  · rw [e]
    by_cases k : Target.tb = t
    · rw [k, claim_setClaim_self]; exact ht k.symm
    · rw [claim_setClaim_ne _ _ k]; exact h.claims.2
  · rw [e] at hq ⊢
    have := h.held q hq g hg
    by_cases k : g = t
    · subst k; rw [claim_setClaim_self]; exact hm _ this
    · rw [claim_setClaim_ne _ _ k]; exact this

/-- A record has a holder, so it is not FREE. -/
theorem ClaimOk.not_free {j : Master → Bool} {c : ClaimRec} (h : ClaimOk j c) {m : Master}
    (hm : m ∈ c.holders.map Holder.master) : c.mode ≠ .free := fun e => by
  rw [h.free_iff.mp e] at hm; cases hm

theorem masters_setLevel (l : List Holder) (m : Master) (v : ReportLevel) :
    (l.map fun h => if h.master = m then { h with level := v } else h).map Holder.master = l.map Holder.master := by
  rw [List.map_map]
  refine List.map_congr_left fun h _ => ?_
  show Holder.master (if _ then _ else _) = _
  split <;> rfl

theorem ClaimOk.setLevel {j : Master → Bool} {c : ClaimRec} (h : ClaimOk j c) (m : Master) (v : ReportLevel) :
    ClaimOk j { c with holders := c.holders.map fun h => if h.master = m then { h with level := v } else h } := by
  refine ⟨?_, h.keep, fun e => by rw [List.length_map]; exact h.one e, by rw [masters_setLevel]; exact h.nodup,
    fun x hx => ?_⟩
  · rw [List.map_eq_nil_iff]; exact h.free_iff
  · obtain ⟨y, hy, rfl⟩ := List.mem_map.mp hx
    have := h.mem y hy
    split <;> exact this

theorem setLevel_sound {s : State} (h : Sound s) (t : Target) (m : Master) (v : ReportLevel)
    (hv : t = .tb → v = .none) : Sound (setLevel s t m v) := by
  refine setClaim_sound h t _ rfl ((h.claims.1 t).setLevel m v) (fun e => ?_) fun x hx => by
    rw [masters_setLevel]; exact hx
  subst e
  refine ⟨h.claims.2.1, fun x hx => ?_⟩
  obtain ⟨y, hy, rfl⟩ := List.mem_map.mp hx
  split
  · exact hv rfl
  · exact h.claims.2.2 y hy

/-- The sole holder sets the mode. -/
theorem setMode_sound {s : State} (h : Sound s) (t : Target) (m : Master) (x : Bool)
    (hs : (s.claim t).holders.map Holder.master = [m]) : Sound (setMode s t (claimMode x)) := by
  have k := h.claims.1 t
  have l : (s.claim t).holders.length = 1 := by rw [← List.length_map (f := Holder.master), hs]; rfl
  have n : claimMode x ≠ .free := by cases x <;> exact nofun
  refine setClaim_sound h t _ rfl ⟨⟨fun e => absurd e n, fun e => ?_⟩, fun e => absurd e n, fun _ => l, k.nodup, k.mem⟩
    (fun e => by subst e; exact h.claims.2) fun _ hx => hx
  have e : (s.claim t).holders = [] := e
  rw [e] at l; cases l

/-- A joined master that does not hold the record joins its list. -/
theorem ClaimOk.append {j : Master → Bool} {c : ClaimRec} (h : ClaimOk j c) (hs : c.mode = .shared) {m : Master}
    (hm : m ∉ c.holders.map Holder.master) (hj : j m = true) (v : ReportLevel) :
    ClaimOk j { c with holders := c.holders ++ [⟨m, v⟩] } := by
  refine ⟨⟨fun e => ?_, fun e => ?_⟩, fun e => ?_, fun e => ?_, ?_, fun x hx => ?_⟩
  · exact absurd (hs.symm.trans e) nofun
  · simp at e
  · exact absurd (hs.symm.trans e) nofun
  · exact absurd (hs.symm.trans e) nofun
  · rw [List.map_append]
    refine List.nodup_append.mpr ⟨h.nodup, by simp, fun x hx y hy e => ?_⟩
    rw [List.map_singleton, List.mem_singleton] at hy
    exact hm (by rw [e, hy] at hx; exact hx)
  · rcases List.mem_append.mp hx with hx | hx
    · exact h.mem x hx
    · rw [List.mem_singleton.mp hx]; exact hj

theorem appendHolder_sound {s : State} (h : Sound s) (t : Target) (m : Master) (v : ReportLevel)
    (hs : (s.claim t).mode = .shared) (hm : m ∉ (s.claim t).holders.map Holder.master)
    (hj : s.joined m = true) (hv : t = .tb → v = .none) : Sound (appendHolder s t m v) := by
  refine setClaim_sound h t _ rfl ((h.claims.1 t).append hs hm hj v) (fun e => ?_) fun x hx => by
    rw [List.map_append]; exact List.mem_append_left _ hx
  subst e
  refine ⟨h.claims.2.1, fun x hx => ?_⟩
  rcases List.mem_append.mp hx with hx | hx
  · exact h.claims.2.2 x hx
  · rw [List.mem_singleton.mp hx]; exact hv rfl

/-! ### A record changes its policy -/

/-- The slot an orphan policy names. -/
theorem slot_beq (p : Policy) (k : Slot) : (p.slot == some k) = (p == .fallback k) := by
  cases p with
  | keep => rfl
  | stop => rfl
  | fallback j => by_cases h : j = k <;> simp [Policy.slot, h]


theorem books_addRefOpt (s : State) (k : Option Slot) : books (addRefOpt s k) = match k with
    | none => books s
    | some k => (books s).addRef k := by
  cases k with
  | none => rfl
  | some k => exact books_addRef s k

/-- A record changes with its references; its holders may change too. -/
theorem policy_sound {s u : State} (h : Sound s) (t : Target) (c : ClaimRec) (pol : Policy) (hpol : c.policy = pol)
    (hu : books u = ((match pol.slot with
      | none => books s
      | some k => (books s).addRef k).dropRefOpt (s.claim t).policy.slot).setClaim t c)
    (hk : ∀ k, pol = .fallback k → ((books s).slot k).state = .fixedSlot)
    (hc : ClaimOk (books s).joined c) (ht : t = .tb → TbOk c)
    (hm : ∀ m ∈ (s.claim t).holders.map Holder.master, m ∈ c.holders.map Holder.master) : Sound u := by
  have view : (books u).view = (books s).view := by
    rw [hu]; show (Books.dropRefOpt _ _).view = _
    rw [view_dropRefOpt]; split <;> rfl
  have proposals : (books u).proposals = (books s).proposals := by
    rw [hu]; show (Books.dropRefOpt _ _).proposals = _
    rw [proposals_dropRefOpt]; split <;> rfl
  have joined : (books u).joined = (books s).joined := by
    rw [hu]; show (Books.dropRefOpt _ _).joined = _
    rw [joined_dropRefOpt]; split <;> rfl
  have self : (books u).claim t = c := by rw [hu]; exact if_pos rfl
  have other (g : Target) (k : g ≠ t) : (books u).claim g = (books s).claim g := by
    rw [hu]
    refine (if_neg k).trans ?_
    rw [claim_dropRefOpt]; split <;> rfl
  have slot (k : Slot) : (books u).slot k = { (books s).slot k with
      refs := ((books s).slot k).refs + (pol == .fallback k).toNat - ((s.claim t).policy == .fallback k).toNat } := by
    rw [hu]
    show (Books.dropRefOpt _ _).slot k = _
    rw [slot_dropRefOpt, slot_beq, ← slot_beq pol]
    cases g : pol.slot with
    | none => rfl
    | some j => dsimp only; rw [slot_addRef, Option.some_beq_some]
  have old (o : Output) (k : Slot) : ((s.claim (.out o)).policy == .fallback k).toNat ≤ ((books s).slot k).refs := by
    have := sum_update (fun q => names ((books s).view q) k + (((books s).claim (.out q)).policy == .fallback k).toNat)
      (fun q => names ((books s).view q) k
        + if q = o then 0 else (((books s).claim (.out q)).policy == .fallback k).toNat)
      o fun q hq => by simp [hq]
    simp only [if_true, Nat.add_zero] at this
    have a := h.refs.count k
    rw [places_eq] at a
    show (((books s).claim (.out o)).policy == .fallback k).toNat ≤ _
    omega
  refine ⟨?_, ?_, fun o => by rw [view, proposals]; exact h.reserved o, ⟨fun g => ?_, ?_⟩,
    by rw [proposals]; exact h.table, fun q hq g hg => ?_,
    by rw [proposals]; exact h.voters, by rw [proposals]; exact h.undecided⟩
  · cases t with
    | out o =>
      refine RefsOk.setPolicy h.refs o view (fun p hp => other _ fun e => hp (by injection e)) proposals
        (fun k => by rw [slot]) (fun k => ?_) fun k e => ?_
      · rw [slot, self, hpol]
        have := old o k
        show _ - ((s.claim (.out o)).policy == .fallback k).toNat + ((s.claim (.out o)).policy == .fallback k).toNat = _
        omega
      · rw [self, hpol] at e; exact hk k e
    | tb =>
      have k1 : pol = .keep := hpol.symm.trans (ht rfl).1
      have k2 : (s.claim .tb).policy = .keep := h.claims.2.1
      refine h.refs.of_policies (funext fun k => ?_) view (fun p => by rw [other (.out p) nofun]) proposals
      rw [slot, k1, k2]; rfl
  · intro o; rw [view]; exact h.taken o
  · rw [joined]
    by_cases k : g = t
    · subst k; rw [self]; exact hc
    · rw [other g k]; exact h.claims.1 g
  · by_cases k : Target.tb = t
    · rw [k, self]; exact ht k.symm
    · rw [other _ k]; exact h.claims.2
  · rw [proposals] at hq
    have := h.held q hq g hg
    by_cases k : g = t
    · subst k; rw [self]; exact hm _ this
    · rw [other g k]; exact this

theorem setPolicy_sound {s : State} (h : Sound s) (o : Output) (pol : Policy)
    (hk : ∀ k, pol = .fallback k → ((books s).slot k).state = .fixedSlot)
    (hh : (s.claim (.out o)).holders ≠ []) : Sound (setPolicy s (.out o) pol) := by
  have c := h.claims.1 (.out o)
  refine policy_sound h (.out o) { s.claim (.out o) with policy := pol } pol rfl ?_ hk
    ⟨c.free_iff, fun e => absurd (c.free_iff.mp e) hh, c.one, c.nodup, c.mem⟩ nofun fun _ hx => hx
  unfold setPolicy
  rw [books_setClaim, books_dropRefOpt, books_addRefOpt]

theorem fixed_of_slotOf {s : State} {n : Nat} {k : Slot} (h : fixedSlotOf s n = some k) :
    ((books s).slot k).state = .fixedSlot := beq_iff_eq.mp (Option.filter_eq_some_iff.mp h).2

theorem fixed_of_policyFor {s : State} {c : PolicyCode} {n : Nat} {k : Slot}
    (h : policyFor s c n = some (.fallback k)) : ((books s).slot k).state = .fixedSlot := by
  unfold policyFor at h
  split at h
  · cases h
  · cases h
  · obtain ⟨j, hj, e⟩ := Option.map_eq_some_iff.mp h
    cases e
    exact fixed_of_slotOf hj

theorem claimFree_sound {s : State} (h : Sound s) (m : Master) (t : Target) (a : ClaimArgs)
    (hf : (s.claim t).mode = .free) (hj : s.joined m = true)
    (ha : t = .tb → a.policy = .keep ∧ a.level = .none) : Sound (claimFree s m t a).state := by
  unfold claimFree
  split
  · exact h
  · rename_i pol hp
    have c := h.claims.1 t
    have hfree : (books s).claim t = s.claim t := rfl
    have none : (s.claim t).holders = [] := c.free_iff.mp hf
    have keep : (s.claim t).policy = .keep := c.keep hf
    have n : claimMode a.exclusive ≠ .free := by cases a.exclusive <;> exact nofun
    refine policy_sound h t ⟨claimMode a.exclusive, [⟨m, a.level⟩], pol⟩ pol rfl ?_ (fun k e => ?_)
      ⟨⟨fun e => absurd e n, nofun⟩, fun e => absurd e n, fun _ => rfl, by simp, fun x hx => ?_⟩
      (fun e => ⟨?_, fun x hx => ?_⟩)
      fun x hx => ?_
    · show books ((addRefOpt s pol.slot).setClaim t _) = _
      rw [books_setClaim, books_addRefOpt, keep]; rfl
    · subst e; exact fixed_of_policyFor hp
    · rw [List.mem_singleton.mp hx]; exact hj
    · unfold policyFor at hp
      rw [(ha e).1] at hp
      cases hp; rfl
    · rw [List.mem_singleton.mp hx]; exact (ha e).2
    · rw [none] at hx; cases hx

/-! ### The last holder, and a holder that goes -/

/-- The laws but for one record, which nobody holds any more and on whose target no proposal is open. -/
structure Nearly (s : State) (t : Target) : Prop where
  refs : Refs s
  taken : Taken s
  reserved : ReservedOk (books s)
  table : Table (books s).proposals
  held : ∀ p ∈ (books s).proposals, Held (books s) p
  voters : ∀ p ∈ (books s).proposals, Voters p
  undecided : ∀ p ∈ (books s).proposals, p.accepted ≠ p.required
  claims : ∀ g, g ≠ t → ClaimOk (books s).joined ((books s).claim g)
  tb : TbOk ((books s).claim .tb)
  gone : ((books s).claim t).holders = []

theorem claimOk_reset (j : Master → Bool) : ClaimOk j .reset :=
  ⟨⟨fun _ => rfl, fun _ => rfl⟩, fun _ => rfl, nofun, List.nodup_nil, nofun⟩

theorem settle_sound {s : State} {t : Target} (h : Nearly s t) : Sound (settle s t) ∧ Shrinks s (settle s t)
    ∧ ((books (settle s t)).claim t).holders = [] := by
  obtain ⟨u, w, e⟩ : ∃ u, Worked s u
      ∧ settle s t = (u.setClaim t .reset).dropRefOpt (s.claim t).policy.slot := by
    cases t with
    | tb => exact ⟨s, Works.refl s h.refs h.taken, rfl⟩
    | out o => exact ⟨_, applyPolicy_works s o _ (fun k e => policy_fixed h.refs e) h.refs h.taken, rfl⟩
  rw [e]
  generalize hpol : (s.claim t).policy = pol
  have eb : books ((u.setClaim t .reset).dropRefOpt pol.slot) = ((books u).setClaim t .reset).dropRefOpt pol.slot := by
    rw [books_dropRefOpt, books_setClaim]
  generalize (u.setClaim t .reset).dropRefOpt pol.slot = v at eb
  have view : (books v).view = (books u).view := by rw [eb, view_dropRefOpt]; rfl
  have proposals : (books v).proposals = (books s).proposals := by rw [eb, proposals_dropRefOpt, ← w.proposals]; rfl
  have joined : (books v).joined = (books s).joined := by rw [eb, joined_dropRefOpt, ← w.joined]; rfl
  have self : (books v).claim t = .reset := by rw [eb, claim_dropRefOpt]; exact if_pos rfl
  have other (g : Target) (k : g ≠ t) : (books v).claim g = (books s).claim g := by
    rw [eb, claim_dropRefOpt, ← w.claim]; exact if_neg k
  have slot (k : Slot) : (books v).slot k = { (books u).slot k with
      refs := ((books u).slot k).refs - (pol == .fallback k).toNat } := by
    rw [eb, slot_dropRefOpt, slot_beq]; rfl
  have hold : (books u).claim t = s.claim t := by rw [w.claim]; rfl
  refine ⟨⟨?_, ?_, fun o => by rw [view, w.reserved, proposals]; exact h.reserved o, ⟨fun g => ?_, ?_⟩,
    by rw [proposals]; exact h.table, fun q hq g hg => ?_,
    by rw [proposals]; exact h.voters, by rw [proposals]; exact h.undecided⟩, fun g m hg => ?_, by rw [self]; rfl⟩
  · cases t with
    | out o =>
      refine RefsOk.setPolicy w.refs o view (fun p hp => ?_) (by rw [proposals, w.proposals])
        (fun k => by rw [slot]) (fun k => ?_) fun k e => ?_
      · rw [other _ fun e => hp (by injection e), w.claim]
      · rw [slot, self, hold, hpol]
        have l : (pol == .fallback k).toNat ≤ ((books u).slot k).refs := by
          by_cases g : pol = .fallback k
          · have a := w.refs.count k
            rw [places_eq] at a
            have : 0 < (((allOutputs.map fun q => names ((books u).view q) k
                + (((books u).claim (.out q)).policy == .fallback k).toNat).sum)) := by
              refine Nat.lt_of_lt_of_le ?_ (List.single_le_sum (by simp) _
                (List.mem_map_of_mem (a := o) (mem_allOutputs o)))
              rw [hold, hpol, g]; simp
            have := Bool.toNat_le (pol == .fallback k)
            omega
          · rw [beq_false_of_ne g]; simp
        show _ - (pol == .fallback k).toNat + (pol == .fallback k).toNat
          = ((books u).slot k).refs + ((ClaimRec.reset).policy == .fallback k).toNat
        rw [show ((ClaimRec.reset).policy == .fallback k) = false from rfl]
        simp only [Bool.toNat_false]
        omega
      · rw [self] at e; cases e
    | tb =>
      have k2 : pol = .keep := hpol ▸ h.tb.1
      refine w.refs.of_policies (funext fun k => ?_) view (fun p => by rw [other (.out p) nofun, w.claim])
        (by rw [proposals, w.proposals])
      rw [slot, k2]; rfl
  · intro o; rw [view]; exact w.taken o
  · rw [joined]
    by_cases k : g = t
    · subst k; rw [self]; exact claimOk_reset _
    · rw [other g k]; exact h.claims g k
  · by_cases k : Target.tb = t
    · rw [k, self]; exact ⟨rfl, nofun⟩
    · rw [other _ k]; exact h.tb
  · rw [proposals] at hq
    have := h.held q hq g hg
    by_cases k : g = t
    · subst k; rw [h.gone] at this; cases this
    · rw [other g k]; exact this
  · by_cases k : g = t
    · subst k; rw [self] at hg; cases hg
    · rw [other g k] at hg; exact hg

theorem Sound.nearly {s : State} (h : Sound s) (t : Target) (g : ((books s).claim t).holders = []) : Nearly s t :=
  ⟨h.refs, h.taken, h.reserved, h.table, h.held, h.voters, h.undecided, fun g _ => h.claims.1 g, h.claims.2, g⟩

/-- Settling a record, if nobody holds it. -/
theorem settled_sound {s : State} {t : Target} (h : Sound s ∨ Nearly s t) :
    Sound (if (s.claim t).holders = [] then settle s t else s)
      ∧ Shrinks s (if (s.claim t).holders = [] then settle s t else s) := by
  split
  · rename_i g
    have n : Nearly s t := h.elim (fun k => k.nearly t g) id
    exact ⟨(settle_sound n).1, (settle_sound n).2.1⟩
  · rename_i g
    rcases h with h | h
    · exact ⟨h, .refl s⟩
    · exact absurd h.gone g

theorem mem_masters_filter {l : List Holder} {m x : Master} :
    x ∈ (l.filter fun h => h.master != m).map Holder.master ↔ x ∈ l.map Holder.master ∧ x ≠ m := by
  constructor
  · intro h
    obtain ⟨y, hy, rfl⟩ := List.mem_map.mp h
    obtain ⟨h1, h2⟩ := List.mem_filter.mp hy
    exact ⟨List.mem_map_of_mem h1, by simpa using h2⟩
  · rintro ⟨h, k⟩
    obtain ⟨y, hy, rfl⟩ := List.mem_map.mp h
    exact List.mem_map_of_mem (List.mem_filter.mpr ⟨hy, by simp [k]⟩)

/-- Where other holders stay, the record stays a SHARED one. -/
theorem ClaimOk.removed {j : Master → Bool} {c : ClaimRec} (h : ClaimOk j c) {m : Master}
    (hm : m ∈ c.holders.map Holder.master) (hl : (c.holders.filter fun h => h.master != m) ≠ []) :
    ClaimOk j { c with holders := c.holders.filter fun h => h.master != m } := by
  refine ⟨⟨fun e => absurd e (h.not_free hm), fun e => absurd e hl⟩, fun e => absurd e (h.not_free hm), fun e => ?_,
    h.nodup.sublist (List.filter_sublist.map _), fun x hx => h.mem x (List.mem_filter.mp hx).1⟩
  exfalso
  obtain ⟨x, hx⟩ := List.length_eq_one_iff.mp (h.one e)
  rw [hx] at hm hl
  have : m = x.master := by simpa using hm
  exact hl (by simp [this])

/-- A holder is removed: the laws hold, and it holds the target no more. -/
theorem removeHolder_sound {s : State} {t : Target} {m : Master} (h : Sound s)
    (hm : m ∈ ((books s).claim t).holders.map Holder.master) :
    Sound (removeHolder s t m) ∧ Shrinks s (removeHolder s t m)
      ∧ m ∉ ((books (removeHolder s t m)).claim t).holders.map Holder.master := by
  have ck := h.claims.1 t
  unfold removeHolder
  dsimp only
  generalize hc : ({ s.claim t with holders := (s.claim t).holders.filter fun h => h.master != m } : ClaimRec) = c
  have hch : c.holders = ((books s).claim t).holders.filter fun h => h.master != m := by rw [← hc]; rfl
  have e1 := books_setClaim s t c
  have on1 : ∀ x, (s.setClaim t c).proposalOn x = s.proposalOn x := fun x => by cases t <;> rfl
  generalize s.setClaim t c = s1 at e1 on1
  have self : (books s1).claim t = c := by rw [e1, claim_setClaim_self]
  have other (g : Target) (k : g ≠ t) : (books s1).claim g = (books s).claim g := by rw [e1, claim_setClaim_ne _ _ k]
  have ps : (books s1).proposals = (books s).proposals := by rw [e1]; rfl
  have jn : (books s1).joined = (books s).joined := by rw [e1]; rfl
  have a1 : Refs s1 := by
    show RefsOk _; rw [e1]; exact refs_setClaim h.refs t c (by rw [← hc])
  have b1 : Taken s1 := by intro o; rw [e1]; exact h.taken o
  have r1 : ReservedOk (books s1) := by rw [e1]; exact h.reserved
  have n1 : Table (books s1).proposals := by rw [ps]; exact h.table
  have sh1 : Shrinks s s1 := fun g x hx => by
    by_cases k : g = t
    · subst k; rw [self, hch] at hx; exact (mem_masters_filter.mp hx).1
    · rw [other g k] at hx; exact hx
  have out1 : m ∉ ((books s1).claim t).holders.map Holder.master := by
    rw [self, hch]; exact fun k => (mem_masters_filter.mp k).2 rfl
  have tb1 : TbOk ((books s1).claim .tb) := by
    by_cases k : Target.tb = t
    · subst k
      rw [self, ← hc]
      exact ⟨h.claims.2.1, fun x hx => h.claims.2.2 x (List.mem_filter.mp hx).1⟩
    · rw [other _ k]; exact h.claims.2
  have cl1 (g : Target) (k : g ≠ t) : ClaimOk (books s1).joined ((books s1).claim g) := by
    rw [jn, other g k]; exact h.claims.1 g
  -- a proposal keeps its proposer's claim unless it is on the target and `m` proposed it
  have held1 (q : Proposal) (hq : q ∈ (books s).proposals) (k : q.matter.target ≠ some t ∨ q.proposer ≠ m) :
      Held (books s1) q := fun g hg => by
    have := h.held q hq g hg
    by_cases l : g = t
    · subst l
      rw [self, hch]
      exact mem_masters_filter.mpr ⟨this, k.elim (fun k => absurd hg k) id⟩
    · rw [other g l]; exact this
  have whole (l : c.holders ≠ []) (k : ∀ q ∈ (books s).proposals, Held (books s1) q) : Sound s1 := by
    refine ⟨a1, b1, r1, ⟨fun g => ?_, tb1⟩, n1, by rw [ps]; exact k, by rw [ps]; exact h.voters,
      by rw [ps]; exact h.undecided⟩
    by_cases l2 : g = t
    · subst l2; rw [jn, self, ← hc]; exact ck.removed hm (by rw [hch] at l; exact l)
    · exact cl1 g l2
  have nearly (l : c.holders = []) (k : ∀ q ∈ (books s).proposals, Held (books s1) q) : Nearly s1 t :=
    ⟨a1, b1, r1, n1, by rw [ps]; exact k, by rw [ps]; exact h.voters, by rw [ps]; exact h.undecided, cl1, tb1,
      by rw [self]; exact l⟩
  have main : (Sound (releaseProposal s1 t m) ∨ Nearly (releaseProposal s1 t m) t)
      ∧ Shrinks s1 (releaseProposal s1 t m) := by
    unfold releaseProposal
    rw [on1]
    cases hq : s.proposalOn (some t) with
    | none =>
      have k : ∀ q ∈ (books s).proposals, Held (books s1) q := fun q hq2 =>
        held1 q hq2 (.inl (proposalOn_none hq q hq2))
      refine ⟨?_, .refl s1⟩
      by_cases l : c.holders = []
      · exact .inr (nearly l k)
      · exact .inl (whole l k)
    | some p =>
      obtain ⟨hp, hpt⟩ := proposalOn_mem hq
      have uniq (q : Proposal) (hq2 : q ∈ (books s).proposals) (hi : q.id ≠ p.id) : q.matter.target ≠ some t := fun e =>
        hi (by rw [List.inj_on_of_nodup_map h.table.targets hq2 hp (by rw [e, hpt])])
      have hp1 : p ∈ (books s1).proposals := by rw [ps]; exact hp
      show (Sound (leaveProposal s1 p m) ∨ Nearly (leaveProposal s1 p m) t) ∧ Shrinks s1 (leaveProposal s1 p m)
      by_cases hpm : p.proposer = m
      · have en := endProposal_ended .withdrawn a1 b1 hp1 n1
        have el : leaveProposal s1 p m = endProposal s1 p .withdrawn := by unfold leaveProposal; rw [if_pos hpm]
        rw [el]
        refine ⟨?_, .of_claim en.claim⟩
        have rest : ∀ q ∈ (books s1).proposals, q.id ≠ p.id → Held (books s1) q ∧ Voters q ∧ q.accepted ≠ q.required :=
          fun q hq2 hi => by
            rw [ps] at hq2
            exact ⟨held1 q hq2 (.inl (uniq q hq2 hi)), h.voters q hq2, h.undecided q hq2⟩
        by_cases l : c.holders = []
        · refine .inr ⟨en.refs, en.taken, en.reservedOk r1 n1 hp1, by rw [en.proposals]; exact n1.free _, fun q hq2 => ?_, fun q hq2 => ?_,
            fun q hq2 => ?_, fun g k => by rw [en.claim, en.joined]; exact cl1 g k, by rw [en.claim]; exact tb1,
            by rw [en.claim, self]; exact l⟩
          all_goals
            rw [en.proposals] at hq2
            obtain ⟨h1, h2⟩ := List.mem_filter.mp hq2
            have r := rest q h1 (by simpa using h2)
          · unfold Held; rw [en.claim]; exact r.1
          · exact r.2.1
          · exact r.2.2
        · refine .inl (en.sound r1 hp1 ⟨fun g => ?_, tb1⟩ n1 rest)
          by_cases l2 : g = t
          · subst l2; rw [jn, self, ← hc]; exact ck.removed hm (by rw [hch] at l; exact l)
          · exact cl1 g l2
      · have k : ∀ q ∈ (books s).proposals, Held (books s1) q := fun q hq2 => by
          by_cases hi : q.id = p.id
          · have : q = p := List.inj_on_of_nodup_map h.table.ids hq2 hp hi
            exact held1 q hq2 (.inr (by rw [this]; exact hpm))
          · exact held1 q hq2 (.inl (uniq q hq2 hi))
        have l : c.holders ≠ [] := fun e => by
          have := k p hp t hpt
          rw [self, e] at this; cases this
        have r := leaveProposal_sound m (whole l k) hp1
        exact ⟨.inl r.1, r.2⟩
  generalize releaseProposal s1 t m = s2 at main
  have fin := settled_sound main.1
  exact ⟨fin.1, (sh1.trans main.2).trans fin.2, fun k => out1 (main.2 t m (fin.2 t m k))⟩

end Sys2Proof.Laws
end

