-- ==== Sys2Proof/Laws/Requests.lean ====
section
/-! SUPPORT. Taking a request: when it is taken, what it is answered, and what handling one keeps. -/

namespace Sys2Proof.Laws

open Machine

/-! ### When a frame is taken -/

theorem nextRequest_of_offered {s : State} {m : Master} {f : Frame} (h : Offered s m f) : nextRequest s m = some f := by
  obtain ⟨a, b, c, d⟩ := h
  simp only [nextRequest, a, b, c, d, Option.isSome_none, Bool.or_self]
  rfl

/-- An offered frame of the row is handled. -/
theorem serve_of_offered {s : State} {m : Master} {f : Frame} (h : Offered s m f) {row : Frame → Bool}
    (hr : row f = true) (owner : State → Frame → Reply) :
    serve s m row owner = handle (popRequest s m) m f owner := by
  simp only [serve, nextRequest_of_offered h, hr, if_true]

/-- A frame refused at admission has its common effect and is answered with the code (R159, R162). -/
theorem handle_of_refused {s : State} {m : Master} {f : Frame} {c : ResultCode}
    (h : admission (commonEffect s m f) m f = some c) (owner : State → Frame → Reply) :
    handle s m f owner = answered (commonEffect s m f) m f c [] := by
  simp only [handle, h]; rfl

theorem commonEffect_of_joined {s : State} {m : Master} {f : Frame} (h : s.joined m = true) :
    commonEffect (popRequest s m) m f = taken s m f := by
  have : (popRequest s m).joined m = true := h
  simp only [commonEffect, this, if_true]; rfl

theorem commonEffect_of_not_joined {s : State} {m : Master} {f : Frame} (h : s.joined m = false) :
    commonEffect (popRequest s m) m f = popped s m := by
  have : (popRequest s m).joined m = false := h
  simp only [commonEffect, this]; rfl

theorem taken_state (s : State) (m : Master) (f : Frame) : ((taken s m f).master m).state = .joined := by
  unfold taken; rw [State.master_setMaster_self]

/-- The frame of an admitted request passes every admission check. -/
theorem admission_of_admitted {s : State} {m : Master} {k : Byte} {f : Frame} (h : Admitted s m k f)
    (hk : knownKind k.toNat = true) : admission (taken s m f) m f = none := by
  obtain ⟨_, hf, hl, _, hs⟩ := h
  subst hf
  have ht : (taken s m f).tbu = s.tbu := rfl
  have hst : ¬(s.tbu.state.standbySel.isSome = true ∧ admittedInStandby f.kind.toNat = false) := by
    rintro ⟨a, b⟩
    exact absurd ((hs a).symm.trans b) (by decide)
  simp only [admission, hk, hl, taken_state, ht, if_neg hst]
  simp

/-- An admitted request of the row goes to its owner, in the state in which it was taken, and is answered. -/
theorem serve_of_admitted {s : State} {m : Master} {k : Byte} {f : Frame} (h : Admitted s m k f)
    (hk : knownKind k.toNat = true) {row : Frame → Bool} (hr : row f = true) (owner : State → Frame → Reply) :
    serve s m row owner = answered (owner (taken s m f) f).state m f (owner (taken s m f) f).code
      (owner (taken s m f) f).payload := by
  rw [serve_of_offered h.1 hr]
  simp only [handle, commonEffect_of_joined h.2.2.2.1, admission_of_admitted h hk]
  rfl

/-- The row of one kind takes a frame of that kind. -/
theorem kindIs_of_admitted {s : State} {m : Master} {k : Byte} {f : Frame} (h : Admitted s m k f) :
    kindIs k.toNat f = true := by
  rw [← h.2.1]; simp [kindIs]

/-- A command whose frame is not on offer, or not of its row, changes nothing (log entry 2). -/
theorem serve_of_no_frame {s : State} {m : Master} (h : nextRequest s m = none) (row : Frame → Bool)
    (owner : State → Frame → Reply) : serve s m row owner = s := by
  simp only [serve, h]

/-! ### What handling keeps -/

/-- A property that taking and answering keep, and that the owner keeps, is kept by the command. -/
theorem serve_keeps (P : State → Prop) {m : Master} {row : Frame → Bool} {owner : State → Frame → Reply}
    (pop : ∀ s, P s → P (popRequest s m)) (common : ∀ s f, P s → P (commonEffect s m f))
    (answer : ∀ f r, P r.state → P (respond m f r)) (own : ∀ s f, P s → P (owner s f).state) (s : State) (h : P s) :
    P (serve s m row owner) := by
  unfold serve
  split
  · exact h
  · split
    · unfold handle
      dsimp only
      split
      · exact answer _ _ (common _ _ (pop _ h))
      · exact answer _ _ (own _ _ (common _ _ (pop _ h)))
    · exact h

/-! ### Fields of the state in which a request is taken -/

@[simp] theorem taken_chans (s : State) (m : Master) (f : Frame) : (taken s m f).chans = s.chans := rfl
@[simp] theorem taken_slots (s : State) (m : Master) (f : Frame) : (taken s m f).slots = s.slots := rfl
@[simp] theorem taken_outClaims (s : State) (m : Master) (f : Frame) : (taken s m f).outClaims = s.outClaims := rfl
@[simp] theorem taken_tbClaim (s : State) (m : Master) (f : Frame) : (taken s m f).tbClaim = s.tbClaim := rfl
@[simp] theorem taken_consent (s : State) (m : Master) (f : Frame) : (taken s m f).consent = s.consent := rfl
@[simp] theorem taken_tbu (s : State) (m : Master) (f : Frame) : (taken s m f).tbu = s.tbu := rfl
@[simp] theorem taken_table (s : State) (m : Master) (f : Frame) : (taken s m f).table = s.table := rfl
@[simp] theorem taken_now (s : State) (m : Master) (f : Frame) : (taken s m f).now = s.now := rfl
@[simp] theorem taken_straps (s : State) (m : Master) (f : Frame) : (taken s m f).straps = s.straps := rfl
@[simp] theorem taken_resetTaken (s : State) (m : Master) (f : Frame) : (taken s m f).resetTaken = s.resetTaken := rfl
@[simp] theorem taken_slot (s : State) (m : Master) (f : Frame) (k : Slot) : (taken s m f).slot k = s.slot k := rfl
@[simp] theorem taken_chan (s : State) (m : Master) (f : Frame) (o : Output) : (taken s m f).chan o = s.chan o := rfl
@[simp] theorem taken_sq (s : State) (m : Master) (f : Frame) (o : Output) : (taken s m f).sq o = s.sq o := rfl
@[simp] theorem taken_queue (s : State) (m : Master) (f : Frame) (o : Output) : (taken s m f).queue o = s.queue o := rfl
@[simp] theorem taken_burst (s : State) (m : Master) (f : Frame) (o : Output) : (taken s m f).burst o = s.burst o := rfl
@[simp] theorem taken_claim (s : State) (m : Master) (f : Frame) (t : Target) : (taken s m f).claim t = s.claim t := by
  cases t <;> rfl
@[simp] theorem taken_det (s : State) (m : Master) (f : Frame) (d : Detector) : (taken s m f).det d = s.det d := by
  cases d <;> rfl
@[simp] theorem taken_isHolder (s : State) (m j : Master) (f : Frame) (t : Target) :
    (taken s m f).isHolder t j = s.isHolder t j := by simp only [State.isHolder, State.holders, taken_claim]
@[simp] theorem taken_isSole (s : State) (m j : Master) (f : Frame) (t : Target) :
    (taken s m f).isSole t j = s.isSole t j := by simp only [State.isSole, State.holders, taken_claim]
@[simp] theorem taken_isFixed (s : State) (m : Master) (f : Frame) (k : Slot) :
    (taken s m f).isFixed k = s.isFixed k := rfl
@[simp] theorem taken_joined (s : State) (m : Master) (f : Frame) (h : s.joined m = true) (j : Master) :
    (taken s m f).joined j = s.joined j := by
  by_cases e : j = m
  · subst e; rw [h]; simp [State.joined, MasterRec.isJoined, taken]
  · simp [State.joined, taken, popped, e]

end Sys2Proof.Laws
end

