-- ==== Sys2Proof/Laws/Answers.lean ====
section
/-! SUPPORT. The owners of requests keep the laws of the records: outputs, claims, rounds and the timebase. -/

namespace Sys2Proof.Laws

open Machine Books

/-! ### Taking and answering -/

@[simp] theorem books_popRequest (s : State) (m : Master) : books (popRequest s m) = books s := rfl

@[simp] theorem books_commonEffect (s : State) (m : Master) (f : Frame) : books (commonEffect s m f) = books s := by
  unfold commonEffect
  split
  · rename_i h; exact books_setMaster _ _ _ (by rw [h]; rfl)
  · rfl

@[simp] theorem books_respond (m : Master) (f : Frame) (r : Reply) : books (respond m f r) = books r.state := rfl

/-- A request command keeps the laws if its owner does, on a frame of its row that passes the admission checks. -/
theorem serve_sound {s : State} {m : Master} {row : Frame → Bool} {owner : State → Frame → Reply} (h : Sound s)
    (own : ∀ t f, Sound t → row f = true → admission t m f = none → Sound (owner t f).state) :
    Sound (serve s m row owner) := by
  unfold serve
  split
  · exact h
  · rename_i f _
    split
    · rename_i hr
      unfold handle
      dsimp only
      have c : Sound (commonEffect (popRequest s m) m f) := h.of_books (by simp)
      split
      · exact c.of_books (books_respond _ _ _)
      · rename_i ha
        exact (own _ f c hr ha).of_books (books_respond _ _ _)
    · exact h

/-- Past the admission checks the sender is a member, but for JOIN and QUERY. -/
theorem joined_of_admission {s : State} {m : Master} {f : Frame} (h : admission s m f = none)
    (hk : admittedUnjoined f.kind.toNat = false) : s.joined m = true := by
  unfold admission at h
  simp only [hk, and_true] at h
  split_ifs at h with h1 h2 h3 h4 h5
  unfold State.joined MasterRec.isJoined
  split
  · rfl
  · rfl
  · rename_i g; exact absurd g h3
  · rename_i g; exact absurd g h4

/-! ### Who must vote -/

theorem sole_iff (s : State) (t : Target) (m : Master) :
    s.isSole t m = true ↔ (s.claim t).holders.map Holder.master = [m] := beq_iff_eq

/-- A holder that is not alone shares the target with another. -/
theorem other_holder {s : State} (h : Sound s) {t : Target} {m : Master} (hh : s.isHolder t m = true)
    (hs : s.isSole t m = false) : ∃ j, j ≠ m ∧ s.isHolder t j = true := by
  have hm := (isHolder_iff s t m).mp hh
  have nd := (h.claims.1 t).nodup
  have hs : ((books s).claim t).holders.map Holder.master ≠ [m] := fun e => by
    rw [(sole_iff s t m).mpr e] at hs; cases hs
  by_contra no
  have all : ∀ j ∈ ((books s).claim t).holders.map Holder.master, j = m := fun j hj => by
    by_contra e
    exact no ⟨j, e, (isHolder_iff s t j).mpr hj⟩
  generalize ((books s).claim t).holders.map Holder.master = l at hm nd hs all
  cases l with
  | nil => cases hm
  | cons x l =>
    rw [all x List.mem_cons_self] at nd hs
    cases l with
    | nil => exact hs rfl
    | cons y l =>
      have : y = m := all y (List.mem_cons_of_mem _ List.mem_cons_self)
      rw [this] at nd
      exact (List.nodup_cons.mp nd).1 List.mem_cons_self

theorem required_of_target {s : State} {w : Matter} {t : Target} {m j : Master} (ht : w.target = some t) (hj : j ≠ m)
    (hh : s.isHolder t j = true) : requiredFor s w m ≠ [] := by
  unfold requiredFor
  rw [ht]
  exact List.ne_nil_of_mem (List.mem_filter.mpr ⟨mem_allMasters j, by simp [hj, hh]⟩)

theorem required_of_device {s : State} {w : Matter} {m : Master} (ht : w.target = none) (hj : s.joined m = true)
    (ho : onlyJoined s m = false) : requiredFor s w m ≠ [] := by
  unfold requiredFor
  rw [ht]
  intro e
  have e : (allMasters.filter fun m' => s.joined m' && m' != m) = [] := e
  have none : ∀ j, s.joined j = true → j = m := fun j hj => by
    by_contra k
    have : j ∈ allMasters.filter fun m' => s.joined m' && m' != m :=
      List.mem_filter.mpr ⟨mem_allMasters j, by simp [hj, k]⟩
    rw [e] at this; cases this
  have : s.joinedMasters = allMasters.filter (· == m) := List.filter_congr fun j _ => by
    rw [Bool.eq_iff_iff, beq_iff_eq]
    exact ⟨none j, fun k => k ▸ hj⟩
  unfold onlyJoined at ho
  rw [this] at ho
  revert ho
  fin_cases m <;> decide

/-- A proposal on a target that the requester holds, or on DEVICE. -/
theorem openProposal_sound {s : State} (m : Master) (tag : Byte) (w : Matter) (window : Nat) (h : Sound s)
    (hr : requiredFor s w m ≠ []) (hw : ∀ k, w.payloadSlot = some k → ((books s).slot k).state = .fixedSlot)
    (hh : ∀ t, w.target = some t → s.isHolder t m = true) : Sound (openProposal s m tag w window).state := by
  rcases openProposal_opened m tag w window h hr hw with ⟨_, e⟩ | ⟨_, p, o, pm, pp⟩
  · rw [e]; exact h
  · refine o.sound h fun t ht => ?_
    rw [pm] at ht
    rw [pp]; exact (isHolder_iff s t m).mp (hh t ht)

theorem shared_sound {s : State} {m : Master} (tag : Byte) {w : Matter} (window : Nat) {t : Target} (h : Sound s)
    (ht : w.target = some t) (hh : s.isHolder t m = true) (hs : s.isSole t m = false)
    (hw : ∀ k, w.payloadSlot = some k → ((books s).slot k).state = .fixedSlot) :
    Sound (openProposal s m tag w window).state := by
  obtain ⟨j, hj, hjh⟩ := other_holder h hh hs
  refine openProposal_sound m tag w window h (required_of_target ht hj hjh) hw fun g hg => ?_
  rw [ht] at hg; cases hg; exact hh

/-! ### Requests on outputs -/

theorem withOutput_sound {s : State} {n : Nat} {act : Output → Reply} (h : Sound s) (k : ∀ o, Sound (act o).state) :
    Sound (withOutput s n act).state := by
  unfold withOutput
  split
  · exact h
  · exact k _

theorem changeSole_sound {s : State} (m : Master) (tag : Byte) (o : Output) (k : Slot) (h : Sound s)
    (hk : ((books s).slot k).state = .fixedSlot) : Sound (changeSole s m tag o k).state := by
  have b : Sound (Machine.bind s o k) := h.works (bind_works s o k hk)
  unfold changeSole
  split
  · exact b
  · exact b
  · exact b
  · exact h
  · split
    · exact h
    · refine h.works (appendEntry_works s o _ rfl fun j e => ?_)
      cases e; exact hk

theorem changeRequest_sound {s : State} (m : Master) (f : Frame) (h : Sound s) : Sound (changeRequest s m f).state := by
  refine withOutput_sound h fun o => ?_
  split
  · exact h
  · rename_i hh
    have hh : s.isHolder (.out o) m = true := by simpa using hh
    split
    · exact h
    · rename_i k g
      have hk := fixed_of_slotOf g
      split
      · exact changeSole_sound m f.tag o k h hk
      · rename_i hs
        exact shared_sound f.tag _ h (w := .outputChange o k) rfl hh (by simpa using hs) fun j e => by cases e; exact hk

theorem stopSole_sound {s : State} (m : Master) (tag : Byte) (o : Output) (h : Sound s) :
    Sound (stopSole s m tag o).state := by
  unfold stopSole
  split
  · split
    · exact h
    · exact h.works (appendEntry_works s o _ rfl nofun)
  · rename_i g; exact h.works (returnToBound_works s o g)
  · exact h
  · exact h
  · exact h

theorem stopRequest_sound {s : State} (m : Master) (f : Frame) (h : Sound s) : Sound (stopRequest s m f).state := by
  refine withOutput_sound h fun o => ?_
  split
  · exact h
  · rename_i hh
    split
    · exact stopSole_sound m f.tag o h
    · rename_i hs
      exact shared_sound f.tag _ h (w := .outputStop o) rfl (by simpa using hh) (by simpa using hs) nofun

theorem startRequest_sound {s : State} (m : Master) (f : Frame) (h : Sound s) : Sound (startRequest s m f).state := by
  unfold startRequest
  split
  · exact h
  · refine withOutput_sound h fun o => ?_
    split
    · exact h
    · rename_i hh
      split
      · rename_i hs
        exact shared_sound f.tag _ h (w := .outputStart o) rfl (by simpa using hh) (by simpa using hs) nofun
      · split
        · rename_i g; exact h.works (enterWaiting_works s o g)
        · exact h

theorem groupStartRequest_sound {s : State} (m : Master) (f : Frame) (h : Sound s) :
    Sound (groupStartRequest s m f).state := by
  unfold groupStartRequest
  split
  · exact h
  · split
    · exact h
    · dsimp only
      split
      · exact h
      · exact h.of_books (books_groupMove s m _)

theorem cutRequest_sound {s : State} (m : Master) (f : Frame) (h : Sound s) : Sound (cutRequest s m f).state := by
  refine withOutput_sound h fun o => ?_
  split
  · exact h
  · split
    · exact h
    · split
      · exact h
      · rename_i k g
        split
        · exact h
        · dsimp only
          have d := dropCut_works s o .superseded
          refine h.works (d.trans ?_)
          have hk : ((books (dropCut s o .superseded)).slot k).state = .fixedSlot := by
            rw [(d h.refs h.taken).slotState]; exact fixed_of_slotOf g
          exact (setSq_moves (dropCut s o .superseded) o
            { (dropCut s o .superseded).sq o with cut := some ⟨k, m, f.tag⟩ } rfl rfl fun j e => by cases e; exact hk).works id rfl

theorem viewOf_applySet (r : OutRec) (g : GroupArg) (p : Option Polarity) (q : List Entry) :
    viewOf (r.applySet g p) q = viewOf r q := by
  have a (r : OutRec) : viewOf (r.setGroup g) q = viewOf r q := by cases g <;> rfl
  have b (r : OutRec) (p : Polarity) : viewOf (r.setPolarity p) q = viewOf r q := by
    unfold OutRec.setPolarity
    split
    · split <;> rfl
    · rfl
  cases p with
  | none => exact a r
  | some p => exact (b _ p).trans (a r)

theorem outputSetRequest_sound {s : State} (m : Master) (f : Frame) (h : Sound s) :
    Sound (outputSetRequest s m f).state := by
  refine withOutput_sound h fun o => ?_
  split
  · dsimp only
    split_ifs
    · exact h
    · exact h
    · exact h
    · exact h.of_books (books_setSq s o _ (viewOf_applySet _ _ _ _))
  · exact h

/-! ### Claims -/

theorem claimArgs_tb {p : List Byte} {a : ClaimArgs} (h : claimArgs .tb p = some a) :
    a.policy = .keep ∧ a.level = .none := by
  unfold claimArgs at h
  split at h
  · cases h
  · cases h; exact ⟨rfl, rfl⟩

/-- EXCLUSIVE by consent: the proposal opens, and the requester's entry follows. -/
theorem claimByConsent_sound {s : State} {m : Master} (tag : Byte) {t : Target} (a : ClaimArgs) (act : State → State)
    (h : Sound s) (hr : requiredFor s (.claimExclusive t) m ≠ [])
    (k : ∀ u p, Opened s u p → p.matter = .claimExclusive t → p.proposer = m → Sound (act u)) :
    Sound (claimByConsent s m tag t a act).state := by
  unfold claimByConsent
  dsimp only
  rcases openProposal_opened m tag (.claimExclusive t) a.window h hr nofun with ⟨e1, e2⟩ | ⟨e, p, o, pm, pp⟩
  · rw [if_neg e1, e2]; exact h
  · rw [if_pos e]; exact k _ p o pm pp

/-- The requester joins the list of a SHARED record after its proposal on it has opened. -/
theorem appendOpened_sound {s u : State} {m : Master} {t : Target} {p : Proposal} (v : ReportLevel) (h : Sound s)
    (o : Opened s u p) (pm : p.matter = .claimExclusive t) (pp : p.proposer = m) (hs : (s.claim t).mode = .shared)
    (hm : s.isHolder t m = false) (hj : s.joined m = true) (hv : t = .tb → v = .none) :
    Sound (appendHolder u t m v) := by
  have e : u.claim t = s.claim t := congrFun o.claim t
  have nm : m ∉ (s.claim t).holders.map Holder.master := fun k => by
    rw [(isHolder_iff s t m).mpr k] at hm; cases hm
  have q := h.claims.1 t
  have eb := books_setClaim u t { u.claim t with holders := (u.claim t).holders ++ [⟨m, v⟩] }
  rw [e] at eb
  have ea : appendHolder u t m v = u.setClaim t { s.claim t with holders := (s.claim t).holders ++ [⟨m, v⟩] } := by
    unfold appendHolder; rw [e]
  rw [ea]
  generalize hw : u.setClaim t { s.claim t with holders := (s.claim t).holders ++ [⟨m, v⟩] } = w at eb
  have self : (books w).claim t = { s.claim t with holders := (s.claim t).holders ++ [⟨m, v⟩] } := by
    rw [eb, claim_setClaim_self]
  have other (g : Target) (k : g ≠ t) : (books w).claim g = (books s).claim g := by
    rw [eb, claim_setClaim_ne _ _ k, o.claim]
  have ps : (books w).proposals = (books s).proposals ++ [p] := by rw [eb, ← o.proposals]; rfl
  have jn : (books w).joined = (books s).joined := by rw [eb, ← o.joined]; rfl
  have each : ∀ q ∈ (books w).proposals, q ∈ (books s).proposals ∨ q = p := fun q hq => by
    rw [ps] at hq
    rcases List.mem_append.mp hq with hq | hq
    · exact .inl hq
    · exact .inr (List.mem_singleton.mp hq)
  refine ⟨?_, ?_, fun x => ?_, ⟨fun g => ?_, ?_⟩, by rw [ps]; exact o.table, fun q hq g hg => ?_, fun q hq => ?_, fun q hq => ?_⟩
  · show RefsOk _; rw [eb]; exact refs_setClaim o.refs t _ (by rw [e])
  · intro x; rw [eb]; exact o.taken x
  · rw [eb]; exact o.reserved x
  · rw [jn]
    by_cases k : g = t
    · subst k; rw [self]; exact q.append hs nm hj v
    · rw [other g k]; exact h.claims.1 g
  · by_cases k : Target.tb = t
    · subst k
      rw [self]
      refine ⟨h.claims.2.1, fun x hx => ?_⟩
      rcases List.mem_append.mp hx with hx | hx
      · exact h.claims.2.2 x hx
      · rw [List.mem_singleton.mp hx]; exact hv rfl
    · rw [other _ k]; exact h.claims.2
  · rcases each q hq with l | rfl
    · have := h.held q l g hg
      by_cases k : g = t
      · subst k; rw [self, List.map_append]; exact List.mem_append_left _ this
      · rw [other g k]; exact this
    · rw [pm] at hg
      cases hg
      rw [self, pp, List.map_append]; exact List.mem_append_right _ (by simp)
  · rcases each q hq with l | rfl
    · exact h.voters q l
    · exact o.voters
  · rcases each q hq with l | rfl
    · exact h.undecided q l
    · exact o.undecided

theorem claimShared_sound {s : State} {m : Master} (tag : Byte) (t : Target) (a : ClaimArgs) (h : Sound s)
    (hj : s.joined m = true) (hs : (s.claim t).mode = .shared) (ha : t = .tb → a.level = .none) :
    Sound (claimShared s m tag t a).state := by
  unfold claimShared
  split
  · rename_i hh
    split
    · exact setLevel_sound h t m _ ha
    · split
      · rename_i sole
        exact setLevel_sound (setMode_sound h t m true ((sole_iff s t m).mp sole)) t m _ ha
      · rename_i sole
        obtain ⟨j, hjm, hjh⟩ := other_holder h hh (by simpa using sole)
        refine claimByConsent_sound tag a _ h (required_of_target rfl hjm hjh) fun u p o pm pp => ?_
        refine setLevel_sound (o.sound h fun g hg => ?_) t m _ ha
        rw [pm] at hg; cases hg
        rw [pp]; exact (isHolder_iff s t m).mp hh
  · rename_i hh
    have hh : s.isHolder t m = false := by simpa using hh
    have nm : m ∉ (s.claim t).holders.map Holder.master := fun k => by
      rw [(isHolder_iff s t m).mpr k] at hh; cases hh
    split
    · exact appendHolder_sound h t m _ hs nm hj ha
    · have c := h.claims.1 t
      have ne : (s.claim t).holders ≠ [] := fun e => by
        have := c.free_iff.mpr e
        exact absurd (hs.symm.trans this) nofun
      obtain ⟨x, hx⟩ := List.exists_mem_of_ne_nil _ ne
      have xh : s.isHolder t x.master = true := (isHolder_iff s t _).mpr (List.mem_map_of_mem hx)
      refine claimByConsent_sound tag a _ h (required_of_target rfl (fun e => ?_) xh) fun u p o pm pp =>
        appendOpened_sound _ h o pm pp hs hh hj ha
      rw [e, hh] at xh; cases xh

theorem claimRequest_sound {s : State} (m : Master) (f : Frame) (h : Sound s) (hj : s.joined m = true) :
    Sound (claimRequest s m f).state := by
  unfold claimRequest
  split
  · exact h
  · rename_i t _
    split
    · exact h
    · rename_i a ha
      have tb : t = .tb → a.policy = .keep ∧ a.level = .none := fun e => by subst e; exact claimArgs_tb ha
      split
      · rename_i hm; exact claimFree_sound h m t a hm hj tb
      · rename_i hm; exact claimShared_sound f.tag t a h hj hm fun e => (tb e).2
      · rename_i hm
        unfold claimExclusive
        split
        · rename_i hh
          have c := h.claims.1 t
          obtain ⟨x, hx⟩ := List.length_eq_one_iff.mp (c.one hm)
          have hmm := (isHolder_iff s t m).mp hh
          have sole : (s.claim t).holders.map Holder.master = [m] := by
            have hx : (s.claim t).holders = [x] := hx
            rw [show ((books s).claim t).holders = [x] from hx] at hmm
            have : m = x.master := by simpa using hmm
            rw [hx, this]; rfl
          exact setLevel_sound (setMode_sound h t m _ sole) t m _ fun e => (tb e).2
        · exact h

theorem claimSetRequest_sound {s : State} (m : Master) (f : Frame) (h : Sound s) :
    Sound (claimSetRequest s m f).state := by
  refine withOutput_sound h fun o => ?_
  split
  · exact h
  · split
    · exact h
    · rename_i hh
      have hh : s.isHolder (.out o) m = true := by simpa using hh
      split
      · exact h
      · split
        · exact h
        · rename_i pol hp
          refine setPolicy_sound h o pol (fun k e => ?_) fun e => ?_
          · subst e; exact fixed_of_policyFor hp
          · have := (isHolder_iff s _ m).mp hh
            rw [show ((books s).claim (.out o)).holders = [] from e] at this; cases this

theorem releaseRequest_sound {s : State} (m : Master) (f : Frame) (h : Sound s) :
    Sound (releaseRequest s m f).state := by
  unfold releaseRequest
  split
  · exact h
  · split
    · rename_i hh; exact (removeHolder_sound h ((isHolder_iff s _ m).mp hh)).1
    · exact h

/-! ### Rounds -/

theorem voteRequest_sound {s : State} (m : Master) (f : Frame) (h : Sound s) : Sound (voteRequest s m f).state := by
  unfold voteRequest
  split
  · exact h
  · split
    · exact h
    · rename_i p hp
      have hp := (proposal_mem hp).1
      split
      · exact h
      · rename_i hr
        have hr : m ∈ p.required := by simpa using hr
        split
        · exact h
        · split
          · exact accept_sound h hp hr
          · exact endProposal_sound _ h hp

theorem withdrawRequest_sound {s : State} (m : Master) (f : Frame) (h : Sound s) :
    Sound (withdrawRequest s m f).state := by
  unfold withdrawRequest
  split
  · exact h
  · rename_i p hp
    split
    · exact endProposal_sound _ h (proposal_mem hp).1
    · exact h

/-! ### The timebase, standby and the consented reset -/

theorem clockRequest_sound {s : State} (m : Master) (f : Frame) (h : Sound s) : Sound (clockRequest s m f).state := by
  unfold clockRequest
  dsimp only
  split
  · exact h
  · rename_i hh
    split
    · exact h
    · split
      · split
        · exact h.of_books (books_takeClock _ _ _ _)
        · rename_i hs
          exact shared_sound f.tag _ h (w := .clockChange _ _) rfl (by simpa using hh) (by simpa using hs) nofun
      · exact h

theorem sourceSetRequest_sound {s : State} (m : Master) (f : Frame) (h : Sound s) :
    Sound (sourceSetRequest s m f).state := by
  have xo (e : XoEntry) : books (setXoEntry s e) = books s := by
    unfold setXoEntry
    dsimp only
    rw [books_settleXo]
    split <;> rfl
  have ref (d : Detector) (e : RefEntry) : books (setRefEntry s d e) = books s := by
    unfold setRefEntry
    split
    · rfl
    · dsimp only
      rw [books_detectorRestart]
      rfl
  have r (d : Detector) : Sound (sourceSetRef s m d f.payload).state := by
    unfold sourceSetRef
    split
    · exact h
    · split
      · exact h
      · split
        · exact h
        · exact h.of_books (ref _ _)
  unfold sourceSetRequest
  split
  · exact h
  · exact h
  · unfold sourceSetXo
    split
    · exact h
    · split
      · exact h
      · split
        · exact h
        · exact h.of_books (xo _)
  · exact r _
  · exact r _

theorem selectLockRequest_sound {s : State} (m : Master) (h : Sound s) : Sound (selectLockRequest s m).state := by
  unfold selectLockRequest
  split_ifs
  · exact h
  · exact h
  · exact h
  · split
    · exact h.of_books rfl
    · exact h

theorem standbyRequest_sound {s : State} (m : Master) (f : Frame) (h : Sound s) (hj : s.joined m = true) :
    Sound (standbyRequest s m f).state := by
  unfold standbyRequest
  split
  · rw [okay_state]
    exact h.works (enterStandby_works s)
  · rename_i ho
    exact openProposal_sound m f.tag .standby _ h (required_of_device rfl hj (by simpa using ho)) nofun nofun

theorem deviceResetRequest_sound {s : State} (m : Master) (f : Frame) (h : Sound s) (hj : s.joined m = true) :
    Sound (deviceResetRequest s m f).state := by
  unfold deviceResetRequest
  split
  · exact h.of_books (t := { s with resetTaken := true }) rfl
  · rename_i ho
    exact openProposal_sound m f.tag .deviceReset _ h (required_of_device rfl hj (by simpa using ho)) nofun nofun

theorem wakeRequest_sound {s : State} (h : Sound s) : Sound (wakeRequest s).state := by
  unfold wakeRequest
  split
  · refine h.of_books ?_
    show books (resumeOutputs _ _) = _
    rw [books_resumeOutputs, books_startUpPath, books_wakeMarks]
  · exact h

end Sys2Proof.Laws
end

