-- ==== Sys2Proof/Laws/Starts.lean ====
section
/-! SUPPORT. The statements' words for start instants, switches, completions and readying, each proved to be what the
Timebase Unit's own operation does: `startTogether`, `switchCompletes`, `switchBegins`, `Readied`, `HandedOn`. -/

namespace Sys2Proof.Laws

open Machine

/-! ### Line starts and starts (R29, R31, R137) -/

/-- A burst that completes keeps its pattern, origin and tag. -/
theorem lineStart_completes {b b' : Burst} {r : OutRec} (h : b.lineStart r = .completes b') :
    b'.pattern = b.pattern ∧ b'.origin = b.origin ∧ b'.tag = b.tag := by
  unfold Burst.lineStart timedNext continuousNext at h
  repeat' split at h
  all_goals first | (obtain rfl := LineEffect.completes.inj h; exact ⟨rfl, rfl, rfl⟩) | cases h

/-- The Strobe Unit's part of a line start. -/
theorem strobeLine_eq (s : State) (o : Output) : strobeLine s o = lineReaches s o := by
  unfold strobeLine lineReaches
  cases s.burst o with
  | none => rfl
  | some b =>
    dsimp only
    cases h : b.lineStart (s.sq o) with
    | runsOn b' => rfl
    | completes b' =>
      obtain ⟨hp, ho, ht⟩ := lineStart_completes h
      simp only [finishBurst, burstRecipients, hp, ho, ht]
      rfl

/-- A line start leaves every output record, claim and the Timebase Unit as they were. -/
theorem lineReaches_frame (s : State) (o : Output) : (∀ p, (lineReaches s o).sq p = s.sq p)
    ∧ (∀ t, (lineReaches s o).claim t = s.claim t) ∧ (lineReaches s o).tbu = s.tbu := by
  unfold lineReaches
  cases s.burst o with
  | none => exact ⟨fun _ => rfl, fun _ => rfl, rfl⟩
  | some b => dsimp only; split <;> simp

/-- The record of an output at its start instant (R31). -/
theorem beginRun_eq (r : OutRec) (fail : Bool) : r.beginRun fail = startRecord r fail := rfl

theorem startOne_eq (s : State) (o : Output) : startOne s o
    = (lineReaches (s.setSq o (startRecord (s.sq o) s.tbu.fail)) o).handAll (s.holders (.out o))
        (.outputState o .waiting .running 0) := by
  obtain ⟨hs, hc, -⟩ := lineReaches_frame (s.setSq o (startRecord (s.sq o) s.tbu.fail)) o
  simp only [startOne, outputNotice, strobeLine_eq, beginRun_eq, State.holders, hs, hc, State.sq_setSq_self, State.claim_setSq]
  rfl

/-- Outputs start at one moment as the Frame Sequencers do it (R31). -/
theorem startAll_eq (s : State) (os : List Output) : startAll s os = startTogether s os := by
  unfold startAll startTogether
  exact congrArg (fun f => os.foldl f s) (funext fun u => funext fun o => startOne_eq u o)

/-- The anchor of a group is its lowest-numbered member in RUNNING (R29). -/
theorem anchor_eq (s : State) (g : Group) : s.anchor g
    = (allOutputs.filter fun p => (s.sq p).group == some g && (s.sq p).state == .running).head? :=
  List.head?_filter.symm

/-- The outputs whose start instant is this moment (R29). -/
theorem startSet_eq (s : State) (frame : Option Output) : s.startSet frame.toList = starters s frame := by
  unfold State.startSet starters
  refine List.filter_congr fun o _ => ?_
  unfold State.mayStart TbuState.hasTimebase
  congr 1
  cases (s.sq o).group with
  | none => rfl
  | some g =>
    dsimp only
    rw [← anchor_eq]
    cases s.anchor g <;> cases frame <;> simp [Bool.beq_eq_decide_eq]

/-- Every output that starts was waiting. -/
theorem waiting_of_starters {s : State} {frame : Option Output} {o : Output} (h : o ∈ starters s frame) :
    (s.sq o).state = .waiting := by
  have h := (List.mem_filter.mp h).2
  simp only [Bool.and_eq_true, beq_iff_eq] at h
  exact h.1.1

/-- A start leaves the state of the Timebase Unit as it was. -/
theorem startTogether_tbu (s : State) (os : List Output) : (startTogether s os).tbu = s.tbu := by
  unfold startTogether
  induction os generalizing s with
  | nil => rfl
  | cons o os ih => rw [List.foldl_cons, ih]; simp [(lineReaches_frame _ o).2.2]

/-- Where no switch waits for an output that is itself waiting to start, waiting outputs that are examined start and
nothing else happens (R29). -/
theorem examine_eq {s : State} (frame : Option Output)
    (h : ∀ cur sw d, s.tbu.state = .waitAlign cur sw d → ∀ a, sw.align = some a → (s.sq a).state ≠ .waiting) :
    examine s frame.toList = startTogether s (starters s frame) := by
  unfold examine
  dsimp only
  rw [startSet_eq, startAll_eq, startTogether_tbu]
  split
  · rename_i cur sw d e
    split
    · rename_i a ha
      have hn : a ∉ starters s frame := fun hm => h cur sw d e a ha (waiting_of_starters hm)
      simp [hn]
    · rfl
  · rfl

/-! ### Switches (R101, R106, R107, R112 to R117) -/

/-- The XO is settled (R101, R122). -/
theorem settleXo_settled (s : State) : settleXo s = xoSettled s := by
  have hx : s.xoWanted = (s.tbu.state.standbySel.isNone
      && ((selectionsOf s.tbu.state).any (fun x => x.source == .xo) || s.table.xo.keep)) := by
    unfold State.xoWanted TbuState.isStandby selectionsOf
    cases s.tbu.state <;> simp [uses, TbuState.standbySel, TbuState.current, TbuState.switch]
  unfold settleXo xoSettled
  rw [hx]
  dsimp only
  generalize (s.tbu.state.standbySel.isNone && _) = w
  cases w
  · rfl
  · by_cases h : s.tbu.xo = .off
    · simp [h]; rfl
    · simp [h]

/-- A state of the Timebase Unit that is gone to, with the XO and the synthesizer settled (R101, R107). -/
theorem settleClocks_of_state (s : State) (st : TbuState) :
    settleClocks (s.setTbu { s.tbu with state := st }) = unitGoes s st := by
  have hy : (s.setTbu { s.tbu with state := st }).synthServes = (selectionsOf st).any (fun x => x.syn.isSome) := by
    unfold selectionsOf
    cases st <;> simp [State.synthServes, synOf, TbuState.current, TbuState.switch]
  unfold settleClocks unitGoes
  rw [hy, settleXo_settled]
  generalize (selectionsOf st).any (fun x => x.syn.isSome) = y
  cases y <;> rfl

/-- What a completion does to the record of an output (R38, R41, R117). -/
theorem completion_eq (r : OutRec) (spare : Bool) : r.completion spare = completionMark r spare := by
  unfold OutRec.completion completionMark OutRec.mark unsettled OutRec.emitted FrameStatus.unsettle
  obtain ⟨state, current, next, phase, line, tick, lineEnd, frameNo, status, last, frozen⟩ := r
  by_cases h : phase = 0 <;> cases state <;> cases frozen <;> cases spare <;> simp [OutRec.runs, h]

/-- A completion reaches every output (R117). -/
theorem mapSq_completion (s : State) (sw : Switch) (aligned : Bool) :
    s.mapSq (fun u o => (u.sq o).completion (spared sw aligned o))
      = allOutputs.foldl (fun u o => u.setSq o (completionMark (s.sq o) (aligned && sw.align == some o))) s := by
  simp only [completion_eq, State.mapSq, spared]
  have h (l : List Output) (hl : l.Nodup) : ∀ u : State, (∀ o ∈ l, u.sq o = s.sq o) →
      l.foldl (fun u o => u.setSq o (completionMark (u.sq o) (aligned && sw.align == some o))) u
        = l.foldl (fun u o => u.setSq o (completionMark (s.sq o) (aligned && sw.align == some o))) u := by
    induction l with
    | nil => exact fun _ _ => rfl
    | cons a l ih =>
      intro u hu
      obtain ⟨ha, hl⟩ := List.nodup_cons.mp hl
      rw [List.foldl_cons, List.foldl_cons, hu a (.head _)]
      refine ih hl _ fun o ho => ?_
      rw [State.sq_setSq_ne u _ (fun e : o = a => ha (e ▸ ho)), hu o (.tail _ ho)]
  exact h allOutputs (by decide) s fun _ _ => rfl

/-- A completion, as the statements say it (R117). -/
theorem complete_eq (s : State) (sw : Switch) (aligned : Bool) (frame : Option Output) :
    complete s sw aligned frame.toList = switchCompletes s sw aligned frame := by
  have h : settleClocks (s.setTbu { s.tbu with state := .running sw.target, fail := false })
      = unitGoes { s with tbu := { s.tbu with fail := false } } (.running sw.target) :=
    settleClocks_of_state { s with tbu := { s.tbu with fail := false } } (.running sw.target)
  have hq (u : State) : (u.setTbu { u.tbu with xoCheck := checksFor u.now sw.target }).sq = u.sq := rfl
  unfold complete
  dsimp only
  rw [h, mapSq_completion, startAll_eq, startSet_eq]
  generalize hu : unitGoes { s with tbu := { s.tbu with fail := false } } (.running sw.target) = u
  have hs : u.sq = s.sq := by rw [← hu]; rfl
  have hn : u.now = s.now := by rw [← hu]; rfl
  unfold switchCompletes
  dsimp only
  rw [hu, ← hs, ← hn]
  rfl

/-- The notice of a switch's event, as the statements say it (R119). -/
theorem switchNotice_eq (s : State) (sw : Switch) (e : ClockEvent) : switchNotice s sw e = switchTold s sw e := by
  unfold switchNotice switchTold
  cases sw.origin <;> rfl

/-- A switch that begins with no switch in flight, as the statements say it (R112). -/
theorem beginSwitch_eq (s : State) (st : TbuState) (sw : Switch) :
    beginSwitch s st sw none = progress (switchBegins s st sw none) := by
  unfold beginSwitch switchBegins
  simp only [settleClocks_of_state, endNotice, switchNotice_eq]
  rfl

/-- A switch that takes another's place, as the statements say it (R106, R112). -/
theorem beginSwitch_abandons (s : State) (st : TbuState) (sw old : Switch) :
    beginSwitch (abandonLock s) st sw (some old) = progress (switchBegins s st sw (some old)) := by
  unfold beginSwitch switchBegins abandonLock
  have h : synOf s.tbu.state.current = s.tbu.state.current.any fun cur => cur.syn.isSome := by
    cases s.tbu.state.current <;> rfl
  simp only [settleClocks_of_state, endNotice, switchNotice_eq, h]
  cases (s.tbu.state.current.any fun cur => cur.syn.isSome) <;> rfl

/-! ### What follows a frame start, a stop and a switch that begins -/

/-- An emitted frame start is handed on (R20, R29, R116). -/
theorem handedOn_emittedStart {s : State} {o : Output} {ends : State → Prop} (h : ends (emittedStart s o)) :
    HandedOn s o true ends := by
  refine ⟨fun cur sw d e ha => ?_, fun hw => ?_⟩
  · rw [emittedStart, e] at h
    simp only [ha, if_true] at h
    exact complete_eq s sw true (some o) ▸ h
  · have hx : examine s [o] = startTogether s (starters s (some o)) :=
      examine_eq (some o) fun cur sw d e a ha => (hw cur sw d e a ha).2
    refine hx ▸ ?_
    unfold emittedStart at h
    split at h
    · rename_i cur sw d e
      split at h
      · rename_i ha
        exact absurd rfl (hw cur sw d e o ha).1
      · exact h
    · exact h

/-- An output that has left RUNNING is handed on (R30, R116). -/
theorem handedOn_leftRunning {s : State} {o : Output} {ends : State → Prop} (h : ends (leftRunning s o)) :
    HandedOn s o false ends := by
  refine ⟨fun cur sw d e ha => ?_, fun hw => ?_⟩
  · rw [leftRunning, e] at h
    simp only [ha, if_true] at h
    exact complete_eq s sw false none ▸ h
  · have hx : examine s [] = startTogether s (starters s none) :=
      examine_eq none fun cur sw d e a ha => (hw cur sw d e a ha).2
    refine hx ▸ ?_
    unfold leftRunning at h
    split at h
    · rename_i cur sw d e
      split at h
      · rename_i ha
        exact absurd rfl (hw cur sw d e o ha).1
      · exact h
    · exact h

/-- Readying goes on (R106, R114, R116). -/
theorem readied_progress {s : State} {ends : State → Prop} (hw : ∀ cur sw d, s.tbu.state ≠ .waitAlign cur sw d)
    (h : ends (progress s)) : Readied s ends := by
  intro sw e
  have hp : progress s = readyTarget s sw := by
    unfold progress
    cases hs : s.tbu.state <;> simp_all [TbuState.switch]
  rw [hp] at h
  unfold readyTarget at h
  refine ⟨fun hr => ?_, fun c hr hc hz => ?_, fun hr hc => ⟨fun d hd => ?_, fun cur d hd => ⟨fun o ho hrun => ?_, fun hn => ?_⟩⟩⟩
  · rwa [hr, if_neg Bool.false_ne_true] at h
  · rw [if_pos hr, hc] at h
    dsimp only at h
    rw [if_pos hz] at h
    unfold beginLock at h
    by_cases hx : s.tbu.ctx.get sw.target.source = some c
    · rw [if_pos hx]
      rwa [hx, beq_self_eq_true] at h
    · rw [if_neg hx]
      rwa [beq_eq_false_iff_ne.mpr hx] at h
  · rw [if_pos hr, hc] at h
    simp only [targetReady, hd] at h
    exact complete_eq s sw false none ▸ h
  · rw [if_pos hr, hc] at h
    simp only [targetReady, hd, ho, hrun, if_true] at h
    exact h
  · rw [if_pos hr, hc] at h
    refine complete_eq s sw false none ▸ ?_
    cases ha : sw.align with
    | none =>
      simp only [targetReady, hd, ha] at h
      exact h
    | some o =>
      simp only [targetReady, hd, ha] at h
      rwa [if_neg (hn o ha)] at h

end Sys2Proof.Laws
end

