-- ==== Sys2Proof/Laws/Passages.lean ====
section
/-! SUPPORT. The statements' words for failures of the current source, the start-up path, standby entry and wake, each
proved to be what the Timebase Unit's and the Change Queue's own operations do: `failedSafe`, `goneLost`, `PathTaken`,
`deviceRests`, `movedTogether`. -/

namespace Sys2Proof.Laws

open Machine

/-! ### Folds over the outputs -/

/-- A change of every output record, each read from the state the fold began in. -/
theorem foldl_setSq_start {f : State → Output → OutRec} {g : Output → OutRec} {P : State → Prop}
    (hP : ∀ u o r, P u → P (u.setSq o r)) :
    ∀ (l : List Output), l.Nodup → ∀ u : State, P u → (∀ v, P v → ∀ o ∈ l, v.sq o = u.sq o → f v o = g o) →
      l.foldl (fun v o => v.setSq o (f v o)) u = l.foldl (fun v o => v.setSq o (g o)) u
  | [], _, _, _, _ => rfl
  | a :: l, hl, u, hu, h => by
    obtain ⟨ha, hl⟩ := List.nodup_cons.mp hl
    rw [List.foldl_cons, List.foldl_cons, h u hu a (.head _) rfl]
    refine foldl_setSq_start hP l hl _ (hP u a _ hu) fun v hv o ho e => h v hv o (.tail _ ho) ?_
    rw [e, State.sq_setSq_ne u _ (fun x : o = a => ha (x ▸ ho))]

/-! ### Failures (R128, R130) -/

/-- The mark of fail-safe (R39). -/
theorem failSafe_mark (r : OutRec) : r.failSafe
    = if (r.state = .running ∨ r.state = .stopping) ∧ r.phase = 0 then
        { r with status := { r.status with base := .unsettled, degraded := true } } else r := by
  unfold OutRec.failSafe OutRec.mark OutRec.runs OutRec.emitted FrameStatus.degrade
  obtain ⟨state, current, next, phase⟩ := r
  by_cases h : phase = 0 <;> cases state <;> simp [h]

theorem endNotice_eq (s : State) (sw : Option Switch) (e : Switch → ClockEvent) : endNotice s sw e
    = match sw with
      | none => s
      | some x => switchTold s x (e x) := by
  cases sw with
  | none => rfl
  | some x => exact switchNotice_eq s x (e x)

theorem mapSq_tbu (s : State) (f : State → Output → OutRec) : (s.mapSq f).tbu = s.tbu := by rw [mapSq_eq]

theorem joinedMasters_of_books {s t : State} (h : books t = books s) :
    t.joinedMasters = allMasters.filter s.joined := by
  unfold State.joinedMasters
  rw [show t.joined = s.joined from congrArg Books.joined h]

theorem endNotice_tbu (s : State) (sw : Option Switch) (e : Switch → ClockEvent) :
    (endNotice s sw e).tbu = s.tbu := by
  cases sw with
  | none => rfl
  | some x => unfold endNotice switchNotice; dsimp only; rw [handAll_eq]

/-- Fail-safe acts as the statements say (R128, R132). -/
theorem failSafe_eq (s : State) (cause : FailCause) (src : Source) : failSafe s cause src = failedSafe s cause src := by
  have hu : settleClocks (s.setTbu { s.tbu with state := .running ⟨.irc, none⟩, fail := true, xoCheck := none })
      = unitGoes { s with tbu := { s.tbu with fail := true, xoCheck := none } } (.running ⟨.irc, none⟩) :=
    settleClocks_of_state { s with tbu := { s.tbu with fail := true, xoCheck := none } } _
  have hb : books (unitGoes { s with tbu := { s.tbu with fail := true, xoCheck := none } } (.running ⟨.irc, none⟩))
      = books s := by rw [← hu]; simp
  unfold failSafe failNotice
  dsimp only
  rw [hu, joinedMasters_of_books (s := s), endNotice_tbu, mapSq_tbu, endNotice_eq]
  · unfold failedSafe
    dsimp only
    rw [State.mapSq, foldl_setSq_start (P := fun _ => True) (g := fun o =>
      if ((s.sq o).state = .running ∨ (s.sq o).state = .stopping) ∧ (s.sq o).phase = 0 then
        { s.sq o with status := { (s.sq o).status with base := .unsettled, degraded := true } }
      else s.sq o) (fun _ _ _ _ => trivial) allOutputs (by decide) _ trivial]
    · rfl
    · intro v _ o _ e
      rw [e, failSafe_mark]; rfl
  · rw [books_endNotice, books_mapSq _ (fun s o => (s.sq o).failSafe) fun t o => viewOf_mark _ _ _, hb]

/-- Entry to LOST acts as the statements say (R130, R132). -/
theorem enterLost_eq (s : State) (cause : FailCause) (src : Source) : enterLost s cause src = goneLost s cause src := by
  have hu : settleClocks (s.setTbu { s.tbu with state := .lost, xoCheck := none })
      = unitGoes { s with tbu := { s.tbu with xoCheck := none } } .lost :=
    settleClocks_of_state { s with tbu := { s.tbu with xoCheck := none } } _
  have hb : books (unitGoes { s with tbu := { s.tbu with xoCheck := none } } .lost) = books s := by rw [← hu]; simp
  unfold enterLost failNotice goneLost
  dsimp only
  rw [hu, joinedMasters_of_books (s := s), mapSq_tbu]
  · generalize hgu : unitGoes { s with tbu := { s.tbu with xoCheck := none } } .lost = u
    have h1 : u.slots = s.slots := by rw [← hgu]; rfl
    have h2 : u.chans = s.chans := by rw [← hgu]; rfl
    have h3 : u.tbu.state = .lost := by rw [← hgu]; rfl
    have h4 : u.tbu.fail = s.tbu.fail := by rw [← hgu]; rfl
    have hc (o : Output) : u.chan o = s.chan o := by unfold State.chan; rw [h2]
    have e := foldl_setSq_start (f := fun v o => (v.sq o).freeze (v.pins o)) (g := fun o =>
      if ((s.sq o).state = .running ∨ (s.sq o).state = .stopping) ∧ (s.sq o).frozen = false then
        { s.sq o with frozen := true, held := some (s.pins o) }
      else s.sq o) (P := fun v => v.slots = s.slots ∧ ∀ o, v.burst o = s.burst o)
      (fun v o r h => ⟨h.1, fun p => by rw [State.burst_setSq, h.2 p]⟩) allOutputs (by decide) u
      ⟨h1, fun o => congrArg Channel.burst (hc o)⟩ fun v hv o _ e => by
        have e : v.sq o = s.sq o := e.trans (congrArg Channel.sq (hc o))
        have hp : v.pins o = s.pins o := by
          unfold State.pins State.geom State.slot
          rw [e, hv.1, hv.2]
        dsimp only
        rw [e, hp]
        unfold OutRec.freeze OutRec.runs
        simp
    rw [State.mapSq, e, h3, h4]
  · rw [books_mapSq _ _ fun t o => viewOf_freeze _ _ _, hb]

theorem sourceFails_eq (s : State) (cause : FailCause) (src : Source) : sourceFails s cause src
    = if s.straps.fse then failedSafe s cause src else goneLost s cause src := by
  unfold sourceFails
  rw [failSafe_eq, enterLost_eq]

/-! ### Standby entry (R61, R171, R172) -/

/-- What an operation leaves that hands notices and moves references only. -/
structure Quiet (s t : State) : Prop where
  chans : t.chans = s.chans
  outClaims : t.outClaims = s.outClaims
  tbClaim : t.tbClaim = s.tbClaim
  tbu : t.tbu = s.tbu

namespace Quiet

theorem refl (s : State) : Quiet s s := ⟨rfl, rfl, rfl, rfl⟩

theorem trans {s t u : State} (h : Quiet s t) (g : Quiet t u) : Quiet s u :=
  ⟨g.chans.trans h.chans, g.outClaims.trans h.outClaims, g.tbClaim.trans h.tbClaim, g.tbu.trans h.tbu⟩

theorem handAll (s : State) (ms : List Master) (n : Notice) : Quiet s (s.handAll ms n) := by
  rw [handAll_eq]; exact ⟨rfl, rfl, rfl, rfl⟩

theorem foldl {α : Type} {f : State → α → State} (h : ∀ s a, Quiet s (f s a)) :
    ∀ (l : List α) (s : State), Quiet s (l.foldl f s)
  | [], s => refl s
  | a :: l, s => (h s a).trans (foldl h l (f s a))

theorem sq {s t : State} (h : Quiet s t) (o : Output) : t.sq o = s.sq o := by
  unfold State.sq State.chan; rw [h.chans]

theorem queue {s t : State} (h : Quiet s t) (o : Output) : t.queue o = s.queue o := by
  unfold State.queue State.chan; rw [h.chans]

theorem burst {s t : State} (h : Quiet s t) (o : Output) : t.burst o = s.burst o := by
  unfold State.burst State.chan; rw [h.chans]

theorem holders {s t : State} (h : Quiet s t) (g : Target) : t.holders g = s.holders g := by
  unfold State.holders State.claim; cases g <;> simp only [h.outClaims, h.tbClaim]

end Quiet

/-- Entries leave as the statements say (R45, R46). -/
theorem entriesGo_eq (o : Output) (c : ChangeOutcome) (es : List Entry) (s : State) :
    es.foldl (entryLeft o c) s = entriesGo o c s es := by
  unfold entriesGo
  congr 1
  funext u e
  unfold entryLeft changeDone
  cases e.kind <;> rfl

theorem quiet_entriesGo (o : Output) (c : ChangeOutcome) (es : List Entry) (s : State) :
    Quiet s (entriesGo o c s es) := by
  refine Quiet.foldl (fun u e => ?_) es s
  refine Quiet.trans ?_ (Quiet.handAll _ _ _)
  cases e.kind <;> exact ⟨rfl, rfl, rfl, rfl⟩

theorem endBurst_standby (s : State) (o : Output) : endBurst s o .standby = burstEnds s o .standby := by
  unfold endBurst burstEnds
  cases s.burst o <;> rfl

/-- A burst ends, and nothing else changes but notices (R139). -/
theorem burstEnds_frame (s : State) (o : Output) (c : BurstOutcome) : (∀ p, (burstEnds s o c).sq p = s.sq p)
    ∧ (∀ g, (burstEnds s o c).holders g = s.holders g) ∧ (burstEnds s o c).tbu = s.tbu := by
  unfold burstEnds
  split
  · exact ⟨fun _ => rfl, fun _ => rfl, rfl⟩
  · rename_i b _
    have q := Quiet.handAll (s.setBurst o none) [b.origin]
      (.burstDone o b.pattern b.origin b.tag c b.pulses b.repeats (s.sq o).frameNo)
    exact ⟨fun p => (q.sq p).trans (State.sq_setBurst _ _ _ _), fun g => (q.holders g).trans rfl, q.tbu⟩

/-- Waiting outputs of an output's group are examined when it comes to rest: no switch completes (R30). -/
theorem examine_none {s : State} (h : ∀ cur sw d, s.tbu.state = .waitAlign cur sw d → ∀ a, sw.align = some a →
    (s.sq a).state ≠ .waiting) : examine s [] = startTogether s (starters s none) := examine_eq none h

/-- The align output of a switch in WAIT_ALIGN is not itself waiting to start. -/
def AlignSettled (s : State) : Prop :=
  ∀ cur sw d, s.tbu.state = .waitAlign cur sw d → ∀ a, sw.align = some a → (s.sq a).state ≠ .waiting

theorem alignSettled_of_law {s : State} (h : AlignLaw s) : AlignSettled s := fun cur sw d e a ha g => by
  obtain ⟨o, ho, hr⟩ := h cur sw d e
  rw [ho] at ha; cases ha
  rw [hr] at g; cases g

/-- The Timebase Unit stays as it is, and no output goes to WAITING. -/
structure Calm (s t : State) : Prop where
  tbu : t.tbu = s.tbu
  waits : ∀ p, (t.sq p).state = .waiting → (s.sq p).state = .waiting

namespace Calm

theorem refl (s : State) : Calm s s := ⟨rfl, fun _ => id⟩

theorem trans {s t u : State} (h : Calm s t) (g : Calm t u) : Calm s u :=
  ⟨g.tbu.trans h.tbu, fun p k => h.waits p (g.waits p k)⟩

theorem quiet {s t : State} (h : Quiet s t) : Calm s t := ⟨h.tbu, fun p k => by rwa [h.sq] at k⟩

theorem setSq (s : State) (o : Output) (r : OutRec) (h : r.state = .waiting → (s.sq o).state = .waiting) :
    Calm s (s.setSq o r) := ⟨rfl, fun p k => by
  by_cases e : p = o
  · subst e; rw [State.sq_setSq_self] at k; exact h k
  · rwa [State.sq_setSq_ne _ _ e] at k⟩

theorem burst (s : State) (o : Output) (c : BurstOutcome) : Calm s (burstEnds s o c) :=
  have h := burstEnds_frame s o c
  ⟨h.2.2, fun p k => by rwa [h.1] at k⟩

theorem starts (s : State) (os : List Output) : Calm s (startTogether s os) := by
  unfold startTogether
  induction os generalizing s with
  | nil => exact refl s
  | cons o os ih =>
    refine trans ?_ (ih _)
    have f := lineReaches_frame (s.setSq o (startRecord (s.sq o) s.tbu.fail)) o
    exact (setSq s o (startRecord (s.sq o) s.tbu.fail) nofun).trans
      (trans ⟨f.2.2, fun p k => by rwa [f.1] at k⟩ (quiet (Quiet.handAll _ _ _)))

theorem settled {s t : State} (h : Calm s t) (g : AlignSettled s) : AlignSettled t := fun cur sw d e a ha k =>
  g cur sw d (by rw [← h.tbu]; exact e) a ha (h.waits a k)

end Calm

/-- What is cleared (R61, R171): the entries and the cut as the Change Queue does it, and the burst. -/
theorem outputCleared_eq (s : State) (o : Output) :
    endBurst (queueStandby s o) o .standby = outputCleared s o
      ∧ (outputCleared s o).sq o = { s.sq o with next := none, cut := none }
      ∧ (outputCleared s o).holders (.out o) = s.holders (.out o) ∧ Calm s (outputCleared s o) := by
  unfold outputCleared queueStandby
  dsimp only
  have f1 : (fun e : Entry => e.isQueued || e.isTaken) = fun e => e.state != .reserved := by
    funext e; unfold Entry.isQueued Entry.isTaken; cases e.state <;> rfl
  have f2 : (fun e : Entry => !(e.state != .reserved)) = fun e => e.state == .reserved := by
    funext e; cases e.state <;> rfl
  have h1 : clearNext s o = (s.dropRefOpt (s.sq o).next).setSq o { s.sq o with next := none } := by
    unfold clearNext; dsimp only; rw [State.sq_dropRefOpt]
  unfold removeEntries
  rw [f1, f2, h1, entriesGo_eq, State.queue_setSq, State.queue_dropRefOpt]
  generalize hr : s.sq o = r
  generalize hu1 : (s.dropRefOpt r.next).setSq o { r with next := none } = u1
  have c1 (q : List Entry) : (u1.setQueue o q).tbu = s.tbu := by rw [← hu1]; cases r.next <;> rfl
  have c2 (q : List Entry) : (u1.setQueue o q).sq o = { r with next := none } := by
    rw [State.sq_setQueue, ← hu1, State.sq_setSq_self]
  have c3 (q : List Entry) : (u1.setQueue o q).holders (.out o) = s.holders (.out o) := by
    rw [← hu1]; cases r.next <;> rfl
  have c4 (q : List Entry) : (u1.setQueue o q).burst o = s.burst o := by
    rw [State.burst_setQueue, ← hu1, State.burst_setSq, State.burst_dropRefOpt]
  generalize hu2 : entriesGo o .discarded (u1.setQueue o _) _ = u2
  have g := quiet_entriesGo o .discarded ((s.queue o).filter fun e => e.state != .reserved)
    (u1.setQueue o ((s.queue o).filter fun e => e.state == .reserved))
  rw [hu2] at g
  have d1 : u2.tbu = s.tbu := g.tbu.trans (c1 _)
  have d2 : u2.sq o = { r with next := none } := (g.sq o).trans (c2 _)
  have d3 : u2.holders (.out o) = s.holders (.out o) := (g.holders _).trans (c3 _)
  have e3 : dropCut u2 o .superseded = match r.cut with
      | none => u2
      | some c => (u2.setSq o { r with next := none, cut := none }).handAll
          (withOrigin (s.holders (.out o)) (some c.origin))
          (.changeDone o (.cut c.slot) (some (c.origin, c.tag)) none r.frameNo .superseded) := by
    unfold dropCut
    rw [d2]
    dsimp only
    cases r.cut with
    | none => rfl
    | some c =>
      dsimp only [changeDone]
      rw [State.sq_setSq_self, show (u2.setSq o _).holders (.out o) = u2.holders (.out o) from rfl, d3]
      rfl
  rw [e3]
  generalize hu3 : (match r.cut with
      | none => u2
      | some c => (u2.setSq o { r with next := none, cut := none }).handAll
          (withOrigin (s.holders (.out o)) (some c.origin))
          (.changeDone o (.cut c.slot) (some (c.origin, c.tag)) none r.frameNo .superseded)) = u3
  have f3 : u3.sq o = { r with next := none, cut := none } ∧ u3.holders (.out o) = s.holders (.out o)
      ∧ u3.tbu = s.tbu := by
    rw [← hu3]
    cases hc : r.cut with
    | none =>
      refine ⟨d2.trans ?_, d3, d1⟩
      cases r; cases hc; rfl
    | some c =>
      have q := Quiet.handAll (u2.setSq o { r with next := none, cut := none })
        (withOrigin (s.holders (.out o)) (some c.origin))
        (.changeDone o (.cut c.slot) (some (c.origin, c.tag)) none r.frameNo .superseded)
      exact ⟨(q.sq o).trans (State.sq_setSq_self _ _ _), (q.holders _).trans d3, q.tbu.trans d1⟩
  have k2 : Calm s (u1.setQueue o ((s.queue o).filter fun e => e.state == .reserved)) := by
    have k0 : Calm s (s.dropRefOpt r.next) := .quiet (by cases r.next <;> exact ⟨rfl, rfl, rfl, rfl⟩)
    refine (k0.trans (.setSq _ o { r with next := none } fun x => ?_)).trans ?_
    · rw [State.sq_dropRefOpt, hr]; exact x
    · rw [hu1]; exact ⟨rfl, fun p x => by rwa [State.sq_setQueue] at x⟩
  have k3 : Calm u2 u3 := by
    rw [← hu3]
    cases r.cut with
    | none => exact .refl u2
    | some c =>
      refine (Calm.setSq u2 o _ fun x => ?_).trans (.quiet (Quiet.handAll _ _ _))
      rw [d2]; exact x
  have k4 := Calm.burst u3 o .standby
  rw [endBurst_standby]
  have b4 := burstEnds_frame u3 o .standby
  generalize hu4 : burstEnds u3 o .standby = u4 at b4 k4
  have g1 : u4.sq o = { r with next := none, cut := none } := (b4.1 o).trans f3.1
  have g2 : u4.holders (.out o) = s.holders (.out o) := (b4.2.1 _).trans f3.2.1
  subst hu4
  subst hu3
  exact ⟨rfl, g1, g2, ((k2.trans (.quiet g)).trans k3).trans k4⟩

/-- One output at standby entry, as the statements say (R171). -/
theorem standbyOutput_eq {s : State} (o : Output) (h : AlignSettled s) : standbyOutput s o = outputRests s o := by
  obtain ⟨e, g1, g2, k⟩ := outputCleared_eq s o
  unfold standbyOutput outputRests
  dsimp only
  rw [e]
  generalize outputCleared s o = u4 at g1 g2 k
  have rest : standbyRest u4 o = (u4.setSq o (standbyRecord { s.sq o with next := none, cut := none })).handAll
      (s.holders (.out o)) (.outputState o (s.sq o).state .bound (s.sq o).frameNo) := by
    unfold standbyRest setOutState outputNotice
    dsimp only
    rw [g1]
    simp only [State.sq_setSq_self, State.setSq_setSq]
    rw [show (u4.setSq o _).holders (.out o) = u4.holders (.out o) from rfl, g2]
    rfl
  have calm : Calm s ((u4.setSq o (standbyRecord { s.sq o with next := none, cut := none })).handAll
      (s.holders (.out o)) (.outputState o (s.sq o).state .bound (s.sq o).frameNo)) :=
    (k.trans (.setSq _ _ _ fun x => absurd (show OutState.bound = .waiting from x) nofun)).trans (.quiet (Quiet.handAll _ _ _))
  rw [rest]
  generalize State.handAll _ _ _ = v at calm
  rw [g1]
  cases hst : (s.sq o).state
  · simp
  · simp
  · simp
  · simp [examine_none (calm.settled h)]
  · simp

/-- Standby entry leaves the align output as it should be. -/
theorem outputRests_calm (s : State) (o : Output) : Calm s (outputRests s o) := by
  obtain ⟨-, -, -, k⟩ := outputCleared_eq s o
  have calm : Calm s (((outputCleared s o).setSq o (standbyRecord { s.sq o with next := none, cut := none })).handAll
      (s.holders (.out o)) (.outputState o (s.sq o).state .bound (s.sq o).frameNo)) :=
    (k.trans (.setSq _ _ _ fun x => absurd (show OutState.bound = .waiting from x) nofun)).trans (.quiet (Quiet.handAll _ _ _))
  unfold outputRests
  dsimp only
  split
  · exact k
  · split
    · exact calm.trans (.starts _ _)
    · exact calm

theorem standbyOutputs_eq : ∀ (l : List Output) {s : State}, AlignSettled s →
    l.foldl standbyOutput s = l.foldl outputRests s ∧ Calm s (l.foldl outputRests s)
  | [], s, _ => ⟨rfl, .refl s⟩
  | o :: l, s, h => by
    have k := outputRests_calm s o
    have ih := standbyOutputs_eq l (k.settled h)
    rw [List.foldl_cons, List.foldl_cons, standbyOutput_eq o h]
    exact ⟨ih.1, k.trans ih.2⟩

/-- The selection that standby keeps (R172, step 1). -/
theorem standbySelection_eq {s t : State} (h : t.tbu = s.tbu) (g : t.straps = s.straps) :
    standbySelection t = keptSelection s := by
  unfold standbySelection keptSelection
  rw [h, g]
  cases s.tbu.state.switch with
  | some sw => rfl
  | none =>
    cases s.tbu.state.current with
    | some cur => rfl
    | none => cases s.tbu.lock <;> rfl

/-- Standby entry, as the statements say (R171, R172). -/
theorem enterStandby_eq {s : State} (h : AlignSettled s) : enterStandby s = deviceRests s := by
  obtain ⟨e, k⟩ := standbyOutputs_eq allOutputs h
  have hs : (allOutputs.foldl outputRests s).straps = s.straps := by
    rw [← e]
    exact Inner.straps (.foldl _ (fun s o => standbyOutput_inner s o) _ _)
  unfold enterStandby deviceRests tbuStandby
  rw [e]
  dsimp only
  generalize allOutputs.foldl outputRests s = u at k hs
  rw [standbySelection_eq k.tbu hs, k.tbu, endNotice_eq]
  have hu : settleClocks (u.setTbu { u.tbu with state := .standby (keptSelection s), xoCheck := none })
      = unitGoes { u with tbu := { u.tbu with xoCheck := none } } (.standby (keptSelection s)) :=
    settleClocks_of_state { u with tbu := { u.tbu with xoCheck := none } } _
  rw [k.tbu] at hu
  rw [hu] <;> cases s.tbu.state.switch <;> rfl

/-! ### The start-up path and wake (R168, R173) -/

/-- The start-up path, as the statements say (R168). -/
theorem pathTaken_startUpPath {s : State} {sel : Selection} {origin : SwitchOrigin} {two : Bool} {ends : State → Prop}
    (h : ends (startUpPath s sel origin two)) : PathTaken s sel origin two ends := by
  have from_unit (st : TbuState) (sw : Switch) (x : State) (hx : x = switchBegins s st sw none)
      (hw : ∀ cur y d, st ≠ .waitAlign cur y d) : ∀ cur y d, x.tbu.state ≠ .waitAlign cur y d := by
    have e : (switchBegins s st sw none).tbu.state = st := by
      unfold switchBegins switchTold
      dsimp only
      rw [handAll_eq]; rfl
    intro cur y d
    rw [hx, e]; exact hw cur y d
  refine ⟨fun e => ?_, fun e t => ?_, fun e t => ?_⟩
  · unfold startUpPath at h
    dsimp only at h
    rw [if_pos e, settleClocks_of_state] at h
    exact h
  · unfold startUpPath at h
    dsimp only at h
    rw [if_neg e, if_pos t, beginSwitch_eq] at h
    exact readied_progress (from_unit _ _ _ rfl nofun) h
  · unfold startUpPath at h
    dsimp only at h
    rw [if_neg e, if_neg (by rw [t]; exact nofun), beginSwitch_eq] at h
    exact readied_progress (from_unit _ _ _ rfl nofun) h

/-- Outputs that move together hand their notices and start output by output (R32, R173). -/
theorem handMoves_eq (moved starting : List Output) {s : State} (h : ∀ o ∈ moved, (s.sq o).state = .waiting) :
    handMoves s moved starting = movedTogether s moved starting := by
  unfold handMoves movedTogether
  have main (l : List Output) (hl : l.Nodup) : ∀ u : State, (∀ o ∈ l, o ∈ moved → (u.sq o).state = .waiting) →
      l.foldl (fun s o =>
        let s := if moved.contains o then outputNotice s o .bound else s
        if starting.contains o then startOne s o else s) u
      = l.foldl (fun u o =>
        let u := if moved.contains o then
            u.handAll (u.holders (.out o)) (.outputState o .bound .waiting (u.sq o).frameNo)
          else u
        if starting.contains o then startTogether u [o] else u) u := by
    induction l with
    | nil => exact fun _ _ => rfl
    | cons a l ih =>
      intro u hu
      obtain ⟨ha, hl⟩ := List.nodup_cons.mp hl
      rw [List.foldl_cons, List.foldl_cons]
      have e1 : (if moved.contains a then outputNotice u a .bound else u) = if moved.contains a then
            u.handAll (u.holders (.out a)) (.outputState a .bound .waiting (u.sq a).frameNo) else u := by
        split
        · rename_i g
          unfold outputNotice
          rw [hu a (.head _) (List.contains_iff_mem.mp g)]
        · rfl
      dsimp only
      rw [e1]
      generalize hv : (if moved.contains a then
            u.handAll (u.holders (.out a)) (.outputState a .bound .waiting (u.sq a).frameNo) else u) = v
      have q : Quiet u v := by
        rw [← hv]
        split
        · exact Quiet.handAll _ _ _
        · exact Quiet.refl u
      rw [startOne_eq]
      refine ih hl _ fun o ho hm => ?_
      split
      · have f := lineReaches_frame (v.setSq a (startRecord (v.sq a) v.tbu.fail)) a
        show (State.sq (startTogether v [a]) o).state = _
        unfold startTogether
        rw [List.foldl_cons, List.foldl_nil, (Quiet.handAll _ _ _).sq, f.1,
          State.sq_setSq_ne _ _ (fun e : o = a => ha (e ▸ ho)), q.sq]
        exact hu o (.tail _ ho) hm
      · rw [q.sq]; exact hu o (.tail _ ho) hm
  exact main allOutputs (by decide) s fun o _ hm => h o hm

theorem setWaiting_eq (moved : List Output) (hn : moved.Nodup) (s : State) : setWaiting s moved
    = moved.foldl (fun u o => u.setSq o { s.sq o with state := .waiting }) s := by
  unfold setWaiting
  exact foldl_setSq_start (P := fun _ => True) (f := fun u o => { u.sq o with state := .waiting })
    (g := fun o => { s.sq o with state := .waiting }) (fun _ _ _ _ => trivial) moved hn s trivial
    fun v _ o _ e => by dsimp only; rw [e]

/-- After outputs have entered WAITING. -/
theorem sq_setWaiting (moved : List Output) (s : State) (o : Output) : (setWaiting s moved).sq o
    = if o ∈ moved then { s.sq o with state := .waiting } else s.sq o := by
  unfold setWaiting
  induction moved generalizing s with
  | nil => rfl
  | cons a l ih =>
    rw [List.foldl_cons, ih]
    by_cases e : o = a
    · subst e; simp
    · rw [State.sq_setSq_ne _ _ e]; simp [e]

theorem tbu_setWaiting (moved : List Output) (s : State) : (setWaiting s moved).tbu = s.tbu := by
  unfold setWaiting
  induction moved generalizing s with
  | nil => rfl
  | cons a l ih => rw [List.foldl_cons, ih]; rfl

/-- At a wake every output in WAITING starts where a timebase exists, since the members of a group that run have started
in this event (R173, log entry 14). -/
theorem startSet_at_wake (u : State) (moved : List Output) :
    (setWaiting u moved).startSet (allOutputs.filter fun o => (u.sq o).state == .running)
      = allOutputs.filter fun o => ((setWaiting u moved).sq o).state == .waiting
          && (setWaiting u moved).tbu.state.current.isSome := by
  refine List.filter_congr fun o _ => ?_
  unfold State.mayStart TbuState.hasTimebase
  have main : ∀ a b : Bool, b = true → (a && b) = a := by decide
  refine main _ _ ?_
  split
  · rfl
  · rename_i g _
    split
    · rfl
    · rename_i a ha
      have k := List.find?_some ha
      simp only [Bool.and_eq_true, beq_iff_eq] at k
      refine List.contains_iff_mem.mpr (List.mem_filter.mpr ⟨List.mem_of_find?_eq_some ha, beq_iff_eq.mpr ?_⟩)
      have k := k.2
      rw [sq_setWaiting] at k
      split at k
      · cases k
      · exact k

/-- The outputs in BOUND are the same. -/
def SameBound (s t : State) : Prop := ∀ o, (t.sq o).state = .bound ↔ (s.sq o).state = .bound

namespace SameBound

theorem trans {s t u : State} (h : SameBound s t) (g : SameBound t u) : SameBound s u := fun o => (g o).trans (h o)

theorem quiet {s t : State} (h : Quiet s t) : SameBound s t := fun o => by rw [h.sq]

theorem of_sq {s t : State} (h : ∀ o, t.sq o = s.sq o) : SameBound s t := fun o => by rw [h]

theorem setSq (s : State) (o : Output) (r : OutRec) (h : r.state = .bound ↔ (s.sq o).state = .bound) :
    SameBound s (s.setSq o r) := fun p => by
  by_cases e : p = o
  · subst e; rw [State.sq_setSq_self]; exact h
  · rw [State.sq_setSq_ne _ _ e]

theorem foldl {α : Type} {f : State → α → State} : ∀ (l : List α) (s : State),
    (∀ a ∈ l, ∀ u, SameBound s u → SameBound u (f u a)) → SameBound s (l.foldl f s)
  | [], _, _ => fun _ => Iff.rfl
  | a :: l, s, h => by
    have k := h a (.head _) s fun _ => Iff.rfl
    exact k.trans (foldl l (f s a) fun b hb u g => h b (.tail _ hb) u (k.trans g))

theorem switchTold (s : State) (sw : Switch) (e : ClockEvent) : SameBound s (Sys2Proof.switchTold s sw e) :=
  quiet (Quiet.handAll _ _ _)

/-- Only outputs in WAITING start. -/
theorem starts (s : State) : ∀ (os : List Output), (∀ o ∈ os, (s.sq o).state = .waiting) → os.Nodup →
    SameBound s (startTogether s os) := by
  intro os
  induction os generalizing s with
  | nil => exact fun _ _ _ => Iff.rfl
  | cons o os ih =>
    intro h hn
    obtain ⟨ho, hn⟩ := List.nodup_cons.mp hn
    unfold startTogether
    rw [List.foldl_cons]
    have f := lineReaches_frame (s.setSq o (startRecord (s.sq o) s.tbu.fail)) o
    have q := Quiet.handAll (lineReaches (s.setSq o (startRecord (s.sq o) s.tbu.fail)) o) (s.holders (.out o))
      (.outputState o .waiting .running 0)
    have k : SameBound s ((lineReaches (s.setSq o (startRecord (s.sq o) s.tbu.fail)) o).handAll (s.holders (.out o))
        (.outputState o .waiting .running 0)) := by
      refine (setSq s o (startRecord (s.sq o) s.tbu.fail) ⟨nofun, fun x => ?_⟩).trans ((of_sq f.1).trans (quiet q))
      rw [h o (.head _)] at x; cases x
    refine k.trans (ih _ (fun p hp => ?_) hn)
    rw [q.sq, f.1, State.sq_setSq_ne _ _ (fun e : p = o => ho (e ▸ hp))]
    exact h p (.tail _ hp)

theorem completes (s : State) (sw : Switch) : SameBound s (switchCompletes s sw false none) := by
  unfold switchCompletes
  dsimp only
  generalize hb : State.setTbu _ _ = b
  have hs : SameBound s b := by rw [← hb]; exact of_sq fun _ => rfl
  generalize hc : allOutputs.foldl _ b = c
  have hc : SameBound b c := by
    rw [← hc]
    refine foldl allOutputs _ fun o _ u g => setSq u o _ ?_
    have e : (completionMark (s.sq o) (false && sw.align == some o)).state = (s.sq o).state := by
      unfold completionMark; split <;> rfl
    rw [e, ← hs o, g o]
  exact ((hs.trans hc).trans (starts c _ (fun o ho => waiting_of_starters ho)
    ((by decide : allOutputs.Nodup).filter _))).trans (switchTold _ _ _)

theorem progress (s : State) : SameBound s (Machine.progress s) := by
  have ready (u : State) (h : ∀ o, u.sq o = s.sq o) : SameBound s (targetReady u) := by
    have c (sw : Switch) : SameBound s (complete u sw false []) :=
      (of_sq h).trans (complete_eq u sw false none ▸ completes u sw)
    unfold targetReady
    split
    · exact c _
    · split
      · exact c _
      · split
        · exact of_sq h
        · exact c _
    · exact of_sq h
  have go (sw : Switch) : SameBound s (readyTarget s sw) := by
    unfold readyTarget
    split
    · split
      · exact ready s fun _ => rfl
      · split
        · exact fun _ => Iff.rfl
        · exact fun _ => Iff.rfl
    · exact fun _ => Iff.rfl
  unfold Machine.progress
  split
  · exact go _
  · exact go _
  · exact fun _ => Iff.rfl

theorem startUp (s : State) (sel : Selection) (origin : SwitchOrigin) (two : Bool) :
    SameBound s (startUpPath s sel origin two) := by
  have b (st : TbuState) (sw : Switch) : SameBound s (beginSwitch s st sw none) := by
    rw [beginSwitch_eq]
    exact ((of_sq (t := unitGoes s st) fun _ => rfl).trans (switchTold _ _ _)).trans (progress _)
  unfold startUpPath
  dsimp only
  split
  · rw [settleClocks_of_state]; exact fun _ => Iff.rfl
  · split
    · exact b _ _
    · exact b _ _

end SameBound

/-- WAKE, as the statements say (R173). -/
theorem pathTaken_wake {s : State} {sel : Selection} {ends : State → Prop} (hs : s.tbu.state = .standby sel)
    (h : ends (wakeRequest s).state) :
    let marked := allOutputs.filter fun o => (s.sq o).resumeMark
    let moved := marked.filter fun o => (s.sq o).state == .bound
    let w := marked.foldl (fun u o => u.setSq o { s.sq o with resumeMark := false, wakeStart := true }) s
    PathTaken w sel .wake (s.straps.twospd && s.tbu.lock.isNone) (fun u =>
      let v := moved.foldl (fun v o => v.setSq o { u.sq o with state := .waiting }) u
      let starting := allOutputs.filter fun o => (v.sq o).state == .waiting && v.tbu.state.current.isSome
      ends (movedTogether v moved starting)) := by
  intro marked moved w
  have hn : allOutputs.Nodup := by decide
  have hw : marked.foldl (fun s o => s.setSq o (s.sq o).wake) s = w :=
    foldl_setSq_start (P := fun _ => True) (f := fun u o => (u.sq o).wake)
      (g := fun o => { s.sq o with resumeMark := false, wakeStart := true }) (fun _ _ _ _ => trivial) marked
      (hn.filter _) s trivial fun v _ o _ e => by dsimp only; rw [e]; rfl
  have hb : SameBound s w := .foldl _ _ fun o _ u g => .setSq u o _ (g o).symm
  have ht : w.straps = s.straps ∧ w.tbu = s.tbu := by
    show (marked.foldl _ s).straps = _ ∧ (marked.foldl _ s).tbu = _
    generalize hg : (fun (u : State) (o : Output) =>
      u.setSq o { s.sq o with resumeMark := false, wakeStart := true }) = g
    have k (u : State) (o : Output) : (g u o).straps = u.straps ∧ (g u o).tbu = u.tbu := by rw [← hg]; exact ⟨rfl, rfl⟩
    generalize marked = l
    have m (u : State) : (l.foldl g u).straps = u.straps ∧ (l.foldl g u).tbu = u.tbu := by
      induction l generalizing u with
      | nil => exact ⟨rfl, rfl⟩
      | cons a l ih => exact ⟨(ih _).1.trans (k u a).1, (ih _).2.trans (k u a).2⟩
    exact m s
  unfold wakeRequest at h
  rw [hs] at h
  have e : markedOutputs s = marked := rfl
  dsimp only [okay] at h
  rw [e, hw, ht.1, ht.2] at h
  refine pathTaken_startUpPath ?_
  have sb := hb.trans (SameBound.startUp w sel .wake (s.straps.twospd && s.tbu.lock.isNone))
  generalize startUpPath w sel .wake (s.straps.twospd && s.tbu.lock.isNone) = u at h sb
  have hm : (marked.filter fun o => (u.sq o).state == .bound) = moved :=
    List.filter_congr fun o _ => by rw [Bool.eq_iff_iff, beq_iff_eq, beq_iff_eq]; exact sb o
  unfold resumeOutputs at h
  dsimp only at h
  rw [hm] at h
  have hmb : ∀ o ∈ moved, (u.sq o).state = .bound := fun o ho =>
    (sb o).mpr (beq_iff_eq.mp (List.mem_filter.mp ho).2)
  rw [startSet_at_wake u moved, handMoves_eq] at h
  · rw [setWaiting_eq moved ((hn.filter _).filter _)] at h
    exact h
  · intro o ho
    rw [sq_setWaiting, if_pos ho]

end Sys2Proof.Laws
end

