-- ==== Sys2Proof/Laws/Carries.lean ====
section
/-! SUPPORT. The statements' words for a CLOCK and for the carry of a proposal, each proved to be what the Timebase Unit's
and the Consent Unit's own operations do: `SettingsMeet`, `SelectionMeets`, `ClockTaken`, `ClockCarried`, `Carries`. -/

namespace Sys2Proof.Laws

open Machine

/-! ### CLOCK (R105, R110 to R113) -/

/-- The settings are valid exactly where they meet R105. -/
theorem settingsValid_iff (f : Nat) (c : Settings) : settingsValid f c = true ↔ SettingsMeet f c := by
  unfold settingsValid SettingsMeet
  rw [decide_eq_true_iff]
  tauto

/-- A selection is valid exactly where it meets R105. -/
theorem selectionValid_iff (s : State) (sel : Selection) : selectionValid s.table sel = true ↔ SelectionMeets s sel := by
  obtain ⟨src, _ | c⟩ := sel
  · have e : SelectionMeets s ⟨src, none⟩ ↔ s.table.freq src ≤ 240000 := by cases src <;> rfl
    rw [e]; exact decide_eq_true_iff
  · cases src <;> exact settingsValid_iff _ c

/-- The selection lock refuses a selection exactly where it does not let it pass. -/
theorem lockRefuses_iff (s : State) (sel : Selection) : lockRefuses s (some sel) = true ↔ ¬LockPasses s sel := by
  unfold LockPasses lockRefuses TbuState.hasTimebase
  cases s.tbu.lock with
  | none => simp
  | some l =>
    cases s.tbu.state.current
    · simp [@eq_comm _ sel l]
    · simp

/-- The checks of R110, steps 2 to 5, in the statements' words, of a selection code and an align byte in their lists. -/
theorem clockCheck_eq (s : State) (sel : Selection) (align : Option Output) :
    (¬LockPasses s sel → clockCheck s (some sel) (some align) = some .locked)
    ∧ (LockPasses s sel →
      (¬SelectionMeets s sel → clockCheck s (some sel) (some align) = some .badValue)
      ∧ (SelectionMeets s sel →
        (SynBusy s sel → clockCheck s (some sel) (some align) = some .synInUse)
        ∧ (Redundant s sel → clockCheck s (some sel) (some align) = some .noChange)
        ∧ (¬SynBusy s sel → ¬Redundant s sel → clockCheck s (some sel) (some align) = none))) := by
  have lock := lockRefuses_iff s sel
  have busy : (synOf s.tbu.state.current && sel.syn.isSome && s.tbu.state.current != some sel) = true
      ↔ SynBusy s sel := by
    unfold SynBusy
    cases s.tbu.state.current with
    | none => simp [synOf]
    | some cur => simp [synOf, and_left_comm, and_assoc]
  unfold clockCheck
  dsimp only
  refine ⟨fun h => if_pos (lock.mpr h), fun h => ?_⟩
  rw [if_neg fun g => lock.mp g h]
  refine ⟨fun v => if_pos ?_, fun v => ?_⟩
  · rw [Bool.eq_false_iff.mpr fun g => v ((selectionValid_iff s sel).mp g)]; rfl
  rw [(selectionValid_iff s sel).mpr v, if_neg (by simp)]
  refine ⟨fun b => if_pos (busy.mpr b), fun r => ?_, fun b r => ?_⟩
  · have b : ¬SynBusy s sel := by
      rintro ⟨_, n⟩
      rcases r with r | r <;> rw [r] at n <;> simp [TbuState.current] at n
    rw [if_neg fun g => b (busy.mp g)]
    rcases r with r | r <;> rw [r] <;> exact if_pos rfl
  · rw [if_neg fun g => b (busy.mp g)]
    unfold Redundant at r
    split
    · rename_i cur e
      exact if_neg fun g : sel = cur => r (.inl (g ▸ e))
    · rename_i kept e
      exact if_neg fun g : sel = kept => r (.inr (g ▸ e))
    · rfl

/-- A switch that begins is in the state that carries it. -/
theorem state_switchBegins (s : State) (st : TbuState) (sw : Switch) (old : Option Switch) :
    (switchBegins s st sw old).tbu.state = st := by
  unfold switchBegins switchTold
  cases old <;> simp only [State.handAll_tbu] <;> rfl

/-- A CLOCK is taken as the statements say (R112). -/
theorem clockTaken_takeClock {u : State} {sel : Selection} {align : Option Output} {origin : SwitchOrigin}
    {ends : State → Prop} (h : ends (takeClock u sel align origin)) : ClockTaken u ⟨sel, origin, align⟩ ends := by
  have begins (st : TbuState) (sw : Switch) (old : Option Switch) (hw : ∀ cur y d, st ≠ .waitAlign cur y d)
      (k : ends (progress (switchBegins u st sw old))) : Readied (switchBegins u st sw old) ends :=
    readied_progress (by rw [state_switchBegins]; exact hw) k
  unfold takeClock at h
  refine ⟨fun cur e => begins _ _ _ nofun ?_, fun cur old d e => ⟨fun n => begins _ _ _ nofun ?_, fun g => ?_⟩,
    fun old d e => begins _ _ _ nofun ?_, fun e => begins _ _ _ nofun ?_, fun kept e => ?_⟩
  · rw [e] at h; exact beginSwitch_eq u _ _ ▸ h
  · rcases e with e | e <;> rw [e] at h <;> dsimp only at h <;> rw [if_neg n] at h <;>
      exact beginSwitch_abandons u _ _ old ▸ h
  · have k : switchTold (unitGoes u (.running cur)) old (.superseded old)
        = endNotice (settleClocks ((abandonLock u).setTbu { (abandonLock u).tbu with state := .running cur }))
          (some old) .superseded := by
      rw [settleClocks_of_state, endNotice, switchNotice_eq]
      unfold abandonLock
      split
      · rfl
      · rename_i n
        have hc : u.tbu.state.current = some cur := by rcases e with e | e <;> rw [e] <;> rfl
        rw [hc] at n
        have hs : cur.syn.isSome = false := Bool.not_eq_true _ ▸ n
        unfold unitGoes
        simp [selectionsOf, TbuState.current, TbuState.switch, hs]
    rw [k]
    rcases e with e | e <;> rw [e] at h <;> dsimp only at h <;> rw [if_pos g] at h <;> exact h
  · rw [e] at h; exact beginSwitch_abandons u _ _ old ▸ h
  · rw [e] at h; exact beginSwitch_eq u _ _ ▸ h
  · rw [e] at h; exact h

/-- A CLOCK_CHANGE proposal carries as the statements say (R113). -/
theorem clockCarried_carryClock {u : State} {p : Proposal} {sel : Selection} {align : Option Output}
    {ends : State → RoundOutcome → Prop} (h : ends (carryClock u p sel align).1 (carryClock u p sel align).2) :
    ClockCarried u p sel align ends := by
  obtain ⟨locked, open_⟩ := clockCheck_eq u sel align
  unfold carryClock at h
  refine ⟨fun l => ?_, fun l v => ⟨fun b => ?_, fun r => ?_, fun b r => ?_⟩⟩
  · rw [locked l] at h; exact h
  · rw [((open_ l).2 v).1 b] at h; exact h
  · rw [((open_ l).2 v).2.1 r] at h; exact h
  · rw [((open_ l).2 v).2.2 b r] at h; exact clockTaken_takeClock h

/-! ### Carrying (R86, R92 to R96) -/

/-- An output comes to another state with another record, and its holders are told. -/
theorem setOutState_setSq (s : State) (o : Output) (r : OutRec) (st : OutState) :
    setOutState (s.setSq o r) o st = (s.setSq o { r with state := st }).handAll (s.holders (.out o))
      (.outputState o r.state st r.frameNo) := by
  unfold setOutState outputNotice
  simp only [State.sq_setSq_self, State.setSq_setSq]
  rfl

/-- References move, and the holders stay. -/
theorem holders_rebound (s : State) (k : Slot) (c : Option Slot) (t : Target) :
    ((s.addRef k).dropRefOpt c).holders t = s.holders t := by
  unfold State.holders
  rw [State.claim_dropRefOpt, State.claim_addRef]

/-- An output in BOUND that goes to WAITING leaves the align output in RUNNING. -/
theorem alignSettled_waiting {s : State} {o : Output} (h : AlignLaw s) (g : (s.sq o).state = .bound) (st : OutState) :
    AlignSettled (setOutState s o st) := fun cur sw d e a ha => by
  unfold setOutState outputNotice at e ⊢
  rw [State.handAll_tbu] at e
  obtain ⟨b, hb, r⟩ := h cur sw d e
  rw [hb] at ha
  cases ha
  have n : a ≠ o := fun x => by rw [x, g] at r; cases r
  rw [State.sq_handAll, State.sq_setSq_ne _ _ n, r]
  exact nofun

/-- RESERVED entries leave as the statements say (R50). -/
theorem removeReserved_eq (u : State) (o : Output) (p : Proposal) (c : ChangeOutcome) :
    removeEntries u o (Entry.isReservedBy p.id) c
      = entriesGo o c (u.setQueue o ((u.queue o).filter fun e => !reservedFor p e)) ((u.queue o).filter (reservedFor p)) :=
  entriesGo_eq o c _ _

/-- The owner of the target applies the proposal as the statements say (R86, R92 to R96). -/
theorem carries_applyMatter {u : State} {p : Proposal} {ends : State → RoundOutcome → Prop}
    (h : ends ((applyMatter u p).1.dropRefOpt p.matter.payloadSlot) (applyMatter u p).2) : Carries u p ends := by
  have gone (o : Output) (c : ChangeOutcome) := removeReserved_eq u o p c
  have quiet (o : Output) (c : ChangeOutcome) := quiet_entriesGo o c ((u.queue o).filter (reservedFor p))
    (u.setQueue o ((u.queue o).filter fun e => !reservedFor p e))
  have sq (o : Output) (c : ChangeOutcome) := ((quiet o c).sq o).trans (State.sq_setQueue u o o _)
  have holders (o : Output) (c : ChangeOutcome) := (quiet o c).holders (.out o)
  unfold Carries
  unfold applyMatter at h
  cases hm : p.matter with
  | outputChange o k =>
    simp only [hm, Matter.payloadSlot, State.dropRefOpt] at h
    dsimp only
    refine ⟨fun g => ?_, fun g => ?_, fun g => ?_⟩
    · rw [carryChange, if_pos g] at h; exact h
    · have n : ¬(u.sq o).runs = true := by rcases g with g | g <;> simp [OutRec.runs, g]
      have i : (u.sq o).state ≠ .idle := by rcases g with g | g <;> rw [g] <;> exact nofun
      rw [carryChange, if_neg n] at h
      simp only [Machine.bind, gone, sq, if_neg i, State.sq_dropRefOpt, State.sq_addRef] at h
      exact h
    · have n : ¬(u.sq o).runs = true := by simp [OutRec.runs, g]
      rw [carryChange, if_neg n] at h
      simp only [Machine.bind, gone, sq, if_pos g, State.sq_dropRefOpt, State.sq_addRef, setOutState_setSq] at h
      rw [holders_rebound, holders] at h
      exact h
  | outputStop o =>
    simp only [hm, Matter.payloadSlot, State.dropRefOpt, carryStop] at h
    dsimp only
    refine ⟨fun g => ?_, fun g => ?_, fun g => ?_⟩
    · rw [g] at h; exact h
    · rw [g] at h
      simp only [returnToBound, gone, sq, setOutState_setSq, holders] at h
      rw [g] at h ⊢
      exact h
    · rcases g with g | g | g <;> rw [g] at h <;> exact gone o .withdrawn ▸ h
  | outputStart o =>
    simp only [hm, Matter.payloadSlot, State.dropRefOpt, carryStart] at h
    dsimp only
    refine ⟨fun g a => ?_, fun g => ?_⟩
    · rw [if_pos g, enterWaiting, examine_none (alignSettled_waiting a g .waiting)] at h
      simp only [setOutState, outputNotice, State.sq_setSq_self] at h
      exact h
    · rw [if_neg g] at h; exact h
  | claimExclusive t => rw [hm] at h; exact h
  | clockChange sel align => rw [hm] at h; exact clockCarried_carryClock h
  | standby =>
    simp only [hm, Matter.payloadSlot, State.dropRefOpt] at h
    dsimp only
    intro a
    rw [← enterStandby_eq (alignSettled_of_law a)]; exact h
  | deviceReset => rw [hm] at h; exact h

/-- A proposal carries as the statements say (R86). -/
theorem carries_carry {u : State} {p : Proposal} {ends : State → Prop} (h : ends (carry u p)) :
    Carries u p fun t outcome => ends (roundOver t p outcome (p.matter == .deviceReset)) := carries_applyMatter h

/-! ### The removal of a holder whose vote was awaited (R72, R89) -/

theorem claim_setOutState (s : State) (o : Output) (st : OutState) : (books (setOutState s o st)).claim = (books s).claim := by
  unfold setOutState
  rw [books_outputNotice, books_setSq_eq]; rfl

theorem claim_removeEntries (s : State) (o : Output) (q : Entry → Bool) (c : ChangeOutcome) :
    (books (removeEntries s o q c)).claim = (books s).claim := by
  unfold removeEntries
  rw [books_entriesLeft, books_setQueue, Books.claim_dropEntries]; rfl

theorem claim_bind (s : State) (o : Output) (k : Slot) : (books (Machine.bind s o k)).claim = (books s).claim := by
  unfold Machine.bind
  dsimp only
  split <;> simp only [claim_setOutState, books_setSq_eq, books_dropRefOpt, books_addRef, Books.claim_setView,
    Books.claim_dropRefOpt, Books.claim_addRef]

/-- A proposal that carries changes the claim record of CLAIM_EXCLUSIVE's target alone, and leaves its proposer's entry.
Standby entry is no change of a claimed target. -/
theorem holders_carry {u : State} {p : Proposal} {t : Target} (h : p.matter.target = some t) :
    ((carry u p).claim t).holders = match p.matter with
      | .claimExclusive _ => (u.claim t).holders.filter fun x => x.master == p.proposer
      | _ => (u.claim t).holders := by
  have rest (v : State) (c : RoundOutcome) (b : Bool) :
      (books (proposalEnd (freeProposal (v.dropRefOpt p.matter.payloadSlot) p.id) p c b)).claim = (books v).claim := by
    rw [books_proposalEnd, freeProposal, books_setProposals, books_dropRefOpt]
    exact Books.claim_dropRefOpt _ _
  have main (c : Target → ClaimRec) (e : (books (applyMatter u p).1).claim = c) : (carry u p).claim t = c t :=
    congrFun ((rest (applyMatter u p).1 _ _).trans e) t
  cases hm : p.matter with
  | outputChange o k =>
    rw [main (books u).claim]
    · rfl
    unfold applyMatter
    rw [hm]
    dsimp only [carryChange]
    split
    · dsimp only [queueReserved]; rw [books_setQueue]; rfl
    · dsimp only; rw [claim_bind, claim_removeEntries]
  | outputStop o =>
    rw [main (books u).claim]
    · rfl
    unfold applyMatter
    rw [hm]
    dsimp only [carryStop]
    split
    · dsimp only [queueReserved]; rw [books_setQueue]; rfl
    · dsimp only [returnToBound]
      rw [claim_setOutState, books_setSq_eq, Books.claim_setView, claim_removeEntries]
    all_goals exact claim_removeEntries _ _ _ _
  | outputStart o =>
    rw [main (books u).claim]
    · rfl
    unfold applyMatter
    rw [hm]
    dsimp only [carryStart]
    split
    · dsimp only [enterWaiting]; rw [books_examine, claim_setOutState]
    · rfl
  | claimExclusive g =>
    rw [hm] at h
    cases h
    have e : (applyMatter u p).1 = (carryExclusive u p.id t p.proposer).1 := by unfold applyMatter; rw [hm]
    rw [main _ (by rw [e, books_carryExclusive]), claim_setClaim_self]
  | clockChange sel align =>
    rw [main (books u).claim]
    · rfl
    unfold applyMatter
    rw [hm]
    dsimp only [carryClock]
    split
    · rfl
    · rfl
    · dsimp only; rw [books_takeClock]
  | standby => rw [hm] at h; cases h
  | deviceReset => rw [hm] at h; cases h

/-- The record of a proposal that is found and changed. -/
theorem find_of_map {ps : List Proposal} {p q : Proposal} (hp : p ∈ ps) (hq : q.id = p.id) :
    (ps.map fun x => if x.id == p.id then q else x).find? (fun x => x.id == p.id) = some q := by
  induction ps with
  | nil => cases hp
  | cons x ps ih =>
    rw [List.map_cons]
    by_cases e : x.id = p.id
    · simp [e, hq]
    · rw [List.find?_cons_of_neg (by simp [e])]
      rcases List.mem_cons.mp hp with rfl | hp
      · exact absurd rfl e
      · exact ih hp

/-- A holder whose vote was the last one awaited is removed, and the proposal carries. -/
theorem removeHolder_carries {v : State} {t : Target} {m : Master} {p : Proposal}
    (ht : v.proposalOn (some t) = some p) (uniq : ∀ x ∈ v.consent.proposals, x.id = p.id → x = p) (hn : p.proposer ≠ m)
    (hr : m ∈ p.required) (ha : (p.without m).accepted = (p.without m).required)
    (hl : ((v.claim t).holders.filter fun h => h.master != m) ≠ [])
    (hp : p.matter = .claimExclusive t → p.proposer ∈ ((v.claim t).holders.filter fun h => h.master != m).map Holder.master) :
    removeHolder v t m = carry ((v.setClaim t { v.claim t with
      holders := (v.claim t).holders.filter fun h => h.master != m }).setProposals
        (v.consent.proposals.map fun x => if x.id == p.id then p.without m else x)) (p.without m) := by
  generalize hu : v.setClaim t { v.claim t with holders := (v.claim t).holders.filter fun h => h.master != m } = u
  have hc : u.claim t = { v.claim t with holders := (v.claim t).holders.filter fun h => h.master != m } := by
    rw [← hu]; exact State.claim_setClaim_self _ _ _
  have hs : u.consent = v.consent := by rw [← hu]; cases t <;> rfl
  have ho : u.proposalOn (some t) = some p := by unfold State.proposalOn; rw [hs]; exact ht
  obtain ⟨mem, target⟩ := proposalOn_mem ht
  have table : v.consent.proposals.map (fun x => if x.id == p.id then x.without m else x)
      = v.consent.proposals.map fun x => if x.id == p.id then p.without m else x :=
    List.map_congr_left fun x hx => by
      split
      · rename_i e; rw [uniq x hx (beq_iff_eq.mp e)]
      · rfl
  have upd : updateProposal u p.id (·.without m)
      = u.setProposals (v.consent.proposals.map fun x => if x.id == p.id then p.without m else x) := by
    unfold updateProposal; rw [hs, table]
  have found : (updateProposal u p.id (·.without m)).proposal p.id = some (p.without m) := by
    rw [upd]
    exact find_of_map mem rfl
  have rel : releaseProposal u t m = carry (u.setProposals
      (v.consent.proposals.map fun x => if x.id == p.id then p.without m else x)) (p.without m) := by
    unfold releaseProposal leaveProposal carryIfAgreed
    rw [ho]
    dsimp only
    rw [if_neg hn, if_pos (List.contains_iff_mem.mpr hr), found]
    dsimp only
    rw [if_pos ha, upd]
  unfold removeHolder
  dsimp only
  rw [hu, rel, if_neg]
  rw [holders_carry (t := t) (p := p.without m) target]
  split
  · rename_i g e
    rw [State.claim_setProposals, hc]
    have e : p.matter = .claimExclusive g := e
    have k : some g = some t := by rw [e] at target; exact target
    cases k
    obtain ⟨x, hx, hm⟩ := List.mem_map.mp (hp e)
    exact List.ne_nil_of_mem (List.mem_filter.mpr ⟨hx, beq_iff_eq.mpr hm⟩)
  · rw [State.claim_setProposals, hc]; exact hl

end Sys2Proof.Laws
end

