-- ==== Sys2Proof/Laws/Layouts.lean ====
section
/-! SUPPORT. The lengths of the layouts of R166: the record of QUERY TIMEBASE takes all of the 36 bytes that a response
can carry, and a claim record 12 more, so that the two are read by two QUERYs or the claim record by none (log entry 27).
-/

namespace Sys2Proof.Laws

open Machine

theorem settingsField_length (c : Option Settings) : (settingsField c).length = 4 := by cases c <;> rfl

theorem selectionField_length (sel : Option Selection) : (selectionField sel).length = 5 := by
  cases sel <;> simp [selectionField, u8, settingsField_length]

theorem originField_length (o : Option SwitchOrigin) : (originField o).length = 4 := by
  rcases o with _ | ⟨⟩ | ⟨⟩ | ⟨_, _⟩ | ⟨_, _, _⟩ <;> rfl

theorem optByte_length (n : Option Nat) : (optByte n).length = 1 := by cases n <;> rfl

theorem optWord_length (n : Option Nat) : (optWord n).length = 2 := by cases n <;> rfl

/-- The longest part of QUERY takes 36 bytes (R166). -/
theorem timebaseBytes_length (s : State) : (timebaseBytes s).length = 36 := by
  simp [timebaseBytes, u8, u16, u32, flagField, optFin, timeToRun, selectionField_length, originField_length,
    optByte_length, optWord_length]

/-- A claim record takes 12 bytes, with the holder list of nine (R166). -/
theorem claimBytes_length (c : ClaimRec) : (claimBytes c).length = 12 := by
  rcases c with ⟨_, _, _ | _ | _⟩ <;> simp [claimBytes, holderField, u8]

/-- Every part of TIMEBASE but part 3 is the record of the Timebase Unit, whatever the free value is (R163). -/
theorem timebasePart_of_ne {s : State} {part : Nat} (h : part ≠ 3) : timebasePart s part = timebaseBytes s :=
  if_neg fun c => h c.1

/-- Part 3 of TIMEBASE follows the free value (R64, R163; log entry 27). -/
theorem timebasePart_three (s : State) :
    timebasePart s 3 = if Config.timebaseReadsClaim then claimBytes (s.claim .tb) else timebaseBytes s := by
  simp [timebasePart]

/-- Where R64 has its way, a QUERY returns the claim record of TB with the timebase (log entry 27). -/
theorem timebasePart_under_R64 (h : Config.timebaseReadsClaim = true) (s : State) :
    timebasePart s 3 = claimBytes s.tbClaim := by
  rw [timebasePart_three, if_pos h]; rfl

/-- Where R163 has its way, the part is not examined (log entry 27). -/
theorem timebasePart_under_R163 (h : Config.timebaseReadsClaim = false) (s : State) (part : Nat) :
    timebasePart s part = timebaseBytes s :=
  if_neg fun c => by simp [h] at c

/-- Each part of TIMEBASE fits within one response, under either reading (R163, R166). -/
theorem timebasePart_fits (s : State) (part : Nat) : (timebasePart s part).length ≤ 36 := by
  unfold timebasePart
  split
  · simp [claimBytes_length]
  · simp [timebaseBytes_length]

end Sys2Proof.Laws
end

