-- ==== Sys2Proof/Laws/Members.lean ====
section
/-! SUPPORT. Profile requests, bursts, queries, membership, departures and resets keep the laws of the records. -/

namespace Sys2Proof.Laws

open Machine Books

/-! ### Slots -/

/-- A slot that is not FIXED before, or not FIXED after, changes without references. -/
theorem setSlot_sound {s : State} (h : Sound s) (k : Slot) (r : SlotRec) (hr : r.refs = (s.slot k).refs)
    (hf : 0 < (s.slot k).refs → r.state = .fixedSlot)
    (hc : ∀ o c, (s.sq o).cut = some c → c.slot = k → r.state = .fixedSlot) : Sound (s.setSlot k r) := by
  have e := books_setSlot s k r
  have self : ((books s).setSlot k r).slot k = r := if_pos rfl
  have other (j : Slot) (g : j ≠ k) : ((books s).setSlot k r).slot j = (books s).slot j := if_neg g
  refine ⟨?_, ?_, by rw [e]; exact h.reserved, by rw [e]; exact h.claims, by rw [e]; exact h.table, by rw [e]; exact h.held,
    by rw [e]; exact h.voters, by rw [e]; exact h.undecided⟩
  · show RefsOk _
    rw [e]
    refine ⟨fun j => ?_, fun j hj => ?_, fun o j hj => ?_⟩
    · show _ = (books s).places j
      rw [← h.refs.count j]
      by_cases g : j = k
      · subst g; rw [self]; exact hr
      · rw [other j g]
    · by_cases g : j = k
      · subst g; rw [self] at hj ⊢; rw [hr] at hj; exact hf hj
      · rw [other j g] at hj ⊢; exact h.refs.fixed j hj
    · have hj : (s.sq o).cut.map PendingCut.slot = some j := hj
      by_cases g : j = k
      · subst g
        obtain ⟨c, hc1, hc2⟩ := Option.map_eq_some_iff.mp hj
        rw [self]; exact hc o c hc1 hc2
      · rw [other j g]; exact h.refs.cuts o j hj
  · intro o; rw [e]; exact h.taken o

/-- Nothing names a slot that is not FIXED. -/
theorem refs_zero {s : State} (h : Sound s) {k : Slot} (g : (s.slot k).state ≠ .fixedSlot) : (s.slot k).refs = 0 := by
  by_contra n
  exact g (h.refs.fixed k (Nat.pos_of_ne_zero n))

/-- A slot that is not FIXED changes, and stays without references. -/
theorem draft_sound {s : State} (h : Sound s) (k : Slot) (r : SlotRec) (g : (s.slot k).state ≠ .fixedSlot)
    (hr : r.refs = 0) : Sound (s.setSlot k r) := by
  have z := refs_zero h g
  refine setSlot_sound h k r (by rw [hr, z]) (fun l => by rw [z] at l; cases l) fun o c hc e => ?_
  exact absurd (h.refs.cuts o k (by show (s.sq o).cut.map _ = _; rw [hc]; exact congrArg some e)) g

theorem withSlot_sound {s : State} {f : Frame} {act : Slot → Reply} (h : Sound s) (k : ∀ j, Sound (act j).state) :
    Sound (withSlot s f act).state := by
  unfold withSlot
  split
  · exact h
  · exact k _

theorem profileWrite_sound {s : State} (m : Master) (f : Frame) (h : Sound s) : Sound (profileWrite s m f).state := by
  refine withSlot_sound h fun k => ?_
  have d (g : (s.slot k).state ≠ .fixedSlot) :
      Sound (s.setSlot k ⟨.openSlot, some m, 0, geometryOf f.payload, labelOf f.payload⟩) := draft_sound h k _ g rfl
  dsimp only
  split
  · rename_i g; exact d (by rw [g]; exact nofun)
  · rename_i g
    split
    · exact d (by rw [g]; exact nofun)
    · exact h
  · exact h

theorem profileFix_sound {s : State} (m : Master) (f : Frame) (h : Sound s) : Sound (profileFix s m f).state := by
  refine withSlot_sound h fun k => ?_
  split
  · exact h
  · exact h
  · split
    · split
      · exact h
      · exact setSlot_sound h k { s.slot k with state := .fixedSlot } rfl (fun _ => rfl) fun _ _ _ _ => rfl
    · exact h

theorem profileFree_sound {s : State} (m : Master) (f : Frame) (h : Sound s) : Sound (profileFree s m f).state := by
  refine withSlot_sound h fun k => ?_
  dsimp only
  split_ifs with h1 h2 h3 h4 h5
  · exact h
  · exact h
  · exact draft_sound h k .reset (by rw [h3]; exact nofun) rfl
  · exact h
  · exact h
  · have z : (s.slot k).refs = 0 := Nat.eq_zero_of_not_pos h4
    refine setSlot_sound h k .reset (by rw [z]; rfl) (fun l => absurd l h4) fun o c hc e => ?_
    refine absurd ?_ h5
    refine List.any_eq_true.mpr ⟨o, mem_allOutputs o, ?_⟩
    rw [hc]
    simpa using e

/-! ### Bursts, queries and messages -/

theorem burstRequest_sound {s : State} (m : Master) (f : Frame) (h : Sound s) : Sound (burstRequest s m f).state := by
  refine withOutput_sound h fun o => ?_
  split
  · unfold burstTake
    split_ifs
    all_goals first | exact h | exact h.of_books (books_setBurst s o _)
  · exact h

theorem burstEndRequest_sound {s : State} (m : Master) (f : Frame) (h : Sound s) :
    Sound (burstEndRequest s m f).state := by
  refine withOutput_sound h fun o => ?_
  split
  · exact h
  · split_ifs
    all_goals first | exact h | exact h.of_books (books_endBurst s o _) | exact h.of_books (books_finishBurst s o _ _)

theorem relayRequest_sound {s : State} (m : Master) (f : Frame) (h : Sound s) : Sound (relayRequest s m f).state := by
  unfold relayRequest
  split
  · exact h
  · split_ifs
    · exact h
    · exact h
    · exact h.of_books (books_hand _ _ _)

/-! ### Membership -/

/-- A master's record changes, and it stays or becomes a member. -/
theorem setMaster_sound {s : State} (h : Sound s) (m : Master) (r : MasterRec)
    (hj : s.joined m = true → r.isJoined = true) : Sound (s.setMaster m r) := by
  have slot : (books (s.setMaster m r)).joined = fun j => if j = m then r.isJoined else s.joined j := funext fun j => by
    show (s.setMaster m r).joined j = _
    split
    · rename_i e; subst e; rw [State.joined, State.master_setMaster_self]
    · rename_i e; rw [State.joined, State.master_setMaster_ne _ _ e]; rfl
  refine ⟨h.refs.of_policies rfl rfl (fun _ => rfl) rfl, h.taken, h.reserved, ⟨fun t => ?_, h.claims.2⟩, h.table, h.held, h.voters,
    h.undecided⟩
  have c := h.claims.1 t
  refine ⟨c.free_iff, c.keep, c.one, c.nodup, fun x hx => ?_⟩
  rw [slot]
  dsimp only
  split
  · rename_i e; exact hj (e ▸ c.mem x hx)
  · exact c.mem x hx

theorem joinRequest_sound {s : State} (m : Master) (f : Frame) (h : Sound s) : Sound (joinRequest s m f).state := by
  unfold joinRequest
  dsimp only
  split
  · refine setMaster_sound h m _ fun hj => ?_
    unfold MasterRec.join
    split
    · rename_i g; exact g
    · rfl
  · exact h

theorem firstExpiry_sound {s : State} (m : Master) (t : Nat) (h : Sound s) : Sound (firstExpiry s m t) := by
  unfold firstExpiry
  dsimp only
  exact (setMaster_sound (h.of_books (books_reach s t)) m _ fun _ => rfl).of_books (books_hand _ _ _)

/-! ### Departure -/

theorem profileDeparture_sound {s : State} (m : Master) (h : Sound s) : Sound (profileDeparture s m) := by
  unfold profileDeparture
  generalize allSlots = ks
  induction ks generalizing s with
  | nil => exact h
  | cons k ks ih =>
    refine ih ?_
    show Sound (s.setSlot k ((s.slot k).depart m))
    unfold SlotRec.depart
    split
    · split
      · rename_i g; exact draft_sound h k .reset (by rw [g]; exact nofun) rfl
      · rename_i g
        exact setSlot_sound h k { s.slot k with owner := none } rfl (fun _ => g) fun _ _ _ _ => g
      · rename_i g
        exact draft_sound h k (s.slot k) (by rw [g]; exact nofun) (refs_zero h (by rw [g]; exact nofun))
    · rw [setSlot_self]; exact h

theorem claims_profileDeparture (s : State) (m : Master) : (books (profileDeparture s m)).claim = (books s).claim := by
  unfold profileDeparture
  generalize allSlots = ks
  induction ks generalizing s with
  | nil => rfl
  | cons k ks ih => exact (ih _).trans (by rw [books_setSlot]; rfl)

/-- `m` holds none of the targets. -/
def HoldsNone (s : State) (m : Master) : Prop := ∀ t, m ∉ ((books s).claim t).holders.map Holder.master

theorem HoldsNone.shrinks {s t : State} {m : Master} (h : HoldsNone s m) (k : Shrinks s t) : HoldsNone t m :=
  fun g l => h g (k g m l)

theorem claimsDeparture_sound {s : State} (m : Master) (h : Sound s) :
    Sound (claimsDeparture s m) ∧ Shrinks s (claimsDeparture s m) ∧ HoldsNone (claimsDeparture s m) m := by
  have main : ∀ (ts : List Target) (s : State), Sound s →
      let u := ts.foldl (fun s t => if s.isHolder t m then removeHolder s t m else s) s
      Sound u ∧ Shrinks s u ∧ ∀ t ∈ ts, m ∉ ((books u).claim t).holders.map Holder.master := by
    intro ts
    induction ts with
    | nil => exact fun s h => ⟨h, .refl s, nofun⟩
    | cons t ts ih =>
      intro s h
      have step : Sound (if s.isHolder t m then removeHolder s t m else s)
          ∧ Shrinks s (if s.isHolder t m then removeHolder s t m else s)
          ∧ m ∉ ((books (if s.isHolder t m then removeHolder s t m else s)).claim t).holders.map Holder.master := by
        split
        · rename_i g; exact removeHolder_sound h ((isHolder_iff s t m).mp g)
        · rename_i g; exact ⟨h, .refl s, fun k => g ((isHolder_iff s t m).mpr k)⟩
      obtain ⟨a, b, c⟩ := ih _ step.1
      refine ⟨a, step.2.1.trans b, fun x hx => ?_⟩
      rcases List.mem_cons.mp hx with rfl | hx
      · exact fun k => step.2.2 (b x m k)
      · exact c x hx
  obtain ⟨a, b, c⟩ := main allTargets s h
  refine ⟨a, b, fun t => c t ?_⟩
  cases t with
  | tb => simp [allTargets]
  | out o => refine List.mem_append_left _ (List.mem_map_of_mem (mem_allOutputs o))

theorem runPart_sound {s : State} (m : Master) (p : Part) (h : Sound s) :
    Sound (runPart m s p) ∧ Shrinks s (runPart m s p) := by
  cases p with
  | claims => exact ⟨(claimsDeparture_sound m h).1, (claimsDeparture_sound m h).2.1⟩
  | consent => exact consentDeparture_sound m h
  | queue o =>
    have w := queueDeparture_works s o m
    exact ⟨h.works w, .of_claim (w h.refs h.taken).claim⟩
  | profiles => exact ⟨profileDeparture_sound m h, .of_claim (claims_profileDeparture s m)⟩
  | strobe o =>
    have e := books_strobeDeparture s o m
    exact ⟨h.of_books e, .of_claim (by show (books (strobeDeparture s o m)).claim = _; rw [e])⟩

theorem runParts_sound {s : State} (m : Master) (ps : List Part) (h : Sound s) (hp : Part.claims ∈ ps) :
    Sound (ps.foldl (runPart m) s) ∧ HoldsNone (ps.foldl (runPart m) s) m := by
  have main : ∀ (ps : List Part) (s : State), Sound s →
      Sound (ps.foldl (runPart m) s) ∧ Shrinks s (ps.foldl (runPart m) s) := by
    intro ps
    induction ps with
    | nil => exact fun s h => ⟨h, .refl s⟩
    | cons p ps ih =>
      intro s h
      have a := runPart_sound m p h
      have b := ih _ a.1
      exact ⟨b.1, a.2.trans b.2⟩
  refine ⟨(main ps s h).1, ?_⟩
  obtain ⟨l, r, rfl⟩ := List.append_of_mem hp
  rw [List.foldl_append, List.foldl_cons]
  have a := (main l s h).1
  have b := claimsDeparture_sound m a
  exact b.2.2.shrinks (main r _ b.1).2

theorem mem_insertPart (p q : Nat × Part) (l : List (Nat × Part)) : q ∈ insertPart p l ↔ q = p ∨ q ∈ l := by
  induction l with
  | nil => simp [insertPart]
  | cons x l ih =>
    unfold insertPart
    split
    · simp
    · rw [List.mem_cons, ih, List.mem_cons]; tauto

/-- Every part runs, whatever the order. -/
theorem mem_departureOrder (rank : List Nat) {p : Part} (h : p ∈ allParts) : p ∈ departureOrder rank := by
  have main : ∀ (l acc : List (Nat × Part)) (q : Nat × Part), q ∈ l ∨ q ∈ acc →
      q ∈ l.foldl (fun l p => insertPart p l) acc := by
    intro l
    induction l with
    | nil => exact fun acc q h => h.elim nofun id
    | cons x l ih =>
      intro acc q h
      refine ih _ q ?_
      rcases h with h | h
      · rcases List.mem_cons.mp h with rfl | h
        · exact .inr ((mem_insertPart _ _ _).mpr (.inl rfl))
        · exact .inl h
      · exact .inr ((mem_insertPart _ _ _).mpr (.inr h))
  obtain ⟨i, hi, e⟩ := List.mem_iff_getElem.mp h
  unfold departureOrder
  refine List.mem_map.mpr ⟨(rank.getD i i, p), main _ _ _ (.inl (List.mem_map.mpr ⟨(p, i), ?_, rfl⟩)), rfl⟩
  rw [List.mem_zipIdx_iff_getElem?]
  simp [hi, e]

theorem books_flushLink (s : State) (m : Master) : books (flushLink s m) = books s :=
  books_setMaster _ _ _ rfl

/-- The master's record leaves; it holds nothing any more. -/
theorem monitorPart_sound {s : State} (m : Master) (reason : DepartReason) (h : Sound s) (hn : HoldsNone s m) :
    Sound (monitorPart s m reason) := by
  unfold monitorPart
  dsimp only
  refine Sound.of_books (s := s.setMaster m ((s.master m).depart reason)) ?_ ?_
  · refine ⟨h.refs.of_policies rfl rfl (fun _ => rfl) rfl, h.taken, h.reserved, ⟨fun t => ?_, h.claims.2⟩, h.table, h.held,
      h.voters, h.undecided⟩
    have c := h.claims.1 t
    refine ⟨c.free_iff, c.keep, c.one, c.nodup, fun x hx => ?_⟩
    have : x.master ≠ m := fun e => hn t (e ▸ List.mem_map_of_mem hx)
    show (s.setMaster m _).joined x.master = true
    rw [State.joined, State.master_setMaster_ne _ _ this]
    exact c.mem x hx
  · rw [books_handAll]
    cases reason <;> rfl

theorem depart_sound {s : State} (m : Master) (reason : DepartReason) (h : Sound s) : Sound (depart s m reason) := by
  have k := runParts_sound m (departureOrder s.partRank) h (mem_departureOrder _ (by simp [allParts]))
  unfold depart
  generalize (departureOrder s.partRank).foldl (runPart m) s = u at k
  refine monitorPart_sound m reason (k.1.of_books (books_flushLink u m)) fun t => ?_
  rw [books_flushLink]; exact k.2 t

theorem leaseExpires_sound {s : State} (m : Master) (h : Sound s) : Sound (leaseExpires s m) := by
  unfold leaseExpires
  split
  · exact h
  · split
    · exact firstExpiry_sound m _ h
    · exact depart_sound m .evicted (h.of_books (books_reach s _))
    · exact h
    · exact h

/-! ### Resets -/

/-- Nothing names a slot, nothing is claimed and nothing is proposed. -/
theorem sound_of_blank {s : State} (hc : ∀ o, s.chan o = .reset) (hs : ∀ k, (s.slot k).refs = 0)
    (hg : ∀ t, s.claim t = .reset) (hp : s.consent.proposals = []) : Sound s := by
  have v (o : Output) : (books s).view o = viewOf .reset [] := by
    show viewOf (s.chan o).sq (s.chan o).queue = _
    rw [hc]; rfl
  have pl (k : Slot) : (books s).places k = 0 := by
    rw [places_eq]
    have : (allOutputs.map fun o => names ((books s).view o) k
        + (((books s).claim (.out o)).policy == .fallback k).toNat) = allOutputs.map fun _ => 0 :=
      List.map_congr_left fun o _ => by
        rw [v o, show (books s).claim (.out o) = .reset from hg (.out o)]; rfl
    rw [this, show (books s).proposals = [] from hp]; rfl
  have ps : (books s).proposals = [] := hp
  refine ⟨⟨fun k => by rw [pl]; exact hs k, fun k hk => ?_, fun o k hk => ?_⟩, fun o => ?_, fun o => by rw [v o, ps]; rfl, ⟨fun t => ?_, ?_⟩,
    by rw [ps]; exact ⟨Nat.zero_le _, List.nodup_nil, List.nodup_nil⟩, by rw [ps]; nofun, by rw [ps]; nofun,
    by rw [ps]; nofun⟩
  · rw [show ((books s).slot k).refs = 0 from hs k] at hk; cases hk
  · rw [v o] at hk; cases hk
  · rw [v o]; exact ⟨nofun, rfl, rfl⟩
  · rw [show (books s).claim t = .reset from hg t]; exact claimOk_reset _
  · rw [show (books s).claim .tb = .reset from hg .tb]; exact ⟨rfl, nofun⟩

theorem externalReset_sound (s : State) : Sound (externalReset s) :=
  sound_of_blank (fun o => by simp [State.chan, externalReset, State.reset])
    (fun k => by
      show ((Vector.replicate 16 SlotRec.reset)[k.val]'k.isLt).refs = 0
      rw [Vector.getElem_replicate]; rfl)
    (fun t => by cases t <;> simp [State.claim, externalReset, State.reset]) rfl

theorem endReset_sound {s : State} (straps : Straps) (h : Sound s) : Sound (endReset s straps) := by
  refine h.of_books ?_
  unfold endReset
  rw [books_startUpPath]
  exact books_of_eq rfl rfl rfl rfl rfl rfl

theorem keepFixed_refs (r : SlotRec) : r.keepFixed.refs = 0 := by
  unfold SlotRec.keepFixed; split <;> rfl

theorem consentedReset_sound {s : State} (h : Sound s) : Sound (consentedReset s) := by
  unfold consentedReset
  split
  · refine Sound.of_books (s := consentedValues s) ?_ (books_startUpPath _ _ _ _)
    refine sound_of_blank (fun o => by simp [State.chan, consentedValues, State.reset]) (fun k => ?_)
      (fun t => by cases t <;> simp [State.claim, consentedValues, State.reset]) rfl
    show ((s.slots.map SlotRec.keepFixed)[k.val]'k.isLt).refs = 0
    rw [Vector.getElem_map]; exact keepFixed_refs _
  · exact h

/-! ### Link events and queries -/

@[simp] theorem books_receive (s : State) (m : Master) (f : Link → Link) : books (s.receive m f) = books s := by
  unfold State.receive; split <;> rfl

@[simp] theorem books_beginResponse (s : State) (m : Master) : books (beginResponse s m) = books s := by
  unfold beginResponse
  split
  · exact books_setMaster _ _ _ rfl
  · rfl

@[simp] theorem books_beginNotice (s : State) (m : Master) : books (beginNotice s m) = books s := by
  unfold beginNotice; split <;> rfl

@[simp] theorem books_endTransmission (s : State) (m : Master) : books (endTransmission s m) = books s := by
  unfold endTransmission; split <;> rfl

/-- A QUERY changes nothing. -/
theorem queryReply_state {s : State} {f : Frame} {r : Reply} (h : r.state = s) : (queryReply s f r).state = s := by
  unfold queryReply
  split
  · rfl
  · exact h

theorem answerPart_state (s : State) (p : Option (List Byte)) : (answerPart s p).state = s := by cases p <;> rfl

theorem queryProposal_state (s : State) (f : Frame) : (queryProposal s f).state = s :=
  queryReply_state (by split <;> rfl)

theorem profileRead_state (s : State) (f : Frame) : (profileRead s f).state = s := by
  unfold profileRead withSlot; split <;> rfl

end Sys2Proof.Laws
end

