-- ==== Sys2Proof/Laws/Openings.lean ====
section
/-! SUPPORT. What handing a request to the Consent Unit can do: `openProposal` satisfies `HandedOver`, the lemmas
that lead a request to it, and what it leaves of the claims. -/

namespace Sys2Proof.Laws

open Machine

/-- The new id is one of the values after the counter, and the ones before it are in use (R83). -/
theorem allocate_eq_iterate {used : List Nat} : ∀ (fuel n : Nat), ∃ j, j ≤ fuel ∧ allocate used fuel n = nextId^[j + 1] n
    ∧ ∀ i, i < j → nextId^[i + 1] n ∈ used
  | 0, _ => ⟨0, Nat.le_refl 0, rfl, fun _ h => absurd h (Nat.not_lt_zero _)⟩
  | fuel + 1, n => by
    unfold allocate
    split
    · rename_i g
      obtain ⟨j, hj, e, u⟩ := allocate_eq_iterate (used := used) fuel (nextId n)
      refine ⟨j + 1, Nat.succ_le_succ hj, e, fun i hi => ?_⟩
      cases i with
      | zero => exact List.contains_iff_mem.mp g
      | succ i => exact u i (Nat.lt_of_succ_lt_succ hi)
    · exact ⟨0, Nat.zero_le _, rfl, fun _ h => absurd h (Nat.not_lt_zero _)⟩

/-- With room in the Proposal Table the new id is the first free value after the counter, within five (R78, R83). -/
theorem newId_first_free {s : State} (h : s.consent.proposals.length < 4) :
    ∃ n, n ≤ 4 ∧ s.newId = nextId^[n + 1] s.consent.idCounter ∧ s.newId ∉ s.consent.proposals.map Proposal.id
      ∧ ∀ i, i < n → nextId^[i + 1] s.consent.idCounter ∈ s.consent.proposals.map Proposal.id := by
  obtain ⟨n, hn, e, u⟩ := allocate_eq_iterate (used := s.consent.proposals.map Proposal.id) 4 s.consent.idCounter
  exact ⟨n, hn, e, allocate_fresh (by rw [List.length_map]; omega) _, u⟩

theorem requiredFor_taken {s : State} {m : Master} (f : Frame) (hj : s.joined m = true) (w : Matter) :
    requiredFor (taken s m f) w m = match w.target with
      | some t => allMasters.filter fun j => s.isHolder t j && j != m
      | none => otherMembers s m := by
  unfold requiredFor otherMembers
  cases w.target
  · simp only [taken_joined s m f hj, Bool.and_comm]
  · simp only [taken_isHolder]

theorem windowOf_some {window units : Nat}
    (h : window = 0 ∧ units = 100 ∨ 10 ≤ window ∧ window ≤ 1000 ∧ units = window) : windowOf window = some units := by
  unfold windowOf
  rcases h with ⟨rfl, rfl⟩ | ⟨a, b, rfl⟩
  · rfl
  · rw [if_neg (by omega), if_pos ⟨a, b⟩]

theorem windowOf_none {window : Nat} (h : 1 ≤ window ∧ window ≤ 9 ∨ 1001 ≤ window) : windowOf window = none := by
  unfold windowOf
  rw [if_neg (by omega), if_neg (by omega)]

theorem appendEntry_of_room {s : State} {o : Output} (h : ¬4 ≤ (s.queue o).length) (e : Entry) :
    appendEntry s o e = (addEntryRef s e.kind).setQueue o ((addEntryRef s e.kind).queue o ++ [e]) :=
  if_neg fun g => h (of_decide_eq_true g)

theorem addRef_addRef (s : State) (k : Slot) :
    (s.addRef k).addRef k = s.setSlot k { s.slot k with refs := (s.slot k).refs + 2 } := by
  simp [State.addRef, State.setSlot, State.slot]

/-- What a change reserves (R84): two references on its payload and a RESERVED entry. -/
theorem reserve_change {s : State} {o : Output} (h : ¬4 ≤ (s.queue o).length) (k : Slot) (m : Master) (tag : Byte)
    (id : Nat) : reserve s (.outputChange o k) m tag id =
      (s.setSlot k { s.slot k with refs := (s.slot k).refs + 2 }).setQueue o
        (s.queue o ++ [⟨.change k, some (m, tag), .reserved, some id⟩]) := by
  have g : ¬4 ≤ ((s.addRef k).queue o).length := h
  simp only [reserve, Matter.payloadSlot, Matter.reserves, addRefOpt, appendEntry_of_room g, addEntryRef, addRef_addRef]
  rfl

/-- What a stop reserves (R84): a RESERVED entry. -/
theorem reserve_stop {s : State} {o : Output} (h : ¬4 ≤ (s.queue o).length) (m : Master) (tag : Byte) (id : Nat) :
    reserve s (.outputStop o) m tag id =
      s.setQueue o (s.queue o ++ [⟨.stop, some (m, tag), .reserved, some id⟩]) := by
  simp only [reserve, Matter.payloadSlot, Matter.reserves, addRefOpt, appendEntry_of_room h, addEntryRef]

theorem openProposal_handedOver {s : State} {m : Master} (f : Frame) (hj : s.joined m = true) (tag : Byte) (w : Matter)
    (window : Nat) : HandedOver s (taken s m f) m tag w window fun t code bytes =>
      openProposal (taken s m f) m tag w window = ⟨t, code, bytes⟩ := by
  refine ⟨fun h => ?_, fun units h => ⟨fun c => ?_, fun c full => ?_, fun c room short => ?_⟩⟩
  · simp only [openProposal, windowOf_none h]; rfl
  · have c' : ((taken s m f).proposalOn w.target).isSome = true := Option.isSome_iff_ne_none.mpr c
    simp only [openProposal, windowOf_some h, if_pos c']; rfl
  · have c' : ¬((taken s m f).proposalOn w.target).isSome = true := by
      rw [show (taken s m f).proposalOn w.target = none from c]; simp
    simp only [openProposal, windowOf_some h, if_neg c']
    split
    · rfl
    · rename_i g
      have k : reservationFull (taken s m f) w = true := by
        rcases full with l | l
        · exact absurd l g
        · cases w <;> exact decide_eq_true l
      rw [if_pos k]; rfl
  · have c' : ¬((taken s m f).proposalOn w.target).isSome = true := by
      rw [show (taken s m f).proposalOn w.target = none from c]; simp
    have g : ¬proposalLimit ≤ (taken s m f).consent.proposals.length := Nat.not_le.mpr room
    have empty : ¬reservationFull (taken s m f) w = true := by
      cases w <;> exact fun h => short (of_decide_eq_true h)
    obtain ⟨n, hn, e, fresh, used⟩ := newId_first_free (s := s) room
    refine ⟨n, hn, by rw [e] at fresh; exact fresh, used, ?_⟩
    simp only [openProposal, windowOf_some h, if_neg c', if_neg g, if_neg empty, requiredFor_taken f hj]
    rw [show (taken s m f).newId = s.newId from rfl, e]
    cases w with
    | outputChange o k => rw [reserve_change (s := taken s m f) short]; rfl
    | outputStop o => rw [reserve_stop (s := taken s m f) short]; rfl
    | _ => rfl

/-- `HandedOver` for what follows from each answer. -/
theorem handedOver_imp {s u : State} {m : Master} {tag : Byte} {w : Matter} {window : Nat}
    {ends ends' : State → ResultCode → List Byte → Prop} (h : HandedOver s u m tag w window ends)
    (g : ∀ t code bytes, ends t code bytes → ends' t code bytes) : HandedOver s u m tag w window ends' := by
  obtain ⟨bad, opens⟩ := h
  refine ⟨fun b => g _ _ _ (bad b), fun units hu => ?_⟩
  obtain ⟨conflict, full, done⟩ := opens units hu
  refine ⟨fun c => g _ _ _ (conflict c), fun c l => g _ _ _ (full c l), fun c l q => ?_⟩
  obtain ⟨n, hn, fresh, used, e⟩ := done c l q
  exact ⟨n, hn, fresh, used, g _ _ _ e⟩

/-- Opening a proposal of CLAIM_EXCLUSIVE leaves the claim records as they were (R67). -/
theorem claim_openProposal_exclusive (s : State) (m : Master) (tag : Byte) (t u : Target) (window : Nat) :
    (openProposal s m tag (.claimExclusive t) window).state.claim u = s.claim u := by
  unfold openProposal
  split
  · rfl
  · split_ifs
    · rfl
    · rfl
    · rfl
    · dsimp only
      rw [State.claim_handAll]
      cases u <;> rfl

/-- With other members the requester is not the only joined master (R170, R174). -/
theorem onlyJoined_taken {s : State} {m : Master} (f : Frame) (hj : s.joined m = true) (h : otherMembers s m ≠ []) :
    onlyJoined (taken s m f) m = false := by
  refine Bool.eq_false_iff.mpr fun g => h ?_
  simp only [onlyJoined, beq_iff_eq] at g
  unfold otherMembers
  refine List.filter_eq_nil_iff.mpr fun j hm => ?_
  have e : j ∈ (taken s m f).joinedMasters → j = m := by rw [g]; simp
  simp only [State.joinedMasters, List.mem_filter, hm, true_and, taken_joined s m f hj] at e
  rw [Bool.and_eq_true, bne_iff_ne]
  exact fun k => k.1 (e k.2)

end Sys2Proof.Laws
end

