-- ==== Sys2Proof/Laws/Operands.lean ====
section
/-! SUPPORT. Operand fields read back: a field that holds a number of its list decodes to it, and one outside its list
is refused; the slot a request may name; the links of the state in which a request is taken. -/

namespace Sys2Proof.Laws

open Machine

@[simp] theorem coded_val {k : Nat} (i : Fin k) : coded k i.val = some i := by simp [coded]

theorem coded_of_le {k n : Nat} (h : k ≤ n) : coded k n = none := by
  rw [coded, dif_neg (Nat.not_lt.mpr h)]

@[simp] theorem outputOf_val (o : Output) : outputOf o.val = some o := coded_val o

theorem outputOf_of_le {n : Nat} (h : 8 ≤ n) : outputOf n = none := coded_of_le h

@[simp] theorem slotOf_val (k : Slot) : slotOf k.val = some k := coded_val k

theorem slotOf_of_le {n : Nat} (h : 16 ≤ n) : slotOf n = none := coded_of_le h

@[simp] theorem masterOf_val (m : Master) : masterOf m.val = some m := coded_val m

theorem masterOf_of_le {n : Nat} (h : 4 ≤ n) : masterOf n = none := coded_of_le h

@[simp] theorem targetOf_out (o : Output) : targetOf o.val = some (.out o) := by
  have : o.val ≠ 8 := by omega
  simp [targetOf, this]

@[simp] theorem targetOf_number (t : Target) : targetOf t.number = some t := by
  cases t
  · exact targetOf_out _
  · rfl

@[simp] theorem levelOf_number (l : ReportLevel) : levelOf l.number = some l := by cases l <;> rfl

@[simp] theorem sourceOf_number (src : Source) : sourceOf (Source.number src) = some src := by cases src <;> rfl

theorem withOutput_val {s : State} {n : Nat} {o : Output} (h : n = o.val) (act : Output → Reply) :
    withOutput s n act = act o := by
  simp only [withOutput, h, outputOf_val]

theorem withOutput_of_lt {s : State} {n : Nat} (h : 7 < n) (act : Output → Reply) :
    withOutput s n act = refuse s .badValue := by
  simp only [withOutput, outputOf_of_le h]

theorem withSlot_val {s : State} {f : Frame} {k : Slot} (h : byteAt f.payload 0 = k.val) (act : Slot → Reply) :
    withSlot s f act = act k := by
  simp only [withSlot, h, slotOf_val]

/-- A slot number that names a FIXED slot may be named by a request (R11). -/
theorem fixedSlotOf_of_fixed {s : State} {k : Slot} (h : (s.slot k).state = .fixedSlot) :
    fixedSlotOf s k.val = some k := by
  simp [fixedSlotOf, State.isFixed, h]

theorem fixedSlotOf_of_not_fixed {s : State} {k : Slot} (h : (s.slot k).state ≠ .fixedSlot) :
    fixedSlotOf s k.val = none := by
  simp [fixedSlotOf, State.isFixed, h]

/-- A slot field that names no FIXED slot (R11). -/
theorem fixedSlotOf_of_none {s : State} {n : Nat} (h : ∀ k : Slot, n = k.val → (s.slot k).state ≠ .fixedSlot) :
    fixedSlotOf s n = none := by
  by_cases l : n < 16
  · exact fixedSlotOf_of_not_fixed (k := ⟨n, l⟩) (h ⟨n, l⟩ rfl)
  · simp only [fixedSlotOf, slotOf_of_le (Nat.not_lt.mp l)]; rfl

theorem isHolder_of_isSole {s : State} {t : Target} {m : Master} (h : s.isSole t m = true) :
    s.isHolder t m = true := by
  simp only [State.isSole, beq_iff_eq] at h
  simp [State.isHolder, h]

/-- Taking a frame leaves every notice queue as it was. -/
@[simp] theorem taken_link_queue (s : State) (m j : Master) (f : Frame) :
    ((taken s m f).link j).queue = (s.link j).queue := by
  by_cases e : j = m <;> simp [taken, popped, e]

@[simp] theorem popped_link_queue (s : State) (m j : Master) : ((popped s m).link j).queue = (s.link j).queue := by
  by_cases e : j = m <;> simp [popped, e]

end Sys2Proof.Laws
end

