-- ==== Sys2Proof/Laws/Owners.lean ====
section
/-! SUPPORT. The owners of the requests on outputs, bursts, the timebase, rounds and queries, and of the events, are
`Inner`. -/

namespace Sys2Proof.Laws

open Machine

theorem refuse_inner (s : State) (c : ResultCode) : Inner s (refuse s c).state := .refl s

theorem withOutput_inner {s : State} {n : Nat} {act : Output → Reply} (h : ∀ o, Inner s (act o).state) :
    Inner s (withOutput s n act).state := by
  unfold withOutput
  split
  · exact .refl s
  · exact h _

/-! ### Outputs -/

theorem changeSole_inner (s : State) (m : Master) (tag : Byte) (o : Output) (k : Slot) :
    Inner s (changeSole s m tag o k).state := by
  unfold changeSole
  split
  · exact bind_inner _ _ _
  · exact bind_inner _ _ _
  · exact bind_inner _ _ _
  · exact .refl s
  · split
    · exact .refl s
    · exact appendEntry_inner _ _ _

theorem changeRequest_inner (s : State) (m : Master) (f : Frame) : Inner s (changeRequest s m f).state := by
  refine withOutput_inner fun o => ?_
  split
  · exact .refl s
  · split
    · exact .refl s
    · split
      · exact changeSole_inner _ _ _ _ _
      · exact openProposal_inner _ _ _ _ _

theorem stopSole_inner (s : State) (m : Master) (tag : Byte) (o : Output) :
    Inner s (stopSole s m tag o).state := by
  unfold stopSole
  split
  · split
    · exact .refl s
    · exact appendEntry_inner _ _ _
  · exact returnToBound_inner _ _
  · exact .refl s
  · exact .refl s
  · exact .refl s

theorem stopRequest_inner (s : State) (m : Master) (f : Frame) : Inner s (stopRequest s m f).state := by
  refine withOutput_inner fun o => ?_
  split
  · exact .refl s
  · split
    · exact stopSole_inner _ _ _ _
    · exact openProposal_inner _ _ _ _ _

theorem startRequest_inner (s : State) (m : Master) (f : Frame) : Inner s (startRequest s m f).state := by
  unfold startRequest
  split
  · exact .refl s
  · refine withOutput_inner fun o => ?_
    split
    · exact .refl s
    · split
      · exact openProposal_inner _ _ _ _ _
      · split
        · exact enterWaiting_inner _ _
        · exact .refl s

theorem setWaiting_inner (s : State) (os : List Output) : Inner s (setWaiting s os) :=
  .foldl _ (fun _ _ => setSq_inner _ _ _) os s

theorem handMoves_inner (s : State) (moved starting : List Output) : Inner s (handMoves s moved starting) := by
  refine .foldl _ (fun s o => ?_) allOutputs s
  dsimp only
  have h : Inner s (if moved.contains o then outputNotice s o .bound else s) := by
    split
    · exact outputNotice_inner _ _ _
    · exact .refl s
  split
  · exact h.trans (startOne_inner _ _)
  · exact h

theorem groupStartRequest_inner (s : State) (m : Master) (f : Frame) : Inner s (groupStartRequest s m f).state := by
  unfold groupStartRequest
  split
  · exact .refl s
  · split
    · exact .refl s
    · dsimp only
      split
      · exact .refl s
      · exact (setWaiting_inner _ _).trans (handMoves_inner _ _ _)

theorem cutRequest_inner (s : State) (m : Master) (f : Frame) : Inner s (cutRequest s m f).state := by
  refine withOutput_inner fun o => ?_
  dsimp only
  split
  · exact .refl s
  · split
    · exact .refl s
    · split
      · exact .refl s
      · split
        · exact .refl s
        · exact (dropCut_inner _ _ _).trans (setSq_inner _ _ _)

theorem outputSetRequest_inner (s : State) (m : Master) (f : Frame) : Inner s (outputSetRequest s m f).state := by
  refine withOutput_inner fun o => ?_
  dsimp only
  split
  · split
    · exact .refl s
    · split
      · exact .refl s
      · split
        · exact .refl s
        · exact setSq_inner _ _ _
  · exact .refl s

/-! ### Bursts -/

theorem burstRequest_inner (s : State) (m : Master) (f : Frame) : Inner s (burstRequest s m f).state := by
  refine withOutput_inner fun o => ?_
  split
  · unfold burstTake
    repeat' split
    all_goals first | exact .refl s | exact setBurst_inner _ _ _
  · exact .refl s

theorem burstEndRequest_inner (s : State) (m : Master) (f : Frame) : Inner s (burstEndRequest s m f).state := by
  refine withOutput_inner fun o => ?_
  split
  · exact .refl s
  · split
    · exact finishBurst_inner _ _ _ _
    · split
      · exact .refl s
      · exact .refl s

/-! ### The timebase -/

theorem clockRequest_inner (s : State) (m : Master) (f : Frame) : Inner s (clockRequest s m f).state := by
  unfold clockRequest
  dsimp only
  split
  · exact .refl s
  · split
    · exact .refl s
    · split
      · split
        · exact takeClock_inner _ _ _ _
        · exact openProposal_inner _ _ _ _ _
      · exact .refl s

theorem setTable_inner (s : State) (t : SourceTable) : Inner s { s with table := t } where
  pending := rfl
  freeCount := Nat.le_refl _
  synPhase _ := rfl
  partRank := rfl
  resetLow := rfl
  straps := rfl
  now := Nat.le_refl _
  link _ := ⟨rfl, rfl, rfl, rfl, rfl⟩
  notices _ h := h
  master _ := rfl
  slot _ := rfl
  entries h := h
  table h := h
  fse h := h

theorem setXoEntry_inner (s : State) (e : XoEntry) : Inner s (setXoEntry s e) := by
  unfold setXoEntry
  dsimp only
  split
  · exact ((setTable_inner _ _).trans (setContext_inner _ _ _)).trans (settleXo_inner _)
  · exact (setTable_inner _ _).trans (settleXo_inner _)

theorem setRefEntry_inner (s : State) (d : Detector) (e : RefEntry) : Inner s (setRefEntry s d e) := by
  unfold setRefEntry
  split
  · exact .refl s
  · exact (setTable_inner _ _).trans (detectorRestart_inner _ _)

theorem sourceSetRef_inner (s : State) (m : Master) (d : Detector) (p : List Byte) :
    Inner s (sourceSetRef s m d p).state := by
  unfold sourceSetRef
  split
  · exact .refl s
  · split
    · exact .refl s
    · split
      · exact .refl s
      · exact setRefEntry_inner _ _ _

theorem sourceSetXo_inner (s : State) (m : Master) (p : List Byte) : Inner s (sourceSetXo s m p).state := by
  unfold sourceSetXo
  split
  · exact .refl s
  · split
    · exact .refl s
    · split
      · exact .refl s
      · exact setXoEntry_inner _ _

theorem sourceSetRequest_inner (s : State) (m : Master) (f : Frame) : Inner s (sourceSetRequest s m f).state := by
  unfold sourceSetRequest
  split
  · exact .refl s
  · exact .refl s
  · exact sourceSetXo_inner _ _ _
  · exact sourceSetRef_inner _ _ _ _
  · exact sourceSetRef_inner _ _ _ _

theorem lock_inner (s : State) (cur : Selection) (hf : s.straps.fse = false) (hr : s.resetLow = false) :
    Inner s (s.setTbu { s.tbu with lock := some cur }) := by
  refine setTbu_inner _ _ fun h => ⟨fun e => ?_, h.2.1, fun e => ?_⟩
  · exact absurd (e.symm.trans hf) (by decide)
  · exact absurd (e.symm.trans hr) (by decide)

/-! ### Rounds and queries -/

theorem voteRequest_inner (s : State) (m : Master) (f : Frame) : Inner s (voteRequest s m f).state := by
  unfold voteRequest
  split
  · exact .refl s
  · split
    · exact .refl s
    · split
      · exact .refl s
      · split
        · exact .refl s
        · split
          · exact (updateProposal_inner _ _ _).trans (carryIfAgreed_inner _ _)
          · exact endProposal_inner _ _ _

theorem withdrawRequest_inner (s : State) (m : Master) (f : Frame) : Inner s (withdrawRequest s m f).state := by
  unfold withdrawRequest
  split
  · exact .refl s
  · split
    · exact endProposal_inner _ _ _
    · exact .refl s

theorem proposalLapses_inner (s : State) (id : Nat) : Inner s (proposalLapses s id) := by
  unfold proposalLapses
  split
  · exact .refl s
  · exact (reach_inner _ _).trans (endProposal_inner _ _ _)

theorem relayRequest_inner (s : State) (m : Master) (f : Frame) : Inner s (relayRequest s m f).state := by
  unfold relayRequest
  split
  · exact .refl s
  · split_ifs
    · exact .refl s
    · exact .refl s
    · exact handMarked_inner _ _ _ _

/-! ### Standby, wake and reset -/

theorem standbyRequest_inner (s : State) (m : Master) (f : Frame) : Inner s (standbyRequest s m f).state := by
  unfold standbyRequest
  split
  · rw [okay_state]; exact enterStandby_inner _
  · exact openProposal_inner _ _ _ _ _

theorem resumeOutputs_inner (s : State) (marked : List Output) : Inner s (resumeOutputs s marked) :=
  (setWaiting_inner _ _).trans (handMoves_inner _ _ _)

theorem wakeMarks_inner (s : State) (marked : List Output) :
    Inner s (marked.foldl (fun s o => s.setSq o (s.sq o).wake) s) := .foldl _ (fun _ _ => setSq_inner _ _ _) marked s

theorem wakeRequest_inner (s : State) : Inner s (wakeRequest s).state := by
  unfold wakeRequest
  split
  · exact ((wakeMarks_inner _ _).trans (startUpPath_inner _ _ _ _)).trans (resumeOutputs_inner _ _)
  · exact .refl s

theorem deviceResetRequest_inner (s : State) (m : Master) (f : Frame) : Inner s (deviceResetRequest s m f).state := by
  unfold deviceResetRequest
  split
  · exact takeReset_inner s
  · exact openProposal_inner _ _ _ _ _

/-! ### The start-up path from a state that is not yet lawful -/

/-- A switch begins by entering the state that carries it; the rest is `Inner`. -/
theorem beginSwitch_from_state (s : State) (st : TbuState) (sw : Switch) (ended : Option Switch) :
    Inner (s.setTbu { s.tbu with state := st }) (beginSwitch s st sw ended) :=
  (((settleClocks_inner _).trans (endNotice_inner _ _ _)).trans (switchNotice_inner _ _ _)).trans (progress_inner _)

/-- The start-up path begins by entering a state other than LOST; the rest is `Inner` (R168). -/
theorem startUpPath_from_state (s : State) (sel : Selection) (origin : SwitchOrigin) (two : Bool) :
    ∃ st, st ≠ .lost ∧ Inner (s.setTbu { s.tbu with state := st }) (startUpPath s sel origin two) := by
  unfold startUpPath
  dsimp only
  split
  · exact ⟨_, by simp, settleClocks_inner _⟩
  · split
    · exact ⟨_, by simp, beginSwitch_from_state _ _ _ _⟩
    · exact ⟨_, by simp, beginSwitch_from_state _ _ _ _⟩

/-- After the start-up path the FSE law stands, if FAIL and the lock are clear before it (R120, R129, R168). -/
theorem fseLaw_startUpPath (s : State) (sel : Selection) (origin : SwitchOrigin) (two : Bool)
    (hr : s.resetLow = false) (hf : s.tbu.fail = false) (hl : s.tbu.lock = none) :
    FseLaw (startUpPath s sel origin two) := by
  obtain ⟨st, hs, h⟩ := startUpPath_from_state s sel origin two
  refine h.fse ⟨fun _ => ⟨hs, hl⟩, fun _ => hf, fun e => ?_⟩
  exact absurd (e.symm.trans hr) (by decide)

end Sys2Proof.Laws
end

