-- ==== Sys2Proof/Tests/Slice0.lean ====
section
/-! SUPPORT. Small tests: ill-formed commands, the check sequence, single commands on one small hub, and for each
statement of Certificates/Slice0/Obligations.lean a theorem that meets its hypotheses, clause by clause. -/

namespace Sys2Proof.Tests

open Machine

/-! ### A small hub -/

def rec (st : MasterState) : MasterRec := ⟨st, some 100, some 5000, some (3, 1), none, false⟩

def geo : Geometry := ⟨64, 5, 40, 2, 3, 10, 2, 50⟩

def fixed (owner : Option Master) (refs : Nat) : SlotRec := ⟨.fixedSlot, owner, refs, geo, none⟩

/-- An output in RUNNING on slot 1, in the given line of an emitted frame. -/
def runs (line : Nat) : OutRec := { OutRec.reset with state := .running, current := some 1, line := line }

/-- The same output, its line having lasted its LP ticks. -/
def ends (line : Nat) : OutRec := { runs line with lineEnd := true }

/-- M0 and M1 are joined, M2 is ABSENT, M3 EVICTED. M0 holds TB and T0, T1, T2 alone, M1 holds T6 alone, both share T3.
T1 is BOUND and T2 runs, on slot 1. Slots 1, 4 and 5 are FIXED, 2 and 3 OPEN. The timebase is IRC direct and FSE is 1. -/
def hub : State :=
  { State.reset with
    resetLow := false
    straps := ⟨0, false, true⟩
    tbu := { Tbu.reset with state := .running ⟨.irc, none⟩ }
    tbClaim := ⟨.exclusive, [⟨0, .none⟩], .keep⟩
    masters := #v[rec .joined, rec .joined, .reset, rec .evicted]
    slots := #v[.reset, fixed (some 0) 2, ⟨.openSlot, some 0, 0, geo, none⟩,
      ⟨.openSlot, some 1, 0, { geo with fd := 0 }, none⟩, fixed none 0, fixed (some 1) 1, .reset, .reset, .reset, .reset,
      .reset, .reset, .reset, .reset, .reset, .reset]
    chans := #v[.reset, ⟨{ OutRec.reset with state := .bound, current := some 1 }, [], none⟩, ⟨runs 0, [], none⟩, .reset,
      .reset, .reset, .reset, .reset]
    outClaims := #v[⟨.exclusive, [⟨0, .all⟩], .keep⟩, ⟨.exclusive, [⟨0, .all⟩], .keep⟩, ⟨.exclusive, [⟨0, .all⟩], .keep⟩,
      ⟨.shared, [⟨0, .all⟩, ⟨1, .none⟩], .keep⟩, .reset, .reset, ⟨.shared, [⟨1, .none⟩], .fallback 5⟩, .reset] }

/-- The hub with a frame at the head of the receive buffer of `m`. -/
def asks (s : State) (m : Master) (kind : Byte) (p : List Byte) : State :=
  s.setLink m { s.link m with buf := [⟨kind, 7, p⟩] }

/-- The frame is admitted from `m`. -/
abbrev admits (s : State) (m : Master) (kind : Byte) (p : List Byte) : Prop :=
  Admitted (asks s m kind p) m kind ⟨kind, 7, p⟩

/-- The notices queued for a master, oldest first. -/
def told (s : State) (m : Master) : List Notice := (s.link m).queue.map Queued.notice

/-- What the command answers, as a flag. -/
def goes (c : Instr) (s t : State) : Bool :=
  match exec c s with
  | .next u => u == t
  | .fault _ => false
  | .refused _ => false

/-- The state after the command. -/
def after (c : Instr) (s : State) : State :=
  match exec c s with
  | .next u => u
  | .fault _ => s
  | .refused _ => s

/-- The code that the command's response carries, and its payload. -/
def code (c : Instr) (m : Master) (s : State) : Option (ResultCode × List Byte) :=
  ((after c s).link m).slot.map fun r => (r.code, r.payload)

/-- The hub with one START proposal open on each of the outputs, by its id, and the id counter. -/
def busy (counter : Nat) (ps : List (Nat × Output)) : State :=
  { hub with consent := ⟨ps.map fun x => ⟨x.1, .outputStart x.2, 0, 7, [1], [], 9000⟩, counter⟩ }

/-- The hub with three START proposals open, none on T3, that hold the three ids after the counter. -/
def three : State := busy 254 [(255, 0), (1, 1), (2, 2)]

/-- The hub with four entries in the queue of T3. -/
def fullT3 : State := hub.setQueue 3 (List.replicate 4 ⟨.stop, some (0, 7), .queued, none⟩)

/-! ### Well-formed commands -/

theorem test_wf_refuses_a_flag_among_the_characters : Instr.wf (.frameClose 0 [0x01, 0xA5, 0x02]) = false := by decide
theorem test_wf_takes_other_characters : Instr.wf (.frameClose 0 [0x01, 0xA6, 0x85]) = true := by decide
theorem test_wf_refuses_deadline_of_id_0 : Instr.wf (.proposalDeadline 0) = false := by decide
theorem test_wf_refuses_deadline_of_id_256 : Instr.wf (.proposalDeadline 256) = false := by decide
theorem test_wf_takes_deadline_of_ids_1_and_255 :
    Instr.wf (.proposalDeadline 1) = true ∧ Instr.wf (.proposalDeadline 255) = true := by decide

/-- No row of the table gives bits. -/
theorem test_no_word_spells_a_command : decodeTableWord 8 1 = none ∧ State.withFetchWord hub 8 1 = hub := by decide

/-! ### The check sequence and escaping -/

/-- The check value of this cyclic check over the digits 1 to 9. -/
theorem test_crc_of_the_digits : crc [0x31, 0x32, 0x33, 0x34, 0x35, 0x36, 0x37, 0x38, 0x39] = 0x29B1 := by decide +kernel

theorem test_flag_and_escape_are_escaped : escape [0x01, 0xA5, 0xA6, 0x02] = [0x01, 0xA6, 0x85, 0xA6, 0x86, 0x02] := by
  decide

/-- The clauses of `HandedOver`: windows on both sides of its bounds; a proposal open on the target; four open, or a full
queue; and a free id, the first value after the counter or one behind three in use, across 255. -/
theorem met_HandedOver :
    (wordAt [3, 4, 1, 0] 2 = 1 ∧ wordAt [3, 4, 9, 0] 2 = 9 ∧ wordAt [3, 4, 0xE9, 3] 2 = 1001)
    ∧ (wordAt [3, 4, 0, 0] 2 = 0 ∧ wordAt [3, 4, 10, 0] 2 = 10 ∧ wordAt [3, 4, 0xE8, 3] 2 = 1000)
    ∧ ((busy 1 [(1, 3)]).proposalOn (some (.out 3)) ≠ none
      ∧ (busy 1 [(1, 3)]).proposalOn (some (.out 4)) = none ∧ (busy 1 [(1, 3)]).proposalOn none = none)
    ∧ (let s := busy 4 [(1, 0), (2, 1), (3, 2), (4, 4)]
       s.proposalOn (some (.out 3)) = none ∧ 4 ≤ s.consent.proposals.length)
    ∧ (fullT3.proposalOn (some (.out 3)) = none ∧ fullT3.consent.proposals.length < 4 ∧ 4 ≤ (fullT3.queue 3).length)
    ∧ (three.proposalOn (some (.out 3)) = none ∧ three.consent.proposals.length < 4 ∧ ¬4 ≤ (three.queue 3).length
      ∧ three.newId = 3 ∧ three.newId ∉ three.consent.proposals.map Proposal.id)
    ∧ (hub.proposalOn (some (.out 3)) = none ∧ hub.newId = 1) := by decide

/-! ### Single commands -/

/-- The EXTERNAL_RESET_END of a part with INITSEL 1 and TWOSPD 1 starts the XO from IRC. -/
theorem test_reset_end_two_speed :
    (after (.externalResetEnd 1 true true) State.reset).tbu.state
      = .switching ⟨.irc, none⟩ ⟨⟨.xo, none⟩, .startUp, none⟩ 1000000
    ∧ (after (.externalResetEnd 1 true true) State.reset).tbu.xo = .starting 0 := by decide

theorem test_keepalive_frame_is_received :
    (after (.frameClose 0 ([0xA5] ++ escape ([0x03, 0x07] ++ crcBytes [0x03, 0x07]))) hub).link 0
      = { hub.link 0 with rx := .assembling [] false, buf := [⟨0x03, 0x07, []⟩] } := by decide +kernel

/-- A command whose frame is not there changes nothing. -/
theorem test_request_without_a_frame : goes (.keepalive 0) hub hub = true := by decide

theorem test_change_binds_the_idle_output :
    ((after (.change 0) (asks hub 0 0x0C [0, 4, 0, 0])).sq 0).state = .bound
    ∧ ((after (.change 0) (asks hub 0 0x0C [0, 4, 0, 0])).slot 4).refs = 1 := by decide

theorem test_start_runs_at_once :
    ((after (.start 0) (asks hub 0 0x0E [0, 1, 0, 0])).sq 1).state = .running
    ∧ ((after (.start 0) (asks hub 0 0x0E [0, 1, 0, 0])).link 0).queue.length = 2 := by decide

theorem test_last_line_start_is_a_boundary :
    goes (.lineStart 2) (hub.setSq 2 (ends 39)) (hub.setSq 2 (ends 39)) = true
    ∧ ((after (.frameBoundary 2) (hub.setSq 2 (ends 39))).sq 2).phase = 1 := by decide

/-- A line does not end before its LP ticks; the tick that completes them makes it end, and the next step ends it. -/
theorem test_line_lasts_its_ticks :
    let s := hub.setSq 2 { runs 5 with tick := 63 }
    goes (.lineStart 2) s s = true ∧ (idle s).sq 2 = { ends 5 with tick := 63 } ∧ (idle (idle s)).sq 2 = runs 6 := by
  decide

/-- P 1, M 5, Q 2: 5 ticks take 2 cycles of IRC time. -/
theorem test_synthesized_ticks :
    let s := hub.setTbu { hub.tbu with state := .running ⟨.irc, some ⟨1, 5, 2⟩⟩ }
    let t := idle (idle (idle (idle (idle s))))
    t.now = s.now + 2 ∧ (t.sq 2).tick = 5 ∧ t.synPhase = 0 := by decide

/-- The part left by an M of 230 is read modulo the M in force: with P 5, M 48, Q 4 the tick passes no cycle or one. -/
theorem test_synthesized_part_is_below_a_cycle :
    let s (n : Nat) : State :=
      { hub with synPhase := n, tbu := { hub.tbu with state := .running ⟨.irc, some ⟨5, 48, 4⟩⟩ } }
    (idle (s 228)).now = (s 228).now + 1 ∧ (idle (s 228)).synPhase = 8
    ∧ (idle (s 27)).now = (s 27).now ∧ (idle (s 27)).synPhase = 47 := by decide

/-- A lock draws its phase, whatever an earlier selection has left. -/
theorem test_lock_draws_its_phase :
    (synthLocks { hub with synPhase := 228 }).synPhase = Config.lockPhase hub.freeCount := rfl

/-- A loss of lock while the lock of a target is in progress: the context is invalid, and the lock goes on. -/
theorem test_loss_of_lock_while_locking :
    let s (st : TbuState) := hub.setTbu
      { hub.tbu with state := st, synth := .locking true 7, ctx := hub.tbu.ctx.set .xo (some ⟨5, 60, 4⟩) }
    let sw : Switch := ⟨⟨.xo, some ⟨5, 60, 4⟩⟩, .startUp, none⟩
    (after .lossOfLock (s (.preparing sw 9))).tbu.ctx.xo = none
    ∧ (after .lossOfLock (s (.preparing sw 9))).tbu.synth = .locking true 7
    ∧ (after .lossOfLock (s (.switching ⟨.irc, none⟩ sw 9))).tbu.ctx.xo = none := by decide

/-- A shared CHANGE with proposals open on other targets: the new id skips those in use, and the window is that asked. -/
theorem test_opening_beside_other_proposals :
    let t := after (.change 0) (asks three 0 0x0C [3, 4, 0xE8, 3])
    t.consent.proposals.map Proposal.id = [255, 1, 2, 3] ∧ t.consent.idCounter = 3
    ∧ (t.consent.proposals.map Proposal.deadline).getLast? = some (hub.now + tenMs 1000)
    ∧ (t.slot 4).refs = 2 ∧ (told t 1).length = 1
    ∧ code (.change 0) 0 (asks three 0 0x0C [3, 4, 0xE8, 3]) = some (.proposed, [3]) := by decide

/-- The windows on both sides of the bounds of R80. -/
theorem test_windows :
    let w (a b : Byte) := (code (.change 0) 0 (asks hub 0 0x0C [3, 4, a, b])).map Prod.fst
    w 0 0 = some .proposed ∧ w 1 0 = some .badValue ∧ w 9 0 = some .badValue ∧ w 10 0 = some .proposed
    ∧ w 0xE8 3 = some .proposed ∧ w 0xE9 3 = some .badValue ∧ w 0xFF 0xFF = some .badValue := by decide

theorem test_burst_over_the_duty_cap :
    (((after (.burst 0) (asks hub 0 0x11 [2, 1, 0, 3, 2, 0, 0, 0, 0])).link 0).slot.map Response.code) = some .duty := by
  decide

/-- 4,000 edges more than the 100,000 of 10 MHz over 200,000 cycles of a 20 MHz XO are 40,000 ppm. -/
theorem test_gate_timed_by_the_xo : xoTimed 10000 20000 104000 200000 = .ppm 40000 := by decide

theorem test_gate_out_of_range : xoTimed 10000 20000 105001 200000 = .outOfRange ∧ xoTimed 10000 20000 0 200000 = .noEdges := by
  decide

/-- P 2, M 48, Q 4 from 10,000 kHz: 5,000 kHz compared, 240,000 kHz VCO, 60,000 kHz out. -/
theorem test_settings_at_their_lower_vco_limit :
    settingsValid 10000 ⟨2, 48, 4⟩ = true ∧ settingsValid 9999 ⟨2, 48, 4⟩ = false := by decide

/-! ### Hypotheses met: the machine and its resets -/

theorem met_IdleStepTakesALineEndOrAClockEdge :
    (State.reset.pending = [] ∧ State.reset.resetLow = true) ∧ (hub.pending = [] ∧ hub.resetLow = false)
    ∧ (LineDue (hub.setSq 2 (ends 5)) 2 ∧ ∀ p, p < 2 → ¬LineDue (hub.setSq 2 (ends 5)) p) ∧ (∀ o, ¬LineDue hub o)
    ∧ (hub.sq 0).live = false ∧ (hub.sq 2).live = true ∧ hub.tbu.state.current = some ⟨.irc, none⟩
    ∧ (hub.sq 2).tick + 1 < (hub.geom 2).lp
    ∧ (hub.geom 2).lp ≤ ((hub.setSq 2 { runs 5 with tick := 63 }).sq 2).tick + 1
    ∧ (hub.setTbu { hub.tbu with state := .lost }).tbu.state.current = none
    ∧ (hub.setTbu { hub.tbu with state := .running ⟨.irc, some ⟨1, 5, 2⟩⟩ }).tbu.state.current
        = some ⟨.irc, some ⟨1, 5, 2⟩⟩
    ∧ (hub.setTbu { hub.tbu with state := .running ⟨.exa, none⟩ }).tbu.state.current = some ⟨.exa, none⟩
    ∧ (hub.setTbu { hub.tbu with xo := .starting 8191 }).tbu.xo = .starting 8191 := by decide

theorem met_ResetEndStartsThePath :
    after .externalReset hub = { State.reset with
      pending := hub.pending, freeCount := hub.freeCount, synPhase := hub.synPhase, partRank := hub.partRank,
      now := hub.now }
    ∧ hub.resetLow = false := by decide

theorem met_DeviceResetIsTakenOrProposed :
    (admits (hub.setMaster 1 .reset) 0 0x1A [0, 0] ∧ otherMembers (hub.setMaster 1 .reset) 0 = [])
    ∧ (admits hub 0 0x1A [9, 0] ∧ otherMembers hub 0 ≠ [] ∧ wordAt [9, 0] 0 = 9)
    ∧ (admits three 0 0x1A [0xE8, 3] ∧ otherMembers three 0 ≠ [] ∧ three.proposalOn none = none) := by decide

/-- A proposal of M0 with M1 to vote. -/
def roundOn (w : Matter) : Proposal := ⟨1, w, 0, 7, [1], [], 9000⟩

/-- M1's ACCEPT of the one proposal open, at the head of its receive buffer. -/
def lastVote (s : State) (w : Matter) : State :=
  asks { s with consent := ⟨[roundOn w], 1⟩ } 1 0x16 [1, 0]

/-- Each kind of proposal is carried by such a vote. -/
theorem met_LastVote (s : State) (w : Matter)
    (h : s.masters = hub.masters ∧ s.links = hub.links ∧ s.resetTaken = false ∧ s.resetLow = false) :
    LastVote (lastVote s w) 1 ⟨0x16, 7, [1, 0]⟩ (roundOn w) := by
  obtain ⟨hm, hl, ht, hr⟩ := h
  refine ⟨⟨⟨ht, hr, ?_, ?_⟩, rfl, rfl, ?_, fun _ => rfl⟩, rfl, rfl, by simp [roundOn], by simp [roundOn], rfl⟩ <;>
    simp [lastVote, asks, State.joined, State.link, State.master, State.setLink, hm, hl] <;> rfl

theorem met_ConsentedResetKeepsWhatIsLearned :
    let s : State := { hub with resetTaken := true }
    s.resetTaken = true ∧ s.resetLow = false ∧ s.closingLeft = 0
    ∧ (s.slot 1).state = .fixedSlot ∧ (s.slot 0).state ≠ .fixedSlot ∧ (s.slot 2).state ≠ .fixedSlot := by decide

/-! ### Hypotheses met: links -/

/-- The hub with link 0 in the given receiver state, holding `n` frames. -/
def line (rx : Receiver) (n : Nat) : State :=
  hub.setLink 0 { hub.link 0 with rx := rx, buf := List.replicate n ⟨0x03, 0, []⟩ }

theorem met_EveryFrameArrivesIntact :
    let s := line (.assembling [] false) 1
    s.resetLow = false ∧ (s.link 0).rx = .assembling [] false ∧ (s.link 0).buf.length < 2
    ∧ (List.replicate 38 (0xA5 : Byte)).length ≤ 38 := by decide

theorem met_BadFramesAreCountedAndDiscarded :
    let full := line (.assembling [] false) 2
    let s := line (.assembling [] false) 1
    (full.resetLow = false ∧ (full.link 0).rx = .assembling [] false ∧ 2 ≤ (full.link 0).buf.length)
    ∧ (s.resetLow = false ∧ (s.link 0).rx = .assembling [] false ∧ (s.link 0).buf.length < 2)
    ∧ ([1, 2, 3] : List Byte).length < 4 ∧ 42 < (List.replicate 43 (1 : Byte)).length
    ∧ ([3, 7, 0, 0] : List Byte) ≠ [] ∧ ([3, 7, 0, 0] : List Byte).drop 2 ≠ crcBytes [3, 7] := by decide +kernel

theorem met_AbortsAndFlags :
    hub.resetLow = false ∧ ((line .hunting 0).link 0).rx = .hunting
    ∧ ((line (.assembling [1] true) 0).link 0).rx = .assembling [1] true
    ∧ ((line (.assembling [] false) 0).link 0).rx = .assembling [] false
    ∧ goes (.frameClose 0 (escape [0xA6, 0xA5] ++ [0xA6])) (line (.assembling [] false) 0)
        ((line (.assembling [] false) 0).setLink 0
          { (line (.assembling [] false) 0).link 0 with stats := ⟨0, 0, 1, 0⟩ }) = true := by decide

/-- The hub with a response of M0 behind `ahead` notices, and `n` notices queued. -/
def sends (ahead n : Nat) : State :=
  hub.setLink 0 { hub.link 0 with
    slot := some ⟨0x03, 7, .ok, [], .joined, ahead, false⟩
    queue := List.replicate n ⟨.relay 1 [9], false⟩ }

theorem met_ResponseGoesOutWithTheDroppedFlag :
    ((sends 0 0).link 0).tx = .free false
    ∧ ((sends 0 0).link 0).slot = some ⟨0x03, 7, .ok, [], .joined, 0, false⟩ := by decide

theorem met_OldestNoticeGoesOut :
    (((sends 1 1).link 0).tx = .free false ∧ ((sends 1 1).link 0).queue = [⟨.relay 1 [9], false⟩]
      ∧ ∀ r, ((sends 1 1).link 0).slot = some r → 0 < r.ahead)
    ∧ ((after (.noticeTransmit 0) (sends 1 1)).link 0).tx
      = .sending [0xCC, 0, 1, 9] (lineChars false [0xCC, 0, 1, 9]) false
          (250 * (lineChars false [0xCC, 0, 1, 9]).length) := by
  refine ⟨⟨by decide, by decide, fun r h => ?_⟩, by decide +kernel⟩
  have e : ((sends 1 1).link 0).slot = some ⟨0x03, 7, .ok, [], .joined, 1, false⟩ := by decide
  rw [e] at h; cases h; decide

/-! ### Hypotheses met: requests and leases -/

set_option synthInstance.maxSize 1024 in
theorem met_AdmissionRefusesInOrder :
    (Instr.request (.stop 0) = some (0, 0x0D) ∧ Offered (asks hub 0 0x0D []) 0 ⟨0x0D, 7, []⟩ ∧ hub.joined 0 = true
      ∧ lengthAllowed (0x0D : Byte).toNat 0 = false)
    ∧ (Offered (asks hub 2 0x0D []) 2 ⟨0x0D, 7, []⟩ ∧ hub.joined 2 = false)
    ∧ (Offered (asks hub 2 0x0D [0, 0, 0]) 2 ⟨0x0D, 7, [0, 0, 0]⟩ ∧ (hub.master 2).state = .absent
      ∧ lengthAllowed (0x0D : Byte).toNat 3 = true)
    ∧ (Offered (asks hub 3 0x0D [0, 0, 0]) 3 ⟨0x0D, 7, [0, 0, 0]⟩ ∧ (hub.master 3).state = .evicted)
    ∧ (let s := hub.setTbu { hub.tbu with state := .standby ⟨.irc, none⟩ }
       Offered (asks s 0 0x0D [0, 0, 0]) 0 ⟨0x0D, 7, [0, 0, 0]⟩ ∧ s.joined 0 = true
         ∧ s.tbu.state.isStandby = true ∧ admittedInStandby (0x0D : Byte).toNat = false)
    ∧ Offered (asks hub 0 0x1C []) 0 ⟨0x1C, 7, []⟩ ∧ 0x1B < (0x1C : Byte).toNat
    ∧ Offered (asks hub 2 0 []) 2 ⟨0, 7, []⟩ ∧ hub.joined 2 = false := by decide

theorem met_Takes :
    Takes (.stop 0) 0 ⟨0x0D, 7, []⟩ ∧ Takes (.start 0) 0 ⟨0x0E, 7, [0, 1, 0, 0]⟩
    ∧ Takes (.groupStart 0) 0 ⟨0x0E, 7, [1, 1]⟩ ∧ Takes (.queryLink 2) 2 ⟨0x04, 7, [6, 0, 0]⟩
    ∧ Takes (.queryDevice 2) 2 ⟨0x04, 7, [6]⟩ ∧ lengthAllowed (0x0E : Byte).toNat 2 = false
    ∧ lengthAllowed (0x04 : Byte).toNat 1 = false :=
  ⟨.inl rfl, .inr (.inl ⟨rfl, rfl, by decide⟩), .inr (.inr (.inl ⟨rfl, rfl, by decide⟩)),
    .inr (.inr (.inr ⟨6, rfl, rfl, .inr (by decide)⟩)), .inr (.inr (.inr ⟨0, rfl, rfl, .inl (by decide)⟩)),
    by decide, by decide⟩

theorem met_KeepaliveRenewsTheLease : admits hub 0 0x03 [] := by decide

theorem met_JoinSetsTheLease :
    (Offered (asks hub 2 0x01 [5]) 2 ⟨0x01, 7, [5]⟩ ∧ hub.joined 2 = false)
    ∧ (Offered (asks hub 0 0x01 [250]) 0 ⟨0x01, 7, [250]⟩ ∧ hub.joined 0 = true)
    ∧ (Offered (asks hub 3 0x01 [4]) 3 ⟨0x01, 7, [4]⟩ ∧ hub.joined 3 = false)
    ∧ Offered (asks hub 0 0x01 [251]) 0 ⟨0x01, 7, [251]⟩ := by decide

/-- The hub with a proposal open on T3 that reserves a change to slot 4. -/
def lawful : State :=
  { (hub.setQueue 3 [⟨.change 4, some (0, 7), .reserved, some 1⟩]).setSlot 4 (fixed none 2) with
    consent := ⟨[⟨1, .outputChange 3 4, 0, 7, [1], [], 9000⟩], 1⟩ }

set_option synthInstance.maxSize 1024 in
theorem lawful_keeps_its_laws : RecordLaws lawful := by
  have untaken (o : Output) (e : Entry) (h : (lawful.queue o).head? = some e) : e.state ≠ .taken := by
    have q : ∀ o, (lawful.queue o).head?.all (fun e => e.state != .taken) = true := by decide
    simpa [h] using q o
  refine ⟨⟨by decide, by decide, fun o c h => ?_⟩, fun o => ⟨?_, fun k => ?_, ?_⟩,
    fun o => by revert o; decide, ⟨fun t => ?_, by decide, by decide⟩, by decide, by decide, by decide, ?_⟩
  · simp [show ∀ o, (lawful.sq o).cut = none by decide] at h
  · revert o; decide
  · rw [show (lawful.sq o).next = none by revert o; decide]
    exact ⟨nofun, fun ⟨e, h, t, _⟩ => absurd t (untaken o e h)⟩
  · exact ⟨fun h => absurd h (by revert o; decide), fun ⟨e, h, t, _⟩ => absurd t (untaken o e h)⟩
  · cases t with
    | out o => revert o; decide
    | tb => decide
  · intro p h
    obtain rfl : p = ⟨1, .outputChange 3 4, 0, 7, [1], [], 9000⟩ := List.mem_singleton.mp h
    refine ⟨fun t h => ?_, by decide, by decide, by decide, by decide, by decide⟩
    obtain rfl : Target.out 3 = t := Option.some.inj h
    decide

/-- The hub in which M1 holds nothing and owns nothing. -/
def spare : State := ((hub.setClaim (.out 3) .reset).setClaim (.out 6) .reset).setSlot 3 .reset |>.setSlot 5 .reset

/-- That a master is involved in nothing, target by target. -/
theorem uninvolved (s : State) (m : Master)
    (h : (∀ o, s.isHolder (.out o) m = false) ∧ s.isHolder .tb m = false
      ∧ (∀ p ∈ s.consent.proposals, p.proposer ≠ m ∧ m ∉ p.required)
      ∧ (∀ o, ∀ e ∈ s.queue o, e.state = .queued → e.origin.map Prod.fst ≠ some m)
      ∧ (∀ o, (s.sq o).cut.map PendingCut.origin ≠ some m) ∧ (∀ o, (s.burst o).map Burst.origin ≠ some m)
      ∧ ∀ k, (s.slot k).owner ≠ some m) : Uninvolved s m := by
  obtain ⟨hout, htb, hrest⟩ := h
  refine ⟨fun t => ?_, hrest⟩
  cases t with
  | out o => exact hout o
  | tb => exact htb

theorem spare_uninvolved : Uninvolved spare 1 := uninvolved _ _ (by decide)

/-- The state in which the parts of M1's departure are applied: to a LEAVE, or to a second expiry. -/
def departs (s : State) (left : Bool) : State :=
  if left then taken (asks s 1 0x02 []) 1 ⟨0x02, 7, []⟩ else { s.setMaster 1 (rec .lapsing) with now := 5000 }

/-- A CONTINUOUS burst of M1's. -/
def hers : Burst := ⟨.continuous 1 1, 1, 7, .nextLine, .on, 1, 1, 0⟩

/-- A QUEUED STOP of M1's. -/
def herStop : Entry := ⟨.stop, some (1, 7), .queued, none⟩

/-- M1 is involved in one kind of thing: profiles, a burst, QUEUED entries, a pending cut. -/
theorem met_PartsDone (left : Bool) :
    (let s := departs ((spare.setSlot 2 ⟨.openSlot, some 1, 0, geo, none⟩).setSlot 5 (fixed (some 1) 1)) left
     (s.slot 2).owner = some 1 ∧ Uninvolved { s with slots := s.slots.map fun r => withoutOwner r 1 } 1)
    ∧ (let s := departs (spare.setBurst 2 (some hers)) left
       s.burst 2 = some hers ∧ hers.origin = 1 ∧ Uninvolved (s.setBurst 2 none) 1)
    ∧ (let s := departs (spare.setQueue 2 [herStop]) left
       let its (e : Entry) : Bool := e.state == .queued && e.origin.map Prod.fst == some 1
       (s.queue 2).filter its = [herStop] ∧ Uninvolved (s.setQueue 2 ((s.queue 2).filter fun e => !its e)) 1)
    ∧ (let s := departs (spare.setSq 2 { runs 0 with cut := some ⟨4, 1, 7⟩ }) left
       (s.sq 2).cut = some ⟨4, 1, 7⟩ ∧ Uninvolved (s.setSq 2 { s.sq 2 with cut := none }) 1) := by
  cases left <;>
    refine ⟨⟨by decide, ?_⟩, ⟨by decide, by decide, uninvolved _ _ (by decide)⟩,
      ⟨by decide, uninvolved _ _ (by decide)⟩, by decide, uninvolved _ _ (by decide)⟩ <;>
    exact uninvolved _ _ ⟨by decide, by decide, by decide, by decide, by decide, by decide, fun k => by
      rw [show ∀ (s : State) f, ({ s with slots := s.slots.map f } : State).slot k = f (s.slot k) from fun s f => by
        simp [State.slot]]
      revert k; decide⟩

/-- M1 is involved in claims without a round, alone and with others. -/
theorem met_PartsDone_claims (left : Bool) :
    let s := departs ((spare.setClaim (.out 3) (hub.claim (.out 3))).setClaim (.out 7) ⟨.exclusive, [⟨1, .all⟩], .keep⟩) left
    (s.isHolder (.out 3) 1 = true ∧ s.proposalOn (some (.out 3)) = none
      ∧ ¬∀ h ∈ (s.claim (.out 3)).holders, h.master = 1)
    ∧ (s.isHolder (.out 7) 1 = true ∧ s.proposalOn (some (.out 7)) = none ∧ (s.claim (.out 7)).policy = .keep)
    ∧ Uninvolved (allTargets.foldl
        (fun u t => if s.isHolder t 1 then u.setClaim t (withoutHolder (s.claim t) 1) else u) s) 1 := by
  cases left <;> exact ⟨by decide, by decide, uninvolved _ _ (by decide)⟩

/-- M1 holds one target with a round on it, or alone with a policy; the cases of `HolderGone` are those of RELEASE. -/
theorem met_PartsDone_holder (left : Bool) :
    (let s := departs { (spare.setClaim (.out 3) (hub.claim (.out 3))).setQueue 3
          [⟨.change 4, some (1, 7), .reserved, some 1⟩] with
        consent := ⟨[⟨1, .outputChange 3 4, 1, 7, [0], [], 9000⟩], 1⟩ } left
     let u := (s.setClaim (.out 3) { s.claim (.out 3) with
       holders := (s.claim (.out 3)).holders.filter fun h => h.master != 1 }).setProposals
         (s.consent.proposals.filter fun x => s.proposalOn (some (.out 3)) != some x)
     s.isHolder (.out 3) 1 = true ∧ (s.proposalOn (some (.out 3))).map Proposal.proposer = some 1 ∧ Uninvolved u 1)
    ∧ (let s := departs (spare.setClaim (.out 2) ⟨.exclusive, [⟨1, .all⟩], .stop⟩) left
       let u := (s.setClaim (.out 2) { s.claim (.out 2) with
         holders := (s.claim (.out 2)).holders.filter fun h => h.master != 1 }).setProposals
           (s.consent.proposals.filter fun x => s.proposalOn (some (.out 2)) != some x)
       s.isHolder (.out 2) 1 = true ∧ s.queue 2 = [] ∧ Uninvolved u 1) := by
  cases left <;>
    exact ⟨⟨by decide, by decide, uninvolved _ _ (by decide)⟩, by decide, by decide, uninvolved _ _ (by decide)⟩

/-- M1's vote is the last one awaited for a change of T3, or of a CLAIM_EXCLUSIVE of it, that M0 proposed. -/
theorem met_PartsDone_carries (left : Bool) :
    let s (w : Matter) (q : List Entry) := departs { (spare.setClaim (.out 3) (hub.claim (.out 3))).setQueue 3 q with
        consent := ⟨[⟨1, w, 0, 7, [1], [], 9000⟩], 1⟩ } left
    let u (s : State) := (s.setClaim (.out 3) { s.claim (.out 3) with
      holders := (s.claim (.out 3)).holders.filter fun h => h.master != 1 }).setProposals
        (s.consent.proposals.filter fun x => s.proposalOn (some (.out 3)) != some x)
    let change := s (.outputChange 3 4) [⟨.change 4, some (0, 7), .reserved, some 1⟩]
    let claim := s (.claimExclusive (.out 3)) []
    (change.isHolder (.out 3) 1 = true ∧ Uninvolved (u change) 1
      ∧ ∀ o, ∀ e ∈ change.queue o, e.origin.map Prod.fst ≠ some 1)
    ∧ (claim.isHolder (.out 3) 1 = true ∧ Uninvolved (u claim) 1
      ∧ (0 : Master) ∈ ((claim.claim (.out 3)).holders.filter fun h => h.master != 1).map Holder.master) := by
  cases left <;>
    exact ⟨⟨by decide, uninvolved _ _ (by decide), by decide⟩, by decide, uninvolved _ _ (by decide), by decide⟩

/-- M1 has a round on DEVICE open, is one of two voters of one, or the last voter of one, which carries. -/
theorem met_PartsDone_device (left : Bool) :
    (let p : Proposal := ⟨1, .standby, 1, 7, [0], [], 9000⟩
     let s := departs { spare with consent := ⟨[p], 1⟩ } left
     s.proposal p.id = some p ∧ p.proposer = 1
       ∧ Uninvolved (s.setProposals (s.consent.proposals.filter fun x => x.id != p.id)) 1)
    ∧ (let p : Proposal := ⟨1, .standby, 0, 7, [1, 2], [], 9000⟩
       let s := departs { spare with consent := ⟨[p], 1⟩ } left
       let without (x : Proposal) : Proposal :=
         { x with required := x.required.filter (· != 1), accepted := x.accepted.filter (· != 1) }
       s.proposal p.id = some p ∧ p.proposer ≠ 1 ∧ 1 ∈ p.required ∧ (without p).accepted ≠ (without p).required
         ∧ Uninvolved (s.setProposals (s.consent.proposals.map fun x => if x.id == p.id then without x else x)) 1)
    ∧ ∀ w, w = .standby ∨ w = .deviceReset →
      let p : Proposal := ⟨1, w, 0, 7, [1, 2], [2], 9000⟩
      let s := departs { spare with consent := ⟨[p], 1⟩ } left
      let without (x : Proposal) : Proposal :=
        { x with required := x.required.filter (· != 1), accepted := x.accepted.filter (· != 1) }
      s.proposal p.id = some p ∧ p.matter.target = none ∧ 1 ∈ p.required ∧ (without p).accepted = (without p).required
        ∧ Uninvolved (s.setProposals (s.consent.proposals.map fun x => if x.id == p.id then without x else x)) 1
        ∧ AlignLaw s := by
  cases left <;>
    refine ⟨⟨by decide, by decide, uninvolved _ _ (by decide)⟩,
      ⟨by decide, by decide, by decide, by decide, uninvolved _ _ (by decide)⟩, fun w h => ?_⟩ <;>
    rcases h with rfl | rfl <;>
    exact ⟨by decide, by decide, by decide, by decide, uninvolved _ _ (by decide), fun _ _ _ e => by cases e⟩

theorem met_LeaveEndsMembership :
    (admits hub 1 0x02 [] ∧ admits spare 1 0x02 [] ∧ Uninvolved spare 1)
    ∧ admits lawful 1 0x02 [] ∧ RecordLaws (asks lawful 1 0x02 []) :=
  ⟨⟨by decide, by decide, spare_uninvolved⟩, by decide, lawful_keeps_its_laws⟩

/-- The hub with `n` notices queued for M0. -/
def queues (n : Nat) : State := hub.setLink 0 { hub.link 0 with queue := List.replicate n ⟨.relay 1 [9], false⟩ }

/-- The queue with room for one more, the full one, and masters that are not joined. -/
theorem met_FirstExpiryWarns :
    (hub.master 0).state = .joined ∧ (hub.master 0).timer = some 5000 ∧ (hub.master 0).period = some 100
    ∧ (((queues 15).master 0).state = .joined ∧ ((queues 15).link 0).queue.length < 16)
    ∧ (((queues 16).master 0).timer = some 5000 ∧ 16 ≤ ((queues 16).link 0).queue.length)
    ∧ (queues 16).joined 0 = true ∧ hub.joined 2 = false ∧ hub.joined 3 = false := by decide

/-- A warning dropped at 16 sets the flag, and one queued behind 15 does not. -/
theorem test_warning_at_a_full_queue :
    ((after (.leaseExpiry 0) (queues 16)).link 0 = (queues 16).link 0
      ∧ ((after (.leaseExpiry 0) (queues 16)).master 0).dropped = true)
    ∧ ((told (after (.leaseExpiry 0) (queues 15)) 0).drop 15 = [.leaseWarning (some (3, 1)) 100]
      ∧ ((after (.leaseExpiry 0) (queues 15)).master 0).dropped = false) := by decide

theorem met_SecondExpiryEvicts :
    let s := spare.setMaster 1 (rec .lapsing)
    ((s.master 1).state = .lapsing ∧ (s.master 1).timer = some 5000 ∧ (s.master 1).period = some 100)
    ∧ Uninvolved s 1
    ∧ (let s := lawful.setMaster 0 (rec .lapsing)
       (s.master 0).state = .lapsing ∧ s.joined 0 = true ∧ RefLaw s ∧ TakenLaw s) :=
  ⟨by decide, spare_uninvolved, by decide, by decide, lawful_keeps_its_laws.1, lawful_keeps_its_laws.2.1⟩

/-! ### Hypotheses met: queries and profiles -/

/-- A proposal of M0 on STANDBY, with M1 to vote. -/
def round : Proposal := ⟨1, .standby, 0, 7, [1], [], 9000⟩

def inRound : State := { hub with consent := ⟨[round], 1⟩ }

set_option synthInstance.maxSize 1024 in
theorem met_QueriesReadState :
    Offered (asks hub 0 0x04 [0, 0, 0]) 0 ⟨0x04, 7, [0, 0, 0]⟩
    ∧ (Offered (asks hub 0 0x04 [7, 0, 0]) 0 ⟨0x04, 7, [7, 0, 0]⟩ ∧ Instr.query (.queryLink 0) = some (0, 6)
      ∧ 6 < (7 : Byte).toNat)
    ∧ Offered (asks hub 2 0x04 [1, 7, 3]) 2 ⟨0x04, 7, [1, 7, 3]⟩
    ∧ Offered (asks hub 0 0x04 [1, 8, 0]) 0 ⟨0x04, 7, [1, 8, 0]⟩ ∧ 8 ≤ (8 : Byte).toNat ∧ 4 ≤ (4 : Byte).toNat
    ∧ Offered (asks hub 0 0x04 [2, 0, 0]) 0 ⟨0x04, 7, [2, 0, 0]⟩
    ∧ (Offered (asks hub 0 0x04 [2, 9, 3]) 0 ⟨0x04, 7, [2, 9, 3]⟩ ∧ Offered (asks hub 0 0x04 [2, 9, 4]) 0 ⟨0x04, 7, [2, 9, 4]⟩)
    ∧ (Offered (asks hub 0 0x04 [3, 3, 0]) 0 ⟨0x04, 7, [3, 3, 0]⟩ ∧ (3 : Byte).toNat = Source.number .exb)
    ∧ (Offered (asks hub 0 0x04 [3, 4, 0]) 0 ⟨0x04, 7, [3, 4, 0]⟩ ∧ 3 < (4 : Byte).toNat)
    ∧ (Offered (asks inRound 0 0x04 [4, 1, 0]) 0 ⟨0x04, 7, [4, 1, 0]⟩ ∧ inRound.proposal 1 = some round
      ∧ inRound.proposal 2 = none)
    ∧ Offered (asks hub 0 0x04 [5, 3, 0]) 0 ⟨0x04, 7, [5, 3, 0]⟩
    ∧ Offered (asks hub 0 0x04 [5, 4, 0]) 0 ⟨0x04, 7, [5, 4, 0]⟩
    ∧ Offered (asks hub 0 0x04 [6, 0, 0]) 0 ⟨0x04, 7, [6, 0, 0]⟩
    ∧ admits hub 0 0x08 [15] ∧ byteAt [15] 0 = (15 : Slot).val
    ∧ admits hub 0 0x08 [16] ∧ 16 ≤ byteAt [16] 0 := by decide

theorem met_RelayChecksAndDelivers :
    (admits hub 0 0x1B [4, 9] ∧ 3 < byteAt [4, 9] 0)
    ∧ (admits hub 0 0x1B [3, 9] ∧ byteAt [3, 9] 0 = (3 : Master).val ∧ hub.joined 3 = false)
    ∧ (admits (sends 0 0 |>.setLink 1 { hub.link 1 with queue := List.replicate 16 ⟨.relay 0 [9], false⟩ }
        |>.setLink 0 (hub.link 0)) 0 0x1B [1, 9])
    ∧ (hub.joined 1 = true ∧ (hub.link 1).queue.length < 16) := by decide

theorem met_ProfileWriteStoresADraft :
    let p : List Byte := [64, 0, 5, 0, 40, 0, 2, 3, 0, 10, 0, 2, 50]
    (admits hub 0 0x05 (16 :: p) ∧ 16 ≤ byteAt (16 :: p) 0)
    ∧ (admits hub 0 0x05 (0 :: p) ∧ (hub.slot 0).state = .emptySlot)
    ∧ (admits hub 0 0x05 (2 :: p) ∧ (hub.slot 2).state = .openSlot ∧ (hub.slot 2).owner = some 0)
    ∧ (admits hub 0 0x05 (3 :: p) ∧ (hub.slot 3).state = .openSlot ∧ (hub.slot 3).owner ≠ some 0)
    ∧ (admits hub 0 0x05 (1 :: p) ∧ (hub.slot 1).state = .fixedSlot) := by decide

theorem met_ProfileFixChecksTheGeometry :
    (admits hub 0 0x06 [16] ∧ 16 ≤ byteAt [16] 0)
    ∧ (admits hub 0 0x06 [2] ∧ (hub.slot 2).state = .openSlot ∧ (hub.slot 2).owner = some 0
      ∧ goes (.profileFix 0) (asks hub 0 0x06 [2]) (answered ((taken (asks hub 0 0x06 [2]) 0 ⟨0x06, 7, [2]⟩).setSlot 2
        (fixed (some 0) 0)) 0 ⟨0x06, 7, [2]⟩ .ok []) = true)
    ∧ (admits hub 1 0x06 [3] ∧ (hub.slot 3).owner = some 1 ∧ ¬ 1 ≤ (hub.slot 3).geom.fd
      ∧ goes (.profileFix 1) (asks hub 1 0x06 [3])
        (answered (taken (asks hub 1 0x06 [3]) 1 ⟨0x06, 7, [3]⟩) 1 ⟨0x06, 7, [3]⟩ .badValue [7]) = true)
    ∧ (admits hub 0 0x06 [3] ∧ (hub.slot 3).owner ≠ some 0)
    ∧ (admits hub 0 0x06 [1] ∧ (hub.slot 1).state ≠ .openSlot) := by decide

set_option synthInstance.maxSize 1024 in
theorem met_ProfileFreeProtectsNamedSlots :
    (admits hub 0 0x07 [16] ∧ 16 ≤ byteAt [16] 0)
    ∧ (admits hub 0 0x07 [0] ∧ (hub.slot 0).state = .emptySlot)
    ∧ (admits hub 0 0x07 [3] ∧ (hub.slot 3).state ≠ .emptySlot ∧ (hub.slot 3).owner = some 1)
    ∧ (admits hub 0 0x07 [2] ∧ (hub.slot 2).state = .openSlot ∧ (hub.slot 2).owner = some 0)
    ∧ (admits hub 0 0x07 [1] ∧ (hub.slot 1).state = .fixedSlot ∧ (hub.slot 1).owner = some 0 ∧ 0 < (hub.slot 1).refs)
    ∧ (admits hub 0 0x07 [4] ∧ (hub.slot 4).state = .fixedSlot ∧ (hub.slot 4).owner = none ∧ (hub.slot 4).refs = 0
      ∧ ∀ o, (hub.sq o).cut = none) := by decide

/-! ### Hypotheses met: claims -/

set_option synthInstance.maxSize 1024 in
theorem met_ClaimTakesATarget :
    (admits hub 0 0x09 [9, 0, 0, 0, 0, 0, 0] ∧ admits hub 0 0x09 [8, 2, 0, 0, 0, 0, 0]
      ∧ admits hub 0 0x09 [7, 0, 3, 0, 0, 0, 0] ∧ admits hub 0 0x09 [7, 0, 0, 3, 0, 0, 0]
      ∧ 8 < byteAt [9] 0 ∧ 1 < byteAt [8, 2] 1 ∧ 2 < byteAt [7, 0, 3] 2 ∧ 2 < byteAt [7, 0, 0, 3] 3)
    ∧ (admits (hub.setClaim .tb .reset) 0 0x09 [8, 1, 0, 0, 0, 0, 0] ∧ ((hub.setClaim .tb .reset).claim .tb).mode = .free)
    ∧ (admits hub 0 0x09 [7, 0, 2, 0, 0, 0, 0] ∧ (hub.claim (.out 7)).mode = .free ∧ byteAt [7, 0, 2] 2 = ReportLevel.all.number)
    ∧ admits hub 0 0x09 [7, 1, 0, 1, 0, 0, 0]
    ∧ (admits hub 0 0x09 [7, 1, 1, 2, 4, 0, 0] ∧ (hub.slot 4).state = .fixedSlot)
    ∧ (∀ k : Slot, byteAt [7, 1, 1, 2, 15, 0, 0] 4 = k.val → (hub.slot k).state ≠ .fixedSlot)
    ∧ (admits hub 0 0x09 [7, 1, 1, 2, 16, 0, 0]
      ∧ ∀ k : Slot, byteAt [7, 1, 1, 2, 16, 0, 0] 4 = k.val → (hub.slot k).state ≠ .fixedSlot)
    ∧ (admits hub 0 0x09 [6, 0, 2, 2, 0, 0, 0] ∧ (hub.claim (.out 6)).mode = .shared ∧ hub.isHolder (.out 6) 0 = false)
    ∧ (admits hub 1 0x09 [0, 1, 0, 0, 0, 0, 0] ∧ (hub.claim (.out 0)).mode = .exclusive ∧ hub.isHolder (.out 0) 1 = false)
    ∧ (admits hub 1 0x09 [6, 1, 2, 0, 0, 0, 0] ∧ (hub.claim (.out 6)).holders = [⟨1, .none⟩])
    ∧ (admits hub 0 0x09 [3, 0, 1, 0, 0, 0, 0] ∧ (hub.claim (.out 3)).mode = .shared ∧ hub.isHolder (.out 3) 0 = true)
    ∧ (admits hub 0 0x09 [0, 0, 1, 0, 0, 0, 0] ∧ hub.isHolder (.out 0) 0 = true
      ∧ byteAt [0, 0, 1, 0, 0, 0, 0] 1 = Bool.toNat false)
    ∧ (admits three 0 0x09 [3, 1, 1, 0, 0, 10, 0] ∧ (three.claim (.out 3)).mode = .shared
      ∧ three.isSole (.out 3) 0 = false ∧ wordAt [3, 1, 1, 0, 0, 10, 0] 5 = 10)
    ∧ (admits hub 0 0x09 [6, 1, 1, 0, 0, 0, 0] ∧ hub.isSole (.out 6) 0 = false)
    ∧ (let s := hub.setClaim .tb ⟨.shared, [⟨1, .none⟩], .keep⟩
       admits s 0 0x09 [8, 0, 0, 0, 0, 0, 0] ∧ (s.claim .tb).mode = .shared ∧ s.isHolder .tb 0 = false
         ∧ s.isSole .tb 0 = false ∧ s.isHolder .tb 1 = true) := by decide

set_option synthInstance.maxSize 1024 in
theorem met_ClaimSetReplacesThePolicy :
    (admits hub 0 0x0A [8, 0, 0] ∧ 7 < byteAt [8, 0, 0] 0)
    ∧ (admits hub 1 0x0A [6, 3, 0] ∧ 2 < byteAt [6, 3, 0] 1)
    ∧ (admits hub 0 0x0A [6, 0, 0] ∧ hub.isHolder (.out 6) 0 = false)
    ∧ (admits hub 0 0x0A [3, 2, 0] ∧ hub.isHolder (.out 3) 0 = true ∧ hub.isSole (.out 3) 0 = false)
    ∧ (admits hub 1 0x0A [6, 2, 16] ∧ hub.isSole (.out 6) 1 = true
      ∧ ∀ k : Slot, byteAt [6, 2, 16] 2 = k.val → (hub.slot k).state ≠ .fixedSlot)
    ∧ (admits hub 1 0x0A [6, 2, 4] ∧ (hub.slot 4).state = .fixedSlot)
    ∧ admits hub 1 0x0A [6, 0, 0] ∧ admits hub 1 0x0A [6, 1, 0] := by decide

/-- The hub in which M0 holds T`o` alone with the policy `pol`. -/
def alone (s : State) (o : Output) (pol : Policy) : State := s.setClaim (.out o) ⟨.shared, [⟨0, .none⟩], pol⟩

/-- The hub with a proposal on T3. -/
def onT3 (w : Matter) (proposer : Master) (required accepted : List Master) : State :=
  { hub with consent := ⟨[⟨1, w, proposer, 7, required, accepted, 9000⟩], 1⟩ }

set_option synthInstance.maxSize 1024 in
theorem met_ReleaseRemovesTheHolder :
    (admits hub 0 0x0B [9] ∧ 8 < byteAt [9] 0)
    ∧ (admits hub 1 0x0B [8] ∧ byteAt [8] 0 = Target.number .tb ∧ hub.isHolder .tb 1 = false)
    ∧ (admits hub 0 0x0B [3] ∧ byteAt [3] 0 = Target.number (.out 3) ∧ hub.isHolder (.out 3) 0 = true
      ∧ hub.proposalOn (some (.out 3)) = none ∧ ((hub.claim (.out 3)).holders.filter fun h => h.master != 0) ≠ [])
    ∧ (admits hub 0 0x0B [8] ∧ byteAt [8] 0 = Target.number .tb ∧ hub.isHolder .tb 0 = true
      ∧ hub.proposalOn (some .tb) = none ∧ ((hub.claim .tb).holders.filter fun h => h.master != 0) = []
      ∧ (hub.claim .tb).policy = .keep)
    ∧ (admits (alone hub 2 .stop) 0 0x0B [2] ∧ ((alone hub 2 .stop).claim (.out 2)).policy = .stop
      ∧ (hub.sq 2).state = .running ∧ ((hub.queue 2).filter fun e => e.state != .queued).length < 4)
    ∧ (let s := alone (hub.setSq 2 { hub.sq 2 with state := .waiting }) 2 .stop
       admits s 0 0x0B [2] ∧ (s.sq 2).state = .waiting)
    ∧ (admits (alone hub 1 .stop) 0 0x0B [1] ∧ (hub.sq 1).state ≠ .running ∧ (hub.sq 1).state ≠ .waiting)
    ∧ (admits (alone hub 2 (.fallback 4)) 0 0x0B [2] ∧ ((alone hub 2 (.fallback 4)).claim (.out 2)).policy = .fallback 4)
    ∧ (admits (alone hub 1 (.fallback 4)) 0 0x0B [1] ∧ (hub.sq 1).state ≠ .stopping)
    ∧ (let s := onT3 (.outputStart 3) 0 [1] []
       admits s 0 0x0B [3] ∧ s.proposalOn (some (.out 3)) = s.proposal 1 ∧ (s.proposal 1).map Proposal.proposer = some 0)
    ∧ (let s := (onT3 (.outputStart 3) 0 [1] []).setClaim (.out 3) ⟨.shared, [⟨0, .none⟩], .keep⟩
       admits s 0 0x0B [3] ∧ ((s.claim (.out 3)).holders.filter fun h => h.master != 0) = [])
    ∧ (let s := onT3 (.outputStart 3) 1 [2] []
       admits s 0 0x0B [3] ∧ (s.proposal 1).map Proposal.required = some [2])
    ∧ (let s := onT3 (.outputStart 3) 1 [0, 2] []
       admits s 0 0x0B [3] ∧ ([] : List Master) ≠ ([0, 2] : List Master).filter (· != 0))
    ∧ (let s := onT3 (.outputChange 3 4) 1 [0, 2] [2]
       admits s 0 0x0B [3] ∧ s.proposalOn (some (.out 3)) = s.proposal 1
         ∧ ([2] : List Master).filter (· != 0) = ([0, 2] : List Master).filter (· != 0)
         ∧ (1 : Master) ∈ ((s.claim (.out 3)).holders.filter fun h => h.master != 0).map Holder.master)
    ∧ (let s : State := { hub with
         tbClaim := ⟨.shared, [⟨0, .none⟩, ⟨1, .none⟩], .keep⟩
         consent := ⟨[⟨1, .clockChange ⟨.xo, none⟩ none, 1, 7, [0], [], 9000⟩], 1⟩ }
       admits s 0 0x0B [8] ∧ s.isHolder .tb 0 = true ∧ s.proposalOn (some .tb) = s.proposal 1
         ∧ ([] : List Master) = ([0] : List Master).filter (· != 0)) := by
  decide

/-- What the last awaited voter's RELEASE leaves of each kind of round on its target: the output's state and queue, and
the outcome that the proposer is told. -/
theorem test_release_carries :
    let t (w : Matter) (r : OutRec) (q : List Entry) : State :=
      after (.release 0) (asks ((onT3 w 1 [0] []).setSq 3 r |>.setQueue 3 q) 0 0x0B [3])
    let e (k : EntryKind) : Entry := ⟨k, some (1, 7), .reserved, some 1⟩
    let seen (s : State) := ((s.sq 3).state, s.queue 3, (told s 1).getLast?)
    let bound : OutRec := { OutRec.reset with state := .bound, current := some 1 }
    let ends (w : Matter) (c : RoundOutcome) : Option Notice := some (.proposalEnd 1 w 1 7 c)
    seen (t (.outputChange 3 4) (runs 0) [e (.change 4)])
        = (.running, [{ e (.change 4) with state := .queued }], ends (.outputChange 3 4) .carried)
    ∧ seen (t (.outputChange 3 4) .reset [e (.change 4)]) = (.bound, [], ends (.outputChange 3 4) .carried)
    ∧ seen (t (.outputStop 3) (runs 0) [e .stop])
        = (.running, [{ e .stop with state := .queued }], ends (.outputStop 3) .carried)
    ∧ seen (t (.outputStop 3) bound [e .stop]) = (.bound, [], ends (.outputStop 3) (.failed .state))
    ∧ seen (t (.outputStart 3) bound []) = (.running, [], ends (.outputStart 3) .carried)
    ∧ seen (t (.outputStart 3) .reset []) = (.idle, [], ends (.outputStart 3) (.failed .state))
    ∧ ((t (.claimExclusive (.out 3)) .reset []).claim (.out 3)).mode = .exclusive := by decide

/-! ### Hypotheses met: outputs -/

/-- The hub with T2 in another state. -/
def t2 (st : OutState) : State := hub.setSq 2 { hub.sq 2 with state := st }

theorem met_ChangeBindsAnOutputAtRest :
    (admits hub 0 0x0C [0, 4, 0, 0] ∧ hub.isSole (.out 0) 0 = true ∧ (hub.slot 4).state = .fixedSlot
      ∧ (hub.sq 0).state = .idle)
    ∧ (admits hub 0 0x0C [1, 4, 0, 0] ∧ hub.isSole (.out 1) 0 = true ∧ (hub.sq 1).state = .bound)
    ∧ ((t2 .waiting).sq 2).state = .waiting
    ∧ (admits hub 0 0x0C [8, 4, 0, 0] ∧ 7 < byteAt [8, 4, 0, 0] 0)
    ∧ (admits hub 0 0x0C [3, 16, 0, 0] ∧ hub.isHolder (.out 3) 0 = true)
    ∧ (admits hub 0 0x0C [0, 16, 0, 0]
      ∧ ∀ k : Slot, byteAt [0, 16, 0, 0] 1 = k.val → (hub.slot k).state ≠ .fixedSlot) := by decide

/-- An entry of M0's. -/
def entry (k : EntryKind) (st : EntryState) : Entry := ⟨k, some (0, 7), st, none⟩

theorem met_ChangeQueuesOnARunningOutput :
    let q (n : Nat) := hub.setQueue 2 (List.replicate n (entry .stop .queued))
    (admits (q 3) 0 0x0C [2, 4, 0, 0] ∧ (hub.slot 4).state = .fixedSlot ∧ (q 3).isSole (.out 2) 0 = true
      ∧ ((q 3).sq 2).state = .running ∧ ((q 3).queue 2).length < 4)
    ∧ (admits (q 4) 0 0x0C [2, 4, 0, 0] ∧ 4 ≤ ((q 4).queue 2).length)
    ∧ (admits (t2 .stopping) 0 0x0C [2, 4, 0, 0] ∧ ((t2 .stopping).sq 2).state = .stopping)
    ∧ (admits hub 1 0x0C [2, 16, 0, 0] ∧ hub.isHolder (.out 2) 1 = false) := by decide

theorem met_SharedChangeOpensAProposal :
    (let p : List Byte := [3, 4, 9, 0]
     admits hub 0 0x0C p ∧ (hub.slot 4).state = .fixedSlot ∧ hub.isHolder (.out 3) 0 = true
      ∧ hub.isSole (.out 3) 0 = false)
    ∧ (admits three 0 0x0C [3, 4, 0xE8, 3] ∧ three.isHolder (.out 3) 0 = true ∧ three.isSole (.out 3) 0 = false
      ∧ (three.slot 4).state = .fixedSlot)
    ∧ (admits (busy 1 [(1, 3)]) 0 0x0C [3, 4, 10, 0] ∧ admits fullT3 0 0x0C [3, 4, 0, 0])
    ∧ ((lastVote hub (.outputChange 2 4)).sq 2).runs = true ∧ ((lastVote hub (.outputChange 1 4)).sq 1).state = .bound
    ∧ ((lastVote hub (.outputChange 0 4)).sq 0).state = .idle := by decide

set_option synthInstance.maxSize 1024 in
theorem met_StopActsByState :
    (admits hub 0 0x0D [2, 0, 0] ∧ hub.isSole (.out 2) 0 = true ∧ (hub.sq 2).state = .running ∧ (hub.queue 2).length < 4)
    ∧ (let s := hub.setQueue 2 (List.replicate 4 (entry .stop .queued))
       admits s 0 0x0D [2, 0, 0] ∧ 4 ≤ (s.queue 2).length)
    ∧ (admits (t2 .waiting) 0 0x0D [2, 0, 0] ∧ ((t2 .waiting).sq 2).state = .waiting)
    ∧ (admits (t2 .stopping) 0 0x0D [2, 0, 0] ∧ ((t2 .stopping).sq 2).state = .stopping)
    ∧ (admits hub 1 0x0D [2, 0, 0] ∧ hub.isHolder (.out 2) 1 = false)
    ∧ (admits three 0 0x0D [3, 0xE8, 3] ∧ three.isHolder (.out 3) 0 = true ∧ three.isSole (.out 3) 0 = false
      ∧ wordAt [3, 0xE8, 3] 1 = 1000 ∧ three.proposalOn (some (.out 3)) = none)
    ∧ (admits fullT3 0 0x0D [3, 0, 0] ∧ 4 ≤ (fullT3.queue 3).length)
    ∧ (admits hub 0 0x0D [8, 0, 0] ∧ 7 < byteAt [8, 0, 0] 0)
    ∧ ((lastVote hub (.outputStop 2)).sq 2).state = .running
    ∧ ((lastVote (t2 .waiting) (.outputStop 2)).sq 2).state = .waiting
    ∧ ((lastVote hub (.outputStop 1)).sq 1).state = .bound := by decide

/-- Nothing waits in the hub, and its Timebase Unit runs. -/
theorem hub_undisturbed (s : State) (h : ∀ o, (s.sq o).state ≠ .waiting) (ht : s.tbu = hub.tbu) : Undisturbed s :=
  ⟨h, fun _ _ _ e => by rw [ht] at e; cases e⟩

/-- The hub with another Timebase Unit state. -/
def unit (st : TbuState) : State := hub.setTbu { hub.tbu with state := st }

/-- A switch to XO+SYN, aligned to T2. -/
def toSyn (c : Settings) : Switch := ⟨⟨.xo, some c⟩, .startUp, some 2⟩

/-- T1 and T2 are in group 3. -/
def grouped : State := (hub.setSq 1 { hub.sq 1 with group := some 3 }).setSq 2 { hub.sq 2 with group := some 3 }

theorem met_StartMovesABoundOutput :
    (let s := hub.setTbu { hub.tbu with state := .lost }
     admits s 0 0x0E [0, 1, 0, 0] ∧ s.isSole (.out 1) 0 = true ∧ (s.sq 1).state = .bound ∧ s.tbu.state.current = none)
    ∧ (admits hub 0 0x0E [0, 1, 0, 0] ∧ (hub.sq 1).state = .bound ∧ hub.tbu.state.current ≠ none
      ∧ (hub.sq 1).group = none ∧ hub.burst 1 = none)
    ∧ (admits hub 0 0x0E [0, 2, 0, 0] ∧ (hub.sq 2).state ≠ .bound)
    ∧ (((lastVote hub (.outputStart 1)).sq 1).state = .bound ∧ ((lastVote hub (.outputStart 2)).sq 2).state ≠ .bound)
    ∧ (admits hub 1 0x0E [0, 2, 0, 0] ∧ hub.isHolder (.out 2) 1 = false)
    ∧ (admits three 0 0x0E [0, 3, 10, 0] ∧ three.isHolder (.out 3) 0 = true ∧ three.isSole (.out 3) 0 = false
      ∧ wordAt [0, 3, 10, 0] 2 = 10)
    ∧ (admits hub 0 0x0E [0, 8, 0, 0] ∧ byteAt [0, 8] 0 = 0 ∧ 7 < byteAt [0, 8] 1 ∧ admits hub 0 0x0E [2, 0, 0, 0]
      ∧ 1 < byteAt [2] 0 ∧ startRow ⟨0x0E, 7, [2, 0, 0, 0]⟩ = true ∧ groupStartRow ⟨0x0E, 7, [2, 0, 0, 0]⟩ = true)
    ∧ ((grouped.sq 1).state = .bound ∧ (grouped.sq 1).group = some 3 ∧ (grouped.sq 2).group = some 3
      ∧ (grouped.sq 2).state = .running)
    ∧ Undisturbed (asks grouped 0 0x0E [0, 1, 0, 0])
    ∧ Undisturbed (asks hub 0 0x0E [0, 1, 0, 0]) ∧ Undisturbed (lastVote hub (.outputStart 1))
    ∧ (∀ cur sw d, (unit (.waitAlign ⟨.irc, none⟩ (toSyn ⟨5, 60, 4⟩) 9)).tbu.state = .waitAlign cur sw d →
        ∀ a, sw.align = some a → (hub.sq a).state = .running) :=
  ⟨by decide, by decide, by decide, by decide, by decide, by decide, by decide, by decide,
    hub_undisturbed _ (by decide) rfl, hub_undisturbed _ (by decide) rfl, hub_undisturbed _ (by decide) rfl,
    fun _ _ _ e a h => by cases e; cases h; rfl⟩

/-- At the frame start of its anchor T2, and when T2 leaves RUNNING, T1 of the group starts. -/
theorem test_group_waits_for_its_anchor :
    let s := grouped.setSq 1 { grouped.sq 1 with state := .waiting }
    starters s none = [] ∧ starters s (some 4) = [] ∧ starters s (some 2) = [1]
    ∧ starters (s.setSq 2 { s.sq 2 with state := .stopping }) none = [1] := by decide

theorem met_GroupStartMovesItsMembers :
    (admits grouped 0 0x0E [1, 4, 0, 0] ∧ 3 < byteAt [1, 4, 0, 0] 1)
    ∧ (admits grouped 0 0x0E [1, 2, 0, 0] ∧ grouped.tbu.state.current ≠ none ∧ byteAt [1, 2] 1 = (2 : Group).val
      ∧ ∀ o, ((grouped.sq o).group == some 2 && (grouped.sq o).state == .bound && grouped.isSole (.out o) 0) = false)
    ∧ (admits grouped 0 0x0E [1, 3, 0, 0] ∧ ∃ o,
      ((grouped.sq o).group == some 3 && (grouped.sq o).state == .bound && grouped.isSole (.out o) 0) = true)
    ∧ let s := (hub.setTbu { hub.tbu with state := .lost }).setSq 1 { hub.sq 1 with group := some 3 }
    admits s 0 0x0E [1, 3, 0, 0] ∧ s.tbu.state.current = none
    ∧ ((s.sq 1).group == some 3 && (s.sq 1).state == .bound && s.isSole (.out 1) 0) = true
    ∧ ∀ o, ((s.sq o).group == some 2 && (s.sq o).state == .bound && s.isSole (.out o) 0) = false := by decide

/-- The hub with a pending cut of T2 in line `n`. -/
def cutAt (n : Nat) : State := hub.setSq 2 { runs n with cut := some ⟨4, 0, 7⟩ }

set_option synthInstance.maxSize 1024 in
theorem met_CutIsStored :
    (admits hub 0 0x0F [2, 4] ∧ (hub.slot 4).state = .fixedSlot ∧ hub.isSole (.out 2) 0 = true
      ∧ (hub.sq 2).state = .running ∧ (hub.sq 2).cut = none)
    ∧ (admits (cutAt 0) 0 0x0F [2, 4] ∧ ((cutAt 0).sq 2).cut = some ⟨4, 0, 7⟩)
    ∧ (admits hub 0 0x0F [1, 4] ∧ hub.isSole (.out 1) 0 = true ∧ (hub.sq 1).state ≠ .running)
    ∧ (admits hub 1 0x0F [3, 16] ∧ hub.isHolder (.out 3) 1 = true ∧ hub.isSole (.out 3) 1 = false)
    ∧ (admits hub 0 0x0F [8, 4] ∧ 7 < byteAt [8, 4] 0)
    ∧ (admits hub 1 0x0F [2, 16] ∧ hub.isHolder (.out 2) 1 = false)
    ∧ (admits hub 0 0x0F [1, 2] ∧ ∀ k : Slot, byteAt [1, 2] 1 = k.val → (hub.slot k).state ≠ .fixedSlot) := by decide

set_option synthInstance.maxSize 1024 in
/-- The refusals, at the values next to each list; a group, none and KEEP; a group that differs from that of a running
output, and the one it has; both polarities and KEEP, at rest, in WAITING and running. -/
theorem met_OutputSetChangesSettings :
    let r := (grouped.sq 2)
    (admits hub 0 0x10 [8, 0, 0] ∧ admits hub 0 0x10 [1, 4, 0] ∧ admits hub 0 0x10 [1, 0xFD, 0]
      ∧ admits hub 0 0x10 [1, 0, 2] ∧ admits hub 0 0x10 [1, 0, 0xFF] ∧ 7 < byteAt [8] 0 ∧ 3 < byteAt [1, 4] 1
      ∧ byteAt [1, 0xFD] 1 ≠ 0xFE ∧ 1 < byteAt [1, 0, 2] 2 ∧ byteAt [1, 0, 0xFF] 2 ≠ 0xFE)
    ∧ (admits hub 1 0x10 [2, 0xFE, 0xFE] ∧ hub.isHolder (.out 2) 1 = false)
    ∧ (admits hub 1 0x10 [3, 0xFF, 1] ∧ hub.isHolder (.out 3) 1 = true ∧ hub.isSole (.out 3) 1 = false)
    ∧ (admits grouped 0 0x10 [2, 0, 1] ∧ grouped.isSole (.out 2) 0 = true ∧ r.group ≠ some 0 ∧ r.group ≠ none
      ∧ r.state ≠ .idle ∧ r.state ≠ .bound)
    ∧ (admits grouped 0 0x10 [2, 3, 1] ∧ r.group = some 3 ∧ r.state = .running ∧ Polarity.inverted ≠ r.polarity
      ∧ Polarity.normal = r.polarity)
    ∧ (admits hub 0 0x10 [1, 3, 0xFE] ∧ hub.isSole (.out 1) 0 = true ∧ (hub.sq 1).state = .bound)
    ∧ (admits (t2 .waiting) 0 0x10 [2, 0xFE, 1] ∧ (t2 .waiting).isSole (.out 2) 0 = true
      ∧ ((t2 .waiting).sq 2).state = .waiting ∧ ((t2 .stopping).sq 2).state = .stopping) := by decide

/-- What those forms do: group none, polarity in WAITING, and the present group with a pending polarity while running. -/
theorem test_output_set_forms :
    ((after (.outputSet 0) (asks (grouped.setSq 1 { grouped.sq 1 with pendingPol := some .normal }) 0 0x10 [1, 0xFF, 1])).sq 1
      = { hub.sq 1 with group := none, polarity := .inverted })
    ∧ ((after (.outputSet 0) (asks (t2 .waiting) 0 0x10 [2, 0xFE, 1])).sq 2
      = { (t2 .waiting).sq 2 with polarity := .inverted })
    ∧ ((after (.outputSet 0) (asks grouped 0 0x10 [2, 3, 1])).sq 2
      = { grouped.sq 2 with pendingPol := some .inverted })
    ∧ code (.outputSet 0) 0 (asks grouped 0 0x10 [2, 0xFF, 1]) = some (.state, []) := by decide

/-! ### Hypotheses met: lines and frames -/

/-- The hub with a pending cut of T2 at the end of line `n`. -/
def cutEnd (n : Nat) : State := hub.setSq 2 { ends n with cut := some ⟨4, 0, 7⟩ }

/-- A TIMED burst of M0's: on 2, off 1, 2 pulses, 2 repeats with a pause of 3. -/
def timed (phase : BurstPhase) (left pulses repeats : Nat) : Burst :=
  ⟨.timed 2 1 2 2 3, 0, 7, .nextLine, phase, left, pulses, repeats⟩

theorem met_LineStartIntakeAndPins :
    (LineDue (hub.setSq 2 (ends 0)) 2 ∧ ((hub.setSq 2 (ends 0)).sq 2).line + 1 < (hub.geom 2).lf
      ∧ ((hub.setSq 2 (ends 0)).sq 2).cut = none ∧ hub.burst 2 = none)
    ∧ (LineDue (cutEnd 14) 2 ∧ ((cutEnd 14).sq 2).line + 1 < 16)
    ∧ ((timed .on 2 1 0).lineStart (runs 1) = .runsOn (timed .on 1 1 0)
      ∧ (timed .off 1 2 1).lineStart (runs 1) = .completes (timed .off 0 2 2))
    ∧ ¬LineDue hub 0 ∧ ¬LineDue hub 2
    ∧ (let s := hub.setSq 2 (ends 3)
       (LineDue s 2 ∧ (s.sq 2).line = 3 ∧ 4 < (s.geom 2).lf ∧ s.burst 2 = none)
       ∧ (s.setQueue 2 [entry (.change 4) .queued]).queue 2 = [entry (.change 4) .queued]
       ∧ (s.setQueue 2 [entry .stop .queued]).queue 2 = [entry .stop .queued]
       ∧ (s.setQueue 2 [entry .stop .reserved]).queue 2 = [entry .stop .reserved] ∧ (s.sq 2).state = .running
       ∧ s.queue 2 = [] ∧ (s.setQueue 2 [entry (.change 4) .taken]).queue 2 = [entry (.change 4) .taken]
       ∧ (entry (.change 4) .taken).state ≠ .queued ∧ (entry .stop .reserved).state ≠ .queued)
    ∧ Undisturbed (hub.setSq 2 (ends 3)) :=
  ⟨by decide, by decide, by decide, by decide, by decide, by decide, hub_undisturbed _ (by decide) rfl⟩

/-- Line 4 with a burst running: the burst is reached first, and then the intake point takes the QUEUED CHANGE. -/
theorem test_intake_after_the_burst :
    let s := (hub.setSq 2 (ends 3)).setBurst 2 (some (timed .on 2 1 0))
    let t := after (.lineStart 2) (s.setQueue 2 [entry (.change 4) .queued])
    goes (.lineStart 2) s (lineReaches (s.setSq 2 (runs 4)) 2) = true
    ∧ t.burst 2 = some (timed .on 1 1 0) ∧ t.queue 2 = [entry (.change 4) .taken] ∧ (t.sq 2).next = some 4
    ∧ (t.sq 2).status = ⟨.unsettled, false, false⟩ := by decide

/-- A running output, inverted and with a burst in ON; one at rest; a frozen one. -/
theorem met_LineStartIntakeAndPins_pins :
    let s := (hub.setSq 2 { runs 3 with tick := 5, polarity := .inverted }).setBurst 2 (some (timed .on 2 1 0))
    let held : Pins := ⟨true, false, true, false⟩
    ((s.sq 2).held = none ∧ (s.sq 2).state = .running ∧ s.pins 2 = ⟨true, true, false, false⟩)
    ∧ ((hub.sq 1).held = none ∧ (hub.sq 1).state ≠ .running ∧ (hub.sq 1).state ≠ .stopping)
    ∧ ((hub.setSq 2 { runs 3 with frozen := true, held := some held }).sq 2).held = some held := by decide

/-- A switch in WAIT_ALIGN for T2, one for T4, and none: the two cases of `HandedOn`. -/
theorem met_HandedOn :
    (unit (.waitAlign ⟨.irc, none⟩ (toSyn ⟨5, 60, 4⟩) 9)).tbu.state = .waitAlign ⟨.irc, none⟩ (toSyn ⟨5, 60, 4⟩) 9
    ∧ (toSyn ⟨5, 60, 4⟩).align = some 2
    ∧ (∀ cur sw d,
        (unit (.waitAlign ⟨.irc, none⟩ { toSyn ⟨5, 60, 4⟩ with align := some 4 } 9)).tbu.state = .waitAlign cur sw d →
        ∀ a, sw.align = some a → a ≠ 2 ∧ (hub.sq a).state ≠ .waiting)
    ∧ ∀ cur sw d, hub.tbu.state = .waitAlign cur sw d → ∀ a, sw.align = some a → a ≠ 2 ∧ (hub.sq a).state ≠ .waiting :=
  ⟨rfl, rfl, fun _ _ _ e a h => by cases e; cases h; decide, fun _ _ _ e => by cases e⟩

/-- The aligned switch completes at T2's frame start, which begins unmarked, and T1 of its group starts there. -/
theorem test_aligned_completion_at_the_frame_start :
    let s := ((unit (.waitAlign ⟨.irc, none⟩ (toSyn ⟨5, 60, 4⟩) 9)).setSq 2 { ends 39 with phase := 1, group := some 3 }).setSq
      1 { hub.sq 1 with state := .waiting, group := some 3 }
    let t := after (.frameBoundary 2) s
    t.tbu.state = .running ⟨.xo, some ⟨5, 60, 4⟩⟩ ∧ (t.sq 2).status = ⟨.settled, false, false⟩
      ∧ (t.sq 1).state = .running ∧ (t.sq 1).frameNo = 0 := by decide

theorem met_FrameBoundaryGoesOn :
    (let s := hub.setSq 2 (ends 39)
     LineDue s 2 ∧ (s.sq 2).state = .running ∧ (s.geom 2).lf ≤ (s.sq 2).line + 1 ∧ (s.sq 2).cut = none
       ∧ s.queue 2 = [] ∧ s.burst 2 = none ∧ (s.sq 2).phase = 0 ∧ ((s.sq 2).phase + 1) % (s.geom 2).fd ≠ 0)
    ∧ (let s := hub.setSq 2 { ends 39 with phase := 1 }
       (s.sq 2).phase ≠ 0 ∧ ((s.sq 2).phase + 1) % (s.geom 2).fd = 0)
    ∧ Undisturbed (hub.setSq 2 (ends 39)) ∧ Undisturbed (hub.setSq 2 { ends 39 with phase := 1 }) :=
  ⟨by decide, by decide, hub_undisturbed _ (by decide) rfl, hub_undisturbed _ (by decide) rfl⟩

/-- T2 at the end of its last line, with a TAKEN CHANGE to the slot. -/
def swaps (k : Slot) : State :=
  (hub.setSq 2 { ends 39 with next := some k }).setQueue 2 [entry (.change k) .taken, entry .stop .queued]

/-- A CONTINUOUS burst of M0's in phase ON. -/
def steady (on off : Nat) : Burst := ⟨.continuous on off, 0, 7, .nextLine, .on, 1, 1, 0⟩

theorem met_ProfileSwapAtTheBoundary :
    (let s := swaps 4
     LineDue s 2 ∧ (s.sq 2).state = .running ∧ (s.geom 2).lf ≤ (s.sq 2).line + 1 ∧ (s.sq 2).cut = none
       ∧ s.queue 2 = [entry (.change 4) .taken, entry .stop .queued] ∧ (entry .stop .queued).state ≠ .taken
       ∧ (s.sq 2).next = some 4 ∧ (s.sq 2).current = some 1 ∧ s.burst 2 = none ∧ (4 : Slot) ≠ 1)
    ∧ ((swaps 1).sq 2).next = some 1
    ∧ (((swaps 4).setBurst 2 (some (steady 1 1))).burst 2 = some (steady 1 1)
      ∧ 1 * 100 ≤ (hub.slot 4).geom.dc * (1 + 1) ∧ ¬ 2 * 100 ≤ (hub.slot 4).geom.dc * (2 + 1))
    ∧ Undisturbed (swaps 4) ∧ Undisturbed (swaps 1) :=
  ⟨by decide, by decide, by decide, hub_undisturbed _ (by decide) rfl, hub_undisturbed _ (by decide) rfl⟩

theorem met_StopTakesEffectAtTheBoundary :
    let s := hub.setSq 2 { ends 39 with state := .stopping }
    LineDue s 2 ∧ (s.sq 2).state = .stopping ∧ (s.geom 2).lf ≤ (s.sq 2).line + 1 ∧ (s.sq 2).cut = none := by decide

theorem met_CutTakesEffect :
    (LineDue (cutEnd 15) 2 ∧ ((cutEnd 15).sq 2).cut = some ⟨4, 0, 7⟩
      ∧ 16 ≤ ((cutEnd 15).sq 2).line + 1 ∧ ((cutEnd 15).sq 2).line + 1 < ((cutEnd 15).geom 2).lf)
    ∧ (LineDue (cutEnd 39) 2 ∧ ((cutEnd 39).geom 2).lf ≤ ((cutEnd 39).sq 2).line + 1)
    ∧ Undisturbed (cutEnd 15) ∧ Undisturbed (cutEnd 39) :=
  ⟨by decide, by decide, hub_undisturbed _ (by decide) rfl, hub_undisturbed _ (by decide) rfl⟩

/-! ### Hypotheses met: bursts -/

set_option synthInstance.maxSize 1024 in
theorem met_BurstIsArmed :
    (admits hub 0 0x11 [8, 1, 0, 1, 1, 0, 0, 0, 0] ∧ 7 < byteAt [8, 1, 0, 1, 1, 0, 0, 0, 0] 0)
    ∧ (admits hub 0 0x11 [2, 3, 0, 1, 1, 0, 0, 0, 0] ∧ admits hub 0 0x11 [2, 1, 2, 1, 1, 0, 0, 0, 0])
    ∧ (admits hub 1 0x11 [2, 1, 0, 1, 1, 0, 0, 0, 0] ∧ hub.isHolder (.out 2) 1 = false)
    ∧ (admits hub 0 0x11 [3, 1, 0, 1, 1, 0, 0, 0, 0] ∧ hub.isHolder (.out 3) 0 = true ∧ hub.isSole (.out 3) 0 = false)
    ∧ (admits hub 0 0x11 [2, 1, 0, 1, 1, 0, 0, 0, 0] ∧ hub.isSole (.out 2) 0 = true ∧ (hub.sq 2).state = .running
      ∧ hub.burst 2 = none ∧ ¬ (hub.geom 2).dc * (1 + 1) < 1 * 100)
    ∧ (admits hub 0 0x11 [2, 0, 1, 1, 1, 1, 15, 0xFF, 3] ∧ wordAt [2, 0, 1, 1, 1, 1, 15, 0xFF, 3] 7 = 1023)
    ∧ (admits hub 0 0x11 [2, 2, 1, 39, 0, 20, 0, 0, 0] ∧ ¬ (hub.geom 2).lf ≤ 39 ∧ ¬ (hub.geom 2).dc * (hub.geom 2).lf < 20 * 100)
    ∧ (admits hub 0 0x11 [2, 2, 1, 40, 0, 20, 0, 0, 0] ∧ (hub.geom 2).lf ≤ 40)
    ∧ (admits hub 0 0x11 [2, 1, 0, 255, 254, 0, 0, 0, 0] ∧ (hub.geom 2).dc * (255 + 254) < 255 * 100)
    ∧ (let s := hub.setBurst 2 (some (timed .armed 0 0 0))
       admits s 0 0x11 [2, 1, 0, 1, 1, 0, 0, 0, 0] ∧ s.burst 2 ≠ none)
    ∧ (admits hub 0 0x11 [1, 1, 0, 1, 1, 0, 0, 0, 0] ∧ hub.isSole (.out 1) 0 = true ∧ (hub.sq 1).state ≠ .running) := by
  decide

theorem met_BurstEndChecksInOrder :
    let s := hub.setBurst 2 (some (timed .armed 0 0 0))
    let t := hub.setBurst 3 (some { timed .armed 0 0 0 with origin := 2 })
    (admits hub 0 0x12 [8] ∧ 7 < byteAt [8] 0)
    ∧ (admits hub 0 0x12 [7] ∧ hub.burst 7 = none)
    ∧ (admits s 0 0x12 [2] ∧ s.burst 2 = some (timed .armed 0 0 0) ∧ s.isSole (.out 2) 0 = true)
    ∧ (admits s 1 0x12 [2] ∧ (0 : Master) ≠ 1 ∧ s.isHolder (.out 2) 1 = false)
    ∧ (admits t 1 0x12 [3] ∧ t.isHolder (.out 3) 1 = true ∧ t.isSole (.out 3) 1 = false) := by decide

theorem met_TimedBurstFollowsItsTable :
    (timed .on 2 1 0).pattern = .timed 2 1 2 2 3 ∧ (timed .on 2 1 0).phase ≠ .armed ∧ 2 ≤ (timed .on 2 1 0).left
    ∧ (timed .on 1 1 0).left = 1 ∧ (timed .off 1 1 0).pulses < 2
    ∧ ((timed .off 1 2 0).pulses = 2 ∧ (timed .off 1 2 0).repeats + 1 < 2 ∧ 0 < 3)
    ∧ (timed .off 1 2 1).repeats + 1 = 2 ∧ (timed .pause 1 2 1).phase = .pause
    ∧ ((timed .armed 0 0 0).phase = .armed ∧ (timed .armed 0 0 0).start = .nextLine)
    ∧ (let b : Burst := { timed .armed 0 0 0 with start := .nextEmittedFrame }
       ¬(b.start = .nextLine ∨ (runs 1).line = 0 ∧ (runs 1).phase = 0)
       ∧ (b.start = .nextLine ∨ (runs 0).line = 0 ∧ (runs 0).phase = 0))
    ∧ ((steady 1 1).pattern = .continuous 1 1 ∧ (steady 1 1).left = 1)
    ∧ (let b : Burst := ⟨.perFrame 5 3, 0, 7, .nextLine, .on, 2, 1, 0⟩
       b.phase ≠ .armed ∧ (runs 5).phase = 0 ∧ (runs 5).line = 5 ∧ (runs 6).line ≠ 5 ∧ 2 ≤ b.left) := by decide

/-! ### Hypotheses met: the timebase -/

/-- The hub at FSE 0 with the lock set on IRC direct, in a state of the Timebase Unit. -/
def locked (st : TbuState) : State :=
  { hub.setTbu { hub.tbu with state := st, lock := some ⟨.irc, none⟩ } with straps := ⟨0, false, false⟩ }

/-- The hub with TB held by M0 and M1. -/
def sharedTb (s : State) : State := { s with tbClaim := ⟨.shared, [⟨0, .none⟩, ⟨1, .none⟩], .keep⟩ }

set_option synthInstance.maxSize 1024 in
/-- The bounds of R105, one by one, with a value on either side. -/
theorem met_SettingsMeet :
    (SettingsMeet 10000 ⟨2, 48, 4⟩ ∧ ¬SettingsMeet 9999 ⟨2, 48, 4⟩ ∧ SettingsMeet 60000 ⟨25, 200, 8⟩)
    ∧ (¬SettingsMeet 2000 ⟨0, 120, 4⟩ ∧ SettingsMeet 2000 ⟨1, 120, 4⟩ ∧ ¬SettingsMeet 1999 ⟨1, 125, 4⟩)
    ∧ (SettingsMeet 64000 ⟨32, 120, 8⟩ ∧ ¬SettingsMeet 66000 ⟨33, 120, 8⟩)
    ∧ (SettingsMeet 12000 ⟨1, 20, 2⟩ ∧ ¬SettingsMeet 12001 ⟨1, 20, 2⟩)
    ∧ (SettingsMeet 12000 ⟨1, 40, 2⟩ ∧ ¬SettingsMeet 12000 ⟨1, 41, 4⟩)
    ∧ (¬SettingsMeet 10000 ⟨2, 48, 3⟩ ∧ ¬SettingsMeet 10000 ⟨2, 48, 0⟩)
    ∧ (SettingsMeet 10000 ⟨2, 48, 8⟩ ∧ SettingsMeet 10000 ⟨2, 96, 2⟩) := by decide

set_option synthInstance.maxSize 1024 in
theorem met_ClockBeginsASwitch :
    let exa : Selection := ⟨.exa, some ⟨2, 48, 4⟩⟩
    let xo : Selection := ⟨.xo, some ⟨5, 60, 4⟩⟩
    let irc : Selection := ⟨.irc, none⟩
    let p : List Byte := [6, 2, 48, 0, 4, 2, 10, 0]
    let old : Switch := ⟨⟨.xo, none⟩, .startUp, none⟩
    (admits hub 0 0x13 p ∧ hub.isSole .tb 0 = true ∧ byteAt p 0 = Source.exa.number + 4
      ∧ (⟨2, 48, 4⟩ : Settings) = ⟨byteAt p 1, wordAt p 2, byteAt p 4⟩ ∧ byteAt p 5 = (2 : Output).val
      ∧ selectionValid hub.table exa = true ∧ LockPasses hub exa ∧ ¬SynBusy hub exa ∧ ¬Redundant hub exa)
    ∧ (admits hub 1 0x13 p ∧ hub.isHolder .tb 1 = false)
    ∧ (let s := locked (.running irc)
       admits s 0 0x13 p ∧ s.tbu.lock ≠ none ∧ s.tbu.state.current ≠ none ∧ ¬LockPasses s exa ∧ ¬LockPasses s irc)
    ∧ (admits (locked .lost) 0 0x13 [8, 0, 0, 0, 0, 0, 0, 0] ∧ 7 < byteAt [8] 0 ∧ (locked .lost).tbu.lock ≠ none
      ∧ ¬LockPasses (locked .lost) exa)
    ∧ (admits hub 0 0x13 [8, 0, 0, 0, 0, 0, 0, 0] ∧ hub.tbu.lock = none)
    ∧ (admits hub 0 0x13 [6, 2, 48, 0, 4, 8, 0, 0] ∧ admits hub 0 0x13 [6, 2, 48, 0, 4, 254, 0, 0]
      ∧ 7 < byteAt [6, 2, 48, 0, 4, 8] 5 ∧ byteAt [6, 2, 48, 0, 4, 254] 5 ≠ 255)
    ∧ (admits hub 0 0x13 [6, 2, 47, 0, 4, 255, 0, 0] ∧ selectionValid hub.table ⟨.exa, some ⟨2, 47, 4⟩⟩ = false)
    ∧ (let s := unit (.running exa)
       admits s 0 0x13 [5, 5, 60, 0, 4, 7, 0, 0] ∧ LockPasses s xo ∧ selectionValid s.table xo = true ∧ SynBusy s xo
         ∧ Redundant s exa ∧ ¬SynBusy s exa ∧ ¬SynBusy s irc)
    ∧ (SynBusy (unit (.switching exa old 9)) xo ∧ SynBusy (unit (.waitAlign exa old 9)) xo
      ∧ ¬SynBusy (unit (.switching exa old 9)) exa ∧ ¬SynBusy (unit (.preparing old 9)) xo)
    ∧ (let s := unit (.standby exa)
       admits s 0 0x13 p ∧ Redundant s exa ∧ ¬Redundant s irc ∧ ¬SynBusy s xo)
    ∧ (let s := sharedTb three
       admits s 0 0x13 p ∧ s.isHolder .tb 0 = true ∧ s.isSole .tb 0 = false ∧ wordAt p 6 = 10
         ∧ s.proposalOn (some .tb) = none ∧ ¬SynBusy s exa ∧ ¬Redundant s exa)
    ∧ (LockPasses (locked .lost) irc ∧ LockPasses (locked (.preparing ⟨irc, .startUp, none⟩ 9)) irc
      ∧ admits (locked .lost) 0 0x13 [0, 0, 0, 0, 0, 255, 0, 0] ∧ ¬Redundant (locked .lost) irc
      ∧ Redundant (locked (.standby irc)) irc)
    ∧ (admits hub 0 0x13 [1, 0, 0, 0, 0, 255, 0, 0] ∧ hub.tbu.state = .running irc ∧ hub.tbu.lock = none
      ∧ hub.tbu.xo = .off ∧ hub.table.xo.freq ≤ 240000)
    ∧ (lastVote hub (.clockChange ⟨.xo, none⟩ none)).tbu.state = .running irc
    ∧ (lastVote (unit (.running ⟨.xo, none⟩)) (.clockChange ⟨.xo, none⟩ none)).tbu.state = .running ⟨.xo, none⟩
    ∧ (let s := lastVote (locked (.running irc)) (.clockChange ⟨.xo, none⟩ none)
       s.tbu.lock ≠ none ∧ s.tbu.state.current ≠ none) := by decide

/-- A selection meets R105 where the checks of the model find it valid: IRC+SYN with the start-up settings does not. -/
theorem met_SelectionMeets :
    SelectionMeets hub ⟨.exa, some ⟨2, 48, 4⟩⟩ ∧ SelectionMeets hub ⟨.irc, none⟩
    ∧ ¬SelectionMeets hub ⟨.irc, some ⟨2, 48, 4⟩⟩ ∧ SelectionMeets hub ⟨.irc, some ⟨5, 48, 4⟩⟩ := by
  simp only [← Laws.selectionValid_iff]
  decide

/-- The rows of `ClockTaken`: each state of the Timebase Unit, with a selection equal to the current one and another. -/
theorem met_ClockTaken :
    let irc : Selection := ⟨.irc, none⟩
    let old : Switch := ⟨⟨.xo, none⟩, .startUp, none⟩
    (unit (.running irc)).tbu.state = .running irc
    ∧ (unit (.switching irc old 9)).tbu.state = .switching irc old 9
    ∧ (unit (.waitAlign irc old 9)).tbu.state = .waitAlign irc old 9
    ∧ (unit (.preparing old 9)).tbu.state = .preparing old 9 ∧ (unit .lost).tbu.state = .lost
    ∧ (unit (.standby irc)).tbu.state = .standby irc ∧ (⟨.exa, some ⟨2, 48, 4⟩⟩ : Selection) ≠ irc
    ∧ (after (.clock 0) (asks (unit (.switching irc old 9)) 0 0x13 [0, 0, 0, 0, 0, 255, 0, 0])).tbu.state = .running irc
    ∧ (after (.clock 0) (asks (unit (.standby irc)) 0 0x13 [1, 0, 0, 0, 0, 255, 0, 0])).tbu.state
      = .standby ⟨.xo, none⟩
    ∧ (after (.clock 0) (asks (locked .lost) 0 0x13 [0, 0, 0, 0, 0, 255, 0, 0])).tbu.state = .running irc := by decide

/-- The codes of a refused CLOCK, and a carried one: the round fails LOCKED and SYN_IN_USE, and is CARRIED with nothing
changed where the selection is current by then. -/
theorem test_clock_codes :
    let c (s : State) (p : List Byte) := (code (.clock 0) 0 (asks s 0 0x13 p)).map Prod.fst
    let told1 (s : State) (w : Matter) := (told (after (.vote 1) (lastVote s w)) 1).getLast?
    let syn (src : Source) : Selection := ⟨src, some ⟨2, 48, 4⟩⟩
    let w (sel : Selection) : Matter := .clockChange sel (some 2)
    c (locked .lost) [8, 0, 0, 0, 0, 9, 0, 0] = some .locked ∧ c hub [8, 0, 0, 0, 0, 255, 0, 0] = some .badValue
    ∧ c hub [0, 0, 0, 0, 0, 254, 0, 0] = some .badValue ∧ c hub [4, 2, 48, 0, 4, 255, 0, 0] = some .badValue
    ∧ c (unit (.running (syn .exa))) [7, 2, 48, 0, 4, 2, 0, 0] = some .synInUse
    ∧ c (unit (.running (syn .exa))) [6, 2, 48, 0, 4, 2, 0, 0] = some .noChange
    ∧ c (unit (.standby (syn .exa))) [6, 2, 48, 0, 4, 255, 0, 0] = some .noChange
    ∧ told1 (locked .lost) (w (syn .exa)) = some (.proposalEnd 1 (w (syn .exa)) 0 7 (.failed .locked))
    ∧ told1 (unit (.running (syn .exb))) (w (syn .exa)) = some (.proposalEnd 1 (w (syn .exa)) 0 7 (.failed .synInUse))
    ∧ told1 (unit (.running (syn .exa))) (w (syn .exa)) = some (.proposalEnd 1 (w (syn .exa)) 0 7 .carried) := by decide

/-- The hub with TB free, at FSE 0. -/
def open_ : State := { hub with tbClaim := .reset, straps := ⟨0, false, false⟩ }

/-- SOURCE_SET of EXB at 500 kHz. -/
def newExb : List Byte := [3, 0xF4, 1, 0, 10, 0, 10, 0, 1]

/-- The hub with the detector of EXB PRESENT. -/
def withExb : State := hub.setDet .db ⟨.present, 4, some (.ppm 5), some .irc, 0, false⟩

set_option synthInstance.maxSize 1024 in
theorem met_SourceSetReplacesAnEntry :
    (admits open_ 0 0x14 [1, 0x40, 0x1F, 1, 0, 0, 0, 0, 0] ∧ open_.tbClaim.mode = .free ∧ open_.tbu.lock = none
      ∧ wordAt [1, 0x40, 0x1F] 1 = 8000)
    ∧ (admits hub 0 0x14 [1, 0x3F, 0x1F, 1, 0, 0, 0, 0, 0] ∧ hub.isSole .tb 0 = true ∧ hub.tbu.lock = none
      ∧ wordAt [1, 0x3F, 0x1F] 1 < 8000)
    ∧ (byteAt [0] 0 < 1 ∧ 3 < byteAt [4] 0)
    ∧ (admits hub 1 0x14 newExb ∧ ¬(hub.tbClaim.mode = .free ∨ hub.isSole .tb 1 = true))
    ∧ (let s := hub.setTbu { hub.tbu with lock := some ⟨.irc, none⟩ }
       admits s 0 0x14 newExb ∧ s.isSole .tb 0 = true ∧ s.tbu.lock ≠ none)
    ∧ (admits hub 0 0x14 newExb ∧ byteAt newExb 0 = 3 ∧ wordAt newExb 1 = 500 ∧ wordAt newExb 4 = 10
      ∧ wordAt newExb 6 = 10 ∧ byteAt newExb 8 = 1 ∧ (⟨500, 10, 10, 1⟩ : RefEntry) ≠ hub.table.ref .db
      ∧ (hub.det .db).state ≠ .present ∧ (withExb.det .db).state = .present)
    ∧ (let same : List Byte := [2, 0x10, 0x27, 0, 100, 0, 0x90, 1, 4]
       admits hub 0 0x14 same ∧ (⟨wordAt same 1, wordAt same 4, wordAt same 6, byteAt same 8⟩ : RefEntry)
         = hub.table.ref .da)
    ∧ wordAt [3, 0xF3, 1] 1 < 500 := by decide

/-- A PRESENT detector whose entry changes is ABSENT with a new gate, and the holder of TB is told its loss. -/
theorem test_source_set_of_a_present_reference :
    let t := after (.sourceSet 0) (asks withExb 0 0x14 newExb)
    t.db = ⟨.absent, 0, none, none, 0, false⟩ ∧ t.table.exb = ⟨500, 10, 10, 1⟩
    ∧ told t 0 = [.reference .db false .sourceSet none none 0] := by decide

theorem met_SelectLockLocksTheSelection :
    let low : State := { hub with straps := ⟨0, false, false⟩ }
    let locked := low.setTbu { low.tbu with lock := some ⟨.irc, none⟩ }
    let lost := low.setTbu { low.tbu with state := .lost }
    (admits hub 1 0x15 [] ∧ hub.isSole .tb 1 = false)
    ∧ (admits hub 0 0x15 [] ∧ hub.isSole .tb 0 = true ∧ hub.straps.fse = true)
    ∧ (admits locked 0 0x15 [] ∧ locked.straps.fse = false ∧ locked.tbu.lock ≠ none)
    ∧ (admits lost 0 0x15 [] ∧ lost.tbu.lock = none ∧ lost.tbu.state = .lost)
    ∧ (admits low 0 0x15 [] ∧ low.tbu.state = .running ⟨.irc, none⟩) := by decide

theorem met_XoReadyReadiesTheSource :
    (let s := hub.setTbu { hub.tbu with xo := .starting 8191 }
     s.tbu.xo = .starting 8191 ∧ s.tbu.state.switch = none)
    ∧ (let s := hub.setTbu { hub.tbu with xo := .starting 0, state := .switching ⟨.irc, none⟩ (toSyn ⟨5, 60, 4⟩) 9 }
       s.tbu.state = .switching ⟨.irc, none⟩ (toSyn ⟨5, 60, 4⟩) 9 ∧ s.tbu.synth = .stopped
         ∧ s.tbu.ctx.xo ≠ some ⟨5, 60, 4⟩)
    ∧ (unit (.waitAlign ⟨.irc, none⟩ (toSyn ⟨5, 60, 4⟩) 9)).tbu.state
      = .waitAlign ⟨.irc, none⟩ (toSyn ⟨5, 60, 4⟩) 9
    ∧ (let sw : Switch := ⟨⟨.exa, none⟩, .startUp, none⟩
       let s := hub.setTbu { hub.tbu with xo := .starting 8191, state := .preparing sw 9 }
       s.tbu.state.switch = some sw ∧ sw.target.source ≠ .xo ∧ (toSyn ⟨5, 60, 4⟩).target.source = .xo) := by decide

/-- A target whose source is not READY, SYN targets with and without a context, and a direct target: without an align
output, with T2, which runs, and with T1, which does not. -/
theorem met_Readied :
    let xo : State := hub.setTbu { hub.tbu with xo := .ready }
    let direct (a : Option Output) : Switch := ⟨⟨.xo, none⟩, .startUp, a⟩
    let s (sw : Switch) : State := xo.setTbu { xo.tbu with state := .switching ⟨.irc, none⟩ sw 9 }
    ((unit (.switching ⟨.irc, none⟩ (direct none) 9)).tbu.state.switch = some (direct none)
      ∧ hub.sourceReady .xo = false)
    ∧ ((s (toSyn ⟨5, 60, 4⟩)).sourceReady .xo = true ∧ (s (toSyn ⟨5, 60, 4⟩)).tbu.synth = .stopped)
    ∧ ((direct (some 2)).align = some 2 ∧ ((s (direct (some 2))).sq 2).state = .running)
    ∧ ((direct (some 1)).align = some 1 ∧ ((s (direct (some 1))).sq 1).state ≠ .running)
    ∧ (after .xoReady ((s (direct none)).setTbu { (s (direct none)).tbu with xo := .starting 0 })).tbu.state
      = .running ⟨.xo, none⟩
    ∧ (xo.setTbu { xo.tbu with state := .preparing (direct none) 9 }).tbu.state = .preparing (direct none) 9 := by decide

theorem met_LockCompletionStoresTheContext :
    let s (c : Settings) :=
      hub.setTbu { hub.tbu with synth := .locking false 7, state := .switching ⟨.irc, none⟩ (toSyn c) 9 }
    ((s ⟨5, 60, 4⟩).tbu.synth = .locking false 7 ∧ settingsValid ((s ⟨5, 60, 4⟩).table.freq .xo) ⟨5, 60, 4⟩ = true
      ∧ ((s ⟨5, 60, 4⟩).sq 2).state = .running)
    ∧ settingsValid ((s ⟨0, 60, 4⟩).table.freq .xo) ⟨0, 60, 4⟩ = false
    ∧ ((s ⟨5, 60, 4⟩).setSq 2 .reset).sq 2 = .reset ∧ (∀ o, (hub.sq o).state ≠ .waiting)
    ∧ (let t := hub.setTbu { hub.tbu with synth := .locking true 7, state := .preparing (toSyn ⟨5, 60, 4⟩) 9 }
       t.tbu.synth = .locking true 7 ∧ t.tbu.state = .preparing (toSyn ⟨5, 60, 4⟩) 9) := by decide

theorem met_CompletionMarksEveryFrame :
    let s := (unit (.waitAlign ⟨.irc, none⟩ (toSyn ⟨5, 60, 4⟩) 9)).setSq 4 { runs 3 with frozen := true }
    s.tbu.state = .waitAlign ⟨.irc, none⟩ (toSyn ⟨5, 60, 4⟩) 9 ∧ (∀ o, (s.sq o).state ≠ .waiting)
    ∧ (s.sq 0).runs = false ∧ ((s.sq 2).runs = true ∧ (s.sq 2).frozen = false)
    ∧ ((s.sq 4).runs = true ∧ (s.sq 4).frozen = true) := by decide

theorem met_SwitchTimeoutFallsBack :
    (unit (.switching ⟨.irc, none⟩ (toSyn ⟨5, 60, 4⟩) 9)).tbu.state = .switching ⟨.irc, none⟩ (toSyn ⟨5, 60, 4⟩) 9
    ∧ (let s := unit (.preparing (toSyn ⟨5, 60, 4⟩) 9)
       s.straps.fse = true ∧ ∀ o, (s.sq o).state ≠ .waiting)
    ∧ (let s : State := { (unit (.preparing (toSyn ⟨5, 60, 4⟩) 9)).setSq 2 .reset with straps := ⟨0, false, false⟩ }
       s.straps.fse = false ∧ ∀ o, (s.sq o).live = false)
    ∧ (let s : State := { unit (.preparing (toSyn ⟨5, 60, 4⟩) 9) with straps := ⟨0, false, false⟩ }
       s.straps.fse = false ∧ (s.sq 2).live = true
         ∧ told (after .switchTimeout s) 1
           = [.clockEvent (.lost .switchTimeout .xo) .lost false]) := by decide

/-- A lock whose instant is the deadline has stored its context when the switch times out; a later one stores nothing. -/
theorem test_lock_at_the_deadline :
    let s (at_ : Nat) := hub.setTbu
      { hub.tbu with synth := .locking false at_, state := .switching ⟨.irc, none⟩ (toSyn ⟨5, 60, 4⟩) 9 }
    (after .switchTimeout (s 9)).tbu.ctx.xo = some ⟨5, 60, 4⟩ ∧ (after .switchTimeout (s 9)).tbu.synth = .stopped
    ∧ (after .lockComplete (after .switchTimeout (s 9))).tbu.state = .running ⟨.irc, none⟩
    ∧ (after .switchTimeout (s 10)).tbu.ctx.xo = none := by decide

theorem met_ActivityAndLockAreWatched :
    (hub.setTbu { hub.tbu with xoCheck := some ⟨0, 5⟩ }).tbu.xoCheck = some ⟨0, 5⟩
    ∧ (hub.setTbu { hub.tbu with xoCheck := some ⟨1, 5⟩ }).tbu.xoCheck = some ⟨1, 5⟩
    ∧ (unit (.running ⟨.exa, some ⟨2, 48, 4⟩⟩)).tbu.state.current = some ⟨.exa, some ⟨2, 48, 4⟩⟩
    ∧ (unit (.waitAlign ⟨.irc, none⟩ (toSyn ⟨5, 60, 4⟩) 9)).tbu.state = .waitAlign ⟨.irc, none⟩ (toSyn ⟨5, 60, 4⟩) 9
    ∧ (toSyn ⟨5, 60, 4⟩).target.syn = some ⟨5, 60, 4⟩ ∧ (unit .lost).tbu.state.current = none
    ∧ (let s (st : TbuState) := (unit st).setTbu { (unit st).tbu with synth := .locking false 7 }
       (s (.preparing (toSyn ⟨5, 60, 4⟩) 9)).tbu.state = .preparing (toSyn ⟨5, 60, 4⟩) 9
         ∧ (s (.switching ⟨.irc, none⟩ (toSyn ⟨5, 60, 4⟩) 9)).tbu.state
           = .switching ⟨.irc, none⟩ (toSyn ⟨5, 60, 4⟩) 9
         ∧ (s (.preparing (toSyn ⟨5, 60, 4⟩) 9)).tbu.synth ≠ .stopped)
    ∧ (let s := unit (.preparing (toSyn ⟨5, 60, 4⟩) 9)
       s.tbu.state.current = none ∧ s.tbu.state.switch = some (toSyn ⟨5, 60, 4⟩) ∧ s.tbu.synth = .stopped)
    ∧ (let s := unit (.switching ⟨.irc, none⟩ ⟨⟨.xo, none⟩, .startUp, none⟩ 9)
       s.tbu.state.current = some ⟨.irc, none⟩ ∧ s.tbu.state.switch = some ⟨⟨.xo, none⟩, .startUp, none⟩)
    ∧ (unit (.running ⟨.irc, none⟩)).tbu.state.switch = none := by decide

theorem met_SourceFailureActsByTheStrap :
    hub.straps.fse = true ∧ open_.straps.fse = false ∧ (hub.sq 0).runs = false ∧ (hub.sq 2).runs = true
    ∧ (open_.sq 2).frozen = false
    ∧ (unit (.switching ⟨.xo, none⟩ (toSyn ⟨5, 60, 4⟩) 9)).tbu.state.switch = some (toSyn ⟨5, 60, 4⟩) := by decide

/-- A fail-safe with a switch in flight: its ABORTED_FAILSAFE goes to TB's holder, and then FAILSAFE to every member. -/
theorem test_failure_during_a_switch :
    let t := sourceFails (unit (.switching ⟨.xo, none⟩ (toSyn ⟨5, 60, 4⟩) 9)) .xoActivity .xo
    let failsafe : Notice := .clockEvent (.failsafe .xoActivity .xo) (.running ⟨.irc, none⟩) true
    told t 0
      = [.clockEvent (.abortedFailsafe (toSyn ⟨5, 60, 4⟩)) (.running ⟨.irc, none⟩) true, failsafe]
    ∧ told t 1 = [failsafe] ∧ t.tbu.xo = .off := by decide

theorem met_GateMovesTheDetector :
    let s (st : DetState) (good : Nat) := hub.setDet .da ⟨st, good, none, none, 0, false⟩
    let xo : State := hub.setDet .da ⟨.absent, 0, none, none, 0, true⟩
    let toExa (st : TbuState) : State := (unit st).setDet .da ⟨.absent, 0, none, none, 0, false⟩
    let sw : Switch := ⟨⟨.exa, some ⟨2, 48, 4⟩⟩, .startUp, none⟩
    (hub.resetLow = false ∧ ((s .absent 0).det .da).xoThroughout = false ∧ 2 ≤ ((s .absent 0).table.ref .da).qualify)
    ∧ (95 * (hub.table.ref .da).freq ≤ 10 * 95000 ∧ 10 * 105000 ≤ 105 * (hub.table.ref .da).freq)
    ∧ ({ hub.table.exa with qualify := 1 } : RefEntry).qualify ≤ 1
    ∧ ((s .qualifying 2).det .da).good + 1 < ((s .qualifying 2).table.ref .da).qualify
    ∧ ((s .qualifying 3).table.ref .da).qualify ≤ ((s .qualifying 3).det .da).good + 1
    ∧ ((s .present 4).det .da).state = .present ∧ ¬ 95 * (hub.table.ref .da).freq ≤ 10 * 94999
    ∧ ((xo.det .da).xoThroughout = true ∧ xoTimed 10000 20000 100010 200000 = .ppm 100
      ∧ (100 : Int).natAbs ≤ (xo.table.ref .da).on ∧ ¬ (101 : Int).natAbs ≤ (xo.table.ref .da).on)
    ∧ (hub.tbu.state.switch = none ∧ ((s .present 4).det .da).state = .present)
    ∧ (let t := (toExa (.switching ⟨.irc, none⟩ (toSyn ⟨5, 60, 4⟩) 9)).setDet .da ⟨.present, 4, none, none, 0, false⟩
       t.tbu.state.switch = some (toSyn ⟨5, 60, 4⟩) ∧ (toSyn ⟨5, 60, 4⟩).target.source ≠ .exa
         ∧ (t.det .da).state = .present)
    ∧ ((toExa (.waitAlign ⟨.irc, none⟩ sw 9)).setDet .da ⟨.present, 4, none, none, 0, false⟩).tbu.state
      = .waitAlign ⟨.irc, none⟩ sw 9
    ∧ ((toExa (.preparing sw 9)).tbu.state = .preparing sw 9 ∧ (toExa (.preparing sw 9)).tbu.synth = .stopped)
    ∧ (let direct : Switch := ⟨⟨.exa, none⟩, .startUp, none⟩
       let s := (toExa (.switching ⟨.irc, none⟩ direct 9)).setDet .da ⟨.present, 4, none, none, 0, false⟩
       s.tbu.state = .switching ⟨.irc, none⟩ direct 9 ∧ (s.det .da).state = .present ∧ s.sourceReady .exa = true
         ∧ (presenceChanged s .da .gate true).tbu.state = .running ⟨.exa, none⟩)
    ∧ (((s .absent 0).det .da).state ≠ .present ∧ hub.tbu.state.current = some ⟨.irc, none⟩)
    ∧ (toExa (.running ⟨.exa, none⟩)).tbu.state.current = some ⟨.exa, none⟩
    ∧ (toExa (.switching ⟨.irc, none⟩ sw 9)).tbu.state = .switching ⟨.irc, none⟩ sw 9
    ∧ ((presenceChanged (toExa (.preparing sw 9)) .da .gate false).tbu.state = .preparing sw 9 ∧ sw.target.source = .exa)
    ∧ (toExa (.waitAlign ⟨.irc, none⟩ sw 9)).tbu.state = .waitAlign ⟨.irc, none⟩ sw 9 := by decide

/-! ### Hypotheses met: rounds, standby and wake -/

set_option synthInstance.maxSize 1024 in
theorem met_VoteIsRecordedOrDecides :
    let two : State := { inRound with consent := ⟨[{ round with required := [1, 2] }], 1⟩ }
    let voted : State := { inRound with consent := ⟨[{ round with required := [1, 2], accepted := [1] }], 1⟩ }
    (admits inRound 1 0x16 [1, 2] ∧ 1 < byteAt [1, 2] 1)
    ∧ (admits inRound 1 0x16 [0, 0] ∧ inRound.proposal 0 = none)
    ∧ (admits inRound 0 0x16 [1, 0] ∧ inRound.proposal 1 = some round ∧ (0 : Master) ∉ round.required)
    ∧ (admits voted 1 0x16 [1, 1] ∧ (voted.proposal 1).map Proposal.accepted = some [1])
    ∧ (admits inRound 1 0x16 [1, 1] ∧ (1 : Master) ∈ round.required ∧ (1 : Master) ∉ round.accepted)
    ∧ (admits two 1 0x16 [1, 0] ∧ (allMasters.filter fun x => x == 1) ≠ [1, 2])
    ∧ (admits inRound 1 0x16 [1, 0] ∧ (allMasters.filter fun x => x == 1) = round.required) := by decide

/-- Each kind of proposal at its last vote, in the states that `Carries` distinguishes; those of a CLOCK are those of
ClockBeginsASwitch. -/
theorem met_Carries :
    ((hub.sq 2).runs = true ∧ ((t2 .stopping).sq 2).runs = true ∧ (hub.sq 1).state = .bound
      ∧ ((t2 .waiting).sq 2).state = .waiting ∧ (hub.sq 0).state = .idle)
    ∧ (hub.sq 2).state = .running ∧ ((t2 .stopping).sq 2).state = .stopping
    ∧ (hub.claim (.out 3)).holders.map Holder.master = [0, 1]
    ∧ (∀ w : Matter, LastVote (lastVote hub w) 1 ⟨0x16, 7, [1, 0]⟩ (roundOn w) ∧ AlignLaw (lastVote hub w)) :=
  ⟨by decide, by decide, by decide, by decide, fun w =>
    ⟨met_LastVote hub w ⟨rfl, rfl, rfl, rfl⟩, fun _ _ _ e => by cases e⟩⟩

theorem met_WithdrawChecksInOrder :
    (admits inRound 0 0x17 [2] ∧ inRound.proposal 2 = none)
    ∧ (admits inRound 1 0x17 [1] ∧ inRound.proposal 1 = some round ∧ round.proposer ≠ 1)
    ∧ (admits inRound 0 0x17 [1] ∧ round.proposer = 0) := by decide

theorem met_DeadlineLapsesTheProposal :
    (inRound.proposal 1 = some round ∧ round.matter = .standby)
    ∧ (let p : Proposal := { round with matter := .outputChange 3 4 }
       let e : Entry := ⟨.change 4, some (0, 7), .reserved, some 1⟩
       let s : State := { hub.setQueue 3 [e] with consent := ⟨[p], 1⟩ }
       s.proposal 1 = some p ∧ s.queue 3 = [e] ∧ e.kind = .change 4 ∧ e.state = .reserved ∧ e.pid = some p.id)
    ∧ inRound.proposal 2 = none := by decide

/-- M0 alone, with every output at rest. -/
def quiet : State := ((hub.setMaster 1 .reset).setSq 1 .reset).setSq 2 .reset

set_option synthInstance.maxSize 1024 in
theorem met_StandbyRestsEveryOutput :
    let held := (quiet.setSq 1 (hub.sq 1)).setQueue 1 [entry .stop .reserved]
    let rests (s : State) : Prop := s.tbu.state = .running ⟨.irc, none⟩ ∧ s.da.xoThroughout = false
      ∧ s.db.xoThroughout = false ∧ ∀ o, ((s.sq o).state = .idle ∨ (s.sq o).state = .bound) ∧ (s.sq o).next = none
        ∧ (s.sq o).cut = none ∧ s.burst o = none ∧ ∀ e ∈ s.queue o, e.state = .reserved
    (admits (hub.setMaster 1 .reset) 0 0x18 [0, 0] ∧ otherMembers (hub.setMaster 1 .reset) 0 = [])
    ∧ (admits quiet 0 0x18 [0, 0] ∧ otherMembers quiet 0 = [] ∧ rests quiet)
    ∧ (admits three 0 0x18 [0xE8, 3] ∧ otherMembers three 0 ≠ [] ∧ three.proposalOn none = none
      ∧ wordAt [0xE8, 3] 0 = 1000)
    ∧ (inRound.proposalOn none).isSome = true
    ∧ (let p (i : Nat) (o : Output) : Proposal := ⟨i, .outputStart o, 0, 7, [1], [], 9000⟩
       let s : State := { hub with consent := ⟨[p 1 0, p 2 1, p 3 2, p 4 3], 4⟩ }
       s.proposalOn none = none ∧ 4 ≤ s.consent.proposals.length)
    ∧ ((held.sq 1).state = .bound ∧ held.queue 1 = [entry .stop .reserved] ∧ rests held)
    ∧ rests (lastVote ((hub.setSq 1 .reset).setSq 2 .reset) .standby) := by decide

/-- `AlignLaw` beside the request, with a running output and a switch that waits for it. -/
theorem met_StandbyRestsEveryOutput_align :
    let s := (unit (.waitAlign ⟨.irc, none⟩ (toSyn ⟨5, 60, 4⟩) 9)).setMaster 1 .reset
    admits s 0 0x18 [0, 0] ∧ otherMembers s 0 = [] ∧ (s.sq 2).state = .running ∧ AlignLaw (asks s 0 0x18 [0, 0]) :=
  ⟨by decide, by decide, by decide, fun _ _ _ e => by cases e; exact ⟨2, rfl, by decide⟩⟩

/-- The selection kept: the target of a switch in flight, in LOST the locked selection, else that of INITSEL. -/
theorem test_kept_selection :
    let lost := unit .lost
    keptSelection (unit (.switching ⟨.irc, none⟩ (toSyn ⟨5, 60, 4⟩) 9)) = ⟨.xo, some ⟨5, 60, 4⟩⟩
    ∧ keptSelection (lost.setTbu { lost.tbu with lock := some ⟨.exa, none⟩ }) = ⟨.exa, none⟩
    ∧ keptSelection { lost with straps := ⟨1, false, false⟩ } = ⟨.xo, none⟩ := by decide

/-- Standby of a running output with a QUEUED STOP and a burst, and of a switch in flight: what M0 is told, in order. -/
theorem test_standby_tells_in_order :
    let s := (((unit (.switching ⟨.irc, none⟩ (toSyn ⟨5, 60, 4⟩) 9)).setQueue 2 [entry .stop .queued]).setBurst 2
      (some (timed .on 2 1 0))).setMaster 1 .reset
    told (after (.standby 0) (asks s 0 0x18 [0, 0])) 0 =
      [.changeDone 2 .stop (some (0, 7)) none 0 .discarded,
       .burstDone 2 (.timed 2 1 2 2 3) 0 7 .standby 1 0 0,
       .outputState 2 .running .bound 0,
       .clockEvent (.abortedStandby (toSyn ⟨5, 60, 4⟩)) (.standby ⟨.xo, some ⟨5, 60, 4⟩⟩) false] := by decide +kernel

theorem met_WakeResumesTheMarkedOutputs :
    let s := quiet.setTbu { quiet.tbu with state := .standby ⟨.irc, none⟩ }
    let marked := s.setSq 1 { hub.sq 1 with resumeMark := true }
    (admits s 0 0x19 [] ∧ s.tbu.state = .standby ⟨.irc, none⟩ ∧ s.tbu.xo = .off ∧ s.table.xo.keep = false
      ∧ s.tbu.synth = .stopped ∧ (∀ o, (s.sq o).state ≠ .waiting) ∧ ∀ o, (s.sq o).resumeMark = false)
    ∧ (admits marked 0 0x19 [] ∧ (∀ p, (marked.sq p).state ≠ .waiting) ∧ (∀ p, (marked.sq p).state ≠ .running)
      ∧ (marked.sq 1).state = .bound ∧ (marked.sq 1).resumeMark = true ∧ (marked.sq 1).group = none)
    ∧ (admits hub 0 0x19 [] ∧ hub.tbu.state.isStandby = false) := by decide

/-- A wake to the XO, which is not READY: with TWOSPD 1 the marked T1 starts on IRC direct while the switch is in flight;
with TWOSPD 0, and with the lock set, the unit is in PREPARING and T1 waits. -/
theorem test_wake_to_another_selection :
    let s (two : Bool) (lock : Option Selection) : State :=
      { (quiet.setTbu { quiet.tbu with state := .standby ⟨.xo, none⟩, lock := lock }).setSq 1
          { hub.sq 1 with resumeMark := true } with straps := ⟨1, two, lock.isNone⟩ }
    let t (two : Bool) (lock : Option Selection) : State := after (.wake 0) (asks (s two lock) 0 0x19 [])
    let sw : Switch := ⟨⟨.xo, none⟩, .wake, none⟩
    admits (s true none) 0 0x19 [] ∧ (s true none).tbu.state = .standby ⟨.xo, none⟩
    ∧ (t true none).tbu.state = .switching ⟨.irc, none⟩ sw (40 * cyclesPerMs) ∧ ((t true none).sq 1).state = .running
    ∧ (t false none).tbu.state = .preparing sw (40 * cyclesPerMs) ∧ ((t false none).sq 1).state = .waiting
    ∧ (t true (some ⟨.irc, none⟩)).tbu.state = .preparing sw (40 * cyclesPerMs)
    ∧ ((t true (some ⟨.irc, none⟩)).sq 1).wakeStart = true := by decide

/-! ### Hypotheses met: the laws of every step -/

theorem met_EveryStepKeepsTheBounds :
    ((∀ m, (hub.link m).buf.length ≤ 2 ∧ (hub.link m).queue.length ≤ 16) ∧ (∀ o, (hub.queue o).length ≤ 4)
      ∧ hub.consent.proposals.length ≤ 4)
    ∧ RecordLaws lawful := ⟨by decide, lawful_keeps_its_laws⟩

/-- The hub, waiting to switch at a frame start of T2, which runs. -/
theorem waits_for_t2 : AlignLaw (unit (.waitAlign ⟨.irc, none⟩ (toSyn ⟨5, 60, 4⟩) 9)) :=
  fun _ _ _ e => by cases e; exact ⟨2, rfl, by decide⟩

theorem met_EveryStepKeepsTheTimebaseLaws :
    ((hub.straps.fse = true → hub.tbu.state ≠ .lost ∧ hub.tbu.lock = none) ∧ (hub.straps.fse = false → hub.tbu.fail = false)
      ∧ (hub.resetLow = true → hub.straps.fse = false ∧ hub.tbu.lock = none))
    ∧ AlignLaw (unit (.waitAlign ⟨.irc, none⟩ (toSyn ⟨5, 60, 4⟩) 9)) := ⟨by decide, waits_for_t2⟩

theorem met_FixedProfilesStayAsTheyAre :
    let s : State := { hub with pending := [.lineStart 2] }
    (∃ t, step s = .next t) ∧ s.pending.head? ≠ some .externalReset ∧ (s.slot 1).state = .fixedSlot :=
  ⟨⟨_, rfl⟩, by decide, by decide⟩

end Sys2Proof.Tests
end

section
/-! The profile requests that change the Profile Table (chapter 1): what each owner answers, condition by condition,
and with it the statements of PROFILE_WRITE, PROFILE_FIX and PROFILE_FREE. -/

namespace Sys2Proof.ProfileProofs

open Machine Laws

/-! ### From the command to its owner -/

section Commands

variable {s : State} {m : Master} {f : Frame} {r : Reply}

/-- An admitted request whose owner answers `r` ends in the state of `r`, with its code and payload in the response. -/
theorem serve_eq_answered {k : Byte} {owner : State → Frame → Reply} (h : Admitted s m k f)
    (hk : knownKind k.toNat = true) (hr : owner (taken s m f) f = r) :
    serve s m (kindIs k.toNat) owner = answered r.state m f r.code r.payload := by
  rw [serve_of_admitted h hk (kindIs_of_admitted h), hr]

theorem exec_profileWrite_of_reply (h : Admitted s m 0x05 f) (hr : profileWrite (taken s m f) m f = r) :
    exec (.profileWrite m) s = .next (answered r.state m f r.code r.payload) :=
  congrArg Host.Outcome.next (serve_eq_answered (owner := fun s f => profileWrite s m f) h (by decide) hr)

theorem exec_profileFix_of_reply (h : Admitted s m 0x06 f) (hr : profileFix (taken s m f) m f = r) :
    exec (.profileFix m) s = .next (answered r.state m f r.code r.payload) :=
  congrArg Host.Outcome.next (serve_eq_answered (owner := fun s f => profileFix s m f) h (by decide) hr)

theorem exec_profileFree_of_reply (h : Admitted s m 0x07 f) (hr : profileFree (taken s m f) m f = r) :
    exec (.profileFree m) s = .next (answered r.state m f r.code r.payload) :=
  congrArg Host.Outcome.next (serve_eq_answered (owner := fun s f => profileFree s m f) h (by decide) hr)

end Commands

/-- The slot-number check fails for 16 and more, and names field 0 (R4). -/
theorem withSlot_of_le {s : State} {f : Frame} (h : 16 ≤ byteAt f.payload 0) (act : Slot → Reply) :
    withSlot s f act = badField s 0 := by
  simp only [withSlot, slotOf_of_le h]

/-! ### PROFILE_WRITE by the state of the slot (R5) -/

section Write

variable {s : State} {m : Master} {f : Frame} {k : Slot} (hk : byteAt f.payload 0 = k.val)
include hk

theorem profileWrite_of_empty (h : (s.slot k).state = .emptySlot) :
    profileWrite s m f =
      okay (s.setSlot k ⟨.openSlot, some m, 0, geometryOf f.payload, labelOf f.payload⟩) := by
  simp only [profileWrite, withSlot_val hk, h]

theorem profileWrite_of_own_open (h : (s.slot k).state = .openSlot) (ho : (s.slot k).owner = some m) :
    profileWrite s m f =
      okay (s.setSlot k ⟨.openSlot, some m, 0, geometryOf f.payload, labelOf f.payload⟩) := by
  simp only [profileWrite, withSlot_val hk, h, if_pos ho]

theorem profileWrite_of_other_open (h : (s.slot k).state = .openSlot) (ho : (s.slot k).owner ≠ some m) :
    profileWrite s m f = refuse s .notOwner := by
  simp only [profileWrite, withSlot_val hk, h, if_neg ho]

theorem profileWrite_of_fixed (h : (s.slot k).state = .fixedSlot) : profileWrite s m f = refuse s .state := by
  simp only [profileWrite, withSlot_val hk, h]

end Write

/-- Settles O21: the owner's answer for each state of the slot, on the state in which the request is taken. -/
theorem profileWriteStoresADraft : Obligations.ProfileWriteStoresADraft := by
  intro s m f h
  refine ⟨fun hp => exec_profileWrite_of_reply h (withSlot_of_le hp _), fun k hk => ⟨?_, ?_, ?_⟩⟩
  · rintro (he | ⟨hs, ho⟩)
    · exact exec_profileWrite_of_reply h (profileWrite_of_empty hk he)
    · exact exec_profileWrite_of_reply h (profileWrite_of_own_open hk hs ho)
  · exact fun hs ho => exec_profileWrite_of_reply h (profileWrite_of_other_open hk hs ho)
  · exact fun hs => exec_profileWrite_of_reply h (profileWrite_of_fixed hk hs)

/-! ### The geometry checks of PROFILE_FIX (R7) -/

/-- The check that R7 makes of field `n`; there is none of a number that is no field. -/
def FieldPasses (g : Geometry) : Nat → Prop
  | 1 => 64 ≤ g.lp
  | 2 => 1 ≤ g.lsw ∧ g.lsw ≤ g.lp / 2
  | 3 => 32 ≤ g.lf ∧ g.lf ≤ 16383
  | 4 => 1 ≤ g.fsw ∧ g.fsw ≤ 8
  | 5 => g.fsw ≤ g.ws
  | 6 => 8 ≤ g.wh ∧ g.ws + g.wh ≤ g.lf
  | 7 => 1 ≤ g.fd ∧ g.fd ≤ 16
  | 8 => 1 ≤ g.dc ∧ g.dc ≤ 100
  | _ => True

/-- Field `n` is the first that fails its check. -/
def FirstFails (g : Geometry) (n : Nat) : Prop := (∀ i, i < n → FieldPasses g i) ∧ ¬FieldPasses g n

/-- At most one field is the first that fails. -/
theorem FirstFails.unique {g : Geometry} {n k : Nat} (hn : FirstFails g n) (hk : FirstFails g k) : n = k := by
  rcases Nat.lt_trichotomy n k with l | e | l
  · exact absurd (hk.1 n l) hn.2
  · exact e
  · exact absurd (hn.1 k l) hk.2

/-- A geometry with no bad field passes every check. -/
theorem fieldPasses_of_firstBadField_none {g : Geometry} (h : firstBadField g = none) (n : Nat) :
    FieldPasses g n := by
  unfold firstBadField at h
  split_ifs at h
  unfold FieldPasses
  split
  case h_9 => trivial
  all_goals omega

/-- The bad field that the model reports is the first that fails. -/
theorem firstFails_of_firstBadField_some {g : Geometry} {n : Nat} (h : firstBadField g = some n) :
    FirstFails g n := by
  unfold firstBadField at h
  split_ifs at h <;> cases h
  all_goals
    refine ⟨fun i hi => ?_, by simp only [FieldPasses]; omega⟩
    unfold FieldPasses
    split
    case h_9 => trivial
    all_goals omega

theorem firstBadField_eq_none {g : Geometry} (h : ∀ n, FieldPasses g n) : firstBadField g = none := by
  cases e : firstBadField g with
  | none => rfl
  | some n => exact absurd (h n) (firstFails_of_firstBadField_some e).2

theorem firstBadField_eq_some {g : Geometry} {n : Nat} (h : FirstFails g n) : firstBadField g = some n := by
  cases e : firstBadField g with
  | none => exact absurd (fieldPasses_of_firstBadField_none e n) h.2
  | some k => rw [(firstFails_of_firstBadField_some e).unique h]

/-! ### PROFILE_FIX by the state of the slot (R6) -/

section Fix

variable {s : State} {m : Master} {f : Frame} {k : Slot} (hk : byteAt f.payload 0 = k.val)
include hk

theorem profileFix_of_passing (h : (s.slot k).state = .openSlot) (ho : (s.slot k).owner = some m)
    (hg : ∀ n, FieldPasses (s.slot k).geom n) :
    profileFix s m f = okay (s.setSlot k { s.slot k with state := .fixedSlot }) := by
  simp only [profileFix, withSlot_val hk, h, if_pos ho, firstBadField_eq_none hg]

theorem profileFix_of_failing {n : Nat} (h : (s.slot k).state = .openSlot) (ho : (s.slot k).owner = some m)
    (hg : FirstFails (s.slot k).geom n) : profileFix s m f = badField s n := by
  simp only [profileFix, withSlot_val hk, h, if_pos ho, firstBadField_eq_some hg]

theorem profileFix_of_other_open (h : (s.slot k).state = .openSlot) (ho : (s.slot k).owner ≠ some m) :
    profileFix s m f = refuse s .notOwner := by
  simp only [profileFix, withSlot_val hk, h, if_neg ho]

theorem profileFix_of_not_open (h : (s.slot k).state ≠ .openSlot) : profileFix s m f = refuse s .state := by
  simp only [profileFix, withSlot_val hk]
  cases e : (s.slot k).state with
  | emptySlot => rfl
  | openSlot => exact absurd e h
  | fixedSlot => rfl

end Fix

/-- Settles O22: the number in the refusal is the first field that fails, of which there is one only. -/
theorem profileFixChecksTheGeometry : Obligations.ProfileFixChecksTheGeometry := by
  intro s m f h
  refine ⟨fun hp => exec_profileFix_of_reply h (withSlot_of_le hp _), fun k hk => ⟨?_, ?_, ?_, ?_⟩⟩
  · exact fun hs ho hg => exec_profileFix_of_reply h (profileFix_of_passing hk hs ho hg)
  · exact fun n hs ho hi hn => exec_profileFix_of_reply h (profileFix_of_failing hk hs ho ⟨hi, hn⟩)
  · exact fun hs ho => exec_profileFix_of_reply h (profileFix_of_other_open hk hs ho)
  · exact fun hs => exec_profileFix_of_reply h (profileFix_of_not_open hk hs)

/-! ### PROFILE_FREE, its conditions in order (R8) -/

theorem cutNames_iff {s : State} {k : Slot} :
    cutNames s k = true ↔ ∃ o c, (s.sq o).cut = some c ∧ c.slot = k := by
  simp only [cutNames, List.any_eq_true, mem_allOutputs, true_and, beq_iff_eq, Option.map_eq_some_iff]

section Free

variable {s : State} {m : Master} {f : Frame} {k : Slot} (hk : byteAt f.payload 0 = k.val)
include hk

theorem profileFree_of_empty (h : (s.slot k).state = .emptySlot) : profileFree s m f = refuse s .state := by
  simp only [profileFree, withSlot_val hk, if_pos h]

theorem profileFree_of_other_owner {j : Master} (h : (s.slot k).state ≠ .emptySlot)
    (ho : (s.slot k).owner = some j) (hj : j ≠ m) : profileFree s m f = refuse s .notOwner := by
  simp [profileFree, withSlot_val hk, h, ho, hj]

theorem profileFree_of_own_open (h : (s.slot k).state = .openSlot) (ho : (s.slot k).owner = some m) :
    profileFree s m f = okay (s.setSlot k .reset) := by
  simp [profileFree, withSlot_val hk, h, ho]

/-- Past the conditions on state and owner, a FIXED slot is refused while something names it, and emptied otherwise. -/
theorem profileFree_of_fixed (h : (s.slot k).state = .fixedSlot)
    (ho : (s.slot k).owner = some m ∨ (s.slot k).owner = none) :
    profileFree s m f =
      if 0 < (s.slot k).refs ∨ cutNames s k = true then refuse s .inUse else okay (s.setSlot k .reset) := by
  have owned : ¬((s.slot k).owner.isSome = true ∧ (s.slot k).owner ≠ some m) := by
    rcases ho with e | e <;> simp [e]
  simp only [profileFree, withSlot_val hk, h, reduceCtorEq, if_false, if_neg owned]
  by_cases hr : 0 < (s.slot k).refs <;> simp [hr]

theorem profileFree_of_named (h : (s.slot k).state = .fixedSlot)
    (ho : (s.slot k).owner = some m ∨ (s.slot k).owner = none)
    (hn : 0 < (s.slot k).refs ∨ ∃ o c, (s.sq o).cut = some c ∧ c.slot = k) :
    profileFree s m f = refuse s .inUse := by
  rw [profileFree_of_fixed hk h ho, if_pos (hn.imp_right cutNames_iff.mpr)]

theorem profileFree_of_unnamed (h : (s.slot k).state = .fixedSlot)
    (ho : (s.slot k).owner = some m ∨ (s.slot k).owner = none) (hr : (s.slot k).refs = 0)
    (hc : ∀ o c, (s.sq o).cut = some c → c.slot ≠ k) : profileFree s m f = okay (s.setSlot k .reset) := by
  have unnamed : ¬(0 < (s.slot k).refs ∨ cutNames s k = true) := by
    rintro (l | e)
    · omega
    · obtain ⟨o, c, hoc, hck⟩ := cutNames_iff.mp e
      exact hc o c hoc hck
  rw [profileFree_of_fixed hk h ho, if_neg unnamed]

end Free

/-- Settles O23: the conditions of R8 in their order, each met in the state in which the request is taken. -/
theorem profileFreeProtectsNamedSlots : Obligations.ProfileFreeProtectsNamedSlots := by
  intro s m f h
  refine ⟨fun hp => exec_profileFree_of_reply h (withSlot_of_le hp _), fun k hk => ⟨?_, ?_, ?_, ?_, ?_⟩⟩
  · exact fun hs => exec_profileFree_of_reply h (profileFree_of_empty hk hs)
  · exact fun hs ⟨_, ho, hj⟩ => exec_profileFree_of_reply h (profileFree_of_other_owner hk hs ho hj)
  · exact fun hs ho => exec_profileFree_of_reply h (profileFree_of_own_open hk hs ho)
  · exact fun hs ho hn => exec_profileFree_of_reply h (profileFree_of_named hk hs ho hn)
  · exact fun hs ho hr hc => exec_profileFree_of_reply h (profileFree_of_unnamed hk hs ho hr hc)

end Sys2Proof.ProfileProofs
end

section
/-! How a proposal ends without carrying, and WITHDRAW (chapter 5): the model's end of a round in the words of the
statements, and what the owner of WITHDRAW answers, condition by condition. -/

namespace Sys2Proof.ConsentProofs

open Machine Laws

/-- A proposal that ends without carrying first loses what it reserved, and then the round is over (R51, R90). Only one
to change or stop an output reserves anything. -/
theorem endProposal_eq_roundOver (s : State) (p : Proposal) (c : RoundOutcome) :
    endProposal s p c = roundOver (unreserve s p) p c := by
  unfold endProposal unreserve
  cases p.matter with
  | outputChange o k => simp only [Matter.reserves, ← removeReserved_eq]; rfl
  | outputStop o => simp only [Matter.reserves, ← removeReserved_eq]; rfl
  | outputStart _ => rfl
  | claimExclusive _ => rfl
  | clockChange _ _ => rfl
  | standby => rfl
  | deviceReset => rfl

/-! ### WITHDRAW (R87) -/

theorem exec_withdraw_of_reply {s : State} {m : Master} {f : Frame} {r : Reply} (h : Admitted s m 0x17 f)
    (hr : withdrawRequest (taken s m f) m f = r) :
    exec (.withdraw m) s = .next (answered r.state m f r.code r.payload) :=
  congrArg Host.Outcome.next
    (ProfileProofs.serve_eq_answered (owner := fun s f => withdrawRequest s m f) h (by decide) hr)

section Withdraw

variable {s : State} {m : Master} {f : Frame} {p : Proposal}

theorem withdrawRequest_of_no_proposal (h : s.proposal (byteAt f.payload 0) = none) :
    withdrawRequest s m f = refuse s .noSuch := by
  simp only [withdrawRequest, h]

theorem withdrawRequest_of_other_proposer (h : s.proposal (byteAt f.payload 0) = some p) (hm : p.proposer ≠ m) :
    withdrawRequest s m f = refuse s .notOwner := by
  simp only [withdrawRequest, h, if_neg hm]

theorem withdrawRequest_of_proposer (h : s.proposal (byteAt f.payload 0) = some p) (hm : p.proposer = m) :
    withdrawRequest s m f = okay (endProposal s p .withdrawn) := by
  simp only [withdrawRequest, h, if_pos hm]

end Withdraw

/-- Settles O54: the owner's answer for each of the conditions of R87 in their order, on the state in which the request
is taken (taking it changes no proposal); the end of the proposal in the statement's words is `endProposal_eq_roundOver`. -/
theorem withdrawChecksInOrder : Obligations.WithdrawChecksInOrder := by
  intro s m f h
  refine ⟨fun hn => exec_withdraw_of_reply h (withdrawRequest_of_no_proposal hn), fun p hp => ⟨?_, fun hm => ?_⟩⟩
  · exact fun hm => exec_withdraw_of_reply h (withdrawRequest_of_other_proposer hp hm)
  · have ends : exec (.withdraw m) s = .next (answered (endProposal (taken s m f) p .withdrawn) m f .ok []) :=
      exec_withdraw_of_reply h (withdrawRequest_of_proposer hp hm)
    exact ⟨ends, endProposal_eq_roundOver (taken s m f) p .withdrawn ▸ ends⟩

end Sys2Proof.ConsentProofs
end

section
/-! BURST_END (chapter 8): what its owner answers, condition by condition, on the state in which it is taken. -/

namespace Sys2Proof.BurstProofs

open Machine Laws

/-- A burst that a request ends is told to its origin alone, whoever holds the output (R139, R140). -/
theorem finishBurst_ended (s : State) (o : Output) (b : Burst) :
    finishBurst s o b .ended = (s.setBurst o none).hand b.origin
      (.burstDone o b.pattern b.origin b.tag .ended b.pulses b.repeats (s.sq o).frameNo) := rfl

/-- A master that does not hold a target is not its sole holder (R65). -/
theorem not_isSole_of_not_holder {s : State} {t : Target} {m : Master} (h : s.isHolder t m = false) :
    s.isSole t m = false := by
  cases hs : s.isSole t m with
  | false => rfl
  | true => exact (isHolder_of_isSole hs).symm.trans h

theorem exec_burstEnd_of_reply {s : State} {m : Master} {f : Frame} {r : Reply} (h : Admitted s m 0x12 f)
    (hr : burstEndRequest (taken s m f) m f = r) :
    exec (.burstEnd m) s = .next (answered r.state m f r.code r.payload) :=
  congrArg Host.Outcome.next
    (ProfileProofs.serve_eq_answered (owner := fun s f => burstEndRequest s m f) h (by decide) hr)

/-! ### BURST_END by its conditions (R140) -/

section BurstEnd

variable {s : State} {m : Master} {f : Frame} {o : Output} {b : Burst}

theorem burstEndRequest_of_no_output (h : 7 < byteAt f.payload 0) :
    burstEndRequest s m f = refuse s .badValue := withOutput_of_lt h _

theorem burstEndRequest_of_idle (ho : byteAt f.payload 0 = o.val) (hb : s.burst o = none) :
    burstEndRequest s m f = refuse s .state := by
  simp only [burstEndRequest, withOutput_val ho, hb]

/-- With a burst under way, the requester's part in it decides: its origin or the sole holder of the output ends it, and
any other master is refused by whether it holds the output. -/
theorem burstEndRequest_of_burst (ho : byteAt f.payload 0 = o.val) (hb : s.burst o = some b) :
    burstEndRequest s m f =
      if b.origin = m ∨ s.isSole (.out o) m = true then okay (finishBurst s o b .ended)
      else if s.isHolder (.out o) m = false then refuse s .notHolder
      else refuse s .notSole := by
  simp only [burstEndRequest, withOutput_val ho, hb, Bool.not_eq_true']

theorem burstEndRequest_of_entitled (ho : byteAt f.payload 0 = o.val) (hb : s.burst o = some b)
    (hm : b.origin = m ∨ s.isSole (.out o) m = true) :
    burstEndRequest s m f = okay (finishBurst s o b .ended) := by
  rw [burstEndRequest_of_burst ho hb, if_pos hm]

theorem burstEndRequest_of_not_holder (ho : byteAt f.payload 0 = o.val) (hb : s.burst o = some b)
    (hm : b.origin ≠ m) (hh : s.isHolder (.out o) m = false) :
    burstEndRequest s m f = refuse s .notHolder := by
  have unentitled : ¬(b.origin = m ∨ s.isSole (.out o) m = true) := by
    simp [hm, not_isSole_of_not_holder hh]
  rw [burstEndRequest_of_burst ho hb, if_neg unentitled, if_pos hh]

theorem burstEndRequest_of_sharer (ho : byteAt f.payload 0 = o.val) (hb : s.burst o = some b)
    (hm : b.origin ≠ m) (hh : s.isHolder (.out o) m = true) (hs : s.isSole (.out o) m = false) :
    burstEndRequest s m f = refuse s .notSole := by
  have unentitled : ¬(b.origin = m ∨ s.isSole (.out o) m = true) := by simp [hm, hs]
  have holds : ¬s.isHolder (.out o) m = false := by simp [hh]
  rw [burstEndRequest_of_burst ho hb, if_neg unentitled, if_neg holds]

end BurstEnd

/-- Settles O41: the owner's answer for each of the conditions of R140 in their order. Taking the request changes neither
the burst nor who holds the output, so a condition met before holds where the owner checks it. -/
theorem burstEndChecksInOrder : Obligations.BurstEndChecksInOrder := by
  intro s m f h
  refine ⟨fun hp => exec_burstEnd_of_reply h (burstEndRequest_of_no_output hp), fun o ho =>
    ⟨fun hb => exec_burstEnd_of_reply h (burstEndRequest_of_idle ho hb), fun b hb => ?_⟩⟩
  rw [← taken_burst s m f] at hb
  rw [← taken_isHolder s m m f, ← taken_isSole s m m f]
  refine ⟨fun hm => ?_, fun hm hh => ?_, fun hm hh hs => ?_⟩
  · rw [← taken_sq s m f, ← finishBurst_ended]
    exact exec_burstEnd_of_reply h (burstEndRequest_of_entitled ho hb hm)
  · exact exec_burstEnd_of_reply h (burstEndRequest_of_not_holder ho hb hm hh)
  · exact exec_burstEnd_of_reply h (burstEndRequest_of_sharer ho hb hm hh hs)

end Sys2Proof.BurstProofs
end

section
/-! RELAY (chapter 10): what its owner answers, condition by condition, on the state in which it is taken. -/

namespace Sys2Proof.RelayProofs

open Machine Laws

theorem exec_relay_of_reply {s : State} {m : Master} {f : Frame} {r : Reply} (h : Admitted s m 0x1B f)
    (hr : relayRequest (taken s m f) m f = r) :
    exec (.relay m) s = .next (answered r.state m f r.code r.payload) :=
  congrArg Host.Outcome.next
    (ProfileProofs.serve_eq_answered (owner := fun s f => relayRequest s m f) h (by decide) hr)

/-! ### RELAY by its conditions (R164) -/

section Relay

variable {s : State} {m j : Master} {f : Frame}

theorem relayRequest_of_no_master (h : 3 < byteAt f.payload 0) : relayRequest s m f = refuse s .badValue := by
  simp only [relayRequest, masterOf_of_le h]

/-- A number of a master leaves the two checks of the target, and behind them the notice is handed on. -/
theorem relayRequest_of_master (hj : byteAt f.payload 0 = j.val) :
    relayRequest s m f =
      if s.joined j = false then refuse s .noSuch
      else if noticeLimit ≤ (s.link j).queue.length then refuse s .full
      else okay (s.hand j (.relay m (f.payload.drop 1))) := by
  simp only [relayRequest, hj, masterOf_val, Bool.not_eq_true']

theorem relayRequest_of_not_joined (hj : byteAt f.payload 0 = j.val) (ho : s.joined j = false) :
    relayRequest s m f = refuse s .noSuch := by
  rw [relayRequest_of_master hj, if_pos ho]

theorem relayRequest_of_full (hj : byteAt f.payload 0 = j.val) (ho : s.joined j = true)
    (hq : noticeLimit ≤ (s.link j).queue.length) : relayRequest s m f = refuse s .full := by
  rw [relayRequest_of_master hj, if_neg (ne_false_of_eq_true ho), if_pos hq]

/-- A member with room in its queue receives the bytes behind the target's number, in their order, under the sender's
number. -/
theorem relayRequest_of_room (hj : byteAt f.payload 0 = j.val) (ho : s.joined j = true)
    (hq : (s.link j).queue.length < noticeLimit) :
    relayRequest s m f = okay (s.setLink j
      { s.link j with queue := (s.link j).queue ++ [⟨.relay m (f.payload.drop 1), false⟩] }) := by
  rw [relayRequest_of_master hj, if_neg (ne_false_of_eq_true ho), if_neg (Nat.not_le.mpr hq),
    State.hand_of_room s _ ho hq]

end Relay

/-- Settles O20: the owner's answer for each of the conditions of R164 in their order. Taking the request changes neither
who is a member nor a notice queue, so a condition met before holds where the owner checks it. -/
theorem relayChecksAndDelivers : Obligations.RelayChecksAndDelivers := by
  intro s m f h
  have ⟨_, _, _, sender, _⟩ := h
  refine ⟨fun hp => exec_relay_of_reply h (relayRequest_of_no_master hp), fun j hj => ?_⟩
  rw [← taken_joined s m f sender j, ← taken_link_queue s m j f]
  refine ⟨fun ho => ?_, fun ho hq => ?_, fun ho hq => ?_⟩
  · exact exec_relay_of_reply h (relayRequest_of_not_joined hj ho)
  · exact exec_relay_of_reply h (relayRequest_of_full hj ho hq)
  · exact exec_relay_of_reply h (relayRequest_of_room hj ho hq)

end Sys2Proof.RelayProofs
end

section
/-! The laws that every step keeps: bounds and the FSE law with the FIXED profiles (`Orderly`), the align output
(`AlignLaw`) and the laws of the records (`Sound`), each followed from the owners' lemmas through the commands to the
step, and with them the tier 3 statements. -/

namespace Sys2Proof.StepProofs

open Machine Laws

/-! ### What a step is -/

/-- A step is a command, on the state with the queue's rest, or what time does by itself. -/
theorem step_cases {s t : State} (h : step s = .next t) :
    (s.pending = [] ∧ t = idle s)
    ∨ ∃ c rest, s.pending = c :: rest ∧ exec c { s with pending := rest } = .next t := by
  unfold step at h
  split at h
  next hp => cases h; exact .inl ⟨hp, rfl⟩
  next c rest hp => exact .inr ⟨c, rest, hp, h⟩

/-- A request command does nothing, or it answers a frame of its row that passed the admission checks or was refused at
them, in the state in which the frame has left the buffer and had its common effect. -/
theorem serve_cases (s : State) (m : Master) (row : Frame → Bool) (owner : State → Frame → Reply) :
    serve s m row owner = s
    ∨ s.resetLow = false ∧ ∃ f, row f = true ∧
      let u := commonEffect (popRequest s m) m f
      (∃ c, serve s m row owner = respond m f (refuse u c))
      ∨ admission u m f = none ∧ serve s m row owner = respond m f (owner u f) := by
  unfold serve
  split
  next => exact .inl rfl
  next f hf =>
    have low : s.resetLow = false := by
      unfold nextRequest at hf
      split_ifs at hf with c
      simp only [Bool.not_eq_true, Bool.or_eq_false_iff] at c
      exact c.1.2
    split
    next hr =>
      refine .inr ⟨low, f, hr, ?_⟩
      unfold handle
      dsimp only
      split
      next c _ => exact .inl ⟨c, rfl⟩
      next ha => exact .inr ⟨ha, rfl⟩
    next => exact .inl rfl

/-! ### What a QUERY leaves -/

theorem queryDevice_state (s : State) (f : Frame) : (queryDevice s f).state = s := queryReply_state rfl

theorem queryOutput_state (s : State) (f : Frame) : (queryOutput s f).state = s :=
  queryReply_state (answerPart_state s _)

theorem queryTimebase_state (s : State) (f : Frame) : (queryTimebase s f).state = s := queryReply_state rfl

theorem querySource_state (s : State) (f : Frame) : (querySource s f).state = s :=
  queryReply_state (answerPart_state s _)

theorem queryMaster_state (s : State) (f : Frame) : (queryMaster s f).state = s :=
  queryReply_state (answerPart_state s _)

theorem queryLink_state (s : State) (m : Master) (f : Frame) : (queryLink s m f).state = s := queryReply_state rfl

/-! ### Bounds, the FSE law and FIXED profiles -/

/-- What keeps the bounds of O58 and the FSE law. -/
structure Bounded (s t : State) : Prop where
  links : LinkBounds s → LinkBounds t
  entries : QueueBounds s → QueueBounds t
  table : TableBound s → TableBound t
  fse : FseLaw s → FseLaw t

/-- A FIXED profile stays FIXED, with its geometry and label. -/
def FixedStays (s t : State) : Prop := ∀ k, (s.slot k).state = .fixedSlot →
  (t.slot k).state = .fixedSlot ∧ (t.slot k).geom = (s.slot k).geom ∧ (t.slot k).label = (s.slot k).label

/-- What keeps the bounds, the FSE law and the FIXED profiles. -/
structure Orderly (s t : State) : Prop extends Bounded s t where
  fixed : FixedStays s t

theorem Bounded.trans {s t u : State} (h : Bounded s t) (g : Bounded t u) : Bounded s u :=
  ⟨g.links ∘ h.links, g.entries ∘ h.entries, g.table ∘ h.table, g.fse ∘ h.fse⟩

theorem FixedStays.of_slots {s t : State} (h : t.slots = s.slots) : FixedStays s t := fun k hk => by
  have e : t.slot k = s.slot k := by simp only [State.slot, h]
  rw [e]; exact ⟨hk, rfl, rfl⟩

theorem FixedStays.trans {s t u : State} (h : FixedStays s t) (g : FixedStays t u) : FixedStays s u := fun k hk =>
  have ⟨a, b, c⟩ := h k hk
  have ⟨a', b', c'⟩ := g k a
  ⟨a', b'.trans b, c'.trans c⟩

/-- What leaves queues, proposals and the Timebase Unit alone, and the links within their bounds, keeps the bounds. -/
theorem Bounded.of_eq {s t : State} (hl : LinkBounds s → LinkBounds t) (hc : t.chans = s.chans)
    (hp : t.consent = s.consent) (ht : t.tbu = s.tbu) (hs : t.straps = s.straps) (hr : t.resetLow = s.resetLow) :
    Bounded s t where
  links := hl
  entries h := by unfold QueueBounds State.queue State.chan; rw [hc]; exact h
  table h := by unfold TableBound; rw [hp]; exact h
  fse h := by unfold FseLaw; rw [ht, hs, hr]; exact h

namespace Orderly

theorem of_inner {s t : State} (h : Inner s t) : Orderly s t where
  links b m := ⟨by rw [(h.link m).2.1]; exact (b m).1, h.notices m (b m).2⟩
  entries := h.entries
  table := h.table
  fse := h.fse
  fixed k hk := by rw [h.slot k]; exact ⟨hk, rfl, rfl⟩

theorem refl (s : State) : Orderly s s := of_inner (.refl s)

theorem of_eq {s t : State} (h : t = s) : Orderly s t := h ▸ refl s

theorem trans {s t u : State} (h : Orderly s t) (g : Orderly t u) : Orderly s u :=
  ⟨h.toBounded.trans g.toBounded, h.fixed.trans g.fixed⟩

theorem foldl {α : Type} (f : State → α → State) (h : ∀ s a, Orderly s (f s a)) :
    ∀ (l : List α) (s : State), Orderly s (l.foldl f s)
  | [], s => refl s
  | a :: l, s => (h s a).trans (foldl f h l (f s a))

end Orderly

/-- A link changes within its bounds. -/
theorem setLink_orderly (s : State) (m : Master) (l : Link)
    (h : (s.link m).buf.length ≤ 2 ∧ (s.link m).queue.length ≤ 16 → l.buf.length ≤ 2 ∧ l.queue.length ≤ 16) :
    Orderly s (s.setLink m l) where
  toBounded := by
    refine .of_eq (fun b j => ?_) rfl rfl rfl rfl rfl
    by_cases e : j = m
    · subst e; rw [State.link_setLink_self]; exact h (b j)
    · rw [State.link_setLink_ne _ _ e]; exact b j
  fixed := .of_slots rfl

theorem setMaster_orderly (s : State) (m : Master) (r : MasterRec) : Orderly s (s.setMaster m r) where
  toBounded := .of_eq id rfl rfl rfl rfl rfl
  fixed := .of_slots rfl

theorem setSlot_bounded (s : State) (k : Slot) (r : SlotRec) : Bounded s (s.setSlot k r) :=
  .of_eq id rfl rfl rfl rfl rfl

/-- A slot changes that is not FIXED, or it keeps what a FIXED one keeps. -/
theorem setSlot_orderly (s : State) (k : Slot) (r : SlotRec)
    (h : (s.slot k).state = .fixedSlot → r.state = .fixedSlot ∧ r.geom = (s.slot k).geom ∧ r.label = (s.slot k).label) :
    Orderly s (s.setSlot k r) where
  toBounded := setSlot_bounded s k r
  fixed j hj := by
    by_cases e : j = k
    · subst e; rw [State.slot_setSlot_self]; exact h hj
    · rw [State.slot_setSlot_ne _ _ e]; exact ⟨hj, rfl, rfl⟩

/-! ### Requests -/

theorem popRequest_orderly (s : State) (m : Master) : Orderly s (popRequest s m) :=
  setLink_orderly s m _ fun ⟨hb, hq⟩ => ⟨by simp only [List.length_tail]; omega, hq⟩

theorem commonEffect_orderly (s : State) (m : Master) (f : Frame) : Orderly s (commonEffect s m f) := by
  unfold commonEffect
  split
  · exact setMaster_orderly _ _ _
  · exact .refl s

theorem taking_orderly (s : State) (m : Master) (f : Frame) : Orderly s (commonEffect (popRequest s m) m f) :=
  (popRequest_orderly s m).trans (commonEffect_orderly _ m f)

theorem respond_orderly (m : Master) (f : Frame) (r : Reply) : Orderly r.state (respond m f r) :=
  setLink_orderly r.state m _ id

@[simp] theorem commonEffect_resetLow (s : State) (m : Master) (f : Frame) :
    (commonEffect s m f).resetLow = s.resetLow := by
  unfold commonEffect; split <;> rfl

/-- A request command is orderly if its owner is. -/
theorem serve_orderly {s : State} {m : Master} {row : Frame → Bool} {owner : State → Frame → Reply}
    (own : ∀ u f, u.resetLow = false → Orderly u (owner u f).state) : Orderly s (serve s m row owner) := by
  obtain e | ⟨low, f, _, ⟨c, e⟩ | ⟨_, e⟩⟩ := serve_cases s m row owner
  · rw [e]; exact .refl s
  · rw [e]; exact (taking_orderly s m f).trans (respond_orderly m f (refuse _ c))
  · rw [e]
    exact ((taking_orderly s m f).trans (own _ f (by rw [commonEffect_resetLow]; exact low))).trans
      (respond_orderly m f _)

theorem withSlot_orderly {s : State} {f : Frame} {act : Slot → Reply} (h : ∀ k, Orderly s (act k).state) :
    Orderly s (withSlot s f act).state := by
  unfold withSlot
  split
  · exact .refl s
  · exact h _

theorem profileWrite_orderly (s : State) (m : Master) (f : Frame) : Orderly s (profileWrite s m f).state := by
  refine withSlot_orderly fun k => ?_
  have draft (h : (s.slot k).state ≠ .fixedSlot) (r : SlotRec) : Orderly s (s.setSlot k r) :=
    setSlot_orderly s k r fun e => absurd e h
  dsimp only
  split
  next h => exact draft (by rw [h]; nofun) _
  next h =>
    split
    · exact draft (by rw [h]; nofun) _
    · exact .refl s
  next => exact .refl s

theorem profileFix_orderly (s : State) (m : Master) (f : Frame) : Orderly s (profileFix s m f).state := by
  refine withSlot_orderly fun k => ?_
  split
  next => exact .refl s
  next => exact .refl s
  next h =>
    split
    · split
      · exact .refl s
      · exact setSlot_orderly s k _ fun _ => ⟨rfl, rfl, rfl⟩
    · exact .refl s

/-- PROFILE_FREE empties a slot that is OPEN, or FIXED with nothing naming it, and does nothing else. -/
theorem profileFree_cases (s : State) (m : Master) (f : Frame) :
    (profileFree s m f).state = s
    ∨ ∃ k, (profileFree s m f).state = s.setSlot k .reset
      ∧ ((s.slot k).state = .fixedSlot → (s.slot k).refs = 0 ∧ ∀ o c, (s.sq o).cut = some c → c.slot ≠ k) := by
  unfold profileFree withSlot
  split
  next => exact .inl rfl
  next k _ =>
    dsimp only
    split_ifs with he ho hop hr hc
    · exact .inl rfl
    · exact .inl rfl
    · exact .inr ⟨k, rfl, fun h => by rw [hop] at h; cases h⟩
    · exact .inl rfl
    · exact .inl rfl
    · exact .inr ⟨k, rfl, fun _ => ⟨by omega, fun o c hoc e => hc (ProfileProofs.cutNames_iff.mpr ⟨o, c, hoc, e⟩)⟩⟩

theorem joinRequest_orderly (s : State) (m : Master) (f : Frame) : Orderly s (joinRequest s m f).state := by
  unfold joinRequest
  dsimp only
  split
  · exact setMaster_orderly _ _ _
  · exact .refl s

theorem selectLockRequest_orderly {s : State} (m : Master) (h : s.resetLow = false) :
    Orderly s (selectLockRequest s m).state := by
  unfold selectLockRequest
  split_ifs with h1 h2 h3
  · exact .refl s
  · exact .refl s
  · exact .refl s
  · split
    · exact .of_inner (lock_inner s _ (by simpa using h2) h)
    · exact .refl s

/-! ### Departure and leases -/

theorem profileDeparture_orderly (s : State) (m : Master) : Orderly s (profileDeparture s m) := by
  refine Orderly.foldl _ (fun s k => setSlot_orderly s k _ fun h => ?_) _ s
  unfold SlotRec.depart
  split
  · simp only [h, and_self]
  · exact ⟨h, rfl, rfl⟩

theorem runPart_orderly (m : Master) (s : State) (p : Part) : Orderly s (runPart m s p) := by
  cases p with
  | claims => exact .of_inner (claimsDeparture_inner s m)
  | consent => exact .of_inner (consentDeparture_inner s m)
  | queue o => exact .of_inner (queueDeparture_inner s o m)
  | profiles => exact profileDeparture_orderly s m
  | strobe o => exact .of_inner (strobeDeparture_inner s o m)

theorem flushLink_orderly (s : State) (m : Master) : Orderly s (flushLink s m) := by
  unfold flushLink
  refine Orderly.trans (setLink_orderly s m _ ?_) (setMaster_orderly _ m _)
  exact fun ⟨hb, _⟩ => ⟨hb, Nat.zero_le _⟩

@[simp] theorem queue_flushLink (s : State) (m : Master) : ((flushLink s m).link m).queue = [] := by
  unfold flushLink
  dsimp only
  rw [State.link_setMaster, State.link_setLink_self]

/-- The EVICTED notice goes to the emptied queue. -/
theorem monitorPart_orderly {s : State} {m : Master} (reason : DepartReason) (h : (s.link m).queue = []) :
    Orderly s (monitorPart s m reason) := by
  unfold monitorPart
  cases reason with
  | left => exact (setMaster_orderly s m _).trans (.of_inner (handAll_inner _ _ _))
  | evicted =>
    have notice (r : MasterRec) : Orderly (s.setMaster m r) (evictedNotice (s.setMaster m r) m) :=
      setLink_orderly _ m _ fun ⟨hb, _⟩ => ⟨hb, by
        rw [State.link_setMaster, h]
        exact Nat.le_of_ble_eq_true rfl⟩
    exact ((setMaster_orderly s m _).trans (notice _)).trans (.of_inner (handAll_inner _ _ _))

theorem depart_orderly (s : State) (m : Master) (reason : DepartReason) : Orderly s (depart s m reason) :=
  ((Orderly.foldl _ (runPart_orderly m) _ s).trans (flushLink_orderly _ m)).trans
    (monitorPart_orderly reason (queue_flushLink _ m))

theorem leaveRequest_orderly (s : State) (m : Master) : Orderly s (leaveRequest s m).state := by
  unfold leaveRequest; rw [okay_state]; exact depart_orderly s m .left

theorem leaseExpires_orderly (s : State) (m : Master) : Orderly s (leaseExpires s m) := by
  unfold leaseExpires
  split
  · exact .refl s
  · split
    · exact ((Orderly.of_inner (reach_inner s _)).trans (setMaster_orderly _ m _)).trans (.of_inner (hand_inner _ _ _))
    · exact (Orderly.of_inner (reach_inner s _)).trans (depart_orderly _ m _)
    · exact .refl s
    · exact .refl s

/-! ### Links -/

/-- The bounds of a link. -/
def InBounds (l : Link) : Prop := l.buf.length ≤ 2 ∧ l.queue.length ≤ 16

theorem closeFrame_inBounds {l : Link} (bytes : List Byte) (h : InBounds l) : InBounds (l.closeFrame bytes) := by
  unfold Link.closeFrame bufferLimit
  split_ifs with hb
  · exact h
  · exact h
  · dsimp only
    split
    · split
      · exact ⟨by simp only [List.length_append, List.length_singleton]; omega, h.2⟩
      · exact h
    · exact h

theorem flag_inBounds {l : Link} (h : InBounds l) : InBounds l.flag := by
  unfold Link.flag
  split
  · exact h
  · exact h
  · exact h
  · exact closeFrame_inBounds _ h

theorem character_inBounds {l : Link} (c : Byte) (h : InBounds l) : InBounds (l.character c) := by
  unfold Link.character
  split
  · exact flag_inBounds h
  · exact h

theorem characters_inBounds : ∀ (cs : List Byte) {l : Link}, InBounds l → InBounds (cs.foldl Link.character l)
  | [], _, h => h
  | c :: cs, _, h => characters_inBounds cs (character_inBounds c h)

theorem receive_orderly (s : State) (m : Master) (f : Link → Link) (h : ∀ l, InBounds l → InBounds (f l)) :
    Orderly s (s.receive m f) := by
  unfold State.receive
  split
  · exact .refl s
  · exact setLink_orderly s m _ (h _)

theorem beginResponse_orderly (s : State) (m : Master) : Orderly s (beginResponse s m) := by
  unfold beginResponse
  split
  · refine Orderly.trans (setLink_orderly s m _ ?_) (setMaster_orderly _ m _)
    exact id
  · exact .refl s

theorem beginNotice_orderly (s : State) (m : Master) : Orderly s (beginNotice s m) := by
  unfold beginNotice
  split
  next q rest _ _ hq =>
    exact setLink_orderly s m _ fun ⟨hb, hl⟩ => ⟨hb, by rw [hq, List.length_cons] at hl; exact Nat.le_of_succ_le hl⟩
  next => exact .refl s

theorem endTransmission_orderly (s : State) (m : Master) : Orderly s (endTransmission s m) := by
  unfold endTransmission
  split
  · exact .refl s
  · exact (Orderly.of_inner (reach_inner s _)).trans (setLink_orderly _ m _ id)

/-! ### Resets -/

theorem endReset_orderly {s : State} (straps : Straps) (h : s.resetLow = true) : Orderly s (endReset s straps) := by
  let u : State := { s with straps := straps, resetLow := false, da := .reset s.now, db := .reset s.now }
  have path : Orderly u (endReset s straps) := .of_inner (startUpPath_inner u _ _ _)
  exact {
    links := fun b => path.links (show LinkBounds u from b)
    entries := fun b => path.entries (show QueueBounds u from b)
    table := fun b => path.table (show TableBound u from b)
    fse := fun ⟨_, f, l⟩ => fseLaw_startUpPath u _ _ _ rfl (f (l h).1) (l h).2
    fixed := FixedStays.trans (t := u) (.of_slots rfl) path.fixed }

theorem consentedReset_orderly (s : State) : Orderly s (consentedReset s) := by
  unfold consentedReset
  split
  · let u := consentedValues s
    have path := Orderly.of_inner (startUpPath_inner u (initSelection s.straps.initsel) .startUp s.straps.twospd)
    have empty (m : Master) : (u.link m).buf = [] ∧ (u.link m).queue = [] := by
      simp [u, consentedValues, State.link, Link.reset]
    have idle (o : Output) : u.queue o = [] := by
      simp [u, consentedValues, State.queue, State.chan, State.reset, Channel.reset]
    exact {
      links := fun _ => path.links fun m => by rw [(empty m).1, (empty m).2]; decide
      entries := fun _ => path.entries fun o => by rw [idle o]; decide
      table := fun _ => path.table (Nat.zero_le _)
      fse := fun _ => fseLaw_startUpPath u _ _ _ rfl rfl rfl
      fixed := FixedStays.trans (t := u) (fun k hk => by
        have e : u.slot k = (s.slot k).keepFixed := by simp [u, consentedValues, State.slot]
        rw [e, SlotRec.keepFixed]
        simp only [hk, and_self]) path.fixed }
  · exact .refl s

/-! ### Commands -/

/-- Every command but EXTERNAL_RESET and PROFILE_FREE keeps the bounds, the FSE law and the FIXED profiles. -/
theorem exec_orderly {c : Instr} {s t : State} (hr : c ≠ .externalReset) (hf : ∀ m, c ≠ .profileFree m)
    (h : exec c s = .next t) : Orderly s t := by
  cases c <;> cases h
  case externalReset => exact absurd rfl hr
  case externalResetEnd =>
    split
    next low => exact endReset_orderly _ low
    next => exact .refl s
  case brokenCharacter => exact receive_orderly _ _ _ fun _ b => b
  case frameClose cs => exact receive_orderly _ _ _ fun _ b => flag_inBounds (characters_inBounds cs b)
  case unknownKind => exact serve_orderly fun u _ _ => .refl u
  case join => exact serve_orderly fun u f _ => joinRequest_orderly u _ f
  case leave => exact serve_orderly fun u _ _ => leaveRequest_orderly u _
  case keepalive => exact serve_orderly fun u _ _ => .refl u
  case queryDevice => exact serve_orderly fun u f _ => .of_eq (queryDevice_state u f)
  case queryOutput => exact serve_orderly fun u f _ => .of_eq (queryOutput_state u f)
  case queryTimebase => exact serve_orderly fun u f _ => .of_eq (queryTimebase_state u f)
  case querySource => exact serve_orderly fun u f _ => .of_eq (querySource_state u f)
  case queryProposal => exact serve_orderly fun u f _ => .of_eq (queryProposal_state u f)
  case queryMaster => exact serve_orderly fun u f _ => .of_eq (queryMaster_state u f)
  case queryLink => exact serve_orderly fun u f _ => .of_eq (queryLink_state u _ f)
  case profileWrite => exact serve_orderly fun u f _ => profileWrite_orderly u _ f
  case profileFix => exact serve_orderly fun u f _ => profileFix_orderly u _ f
  case profileFree m => exact absurd rfl (hf m)
  case profileRead => exact serve_orderly fun u f _ => .of_eq (profileRead_state u f)
  case claim => exact serve_orderly fun u f _ => .of_inner (claimRequest_inner u _ f)
  case claimSet => exact serve_orderly fun u f _ => .of_inner (claimSetRequest_inner u _ f)
  case release => exact serve_orderly fun u f _ => .of_inner (releaseRequest_inner u _ f)
  case change => exact serve_orderly fun u f _ => .of_inner (changeRequest_inner u _ f)
  case stop => exact serve_orderly fun u f _ => .of_inner (stopRequest_inner u _ f)
  case start => exact serve_orderly fun u f _ => .of_inner (startRequest_inner u _ f)
  case groupStart => exact serve_orderly fun u f _ => .of_inner (groupStartRequest_inner u _ f)
  case cut => exact serve_orderly fun u f _ => .of_inner (cutRequest_inner u _ f)
  case outputSet => exact serve_orderly fun u f _ => .of_inner (outputSetRequest_inner u _ f)
  case burst => exact serve_orderly fun u f _ => .of_inner (burstRequest_inner u _ f)
  case burstEnd => exact serve_orderly fun u f _ => .of_inner (burstEndRequest_inner u _ f)
  case clock => exact serve_orderly fun u f _ => .of_inner (clockRequest_inner u _ f)
  case sourceSet => exact serve_orderly fun u f _ => .of_inner (sourceSetRequest_inner u _ f)
  case selectLock => exact serve_orderly fun u _ low => selectLockRequest_orderly _ low
  case vote => exact serve_orderly fun u f _ => .of_inner (voteRequest_inner u _ f)
  case withdraw => exact serve_orderly fun u f _ => .of_inner (withdrawRequest_inner u _ f)
  case proposalDeadline => exact .of_inner (proposalLapses_inner s _)
  case standby => exact serve_orderly fun u f _ => .of_inner (standbyRequest_inner u _ f)
  case wake => exact serve_orderly fun u _ _ => .of_inner (wakeRequest_inner u)
  case deviceReset => exact serve_orderly fun u f _ => .of_inner (deviceResetRequest_inner u _ f)
  case consentedReset => exact consentedReset_orderly s
  case relay => exact serve_orderly fun u f _ => .of_inner (relayRequest_inner u _ f)
  case responseTransmit => exact beginResponse_orderly s _
  case noticeTransmit => exact beginNotice_orderly s _
  case lineStart =>
    split
    · exact .of_inner (lineStart_inner s _)
    · exact .refl s
  case frameBoundary =>
    split
    · exact .of_inner (frameBoundary_inner s _)
    · exact .refl s
  case xoReady => exact .of_inner (xoBecomesReady_inner s)
  case lockComplete => exact .of_inner (lockCompletes_inner s)
  case alignmentDeadline => exact .of_inner (alignmentExpires_inner s)
  case switchTimeout => exact .of_inner (switchExpires_inner s)
  case xoActivityCheck => exact .of_inner (activityCheck_inner s _)
  case lossOfLock => exact .of_inner (lockLost_inner s)
  case gateCompletion =>
    split
    · exact .refl s
    · exact .of_inner (gateCompletes_inner s _ _ _)
  case leaseExpiry => exact leaseExpires_orderly s _
  case flagReceivedWhileHunting => exact receive_orderly _ _ _ fun _ => flag_inBounds
  case transmissionEnd => exact endTransmission_orderly s _

/-! ### The align output -/

theorem align_of_unchanged {s t : State} (h : t = s) (g : AlignLaw s) : AlignLaw t := h ▸ g

theorem serve_align {s : State} {m : Master} {row : Frame → Bool} {owner : State → Frame → Reply}
    (own : ∀ u f, AlignLaw u → AlignLaw (owner u f).state) (h : AlignLaw s) : AlignLaw (serve s m row owner) := by
  refine serve_keeps AlignLaw (fun u g => (setLink_same u m _).law g) (fun u f g => ?_)
    (fun f r g => (setLink_same r.state m _).law g) own s h
  unfold commonEffect
  split
  · exact (setMaster_same u m _).law g
  · exact g

theorem withSlot_same {s : State} {f : Frame} {act : Slot → Reply} (h : ∀ k, Same s (act k).state) :
    Same s (withSlot s f act).state := by
  unfold withSlot
  split
  · exact .refl s
  · exact h _

theorem profileWrite_same (s : State) (m : Master) (f : Frame) : Same s (profileWrite s m f).state := by
  refine withSlot_same fun k => ?_
  dsimp only
  split
  · exact setSlot_same _ _ _
  · split
    · exact setSlot_same _ _ _
    · exact .refl s
  · exact .refl s

theorem profileFix_same (s : State) (m : Master) (f : Frame) : Same s (profileFix s m f).state := by
  refine withSlot_same fun k => ?_
  split
  · exact .refl s
  · exact .refl s
  · split
    · split
      · exact .refl s
      · exact setSlot_same _ _ _
    · exact .refl s

theorem profileFree_same (s : State) (m : Master) (f : Frame) : Same s (profileFree s m f).state := by
  obtain e | ⟨k, e, _⟩ := profileFree_cases s m f
  · rw [e]; exact .refl s
  · rw [e]; exact setSlot_same _ _ _

theorem joinRequest_same (s : State) (m : Master) (f : Frame) : Same s (joinRequest s m f).state := by
  unfold joinRequest
  dsimp only
  split
  · exact setMaster_same _ _ _
  · exact .refl s

theorem leaveRequest_law {s : State} (m : Master) (h : AlignLaw s) : AlignLaw (leaveRequest s m).state := by
  unfold leaveRequest; rw [okay_state]; exact depart_law m .left h

theorem relayRequest_same (s : State) (m : Master) (f : Frame) : Same s (relayRequest s m f).state := by
  unfold relayRequest
  split
  · exact .refl s
  · split_ifs
    · exact .refl s
    · exact .refl s
    · exact handMarked_same _ _ _ _

theorem receive_same (s : State) (m : Master) (f : Link → Link) : Same s (s.receive m f) := by
  unfold State.receive
  split
  · exact .refl s
  · exact setLink_same _ _ _

theorem beginResponse_same (s : State) (m : Master) : Same s (beginResponse s m) := by
  unfold beginResponse
  split
  · exact (setLink_same _ _ _).trans (setMaster_same _ _ _)
  · exact .refl s

theorem beginNotice_same (s : State) (m : Master) : Same s (beginNotice s m) := by
  unfold beginNotice
  split
  · exact setLink_same _ _ _
  · exact .refl s

theorem endTransmission_same (s : State) (m : Master) : Same s (endTransmission s m) := by
  unfold endTransmission
  split
  · exact .refl s
  · exact (reach_same _ _).trans (setLink_same _ _ _)

theorem consentedReset_law {s : State} (h : AlignLaw s) : AlignLaw (consentedReset s) := by
  unfold consentedReset
  split
  · exact startUpPath_law _ _ _ _
  · exact h

/-- Every command keeps the align output of a switch in WAIT_ALIGN in RUNNING. -/
theorem exec_align {c : Instr} {s t : State} (g : AlignLaw s) (h : exec c s = .next t) : AlignLaw t := by
  cases c <;> cases h
  case externalReset => exact Away.law (s := externalReset s) (Away.of_state rfl nofun)
  case externalResetEnd =>
    split
    · exact startUpPath_law _ _ _ _
    · exact g
  case brokenCharacter => exact (receive_same s _ _).law g
  case frameClose => exact (receive_same s _ _).law g
  case unknownKind => exact serve_align (fun _ _ u => u) g
  case join => exact serve_align (fun u f => (joinRequest_same u _ f).law) g
  case leave => exact serve_align (fun _ _ => leaveRequest_law _) g
  case keepalive => exact serve_align (fun _ _ u => u) g
  case queryDevice => exact serve_align (fun u f => align_of_unchanged (queryDevice_state u f)) g
  case queryOutput => exact serve_align (fun u f => align_of_unchanged (queryOutput_state u f)) g
  case queryTimebase => exact serve_align (fun u f => align_of_unchanged (queryTimebase_state u f)) g
  case querySource => exact serve_align (fun u f => align_of_unchanged (querySource_state u f)) g
  case queryProposal => exact serve_align (fun u f => align_of_unchanged (queryProposal_state u f)) g
  case queryMaster => exact serve_align (fun u f => align_of_unchanged (queryMaster_state u f)) g
  case queryLink => exact serve_align (fun u f => align_of_unchanged (queryLink_state u _ f)) g
  case profileWrite => exact serve_align (fun u f => (profileWrite_same u _ f).law) g
  case profileFix => exact serve_align (fun u f => (profileFix_same u _ f).law) g
  case profileFree => exact serve_align (fun u f => (profileFree_same u _ f).law) g
  case profileRead => exact serve_align (fun u f => align_of_unchanged (profileRead_state u f)) g
  case claim => exact serve_align (fun u f => (claimRequest_same u _ f).law) g
  case claimSet => exact serve_align (fun u f => (claimSetRequest_same u _ f).law) g
  case release => exact serve_align (fun _ f => releaseRequest_law _ f) g
  case change => exact serve_align (fun _ f => changeRequest_law _ f) g
  case stop => exact serve_align (fun _ f => stopRequest_law _ f) g
  case start => exact serve_align (fun _ f => startRequest_law _ f) g
  case groupStart => exact serve_align (fun _ f => groupStartRequest_law _ f) g
  case cut => exact serve_align (fun _ f => cutRequest_law _ f) g
  case outputSet => exact serve_align (fun _ f => outputSetRequest_law _ f) g
  case burst => exact serve_align (fun _ f => burstRequest_law _ f) g
  case burstEnd => exact serve_align (fun _ f => burstEndRequest_law _ f) g
  case clock => exact serve_align (fun _ f => clockRequest_law _ f) g
  case sourceSet => exact serve_align (fun _ f => sourceSetRequest_law _ f) g
  case selectLock => exact serve_align (fun _ _ => selectLockRequest_law _) g
  case vote => exact serve_align (fun _ f => voteRequest_law _ f) g
  case withdraw => exact serve_align (fun _ f => withdrawRequest_law _ f) g
  case proposalDeadline => exact proposalLapses_law _ g
  case standby => exact serve_align (fun _ f => standbyRequest_law _ f) g
  case wake => exact serve_align (fun _ _ => wakeRequest_law) g
  case deviceReset => exact serve_align (fun _ f => deviceResetRequest_law _ f) g
  case consentedReset => exact consentedReset_law g
  case relay => exact serve_align (fun u f => (relayRequest_same u _ f).law) g
  case responseTransmit => exact (beginResponse_same s _).law g
  case noticeTransmit => exact (beginNotice_same s _).law g
  case lineStart =>
    split
    · exact lineStart_law _ g
    · exact g
  case frameBoundary =>
    split
    · exact frameBoundary_law _ g
    · exact g
  case xoReady => exact xoBecomesReady_law g
  case lockComplete => exact lockCompletes_law g
  case alignmentDeadline => exact alignmentExpires_law g
  case switchTimeout => exact switchExpires_law g
  case xoActivityCheck => exact activityCheck_law _ g
  case lossOfLock => exact lockLost_law g
  case gateCompletion =>
    split
    · exact g
    · exact gateCompletes_law _ _ _ g
  case leaseExpiry => exact leaseExpires_law _ g
  case flagReceivedWhileHunting => exact (receive_same s _ _).law g
  case transmissionEnd => exact (endTransmission_same s _).law g

/-! ### The laws of the records -/

/-- The sender of a request of a kind other than JOIN and QUERY is a member when its owner sees it (R159). -/
theorem joined_of_row {s : State} {m : Master} {f : Frame} {k : Nat} (hr : kindIs k f = true)
    (h : admission s m f = none) (hk : admittedUnjoined k = false) : s.joined m = true :=
  joined_of_admission h (by rw [beq_iff_eq.mp hr]; exact hk)

theorem leaveRequest_sound {s : State} (m : Master) (h : Sound s) : Sound (leaveRequest s m).state := by
  unfold leaveRequest; rw [okay_state]; exact depart_sound m .left h

/-- A request command whose owner keeps the laws of every state keeps them. -/
theorem serve_sound_always {s : State} {m : Master} {row : Frame → Bool} {owner : State → Frame → Reply} (h : Sound s)
    (own : ∀ u f, Sound u → Sound (owner u f).state) : Sound (serve s m row owner) :=
  serve_sound h fun u f k _ _ => own u f k

/-- Every command keeps the laws of the records. -/
theorem exec_sound {c : Instr} {s t : State} (g : Sound s) (h : exec c s = .next t) : Sound t := by
  have same {u v : State} (e : u = v) (k : Sound v) : Sound u := e ▸ k
  cases c <;> cases h
  case externalReset => exact externalReset_sound s
  case externalResetEnd =>
    split
    · exact endReset_sound _ g
    · exact g
  case brokenCharacter => exact g.of_books (books_receive s _ _)
  case frameClose => exact g.of_books (books_receive s _ _)
  case unknownKind => exact serve_sound_always g fun _ _ k => k
  case join => exact serve_sound_always g fun _ f => joinRequest_sound _ f
  case leave => exact serve_sound_always g fun _ _ => leaveRequest_sound _
  case keepalive => exact serve_sound_always g fun _ _ k => k
  case queryDevice => exact serve_sound_always g fun u f => same (queryDevice_state u f)
  case queryOutput => exact serve_sound_always g fun u f => same (queryOutput_state u f)
  case queryTimebase => exact serve_sound_always g fun u f => same (queryTimebase_state u f)
  case querySource => exact serve_sound_always g fun u f => same (querySource_state u f)
  case queryProposal => exact serve_sound_always g fun u f => same (queryProposal_state u f)
  case queryMaster => exact serve_sound_always g fun u f => same (queryMaster_state u f)
  case queryLink => exact serve_sound_always g fun u f => same (queryLink_state u _ f)
  case profileWrite => exact serve_sound_always g fun _ f => profileWrite_sound _ f
  case profileFix => exact serve_sound_always g fun _ f => profileFix_sound _ f
  case profileFree => exact serve_sound_always g fun _ f => profileFree_sound _ f
  case profileRead => exact serve_sound_always g fun u f => same (profileRead_state u f)
  case claim => exact serve_sound g fun _ f k hr ha => claimRequest_sound _ f k (joined_of_row hr ha rfl)
  case claimSet => exact serve_sound_always g fun _ f => claimSetRequest_sound _ f
  case release => exact serve_sound_always g fun _ f => releaseRequest_sound _ f
  case change => exact serve_sound_always g fun _ f => changeRequest_sound _ f
  case stop => exact serve_sound_always g fun _ f => stopRequest_sound _ f
  case start => exact serve_sound_always g fun _ f => startRequest_sound _ f
  case groupStart => exact serve_sound_always g fun _ f => groupStartRequest_sound _ f
  case cut => exact serve_sound_always g fun _ f => cutRequest_sound _ f
  case outputSet => exact serve_sound_always g fun _ f => outputSetRequest_sound _ f
  case burst => exact serve_sound_always g fun _ f => burstRequest_sound _ f
  case burstEnd => exact serve_sound_always g fun _ f => burstEndRequest_sound _ f
  case clock => exact serve_sound_always g fun _ f => clockRequest_sound _ f
  case sourceSet => exact serve_sound_always g fun _ f => sourceSetRequest_sound _ f
  case selectLock => exact serve_sound_always g fun _ _ => selectLockRequest_sound _
  case vote => exact serve_sound_always g fun _ f => voteRequest_sound _ f
  case withdraw => exact serve_sound_always g fun _ f => withdrawRequest_sound _ f
  case proposalDeadline => exact proposalLapses_sound _ g
  case standby => exact serve_sound g fun _ f k hr ha => standbyRequest_sound _ f k (joined_of_row hr ha rfl)
  case wake => exact serve_sound_always g fun _ _ => wakeRequest_sound
  case deviceReset => exact serve_sound g fun _ f k hr ha => deviceResetRequest_sound _ f k (joined_of_row hr ha rfl)
  case consentedReset => exact consentedReset_sound g
  case relay => exact serve_sound_always g fun _ f => relayRequest_sound _ f
  case responseTransmit => exact g.of_books (books_beginResponse s _)
  case noticeTransmit => exact g.of_books (books_beginNotice s _)
  case lineStart =>
    split
    · exact g.works (lineStart_works s _)
    · exact g
  case frameBoundary =>
    split
    · exact g.works (frameBoundary_works s _)
    · exact g
  case xoReady => exact g.of_books (books_xoBecomesReady s)
  case lockComplete => exact g.of_books (books_lockCompletes s)
  case alignmentDeadline => exact g.of_books (books_alignmentExpires s)
  case switchTimeout => exact g.of_books (books_switchExpires s)
  case xoActivityCheck => exact g.of_books (books_activityCheck s _)
  case lossOfLock => exact g.of_books (books_lockLost s)
  case gateCompletion =>
    split
    · exact g
    · exact g.of_books (books_gateCompletes s _ _ _)
  case leaseExpiry => exact leaseExpires_sound _ g
  case flagReceivedWhileHunting => exact g.of_books (books_receive s _ _)
  case transmissionEnd => exact g.of_books (books_endTransmission s _)

/-! ### Steps -/

/-- Whether the next clock edge is a tick of TCK (R100, log entry 4). -/
def edgeTicks (s : State) : Bool :=
  match s.tbu.state.current with
  | none => false
  | some ⟨.irc, _⟩ => true
  | some _ => Config.nextIsTck s.freeCount

/-- A clock edge moves IRC time, the synthesizer's part of a cycle and, where it is a tick, the outputs' counts. -/
theorem clockEdge_eq (s : State) : clockEdge s = { s with
    now := (clockEdge s).now
    synPhase := (clockEdge s).synPhase
    chans := if edgeTicks s then (tickAll s).chans else s.chans } := by
  have tick : tickAll s = { s with chans := (tickAll s).chans } := mapSq_eq s _
  unfold clockEdge edgeTicks
  rcases s.tbu.state.current with _ | ⟨src, syn⟩
  · rfl
  · cases src
    case irc =>
      cases syn
      · show pass (tickAll s) 1 = _
        rw [tick]; rfl
      · unfold synTick
        rw [tick]; rfl
    all_goals
      dsimp only
      split
      · rw [tick]
      · rfl

theorem timePasses_eq (s : State) : timePasses s = { s with
    now := (clockEdge s).now
    freeCount := s.freeCount + 1
    synPhase := (clockEdge s).synPhase
    chans := if edgeTicks s then (tickAll s).chans else s.chans
    tbu := { s.tbu with xo := s.tbu.xo.count (Config.xoCycles s.freeCount) } } := by
  unfold timePasses
  rw [clockEdge_eq]

theorem timePasses_orderly (s : State) : Orderly s (timePasses s) := by
  have ticked : Orderly s (tickAll s) := .of_inner (mapSq_inner s _)
  rw [timePasses_eq]
  generalize (clockEdge s).now = now
  generalize (clockEdge s).synPhase = phase
  generalize tickAll s = u at ticked
  exact {
    links := fun h => h
    entries := fun h => by
      cases edgeTicks s
      · exact h
      · exact ticked.entries h
    table := fun h => h
    fse := fun ⟨a, b, c⟩ => ⟨a, b, c⟩
    fixed := .of_slots rfl }

theorem idle_orderly (s : State) : Orderly s (idle s) := by
  unfold idle
  split
  · exact .refl s
  · split
    · exact .of_inner (lineEnds_inner s _)
    · exact timePasses_orderly s

theorem idle_align {s : State} (h : AlignLaw s) : AlignLaw (idle s) := by
  unfold idle
  split
  · exact h
  · split
    · exact lineEnds_law _ h
    · exact (timePasses_same s).law h

/-- EXTERNAL_RESET leaves the bounds and the FSE law met, whatever the state before. -/
theorem externalReset_bounded (s : State) : Bounded s (externalReset s) := by
  have link (m : Master) : (externalReset s).link m = Link.reset ⟨0, 0, 0, 0⟩ := by
    simp [externalReset, State.link, State.reset]
  have queue (o : Output) : (externalReset s).queue o = [] := by
    simp [externalReset, State.queue, State.chan, State.reset, Channel.reset]
  exact {
    links := fun _ m => by rw [link m]; exact ⟨Nat.zero_le _, Nat.zero_le _⟩
    entries := fun _ o => by rw [queue o]; exact Nat.zero_le _
    table := fun _ => Nat.zero_le _
    fse := fun _ => ⟨nofun, fun _ => rfl, fun _ => ⟨rfl, rfl⟩⟩ }

/-- What PROFILE_FREE does to the hub: the slot it empties, if it empties one, is free of names where it is FIXED. -/
theorem exec_profileFree_cases (s : State) (m : Master) : ∃ t, exec (.profileFree m) s = .next t ∧
    (Orderly s t ∨ ∃ (k : Slot) (u : State), u.slots = s.slots ∧ t.slots = (u.setSlot k .reset).slots
      ∧ Bounded s t
      ∧ ((s.slot k).state = .fixedSlot → (s.slot k).refs = 0 ∧ ∀ o c, (s.sq o).cut = some c → c.slot ≠ k)) := by
  refine ⟨_, rfl, ?_⟩
  obtain e | ⟨_, f, _, ⟨c, e⟩ | ⟨_, e⟩⟩ := serve_cases s m (kindIs 0x07) fun s f => profileFree s m f
  · exact .inl (.of_eq e)
  · rw [e]; exact .inl ((taking_orderly s m f).trans (respond_orderly m f (refuse _ c)))
  · rw [e]
    have took := taking_orderly s m f
    have slots : (commonEffect (popRequest s m) m f).slots = s.slots := by unfold commonEffect; split <;> rfl
    have chans : (commonEffect (popRequest s m) m f).chans = s.chans := by unfold commonEffect; split <;> rfl
    generalize commonEffect (popRequest s m) m f = u at took slots chans
    have answered := respond_orderly m f (profileFree u m f)
    obtain g | ⟨k, g, free⟩ := profileFree_cases u m f
    · rw [g] at answered
      exact .inl (took.trans answered)
    · rw [g] at answered
      refine .inr ⟨k, u, slots, ?_, (took.toBounded.trans (setSlot_bounded u k _)).trans answered.toBounded, ?_⟩
      · show (profileFree u m f).state.slots = _
        rw [g]
      · simpa only [State.slot, State.sq, State.chan, slots, chans] using free

theorem exec_bounded {c : Instr} {s t : State} (h : exec c s = .next t) : Bounded s t := by
  by_cases hr : c = .externalReset
  · subst hr; cases h; exact externalReset_bounded s
  · by_cases hf : ∃ m, c = .profileFree m
    · obtain ⟨m, rfl⟩ := hf
      obtain ⟨u, hu, o | ⟨_, _, _, _, b, _⟩⟩ := exec_profileFree_cases s m
      · cases hu.symm.trans h; exact o.toBounded
      · cases hu.symm.trans h; exact b
    · exact (exec_orderly hr (fun m e => hf ⟨m, e⟩) h).toBounded

theorem step_bounded {s t : State} (h : step s = .next t) : Bounded s t := by
  obtain ⟨_, rfl⟩ | ⟨c, rest, _, h⟩ := step_cases h
  · exact (idle_orderly s).toBounded
  · have b := exec_bounded h
    exact ⟨b.links, b.entries, b.table, b.fse⟩

/-- Settles O58: the bounds by what every command keeps of them (`exec_bounded`), the laws of the records in the books of
a state (`exec_sound`). -/
theorem everyStepKeepsTheBounds : Obligations.EveryStepKeepsTheBounds := by
  refine ⟨fun s t hl hq ht h => ?_, fun s t hs h => ?_⟩
  · have b := step_bounded h
    exact ⟨b.links hl, b.entries hq, b.table ht⟩
  · rw [recordLaws_iff_sound] at hs ⊢
    obtain ⟨_, rfl⟩ | ⟨c, rest, _, h⟩ := step_cases h
    · exact hs.works (idle_works s)
    · exact exec_sound (hs.of_books (t := { s with pending := rest }) rfl) h

/-- Settles O59: the FSE law with the bounds, and the align output by what every command does to the outputs in RUNNING. -/
theorem everyStepKeepsTheTimebaseLaws : Obligations.EveryStepKeepsTheTimebaseLaws := by
  refine ⟨fun s t hs h => (step_bounded h).fse hs, fun s t hs h => ?_⟩
  obtain ⟨_, rfl⟩ | ⟨c, rest, _, h⟩ := step_cases h
  · exact idle_align hs
  · exact exec_align (s := { s with pending := rest }) hs h

/-- Settles O60: only EXTERNAL_RESET and PROFILE_FREE touch a FIXED profile, and PROFILE_FREE only one that nothing
names. -/
theorem fixedProfilesStayAsTheyAre : Obligations.FixedProfilesStayAsTheyAre := by
  intro s t k h hr hk
  obtain ⟨_, rfl⟩ | ⟨c, rest, hp, h⟩ := step_cases h
  · exact .inl ((idle_orderly s).fixed k hk)
  · have hr : c ≠ .externalReset := fun e => hr (by rw [hp, e]; rfl)
    by_cases hf : ∃ m, c = .profileFree m
    · obtain ⟨m, rfl⟩ := hf
      obtain ⟨u, hu, o | ⟨j, v, slots, e, _, free⟩⟩ := exec_profileFree_cases { s with pending := rest } m
      · cases hu.symm.trans h; exact .inl (o.fixed k hk)
      · cases hu.symm.trans h
        have slot (i : Slot) : t.slot i = (v.setSlot j .reset).slot i := by simp only [State.slot, e]
        by_cases hj : k = j
        · subst hj
          rw [slot, State.slot_setSlot_self]
          exact .inr ⟨rfl, free hk⟩
        · have same : v.slot k = s.slot k := by simp only [State.slot, slots]
          rw [slot, State.slot_setSlot_ne _ _ hj, same]
          exact .inl ⟨hk, rfl, rfl⟩
    · exact .inl ((exec_orderly hr (fun m e => hf ⟨m, e⟩) h).fixed k hk)

end Sys2Proof.StepProofs
end

section
/-! The machine's own commands: the front of the queue, the idle step, the resets, and the start-up path from the reset
values. -/

namespace Sys2Proof.MachineProofs

open Machine Laws StepProofs

/-! ### The step -/

/-- Settles O1: the queue's front is what `step` matches on. -/
theorem stepRunsFrontCommand : Obligations.StepRunsFrontCommand := by
  unfold Obligations.StepRunsFrontCommand
  intro c rest s
  rfl

theorem step_idle {s : State} (h : s.pending = []) : step s = .next (idle s) := by
  unfold step
  rw [h]

theorem lineDue_iff (s : State) (o : Output) : lineDue s o = true ↔ LineDue s o := by
  unfold lineDue
  rw [Bool.and_eq_true]

/-- The outputs before `o` in the order in which line ends are looked for are the lower ones. -/
theorem allOutputs_split (o : Output) :
    allOutputs = allOutputs.take o ++ o :: allOutputs.drop (o + 1) ∧ ∀ p ∈ allOutputs.take o, p < o := by
  revert o
  decide

theorem dueOutput_lowest {s : State} {o : Output} (h : LineDue s o) (low : ∀ p, p < o → ¬LineDue s p) :
    dueOutput s = some o := by
  obtain ⟨split, below⟩ := allOutputs_split o
  refine List.find?_eq_some_iff_append.mpr ⟨(lineDue_iff s o).mpr h, _, _, split, fun p hp => ?_⟩
  rw [Bool.not_eq_true', Bool.eq_false_iff]
  exact fun due => low p (below p hp) ((lineDue_iff s p).mp due)

theorem dueOutput_none {s : State} (h : ∀ o, ¬LineDue s o) : dueOutput s = none :=
  List.find?_eq_none.mpr fun o _ due => h o ((lineDue_iff s o).mp due)

theorem lineEnds_exec {s : State} {o : Output} (h : LineDue s o) :
    .next (lineEnds s o)
      = exec (if (s.geom o).lf ≤ (s.sq o).line + 1 then .frameBoundary o else .lineStart o) s := by
  have due := (lineDue_iff s o).mpr h
  unfold lineEnds lastLine
  by_cases last : (s.geom o).lf ≤ (s.sq o).line + 1
  · rw [if_pos (decide_eq_true last), if_pos last]
    show _ = execFrameBoundary o s
    unfold execFrameBoundary lastLine
    rw [due, decide_eq_true last]
    rfl
  · rw [if_neg (by rw [decide_eq_false last]; exact nofun), if_neg last]
    show _ = execLineStart o s
    unfold execLineStart lastLine
    rw [due, decide_eq_false last]
    rfl

/-! ### A clock edge -/

theorem chan_tickAll (s : State) (o : Output) :
    (tickAll s).chan o = { s.chan o with sq := (s.sq o).tickOnce (s.geom o).lp } :=
  chan_mapSq s (fun t o => (t.sq o).tickOnce (s.geom o).lp) o fun _ hc _ =>
    congrArg (fun c : Channel => c.sq.tickOnce (s.geom o).lp) hc

theorem chan_timePasses (s : State) (o : Output) :
    (timePasses s).chan o = if edgeTicks s then (tickAll s).chan o else s.chan o := by
  rw [timePasses_eq]
  cases edgeTicks s <;> rfl

theorem tickOnce_of_not_live {r : OutRec} (lp : Nat) (h : r.live = false) : r.tickOnce lp = r := by
  unfold OutRec.tickOnce
  rw [h]
  rfl

theorem tickOnce_counts {r : OutRec} {lp : Nat} (h : r.live = true) (hl : r.tick + 1 < lp) :
    r.tickOnce lp = { r with tick := r.tick + 1 } := by
  unfold OutRec.tickOnce
  rw [if_pos h, if_pos hl]

theorem tickOnce_ends {r : OutRec} {lp : Nat} (h : r.live = true) (hl : lp ≤ r.tick + 1) :
    r.tickOnce lp = { r with lineEnd := true } := by
  unfold OutRec.tickOnce
  rw [if_pos h, if_neg (Nat.not_lt.mpr hl)]

theorem timePasses_now (s : State) : (timePasses s).now = (clockEdge s).now := rfl

theorem timePasses_synPhase (s : State) : (timePasses s).synPhase = (clockEdge s).synPhase := rfl

theorem tickAll_synPhase (s : State) : (tickAll s).synPhase = s.synPhase := by unfold tickAll; rw [mapSq_eq]

/-- The edge of a source that is neither absent nor IRC is a tick or a cycle (R100). -/
theorem clockEdge_of_other {s : State} {sel : Selection} (h : s.tbu.state.current = some sel) (hs : sel.source ≠ .irc) :
    clockEdge s = (if edgeTicks s then tickAll s else pass s 1) := by
  obtain ⟨src, syn⟩ := sel
  cases src
  case irc => exact absurd rfl hs
  all_goals
    unfold clockEdge edgeTicks
    rw [h]

/-- Settles O2: a due line is the lowest one found, and otherwise the edge is read off the current selection. -/
theorem idleStepTakesALineEndOrAClockEdge : Obligations.IdleStepTakesALineEndOrAClockEdge := by
  unfold Obligations.IdleStepTakesALineEndOrAClockEdge
  intro s empty
  rw [step_idle empty]
  refine ⟨fun low => ?_, fun o high due lower => ?_, fun high none => ?_⟩
  · unfold idle
    rw [if_pos low]
  · unfold idle
    rw [if_neg (by rw [high]; exact nofun), dueOutput_lowest due lower]
    exact lineEnds_exec due
  · have passes : idle s = timePasses s := by
      unfold idle
      rw [if_neg (by rw [high]; exact nofun), dueOutput_none none]
    refine ⟨timePasses s, edgeTicks s, congrArg _ passes, rfl_of_timePasses s, ?_, ?_, ?_, ?_, ?_, ?_, ?_, ?_, ?_⟩
    · rintro o still
      rw [chan_timePasses]
      rcases still with edge | dead
      · rw [edge]; rfl
      · rw [chan_tickAll, tickOnce_of_not_live _ dead]
        exact ite_self _
    · intro o edge live short
      rw [chan_timePasses, if_pos edge, chan_tickAll, tickOnce_counts live short]
    · intro o edge live long
      rw [chan_timePasses, if_pos edge, chan_tickAll, tickOnce_ends live long]
    · intro cur
      rw [timePasses_now, timePasses_synPhase]
      unfold edgeTicks clockEdge
      rw [cur]
      exact ⟨rfl, rfl, rfl⟩
    · intro cur
      rw [timePasses_now, timePasses_synPhase]
      unfold edgeTicks clockEdge
      rw [cur]
      exact ⟨rfl, congrArg (· + 1) (tickAll_now s), tickAll_synPhase s⟩
    · intro c cur pos
      rw [timePasses_now, timePasses_synPhase]
      have edge : clockEdge s = synTick s c := by
        unfold clockEdge
        rw [cur]
      obtain ⟨n, time, count, part⟩ := synTick_time s pos
      rw [edge, time]
      refine ⟨?_, by rw [Nat.add_sub_cancel_left]; exact count, part, Nat.le_add_right _ _⟩
      unfold edgeTicks
      rw [cur]
    · intro sel cur other
      rw [timePasses_now, timePasses_synPhase, clockEdge_of_other cur other]
      cases edgeTicks s
      · exact ⟨rfl, rfl⟩
      · exact ⟨tickAll_now s, tickAll_synPhase s⟩
    · intro notStarting
      show s.tbu.xo.count _ = s.tbu.xo
      cases h : s.tbu.xo
      case starting n => exact absurd h (notStarting n)
      all_goals rfl
    · intro n starting
      show s.tbu.xo.count _ = _
      rw [starting]
      rfl
where
  rfl_of_timePasses (s : State) : timePasses s = { s with
      now := (timePasses s).now, freeCount := s.freeCount + 1, synPhase := (timePasses s).synPhase,
      chans := (timePasses s).chans, tbu := { s.tbu with xo := (timePasses s).tbu.xo } } := by
    rw [timePasses_eq]

/-! ### The external reset -/

/-- Settles O3: the reset values hold no frame, entry, round or claim. -/
theorem resetMeetsTheLaws : Obligations.ResetMeetsTheLaws := by
  unfold Obligations.ResetMeetsTheLaws
  refine ⟨fun m => ?_, fun o => ?_, Nat.zero_le 4, ⟨nofun, fun _ => rfl, fun _ => ⟨rfl, rfl⟩⟩, nofun,
    (recordLaws_iff_sound _).mpr (externalReset_sound State.reset)⟩
  · simp [State.link, State.reset, Link.reset]
  · simp [State.queue, State.chan, State.reset, Channel.reset]

/-- Settles O4: every field of every block is the reset value. -/
theorem externalResetClearsEveryBlock : Obligations.ExternalResetClearsEveryBlock := by
  unfold Obligations.ExternalResetClearsEveryBlock
  intro s
  have chan (o : Output) : (externalReset s).chan o = .reset := by simp [State.chan, externalReset, State.reset]
  have sq (o : Output) : (externalReset s).sq o = .reset := congrArg Channel.sq (chan o)
  refine ⟨externalReset s, rfl, rfl, rfl, rfl, rfl, rfl, rfl, rfl, rfl, sq, fun o => ⟨?_, ?_, ?_⟩, fun k => ?_,
    fun g => ?_, rfl, rfl, rfl, fun d => ?_, fun m => ?_, fun m => ?_⟩
  · exact congrArg Channel.queue (chan o)
  · exact congrArg Channel.burst (chan o)
  · unfold State.pins activePins
    rw [sq o]
    rfl
  · simp [State.slot, externalReset, State.reset, SlotRec.reset]
  · cases g <;> simp [State.claim, externalReset, State.reset, ClaimRec.reset]
  · cases d <;> exact ⟨rfl, rfl, rfl, rfl⟩
  · simp [State.master, externalReset, State.reset, MasterRec.reset]
  · simp [State.link, externalReset, State.reset, Link.reset]

/-! ### The start-up path from the reset values (R168) -/

/-- The device as a reset leaves it, before the start-up path: the Timebase Unit and the detectors hold reset values, and
nobody holds TB. -/
structure Cold (s : State) : Prop where
  unit : s.tbu = .reset
  absent : ∀ d, (s.det d).state = .absent
  untimed : ∀ d, (s.det d).xoThroughout = false
  unheld : s.tbClaim.holders = []

/-- What the start-up path leaves of the reset values: the unit in `st`, the XO started where it is wanted, the
synthesizer in `synth`. -/
def startedTbu (st : TbuState) (xo : Bool) (synth : SynthState) : Tbu :=
  { Tbu.reset with state := st, xo := if xo then .starting 0 else .off, synth := synth }

/-- The XO is wanted by a selection in use or by its keep-running flag (R101). -/
def wantsXo (s : State) (st : TbuState) : Bool :=
  (selectionsOf st).any (fun x => x.source == .xo) || s.table.xo.keep

theorem xoThroughout_cleared {d : DetRec} (h : d.xoThroughout = false) : { d with xoThroughout := false } = d := by
  rw [← h]

theorem unitGoes_cold {s : State} (h : Cold s) {st : TbuState} (awake : st.standbySel = none) :
    unitGoes s st = s.setTbu (startedTbu st (wantsXo s st) .stopped) := by
  have da : { s.da with xoThroughout := false } = s.da := xoThroughout_cleared (h.untimed .da)
  have db : { s.db with xoThroughout := false } = s.db := xoThroughout_cleared (h.untimed .db)
  unfold unitGoes xoSettled startedTbu wantsXo
  dsimp only
  rw [h.unit, awake, da, db]
  simp only [Option.isNone_none, Bool.true_and, ite_self, Tbu.reset]
  rfl

theorem switchTold_startUp {s : State} (h : s.tbClaim.holders = []) (sel : Selection) (event : ClockEvent) :
    switchTold s ⟨sel, .startUp, none⟩ event = s := by
  unfold switchTold State.holders State.claim
  rw [h]
  rfl

/-- A start-up switch begins from the reset values and its readying waits for a source, or for the lock of IRC. -/
theorem beginSwitch_cold {s : State} (h : Cold s) {sel : Selection} {st : TbuState}
    (indirect : sel ≠ ⟨.irc, none⟩)
    (hst : st = .switching ⟨.irc, none⟩ ⟨sel, .startUp, none⟩ (s.now + switchLimit)
      ∨ st = .preparing ⟨sel, .startUp, none⟩ (s.now + switchLimit)) :
    beginSwitch s st ⟨sel, .startUp, none⟩ none = s.setTbu (startedTbu st (wantsXo s st)
      (if sel.source = .irc then .locking false (s.now + 2 * cyclesPerMs) else .stopped)) := by
  have awake : st.standbySel = none := by rcases hst with rfl | rfl <;> rfl
  have going : switchBegins s st ⟨sel, .startUp, none⟩ none = s.setTbu (startedTbu st (wantsXo s st) .stopped) := by
    unfold switchBegins
    dsimp only [Option.isSome_none, Bool.false_and]
    rw [if_neg nofun, unitGoes_cold h awake, switchTold_startUp]
    exact h.unheld
  rw [beginSwitch_eq, going]
  generalize wantsXo s st = xo
  have readies : progress (s.setTbu (startedTbu st xo .stopped))
      = readyTarget (s.setTbu (startedTbu st xo .stopped)) ⟨sel, .startUp, none⟩ := by
    rcases hst with rfl | rfl <;> rfl
  have waits : (s.setTbu (startedTbu st xo .stopped)).sourceReady sel.source = true ↔ sel.source = .irc := by
    have a : s.da.state = .absent := h.absent .da
    have b : s.db.state = .absent := h.absent .db
    unfold State.sourceReady
    cases sel.source
    case irc => exact ⟨fun _ => rfl, fun _ => rfl⟩
    case xo => cases xo <;> exact ⟨nofun, nofun⟩
    case exa => rw [State.setTbu_da, a]; exact ⟨nofun, nofun⟩
    case exb => rw [State.setTbu_db, b]; exact ⟨nofun, nofun⟩
  rw [readies]
  unfold readyTarget
  dsimp only
  by_cases src : sel.source = .irc
  · rw [if_pos (waits.mpr src), if_pos src]
    obtain ⟨source, syn⟩ := sel
    subst src
    cases syn
    case none => exact absurd rfl indirect
    case some c => rfl
  · rw [if_neg (mt waits.mp src), if_neg src]

/-- The state the start-up path gives the unit (R168). -/
def startState (now : Nat) (sel : Selection) (two : Bool) : TbuState :=
  if sel = ⟨.irc, none⟩ then .running ⟨.irc, none⟩
  else if two then .switching ⟨.irc, none⟩ ⟨sel, .startUp, none⟩ (now + switchLimit)
  else .preparing ⟨sel, .startUp, none⟩ (now + switchLimit)

theorem startUpPath_cold {s : State} (h : Cold s) (sel : Selection) (two : Bool) :
    startUpPath s sel .startUp two = s.setTbu (startedTbu (startState s.now sel two)
      (sel.source == .xo || s.table.xo.keep)
      (if sel.source = .irc ∧ sel ≠ ⟨.irc, none⟩ then .locking false (s.now + 2 * cyclesPerMs) else .stopped)) := by
  unfold startUpPath startState
  dsimp only
  by_cases direct : sel = ⟨.irc, none⟩
  · subst direct
    rw [if_pos rfl, if_pos rfl, settleClocks_of_state, unitGoes_cold h rfl]
    rfl
  · have synth : (if sel.source = .irc ∧ sel ≠ ⟨.irc, none⟩ then SynthState.locking false (s.now + 2 * cyclesPerMs)
        else .stopped) = if sel.source = .irc then .locking false (s.now + 2 * cyclesPerMs) else .stopped := by
      simp only [ne_eq, direct, not_false_iff, and_true]
    rw [if_neg direct, if_neg direct, synth]
    cases two
    · rw [if_neg nofun, if_neg nofun, beginSwitch_cold h direct (.inr rfl)]
      unfold wantsXo selectionsOf
      simp [TbuState.current, TbuState.switch]
    · rw [if_pos rfl, if_pos rfl, beginSwitch_cold h direct (.inl rfl)]
      unfold wantsXo selectionsOf
      simp [TbuState.current, TbuState.switch, show (Source.irc == .xo) = false from rfl]

theorem initSelection_direct (n : Fin 8) : initSelection n = ⟨.irc, none⟩ ↔ n = 0 := by revert n; decide

theorem initSelection_xo (n : Fin 8) : (initSelection n).source = .xo ↔ n = 1 ∨ n = 5 := by revert n; decide

theorem initSelection_locks (n : Fin 8) :
    (initSelection n).source = .irc ∧ initSelection n ≠ ⟨.irc, none⟩ ↔ n = 4 := by revert n; decide

/-- The Timebase Unit after the start-up path of a reset, by the start selection's code (R167, R168). -/
theorem startUpPath_init {s : State} (h : Cold s) (n : Fin 8) (two : Bool) :
    startUpPath s (initSelection n) .startUp two = s.setTbu
      { Tbu.reset with
        state := if n = 0 then .running ⟨.irc, none⟩
          else if two then .switching ⟨.irc, none⟩ ⟨initSelection n, .startUp, none⟩ (s.now + switchLimit)
          else .preparing ⟨initSelection n, .startUp, none⟩ (s.now + switchLimit)
        xo := if n = 1 ∨ n = 5 ∨ s.table.xo.keep = true then .starting 0 else .off
        synth := if n = 4 then .locking false (s.now + 2 * cyclesPerMs) else .stopped } := by
  rw [startUpPath_cold h]
  unfold startedTbu startState
  simp only [initSelection_direct, initSelection_locks, Bool.or_eq_true, beq_iff_eq, initSelection_xo, or_assoc]

/-- Settles O5: the reset values are `Cold`, so that the path is that of `startUpPath_init`. -/
theorem resetEndStartsThePath : Obligations.ResetEndStartsThePath := by
  unfold Obligations.ResetEndStartsThePath
  refine ⟨fun s n two fse blank => ?_, fun s n two fse high => ?_⟩
  · have low : s.resetLow = true := by rw [blank]; rfl
    have keep : s.table.xo.keep = false := by rw [blank]; rfl
    let u : State := { s with straps := ⟨n, two, fse⟩, resetLow := false, da := .reset s.now, db := .reset s.now }
    have cold : Cold u := by
      refine ⟨?_, fun d => by cases d <;> rfl, fun d => by cases d <;> rfl, ?_⟩
      · show s.tbu = _; rw [blank]; rfl
      · show s.tbClaim.holders = _; rw [blank]; rfl
    have runs : exec (.externalResetEnd n two fse) s = .next (startUpPath u (initSelection n) .startUp two) :=
      congrArg Host.Outcome.next (if_pos low)
    have noKeep : u.table.xo.keep = false := keep
    rw [startUpPath_init cold, noKeep] at runs
    refine ⟨_, runs, rfl, fun d => by cases d <;> rfl, rfl, rfl, rfl, rfl, rfl, ?_, rfl⟩
    simp [State.setTbu]
  · exact congrArg Host.Outcome.next (if_neg (by rw [high]; exact nofun))

/-! ### The consented reset (R175) -/

theorem keepFixed_of_fixed {r : SlotRec} (h : r.state = .fixedSlot) : r.keepFixed = { r with owner := none, refs := 0 } := by
  unfold SlotRec.keepFixed
  rw [h]

theorem keepFixed_of_not_fixed {r : SlotRec} (h : r.state ≠ .fixedSlot) : r.keepFixed = .reset := by
  unfold SlotRec.keepFixed
  cases e : r.state
  case fixedSlot => exact absurd e h
  all_goals rfl

/-- Settles O7: what the reset keeps is what `consentedValues` copies, and those values are `Cold`. -/
theorem consentedResetKeepsWhatIsLearned : Obligations.ConsentedResetKeepsWhatIsLearned := by
  unfold Obligations.ConsentedResetKeepsWhatIsLearned
  intro s taken high done
  have cold : Cold (consentedValues s) :=
    ⟨rfl, fun d => by cases d <;> rfl, fun d => by cases d <;> rfl, rfl⟩
  have runs : exec .consentedReset s
      = .next (startUpPath (consentedValues s) (initSelection s.straps.initsel) .startUp s.straps.twospd) :=
    congrArg Host.Outcome.next (if_pos (by rw [taken, done, high]; rfl))
  have slot (k : Slot) : (consentedValues s).slot k = (s.slot k).keepFixed := by
    simp [State.slot, consentedValues]
  rw [startUpPath_init cold] at runs
  refine ⟨_, runs, rfl, rfl, rfl, rfl, rfl, rfl, rfl, rfl, rfl, fun m => ?_, fun m => ?_, fun o => ?_, fun g => ?_,
    rfl, fun k fixed => ?_, fun k loose => ?_, fun d => ?_, rfl, rfl, rfl, rfl, rfl, rfl, rfl⟩
  · rw [State.master_setTbu]
    simp [State.master, consentedValues, State.reset, MasterRec.reset]
  · rw [State.link_setTbu]
    simp [State.link, consentedValues, Link.reset]
  · rw [State.chan_setTbu]
    simp [State.chan, consentedValues, State.reset, Channel.reset]
  · rw [State.claim_setTbu]
    cases g <;> simp [State.claim, consentedValues, State.reset, ClaimRec.reset]
  · rw [State.slot_setTbu, slot, keepFixed_of_fixed fixed]
  · rw [State.slot_setTbu, slot, keepFixed_of_not_fixed loose]
    rfl
  · cases d <;> exact ⟨rfl, rfl, rfl, rfl, rfl, rfl⟩

end Sys2Proof.MachineProofs
end

section
/-! The links: what the receiver makes of a run of characters, what a closed frame meets, and what a transmitter sends. -/

namespace Sys2Proof.LinkProofs

open Machine Laws

/-! ### Escaping (R152) -/

theorem flag_not_mem_escapeByte (b : Byte) : flagByte ∉ escapeByte b := by
  unfold escapeByte
  split
  next special =>
    simp only [List.mem_cons, List.not_mem_nil, or_false, not_or]
    rcases special with rfl | rfl <;> decide
  next plain => exact fun h => plain (.inl (List.mem_singleton.mp h).symm)

theorem escape_contains_flag (bs : List Byte) : (escape bs).contains flagByte = false := by
  rw [List.contains_eq_mem, decide_eq_false_iff_not]
  intro h
  obtain ⟨chars, hc, hf⟩ := List.mem_flatten.mp h
  obtain ⟨b, -, rfl⟩ := List.mem_map.mp hc
  exact flag_not_mem_escapeByte b hf

/-- The link with its receiver assembling a frame. -/
def assembling (l : Link) (bytes : List Byte) (esc : Bool) : Link := { l with rx := .assembling bytes esc }

theorem assembling_self {l : Link} {bytes : List Byte} {esc : Bool} (h : l.rx = .assembling bytes esc) :
    assembling l bytes esc = l := by
  unfold assembling
  rw [← h]

theorem character_escape (l : Link) (bytes : List Byte) :
    (assembling l bytes false).character escChar = assembling l bytes true := rfl

/-- An escaped byte is received as the byte it stands for. -/
theorem escapeByte_received (l : Link) (bytes : List Byte) (b : Byte) :
    (escapeByte b).foldl Link.character (assembling l bytes false) = assembling l (bytes ++ [b]) false := by
  unfold escapeByte
  split
  next special =>
    rw [List.foldl_cons, character_escape, List.foldl_cons, List.foldl_nil]
    rcases special with rfl | rfl <;> rfl
  next plain =>
    obtain ⟨notFlag, notEsc⟩ := not_or.mp plain
    rw [List.foldl_cons, List.foldl_nil]
    unfold Link.character
    rw [if_neg notFlag]
    unfold assembling Receiver.character
    dsimp only
    rw [if_neg notEsc]

/-- The escaped bytes of a run are received as the run. -/
theorem escape_received (l : Link) : ∀ bs bytes : List Byte,
    (escape bs).foldl Link.character (assembling l bytes false) = assembling l (bytes ++ bs) false
  | [], bytes => by rw [List.append_nil]; rfl
  | b :: bs, bytes => by
    rw [show escape (b :: bs) = escapeByte b ++ escape bs from rfl, List.foldl_append, escapeByte_received,
      escape_received l bs, List.append_assoc]
    rfl

/-! ### The closing flag (R153) -/

/-- The checks of a closed frame do not look at the receiver. -/
theorem closeFrame_assembling (l : Link) (r : Receiver) (bytes : List Byte) :
    { ({ l with rx := r } : Link).closeFrame bytes with rx := l.rx } = l.closeFrame bytes := by
  unfold Link.closeFrame
  dsimp only
  split
  · rfl
  · split
    · rfl
    · split
      · split <;> rfl
      · rfl

theorem flag_after_bytes {l : Link} (h : l.rx = .assembling [] false) {bytes : List Byte} (hb : bytes ≠ []) :
    (assembling l bytes false).flag = l.closeFrame bytes := by
  obtain ⟨b, bs, rfl⟩ := List.exists_cons_of_ne_nil hb
  rw [← closeFrame_assembling l (.assembling (b :: bs) false), h]
  rfl

theorem receive_high {s : State} (high : s.resetLow = false) (m : Master) (f : Link → Link) :
    s.receive m f = s.setLink m (f (s.link m)) := by
  unfold State.receive
  rw [if_neg (by rw [high]; exact nofun)]

/-- The escaped bytes of a frame and its closing flag, after an opening flag. -/
theorem exec_frameClose_escape {s : State} {m : Master} (high : s.resetLow = false)
    (rx : (s.link m).rx = .assembling [] false) {bytes : List Byte} (hb : bytes ≠ []) :
    exec (.frameClose m (escape bytes)) s = .next (s.setLink m ((s.link m).closeFrame bytes)) := by
  show Host.Outcome.next (s.receive m _) = _
  have received := escape_received (s.link m) bytes []
  rw [assembling_self rx, List.nil_append] at received
  rw [receive_high high, received, flag_after_bytes rx hb]

theorem crcBytes_length (content : List Byte) : (crcBytes content).length = 2 := rfl

section CloseFrame

variable {l : Link} {bytes : List Byte}

theorem closeFrame_overrun (h : 2 ≤ l.buf.length) :
    l.closeFrame bytes = { l with stats := { l.stats with overruns := min (l.stats.overruns + 1) 65535 } } := by
  unfold Link.closeFrame
  rw [if_pos (show bufferLimit ≤ l.buf.length from h)]
  rfl

theorem closeFrame_length (h : l.buf.length < 2) (hl : bytes.length < 4 ∨ 42 < bytes.length) :
    l.closeFrame bytes = { l with stats := { l.stats with length := min (l.stats.length + 1) 65535 } } := by
  unfold Link.closeFrame
  rw [if_neg (show ¬bufferLimit ≤ l.buf.length from Nat.not_le.mpr h), if_pos hl]
  rfl

theorem closeFrame_crc (h : l.buf.length < 2) (low : 4 ≤ bytes.length) (high : bytes.length ≤ 42)
    (hc : bytes.drop (bytes.length - 2) ≠ crcBytes (bytes.take (bytes.length - 2))) :
    l.closeFrame bytes = { l with stats := { l.stats with crc := min (l.stats.crc + 1) 65535 } } := by
  unfold Link.closeFrame
  rw [if_neg (show ¬bufferLimit ≤ l.buf.length from Nat.not_le.mpr h),
    if_neg (not_or.mpr ⟨Nat.not_lt.mpr low, Nat.not_lt.mpr high⟩)]
  dsimp only
  rw [if_neg hc]
  rfl

theorem closeFrame_intact (h : l.buf.length < 2) {kind tag : Byte} {payload : List Byte} (hp : payload.length ≤ 38) :
    l.closeFrame (kind :: tag :: payload ++ crcBytes (kind :: tag :: payload))
      = { l with buf := l.buf ++ [⟨kind, tag, payload⟩] } := by
  have content : (kind :: tag :: payload ++ crcBytes (kind :: tag :: payload)).length - 2
      = (kind :: tag :: payload).length := by
    rw [List.length_append, crcBytes_length, Nat.add_sub_cancel]
  unfold Link.closeFrame
  rw [if_neg (show ¬bufferLimit ≤ l.buf.length from Nat.not_le.mpr h), if_neg (by
    rw [List.length_append, crcBytes_length, List.length_cons, List.length_cons]
    omega)]
  dsimp only
  rw [content, List.take_left, List.drop_left, if_pos rfl]
  rfl

end CloseFrame

/-- Settles O8: the escaped content is received as itself, and its check sequence closes it. -/
theorem everyFrameArrivesIntact : Obligations.EveryFrameArrivesIntact := by
  unfold Obligations.EveryFrameArrivesIntact
  intro s m kind tag payload high rx room short
  refine ⟨?_, ?_⟩
  · show (!(escape _).contains flagByte) = true
    rw [escape_contains_flag]
    rfl
  · have nonempty : kind :: tag :: payload ++ crcBytes (kind :: tag :: payload) ≠ [] := List.cons_ne_nil _ _
    rw [exec_frameClose_escape high rx nonempty, closeFrame_intact room short]

/-- Settles O9, one check of R153 after the other. -/
theorem badFramesAreCountedAndDiscarded : Obligations.BadFramesAreCountedAndDiscarded := by
  unfold Obligations.BadFramesAreCountedAndDiscarded
  intro s m bytes high rx hb
  rw [exec_frameClose_escape high rx hb]
  refine ⟨fun full => ?_, fun room length => ?_, fun room low short wrong => ?_⟩
  · rw [closeFrame_overrun full]
  · rw [closeFrame_length room length]
  · rw [closeFrame_crc room low short wrong]

/-! ### Flags and aborts (R152) -/

theorem flag_after_escape {l : Link} {bytes : List Byte} (h : l.rx = .assembling bytes true) :
    l.flag = { l with rx := .assembling [] false,
                      stats := { l.stats with aborts := min (l.stats.aborts + 1) 65535 } } := by
  unfold Link.flag
  rw [h]
  rfl

/-- Settles O10, by what a flag meets: hunting, an escape, or no byte since the last flag. -/
theorem abortsAndFlags : Obligations.AbortsAndFlags := by
  unfold Obligations.AbortsAndFlags
  intro s m high
  refine ⟨?_, fun hunting => ?_, fun bytes esc => ?_, fun bytes opened => ?_, fun opened => ?_⟩
  · show Host.Outcome.next (s.receive m Link.broken) = _
    rw [receive_high high]
    rfl
  · show Host.Outcome.next (s.receive m Link.flag) = _
    rw [receive_high high]
    unfold Link.flag
    rw [hunting]
  · show Host.Outcome.next (s.receive m Link.flag) = _
    rw [receive_high high, flag_after_escape esc]
  · show Host.Outcome.next (s.receive m _) = _
    have received := escape_received (s.link m) bytes []
    rw [assembling_self opened, List.nil_append] at received
    rw [receive_high high, List.foldl_append, received]
    exact congrArg (fun l => Host.Outcome.next (s.setLink m l)) (flag_after_escape (l := assembling _ bytes true) rfl)
  · show Host.Outcome.next (s.receive m Link.flag) = _
    have idle : (s.link m).flag = s.link m := by
      unfold Link.flag
      rw [opened]
    rw [receive_high high, idle]
    simp [State.setLink, State.link]

/-! ### Sending (R157) -/

theorem lineChars_eq (shared : Bool) (content : List Byte) : lineChars shared content
    = (if shared then [] else [0xA5]) ++ escape (content ++ crcBytes content) ++ [0xA5] := rfl

/-- Settles O11. -/
theorem responseGoesOutWithTheDroppedFlag : Obligations.ResponseGoesOutWithTheDroppedFlag := by
  unfold Obligations.ResponseGoesOutWithTheDroppedFlag
  intro s m shared r free waiting due
  show Host.Outcome.next (beginResponse s m) = _
  have dueNow : (s.link m).responseDue = some r := by
    unfold Link.responseDue
    rw [waiting]
    exact if_pos due
  unfold beginResponse
  rw [free, dueNow]
  rfl

theorem responseDue_none {l : Link} (h : ∀ r, l.slot = some r → 0 < r.ahead) : l.responseDue = none := by
  unfold Link.responseDue
  cases slot : l.slot
  case none => rfl
  case some r => exact if_neg (Nat.pos_iff_ne_zero.mp (h r slot))

/-- Settles O12. -/
theorem oldestNoticeGoesOut : Obligations.OldestNoticeGoesOut := by
  unfold Obligations.OldestNoticeGoesOut
  refine ⟨fun s m shared q rest free queue ahead => ?_, fun s m content line closing ends sending => ?_⟩
  · show Host.Outcome.next (beginNotice s m) = _
    unfold beginNotice
    rw [free, responseDue_none ahead, queue]
    rfl
  · show Host.Outcome.next (endTransmission s m) = _
    unfold endTransmission
    rw [sending]
    rfl

end Sys2Proof.LinkProofs
end

section
/-! Requests: the row that takes a frame, the admission checks, and the membership requests KEEPALIVE and JOIN with the
expiry of a lease. -/

namespace Sys2Proof.RequestProofs

open Machine Laws

/-! ### From a command to its row -/

/-- The command `c` serves the frame `f` of link `m`: its row names the frame, whose kind is known (R160). -/
def Serves (c : Instr) (s : State) (m : Master) (f : Frame) : Prop :=
  knownKind f.kind.toNat = true
    ∧ ∃ (row : Frame → Bool) (owner : State → Frame → Reply), row f = true ∧ exec c s = .next (serve s m row owner)

theorem serves_of_request {c : Instr} {m : Master} {f : Frame} (h : c.request = some (m, f.kind)) (s : State) :
    Serves c s m f := by
  obtain ⟨kind, tag, payload⟩ := f
  cases c <;> cases h <;> exact ⟨rfl, _, _, rfl, rfl⟩

theorem queryRow_of_class {f : Frame} {cls : Nat} (hk : f.kind = 0x04)
    (h : f.payload.length ≠ 3 ∨ byteAt f.payload 0 = cls) : queryRow cls f = true := by
  unfold queryRow kindIs
  rw [hk, Bool.and_eq_true, Bool.or_eq_true, Bool.or_eq_true, bne_iff_ne, beq_iff_eq,
    beq_iff_eq]
  exact ⟨rfl, .inl h⟩

theorem serves_of_query {c : Instr} {m : Master} {f : Frame} {cls : Nat} (h : c.query = some (m, cls))
    (hk : f.kind = 0x04) (hf : f.payload.length ≠ 3 ∨ byteAt f.payload 0 = cls) (s : State) : Serves c s m f := by
  have known : knownKind f.kind.toNat = true := by rw [hk]; rfl
  have row := queryRow_of_class hk hf
  cases c <;> cases h <;> exact ⟨known, _, _, row, rfl⟩

theorem serves_of_takes {c : Instr} {m : Master} {f : Frame} (h : Takes c m f) (s : State) : Serves c s m f := by
  rcases h with request | ⟨rfl, hk, form⟩ | ⟨rfl, hk, form⟩ | ⟨cls, query, hk, hf⟩
  · exact serves_of_request request s
  · refine ⟨by rw [hk]; rfl, startRow, _, ?_, rfl⟩
    unfold startRow kindIs
    rw [hk, Bool.and_eq_true, bne_iff_ne]
    exact ⟨rfl, form⟩
  · refine ⟨by rw [hk]; rfl, groupStartRow, _, ?_, rfl⟩
    unfold groupStartRow kindIs
    rw [hk, form]
    rfl
  · exact serves_of_query query hk hf s

/-! ### Admission (R159) -/

section Admission

variable {s : State} {m : Master} {f : Frame}

theorem admission_unknown (h : knownKind f.kind.toNat = false) : admission s m f = some .unknownKind := by
  unfold admission
  simp only [h]
  rfl

theorem admission_malformed (hk : knownKind f.kind.toNat = true) (hl : lengthAllowed f.kind.toNat f.payload.length = false) :
    admission s m f = some .malformed := by
  unfold admission
  simp only [hk, hl]
  rfl

theorem admission_absent (hk : knownKind f.kind.toNat = true) (hl : lengthAllowed f.kind.toNat f.payload.length = true)
    (hs : (s.master m).state = .absent) (hu : admittedUnjoined f.kind.toNat = false) :
    admission s m f = some .notJoined := by
  unfold admission
  simp only [hk, hl, hs, hu]
  rfl

theorem admission_evicted (hk : knownKind f.kind.toNat = true) (hl : lengthAllowed f.kind.toNat f.payload.length = true)
    (hs : (s.master m).state = .evicted) (hu : admittedUnjoined f.kind.toNat = false) :
    admission s m f = some .evicted := by
  unfold admission
  simp only [hk, hl, hs, hu]
  rfl

theorem admission_standby (hk : knownKind f.kind.toNat = true) (hl : lengthAllowed f.kind.toNat f.payload.length = true)
    (hs : (s.master m).state = .joined) (hb : s.tbu.state.isStandby = true)
    (ha : admittedInStandby f.kind.toNat = false) : admission s m f = some .standby := by
  have hb' : s.tbu.state.standbySel.isSome = true := hb
  unfold admission
  simp only [hk, hl, hs, hb', ha]
  rfl

end Admission

theorem admittedUnjoined_eq_false {k : Nat} (hj : k ≠ 0x01) (hq : k ≠ 0x04) : admittedUnjoined k = false := by
  unfold admittedUnjoined
  rw [beq_false_of_ne hj, beq_false_of_ne hq]
  rfl

theorem not_joined_of_absent {s : State} {m : Master} (h : (s.master m).state = .absent) : s.joined m = false := by
  unfold State.joined MasterRec.isJoined
  rw [h]

theorem not_joined_of_evicted {s : State} {m : Master} (h : (s.master m).state = .evicted) : s.joined m = false := by
  unfold State.joined MasterRec.isJoined
  rw [h]

section Refused

variable {c : Instr} {s : State} {m : Master} {f : Frame} {code : ResultCode}

/-- A joined sender's frame refused at admission is taken all the same. -/
theorem exec_refused_of_joined (hs : Serves c s m f) (ho : Offered s m f) (hj : s.joined m = true)
    (ha : admission (taken s m f) m f = some code) : exec c s = .next (answered (taken s m f) m f code []) := by
  obtain ⟨-, row, owner, hr, he⟩ := hs
  have common := commonEffect_of_joined (f := f) hj
  rw [he, serve_of_offered ho hr, handle_of_refused (by rw [common]; exact ha), common]

/-- The frame of a sender that is not joined has no common effect. -/
theorem exec_refused_of_not_joined (hs : Serves c s m f) (ho : Offered s m f) (hj : s.joined m = false)
    (ha : admission (popped s m) m f = some code) : exec c s = .next (answered (popped s m) m f code []) := by
  obtain ⟨-, row, owner, hr, he⟩ := hs
  have common := commonEffect_of_not_joined (f := f) hj
  rw [he, serve_of_offered ho hr, handle_of_refused (by rw [common]; exact ha), common]

end Refused

theorem knownKind_eq_false {k : Byte} (h : k = 0 ∨ 0x1B < k.toNat) : knownKind k.toNat = false := by
  unfold knownKind
  rw [Bool.and_eq_false_iff]
  rcases h with rfl | h
  · exact .inl rfl
  · exact .inr (decide_eq_false (Nat.not_le.mpr h))

/-- A frame of unknown kind is taken by the row UNKNOWN_KIND and refused there. -/
theorem exec_unknownKind {s : State} {m : Master} {f : Frame} (ho : Offered s m f) (hk : knownKind f.kind.toNat = false) :
    exec (.unknownKind m) s = .next (answered (commonEffect (popRequest s m) m f) m f .unknownKind []) := by
  show Host.Outcome.next (serve s m unknownRow _) = _
  rw [serve_of_offered ho (by unfold unknownRow; rw [hk]; rfl), handle_of_refused (admission_unknown hk)]

/-- Settles O13: the row takes the frame whatever its kind, and each check refuses in its order. -/
theorem admissionRefusesInOrder : Obligations.AdmissionRefusesInOrder := by
  unfold Obligations.AdmissionRefusesInOrder
  refine ⟨fun s c m f takes offered => ?_, fun s m f offered unknown => ?_⟩
  · have serves := serves_of_takes takes s
    have known := serves.1
    refine ⟨fun joined length => ?_, fun out length => ?_, fun absent length hj hq => ?_,
      fun evicted length hj hq => ?_, fun joined length standby kind => ?_⟩
    · exact exec_refused_of_joined serves offered joined (admission_malformed known length)
    · exact exec_refused_of_not_joined serves offered out (admission_malformed known length)
    · exact exec_refused_of_not_joined serves offered (not_joined_of_absent absent)
        (admission_absent known length absent (admittedUnjoined_eq_false hj hq))
    · exact exec_refused_of_not_joined serves offered (not_joined_of_evicted evicted)
        (admission_evicted known length evicted (admittedUnjoined_eq_false hj hq))
    · exact exec_refused_of_joined serves offered joined
        (admission_standby known length (taken_state s m f) standby kind)
  · rw [exec_unknownKind offered (knownKind_eq_false unknown)]
    exact ⟨fun joined => by rw [commonEffect_of_joined joined], fun out => by rw [commonEffect_of_not_joined out]⟩

/-! ### KEEPALIVE and JOIN (R144, R145) -/

/-- Settles O14: the owner of KEEPALIVE answers OK and does nothing. -/
theorem keepaliveRenewsTheLease : Obligations.KeepaliveRenewsTheLease := by
  unfold Obligations.KeepaliveRenewsTheLease
  intro s m f admitted
  have kind : f.kind = 0x03 := admitted.2.1
  have runs : exec (.keepalive m) s = .next (answered (taken s m f) m f .ok []) :=
    congrArg Host.Outcome.next
      (ProfileProofs.serve_eq_answered (owner := fun s _ => okay s) admitted (by decide) rfl)
  rw [runs]
  unfold taken
  rw [kind]
  rfl

theorem admission_join (s : State) (m : Master) (tag p : Byte) : admission s m ⟨0x01, tag, [p]⟩ = none := by
  unfold admission
  dsimp only
  simp [show knownKind 1 = true from rfl, show lengthAllowed 1 1 = true from rfl,
    show admittedUnjoined 1 = true from rfl, show admittedInStandby 1 = true from rfl]

/-- JOIN is admitted from any sender, and its owner answers. -/
theorem exec_join {s : State} {m : Master} {tag p : Byte} (h : Offered s m ⟨0x01, tag, [p]⟩) :
    let f : Frame := ⟨0x01, tag, [p]⟩
    let r := joinRequest (commonEffect (popRequest s m) m f) m f
    exec (.join m) s = .next (answered r.state m f r.code r.payload) := by
  intro f r
  show Host.Outcome.next (serve s m (kindIs 0x01) _) = _
  rw [serve_of_offered h rfl]
  unfold handle
  dsimp only
  rw [admission_join]
  rfl

section Join

variable {s : State} {m : Master} {f : Frame} {p : Byte}

theorem joinRequest_of_period (hf : f.payload = [p]) (low : 5 ≤ p.toNat) (high : p.toNat ≤ 250) :
    joinRequest s m f
      = okay (s.setMaster m ((s.master m).join p.toNat (s.now + tenMs p.toNat) f)) := by
  unfold joinRequest
  rw [hf]
  exact if_pos ⟨low, high⟩

theorem joinRequest_of_bad_period (hf : f.payload = [p]) (h : p.toNat < 5 ∨ 250 < p.toNat) :
    joinRequest s m f = refuse s .badValue := by
  unfold joinRequest
  rw [hf]
  exact if_neg fun ⟨low, high⟩ => h.elim (Nat.not_lt.mpr low) (Nat.not_lt.mpr high)

theorem join_of_joined {r : MasterRec} {period timer : Nat} (h : r.isJoined = true) :
    r.join period timer f = { r with period := some period, timer := some timer } := by
  unfold MasterRec.join
  rw [if_pos h]

theorem join_of_not_joined {r : MasterRec} {period timer : Nat} (h : r.isJoined = false) :
    r.join period timer f = { r with state := .joined, period := some period, timer := some timer,
                                     last := some (f.kind, f.tag), latched := none } := by
  unfold MasterRec.join
  rw [if_neg (by rw [h]; exact nofun)]

theorem taken_master (s : State) (m : Master) (f : Frame) : (taken s m f).master m = { s.master m with
    state := .joined, timer := some (s.now + tenMs ((s.master m).period.getD 0)), latched := none,
    last := some (f.kind, f.tag) } := by
  unfold taken
  rw [State.master_setMaster_self]

end Join

/-- Settles O15, by who sends the JOIN and whether its period is in range. -/
theorem joinSetsTheLease : Obligations.JoinSetsTheLease := by
  unfold Obligations.JoinSetsTheLease
  intro s m tag p offered
  dsimp only
  rw [exec_join offered]
  refine ⟨fun out low high => ?_, fun joined low high => ?_, fun out bad => ?_, fun joined bad => ?_⟩
  · have r : ((popped s m).master m).isJoined = false := out
    rw [commonEffect_of_not_joined out, joinRequest_of_period rfl low high, join_of_not_joined r]
    rfl
  · have r : ((taken s m ⟨0x01, tag, [p]⟩).master m).isJoined = true := by
      rw [taken_master]
      rfl
    rw [commonEffect_of_joined joined, joinRequest_of_period rfl low high, join_of_joined r, taken_master]
    dsimp only [okay]
    unfold taken
    rw [State.setMaster_setMaster]
    rfl
  · rw [commonEffect_of_not_joined out, joinRequest_of_bad_period rfl bad]
    rfl
  · rw [commonEffect_of_joined joined, joinRequest_of_bad_period rfl bad]
    rfl

/-! ### The first expiry of a lease (R147), and notices (R158) -/

section Notices

variable (s : State) {m : Master} (closing : Bool) (n : Notice)

theorem handMarked_of_room (hj : s.joined m = true) (hq : (s.link m).queue.length < 16) :
    s.handMarked m closing n = s.setLink m { s.link m with queue := (s.link m).queue ++ [⟨n, closing⟩] } := by
  unfold State.handMarked noticeLimit
  rw [if_pos hj, if_pos hq]

theorem handMarked_of_full (hj : s.joined m = true) (hq : 16 ≤ (s.link m).queue.length) :
    s.handMarked m closing n = s.setMaster m { s.master m with dropped := true } := by
  unfold State.handMarked noticeLimit
  rw [if_pos hj, if_neg (Nat.not_lt.mpr hq)]

theorem handMarked_of_not_joined (hj : s.joined m = false) : s.handMarked m closing n = s := by
  unfold State.handMarked
  rw [if_neg (by rw [hj]; exact nofun)]

end Notices

theorem leaseExpires_first {s : State} {m : Master} {t p : Nat} (hs : (s.master m).state = .joined)
    (ht : (s.master m).timer = some t) (hp : (s.master m).period = some p) :
    leaseExpires s m = (State.setMaster { s with now := max s.now t } m { s.master m with
      state := .lapsing, latched := (s.master m).last, timer := some (max s.now t + tenMs p) }).hand m
        (.leaseWarning (s.master m).last p) := by
  unfold leaseExpires
  rw [ht]
  dsimp only
  rw [hs]
  dsimp only
  unfold firstExpiry
  simp only [State.master_reach, hp, Option.getD_some]
  rfl

/-- Settles O17: the expiry of a JOINED master is `firstExpiry`, whose notice meets room or a full queue. -/
theorem firstExpiryWarns : Obligations.FirstExpiryWarns := by
  unfold Obligations.FirstExpiryWarns
  refine ⟨fun s m t p hs ht hp => ?_, fun s m n => ⟨fun closing => ?_, rfl, rfl, fun _ => rfl⟩⟩
  · have runs : exec (.leaseExpiry m) s = .next (leaseExpires s m) := rfl
    rw [runs, leaseExpires_first hs ht hp]
    dsimp only
    generalize hu : State.setMaster { s with now := max s.now t } m { s.master m with
      state := .lapsing, latched := (s.master m).last, timer := some (max s.now t + tenMs p) } = u
    have link : u.link m = s.link m := by rw [← hu]; rfl
    have record : u.master m = { s.master m with
        state := .lapsing, latched := (s.master m).last, timer := some (max s.now t + tenMs p) } := by
      rw [← hu, State.master_setMaster_self]
    have joined : u.joined m = true := by
      unfold State.joined
      rw [record]
      rfl
    refine ⟨rfl, fun room => ?_, fun full => ?_⟩
    · rw [State.hand_of_room u _ joined (by rw [link]; exact room), link]
    · rw [State.hand_of_full u _ joined (by rw [link]; exact full), record, ← hu, State.setMaster_setMaster]
  · exact ⟨handMarked_of_room s closing n, handMarked_of_full s closing n, handMarked_of_not_joined s closing n⟩

end Sys2Proof.RequestProofs
end

section
/-! Voting: what a VOTE does by the state of the round, and how the last one carries it. The vote itself changes the
Proposal Table alone, which no effect of a carried proposal reads. -/

namespace Sys2Proof.VoteProofs

open Machine Laws

/-- An admitted request whose owner answers `r` ends in the state of `r`, for every command that serves one kind. -/
theorem exec_of_reply {c : Instr} {s : State} {m : Master} {k : Byte} {f : Frame} {owner : State → Frame → Reply}
    {r : Reply} (h : Admitted s m k f) (hk : knownKind k.toNat = true)
    (he : exec c s = .next (serve s m (kindIs k.toNat) owner)) (hr : owner (taken s m f) f = r) :
    exec c s = .next (answered r.state m f r.code r.payload) :=
  he.trans (congrArg Host.Outcome.next (ProfileProofs.serve_eq_answered h hk hr))

/-! ### VOTE (R85) -/

theorem exec_vote_of_reply {s : State} {m : Master} {f : Frame} {r : Reply} (h : Admitted s m 0x16 f)
    (hr : voteRequest (taken s m f) m f = r) : exec (.vote m) s = .next (answered r.state m f r.code r.payload) :=
  exec_of_reply (owner := fun s f => voteRequest s m f) h (by decide) rfl hr

section Vote

variable {s : State} {m : Master} {f : Frame} {p : Proposal}

theorem choiceOf_of_lt {n : Nat} (h : 1 < n) : choiceOf n = none := by
  unfold choiceOf
  split
  · exact absurd h (by decide)
  · exact absurd h (by decide)
  · rfl

theorem choiceOf_of_le {n : Nat} (h : n ≤ 1) : choiceOf n = some (n == 0) := by
  rcases Nat.le_one_iff_eq_zero_or_eq_one.mp h with rfl | rfl <;> rfl

theorem voteRequest_of_bad_choice (h : 1 < byteAt f.payload 1) : voteRequest s m f = refuse s .badValue := by
  unfold voteRequest
  rw [choiceOf_of_lt h]

theorem voteRequest_of_no_proposal (hc : byteAt f.payload 1 ≤ 1) (h : s.proposal (byteAt f.payload 0) = none) :
    voteRequest s m f = refuse s .noSuch := by
  unfold voteRequest
  rw [choiceOf_of_le hc]
  simp only [h]

theorem voteRequest_of_not_voter (hc : byteAt f.payload 1 ≤ 1) (h : s.proposal (byteAt f.payload 0) = some p)
    (hr : m ∉ p.required) : voteRequest s m f = refuse s .notVoter := by
  unfold voteRequest
  rw [choiceOf_of_le hc]
  simp only [h]
  rw [if_pos (by simpa using hr)]

theorem voteRequest_of_voted (hc : byteAt f.payload 1 ≤ 1) (h : s.proposal (byteAt f.payload 0) = some p)
    (hr : m ∈ p.required) (ha : m ∈ p.accepted) : voteRequest s m f = refuse s .state := by
  unfold voteRequest
  rw [choiceOf_of_le hc]
  simp only [h]
  rw [if_neg (by simpa using hr), if_pos (by simpa using ha)]

theorem voteRequest_of_reject (hc : byteAt f.payload 1 = 1) (h : s.proposal (byteAt f.payload 0) = some p)
    (hr : m ∈ p.required) (ha : m ∉ p.accepted) : voteRequest s m f = okay (endProposal s p .rejected) := by
  unfold voteRequest
  rw [hc]
  simp only [h, choiceOf]
  rw [if_neg (by simpa using hr), if_neg (by simpa using ha), if_neg nofun]

theorem voteRequest_of_accept (hc : byteAt f.payload 1 = 0) (h : s.proposal (byteAt f.payload 0) = some p)
    (hr : m ∈ p.required) (ha : m ∉ p.accepted) :
    voteRequest s m f = okay (carryIfAgreed (updateProposal s p.id (·.accept m)) p.id) := by
  unfold voteRequest
  rw [hc]
  simp only [h, choiceOf]
  rw [if_neg (by simpa using hr), if_neg (by simpa using ha), if_pos trivial]

end Vote

/-! ### The recorded vote -/

theorem proposal_id {s : State} {id : Nat} {p : Proposal} (h : s.proposal id = some p) : p.id = id :=
  beq_iff_eq.mp (List.find?_some (p := fun x : Proposal => x.id == id) h)

theorem updateProposal_voted (s : State) (m : Master) (f : Frame) (p : Proposal) :
    updateProposal (taken s m f) p.id (·.accept m) = voted s m f p := rfl

/-- The record of an open proposal after a change of it. -/
theorem proposal_updateProposal {s : State} {p : Proposal} (h : s.proposal p.id = some p) {g : Proposal → Proposal}
    (hg : ∀ x, (g x).id = x.id) : (updateProposal s p.id g).proposal p.id = some (g p) := by
  have keeps : (fun x : Proposal => x.id == p.id) ∘ (fun x => if x.id == p.id then g x else x)
      = fun x => x.id == p.id := funext fun x => by
    rw [Function.comp_apply]
    split
    · rw [hg]
    · rfl
  show ((s.consent.proposals.map _).find? _) = _
  rw [List.find?_map, keeps]
  show (s.proposal p.id).map _ = _
  rw [h]
  simp

theorem proposal_voted {s : State} {m : Master} {f : Frame} {p : Proposal} (h : s.proposal p.id = some p) :
    (voted s m f p).proposal p.id = some (p.accept m) := by
  rw [← updateProposal_voted]
  exact proposal_updateProposal (s := taken s m f) h fun _ => rfl

theorem carryIfAgreed_of_agreed {s : State} {id : Nat} {p : Proposal} (h : s.proposal id = some p)
    (ha : p.accepted = p.required) : carryIfAgreed s id = carry s p := by
  unfold carryIfAgreed
  simp only [h, if_pos ha]

theorem carryIfAgreed_of_waiting {s : State} {id : Nat} {p : Proposal} (h : s.proposal id = some p)
    (ha : p.accepted ≠ p.required) : carryIfAgreed s id = s := by
  unfold carryIfAgreed
  simp only [h, if_neg ha]

/-- The last voter's ACCEPT carries the proposal. -/
theorem exec_vote_of_last {s : State} {m : Master} {f : Frame} {p : Proposal} (h : LastVote s m f p) :
    exec (.vote m) s = .next (answered (carry (voted s m f p) (p.accept m)) m f .ok []) := by
  obtain ⟨admitted, choice, names, voter, fresh, agreed⟩ := h
  have open' : s.proposal p.id = some p := by rw [proposal_id names]; exact names
  have accepts := voteRequest_of_accept (s := taken s m f) choice names voter fresh
  rw [updateProposal_voted, carryIfAgreed_of_agreed (proposal_voted open') agreed] at accepts
  exact exec_vote_of_reply admitted accepts

theorem carries_of_last_vote {s : State} {m : Master} {f : Frame} {p : Proposal} (h : LastVote s m f p) :
    Carries (voted s m f p) p fun t outcome =>
      exec (.vote m) s = .next (answered (roundOver t p outcome (p.matter == .deviceReset)) m f .ok []) :=
  carries_carry (p := p.accept m) (ends := fun t => exec (.vote m) s = .next (answered t m f .ok []))
    (exec_vote_of_last h)

/-- Settles O53: the checks of R85 in their order, then by the vote and by who has accepted. -/
theorem voteIsRecordedOrDecides : Obligations.VoteIsRecordedOrDecides := by
  unfold Obligations.VoteIsRecordedOrDecides
  intro s m f admitted
  refine ⟨fun choice => exec_vote_of_reply admitted (voteRequest_of_bad_choice choice),
    fun choice none => exec_vote_of_reply admitted (voteRequest_of_no_proposal choice none), fun p names => ?_⟩
  have open' : s.proposal p.id = some p := by rw [proposal_id names]; exact names
  have rejects : byteAt f.payload 1 = 1 → m ∈ p.required → m ∉ p.accepted →
      exec (.vote m) s = .next (answered (endProposal (taken s m f) p .rejected) m f .ok []) :=
    fun reject voter fresh => exec_vote_of_reply admitted (voteRequest_of_reject reject names voter fresh)
  refine ⟨fun choice voter => exec_vote_of_reply admitted (voteRequest_of_not_voter choice names voter),
    fun choice voter done => exec_vote_of_reply admitted (voteRequest_of_voted choice names voter done), rejects,
    fun reject voter fresh => ConsentProofs.endProposal_eq_roundOver (taken s m f) p .rejected ▸ rejects reject voter fresh,
    fun accept voter fresh waits => ?_,
    fun accept voter fresh agreed => exec_vote_of_last ⟨admitted, accept, names, voter, fresh, agreed⟩,
    carries_of_last_vote⟩
  have accepts := voteRequest_of_accept (s := taken s m f) accept names voter fresh
  rw [updateProposal_voted, carryIfAgreed_of_waiting (proposal_voted open') waits] at accepts
  exact exec_vote_of_reply admitted accepts

/-! ### Effects that do not read the Proposal Table -/

section Table

variable (s : State) (ps : List Proposal)

theorem setSq_setProposals (o : Output) (r : OutRec) :
    (s.setProposals ps).setSq o r = (s.setSq o r).setProposals ps := rfl

theorem setQueue_setProposals (o : Output) (q : List Entry) :
    (s.setProposals ps).setQueue o q = (s.setQueue o q).setProposals ps := rfl

theorem setBurst_setProposals (o : Output) (b : Option Burst) :
    (s.setProposals ps).setBurst o b = (s.setBurst o b).setProposals ps := rfl

theorem addRef_setProposals (k : Slot) : (s.setProposals ps).addRef k = (s.addRef k).setProposals ps := rfl

theorem dropRef_setProposals (k : Slot) : (s.setProposals ps).dropRef k = (s.dropRef k).setProposals ps := rfl

theorem dropRefOpt_setProposals (k : Option Slot) :
    (s.setProposals ps).dropRefOpt k = (s.dropRefOpt k).setProposals ps := by cases k <;> rfl

theorem setClaim_setProposals (t : Target) (c : ClaimRec) :
    (s.setProposals ps).setClaim t c = (s.setClaim t c).setProposals ps := by cases t <;> rfl

theorem holders_setProposals (t : Target) : (s.setProposals ps).holders t = s.holders t := by
  unfold State.holders
  rw [State.claim_setProposals]

theorem hand_setProposals (m : Master) (n : Notice) :
    (s.setProposals ps).hand m n = (s.hand m n).setProposals ps := by
  unfold State.hand State.handMarked
  show (if s.joined m then if (s.link m).queue.length < noticeLimit then _ else _ else _) = _
  split
  · split <;> rfl
  · rfl

theorem hands_setProposals (n : Master → Notice) : ∀ (ms : List Master) (s : State),
    ms.foldl (fun u m => u.hand m (n m)) (s.setProposals ps)
      = (ms.foldl (fun u m => u.hand m (n m)) s).setProposals ps
  | [], _ => rfl
  | m :: ms, s => by
    rw [List.foldl_cons, List.foldl_cons, hand_setProposals, hands_setProposals n ms]

theorem handAll_setProposals (ms : List Master) (n : Notice) :
    (s.setProposals ps).handAll ms n = (s.handAll ms n).setProposals ps := hands_setProposals ps (fun _ => n) ms s

theorem entriesGo_setProposals (o : Output) (c : ChangeOutcome) : ∀ (es : List Entry) (s : State),
    entriesGo o c (s.setProposals ps) es = (entriesGo o c s es).setProposals ps
  | [], _ => rfl
  | e :: es, s => by
    have one (u : State) : entriesGo o c u (e :: es) = entriesGo o c (entriesGo o c u [e]) es := rfl
    have first : entriesGo o c (s.setProposals ps) [e] = (entriesGo o c s [e]).setProposals ps := by
      cases kind : e.kind <;>
        simp only [entriesGo, List.foldl_cons, List.foldl_nil, kind, dropRef_setProposals, holders_setProposals,
          handAll_setProposals, State.sq_setProposals]
    rw [one, first, one, entriesGo_setProposals o c es]

theorem lineReaches_setProposals (o : Output) :
    lineReaches (s.setProposals ps) o = (lineReaches s o).setProposals ps := by
  unfold lineReaches
  rw [State.burst_setProposals, State.sq_setProposals]
  cases s.burst o
  case none => rfl
  case some b =>
    dsimp only
    cases b.lineStart (s.sq o)
    · rfl
    · dsimp only
      rw [setBurst_setProposals, hand_setProposals]

theorem startTogether_setProposals : ∀ (os : List Output) (s : State),
    startTogether (s.setProposals ps) os = (startTogether s os).setProposals ps
  | [], _ => rfl
  | o :: os, s => by
    have one (u : State) : startTogether u (o :: os) = startTogether (startTogether u [o]) os := rfl
    have first : startTogether (s.setProposals ps) [o] = (startTogether s [o]).setProposals ps := by
      simp only [startTogether, List.foldl_cons, List.foldl_nil, State.sq_setProposals, State.setProposals_tbu,
        setSq_setProposals, lineReaches_setProposals, holders_setProposals, handAll_setProposals]
    rw [one, first, one, startTogether_setProposals os]

theorem starters_setProposals (frame : Option Output) : starters (s.setProposals ps) frame = starters s frame := rfl

end Table

/-- The end of a round takes the proposal out of the table, whatever votes the table holds. -/
theorem roundOver_of_votes {t : State} {p : Proposal} {g : Proposal → Proposal} (hg : ∀ x, (g x).id = x.id)
    (outcome : RoundOutcome) (closing : Bool) :
    roundOver (t.setProposals (t.consent.proposals.map fun x => if x.id == p.id then g x else x)) p outcome closing
      = roundOver t p outcome closing := by
  have others : (t.consent.proposals.map fun x => if x.id == p.id then g x else x).filter (fun x => x.id != p.id)
      = t.consent.proposals.filter fun x => x.id != p.id := by
    induction t.consent.proposals with
    | nil => rfl
    | cons x xs ih =>
      rw [List.map_cons, List.filter_cons, List.filter_cons, ih]
      by_cases e : x.id = p.id
      · simp [e, hg]
      · simp [e]
  unfold roundOver
  show List.foldl _ (State.setProposals t (List.filter _ _)) _ = _
  rw [State.setProposals_consent, others]

/-- The Proposal Table with the ACCEPT of `m` recorded in the proposal `p`. -/
def votes (s : State) (m : Master) (p : Proposal) : List Proposal :=
  s.consent.proposals.map fun x => if x.id == p.id then x.accept m else x

theorem voted_eq (s : State) (m : Master) (f : Frame) (p : Proposal) :
    voted s m f p = (taken s m f).setProposals (votes s m p) := rfl

theorem roundOver_votes {s t : State} (h : t.consent = s.consent) (m : Master) (p : Proposal) (outcome : RoundOutcome)
    (closing : Bool) : roundOver (t.setProposals (votes s m p)) p outcome closing = roundOver t p outcome closing := by
  unfold votes
  rw [← h]
  exact roundOver_of_votes (g := (·.accept m)) (fun _ => rfl) outcome closing

/-- A round that a vote carried is over as if its last vote had not been recorded. -/
theorem exec_of_votes {c : Instr} {s t : State} {m : Master} {f : Frame} {p : Proposal} {outcome : RoundOutcome}
    {closing : Bool}
    (h : exec c s = .next (answered (roundOver (t.setProposals (votes s m p)) p outcome closing) m f .ok []))
    (ht : t.consent = s.consent) : exec c s = .next (answered (roundOver t p outcome closing) m f .ok []) := by
  rwa [roundOver_votes ht] at h

/-! ### Effects that keep the Proposal Table -/

theorem hand_consent (s : State) (m : Master) (n : Notice) : (s.hand m n).consent = s.consent := by
  unfold State.hand
  rw [handMarked_eq]

theorem hands_consent (n : Master → Notice) : ∀ (ms : List Master) (s : State),
    (ms.foldl (fun u m => u.hand m (n m)) s).consent = s.consent
  | [], _ => rfl
  | m :: ms, s => (hands_consent n ms _).trans (hand_consent s m (n m))

theorem entriesGo_consent (o : Output) (c : ChangeOutcome) : ∀ (es : List Entry) (s : State),
    (entriesGo o c s es).consent = s.consent
  | [], _ => rfl
  | e :: es, s => by
    refine (entriesGo_consent o c es _).trans ((State.handAll_consent _ _ _).trans ?_)
    cases e.kind <;> rfl

theorem lineReaches_consent (s : State) (o : Output) : (lineReaches s o).consent = s.consent := by
  unfold lineReaches
  cases s.burst o
  case none => rfl
  case some b =>
    dsimp only
    cases b.lineStart (s.sq o)
    · rfl
    · exact hand_consent _ _ _

theorem startTogether_consent : ∀ (os : List Output) (s : State), (startTogether s os).consent = s.consent
  | [], _ => rfl
  | o :: os, _ =>
    (startTogether_consent os _).trans ((State.handAll_consent _ _ _).trans (lineReaches_consent _ o))

/-! ### DEVICE_RESET (R174) -/

theorem joinedMasters_taken {s : State} {m : Master} (f : Frame) (h : s.joined m = true) :
    (taken s m f).joinedMasters = s.joinedMasters :=
  List.filter_congr fun j _ => taken_joined s m f h j

theorem filter_master (m : Master) : allMasters.filter (fun j => j == m) = [m] := by revert m; decide

theorem joined_of_admitted {s : State} {m : Master} {k : Byte} {f : Frame} (h : Admitted s m k f) :
    s.joined m = true := by
  obtain ⟨-, -, -, joined, -⟩ := h
  exact joined

/-- With no other member the requester is the only joined master. -/
theorem onlyJoined_of_alone {s : State} {m : Master} (f : Frame) (hj : s.joined m = true) (h : otherMembers s m = []) :
    onlyJoined (taken s m f) m = true := by
  have alone (j : Master) (hm : j ∈ allMasters) : s.joined j = (j == m) := by
    by_cases e : j = m
    · rw [e, hj, beq_self_eq_true]
    · have other := List.filter_eq_nil_iff.mp h j hm
      rw [bne_iff_ne.mpr e, Bool.true_and, Bool.not_eq_true] at other
      rw [other, beq_false_of_ne e]
  unfold onlyJoined
  rw [joinedMasters_taken f hj, State.joinedMasters, List.filter_congr alone, filter_master m, beq_self_eq_true]

theorem deviceResetRequest_of_alone {s : State} {m : Master} {f : Frame} (h : onlyJoined s m = true) :
    deviceResetRequest s m f = okay { s with resetTaken := true } := by
  unfold deviceResetRequest
  rw [if_pos h]

theorem deviceResetRequest_of_others {s : State} {m : Master} {f : Frame} (h : onlyJoined s m = false) :
    deviceResetRequest s m f = openProposal s m f.tag .deviceReset (wordAt f.payload 0) := by
  unfold deviceResetRequest
  rw [if_neg (by rw [h]; exact nofun)]

theorem isHolder_taken {s : State} {m j : Master} {f : Frame} {t : Target} {b : Bool} (h : s.isHolder t j = b) :
    (taken s m f).isHolder t j = b := (taken_isHolder s m j f t).trans h

theorem isSole_taken {s : State} {m j : Master} {f : Frame} {t : Target} {b : Bool} (h : s.isSole t j = b) :
    (taken s m f).isSole t j = b := (taken_isSole s m j f t).trans h

theorem holders_taken (s : State) (m : Master) (f : Frame) (t : Target) : (taken s m f).holders t = s.holders t := by
  unfold State.holders
  rw [taken_claim]

/-- A request that is handed to the Consent Unit. -/
theorem handedOver_of_exec {c : Instr} {s : State} {m : Master} {f : Frame} (hj : s.joined m = true) (w : Matter)
    (window : Nat) (h : ∀ r, openProposal (taken s m f) m f.tag w window = r →
      exec c s = .next (answered r.state m f r.code r.payload)) :
    HandedOver s (taken s m f) m f.tag w window fun t code bytes => exec c s = .next (answered t m f code bytes) :=
  handedOver_imp (openProposal_handedOver f hj f.tag w window) fun t code bytes e => h ⟨t, code, bytes⟩ e

theorem exec_deviceReset_of_reply {s : State} {m : Master} {f : Frame} {r : Reply} (h : Admitted s m 0x1A f)
    (hr : deviceResetRequest (taken s m f) m f = r) :
    exec (.deviceReset m) s = .next (answered r.state m f r.code r.payload) :=
  exec_of_reply (owner := fun s f => deviceResetRequest s m f) h (by decide) rfl hr

/-- Settles O6: alone, with others, and by the last vote of the proposal. -/
theorem deviceResetIsTakenOrProposed : Obligations.DeviceResetIsTakenOrProposed := by
  unfold Obligations.DeviceResetIsTakenOrProposed
  refine ⟨fun s m f admitted => ⟨fun alone => ?_, fun others => ?_⟩, fun s m f p last matter => ?_⟩
  · exact exec_deviceReset_of_reply admitted (deviceResetRequest_of_alone (onlyJoined_of_alone f (joined_of_admitted admitted) alone))
  · exact handedOver_of_exec (joined_of_admitted admitted) _ _ fun r hr => exec_deviceReset_of_reply admitted
      ((deviceResetRequest_of_others (onlyJoined_taken f (joined_of_admitted admitted) others)).trans hr)
  · have carried := carries_of_last_vote last
    unfold Carries at carried
    rw [matter] at carried
    refine carried.trans (congrArg (fun t => Host.Outcome.next (answered t m f .ok [])) ?_)
    exact roundOver_votes (s := s) (t := { taken s m f with resetTaken := true }) rfl m p _ _

end Sys2Proof.VoteProofs
end

section
/-! Requests on outputs: CHANGE, STOP, START, GROUP_START, CUT and OUTPUT_SET, what each owner answers condition by
condition, and what the last vote on a shared output carries. -/

namespace Sys2Proof.OutputProofs

open Machine Laws VoteProofs

/-! ### CHANGE (R33, R34, R47) -/

theorem exec_change_of_reply {s : State} {m : Master} {f : Frame} {r : Reply} (h : Admitted s m 0x0C f)
    (hr : changeRequest (taken s m f) m f = r) : exec (.change m) s = .next (answered r.state m f r.code r.payload) :=
  exec_of_reply (owner := fun s f => changeRequest s m f) h (by decide) rfl hr

section Change

variable {s : State} {m : Master} {f : Frame} {o : Output} {k : Slot}

theorem changeRequest_of_not_holder (ho : byteAt f.payload 0 = o.val) (h : s.isHolder (.out o) m = false) :
    changeRequest s m f = refuse s .notHolder := by
  unfold changeRequest
  rw [withOutput_val ho, if_pos (by rw [h]; rfl)]

theorem changeRequest_of_no_slot (ho : byteAt f.payload 0 = o.val) (h : s.isHolder (.out o) m = true)
    (hk : fixedSlotOf s (byteAt f.payload 1) = none) : changeRequest s m f = refuse s .badValue := by
  unfold changeRequest
  rw [withOutput_val ho, if_neg (by rw [h]; exact nofun), hk]

theorem fixedSlotOf_byte {n : Nat} (hk : n = k.val) (hf : (s.slot k).state = .fixedSlot) : fixedSlotOf s n = some k := by
  rw [hk, fixedSlotOf_of_fixed hf]

theorem changeRequest_of_sole (ho : byteAt f.payload 0 = o.val) (h : s.isSole (.out o) m = true)
    (hk : byteAt f.payload 1 = k.val) (hf : (s.slot k).state = .fixedSlot) :
    changeRequest s m f = changeSole s m f.tag o k := by
  unfold changeRequest
  rw [withOutput_val ho, if_neg (by rw [isHolder_of_isSole h]; exact nofun), fixedSlotOf_byte hk hf]
  exact if_pos h

theorem changeRequest_of_shared (ho : byteAt f.payload 0 = o.val) (hh : s.isHolder (.out o) m = true)
    (h : s.isSole (.out o) m = false) (hk : byteAt f.payload 1 = k.val) (hf : (s.slot k).state = .fixedSlot) :
    changeRequest s m f = openProposal s m f.tag (.outputChange o k) (wordAt f.payload 2) := by
  unfold changeRequest
  rw [withOutput_val ho, if_neg (by rw [hh]; exact nofun), fixedSlotOf_byte hk hf]
  exact if_neg (by rw [h]; exact nofun)

variable {tag : Byte}

/-- An IDLE output is bound and goes to BOUND, its holders being told (R33). -/
theorem changeSole_of_idle (h : (s.sq o).state = .idle) : changeSole s m tag o k = okay
    (((((s.addRef k).dropRefOpt (s.sq o).current).setSq o { s.sq o with state := .bound, current := some k })).handAll
      (s.holders (.out o)) (.outputState o .idle .bound (s.sq o).frameNo)) := by
  unfold changeSole Machine.bind
  rw [h]
  simp only [if_true, State.sq_dropRefOpt, State.sq_addRef, setOutState_setSq, holders_rebound, h]

theorem changeSole_of_rest (h : (s.sq o).state = .bound ∨ (s.sq o).state = .waiting) : changeSole s m tag o k = okay
    (((s.addRef k).dropRefOpt (s.sq o).current).setSq o { s.sq o with current := some k }) := by
  have notIdle : (s.sq o).state ≠ .idle := by rcases h with h | h <;> rw [h] <;> exact nofun
  have binds : changeSole s m tag o k = okay (Machine.bind s o k) := by
    unfold changeSole
    rcases h with h | h <;> rw [h]
  rw [binds]
  unfold Machine.bind
  simp only [if_neg notIdle, State.sq_dropRefOpt, State.sq_addRef]

theorem changeSole_of_stopping (h : (s.sq o).state = .stopping) : changeSole s m tag o k = refuse s .state := by
  unfold changeSole
  rw [h]

theorem queueFull_of_le (h : 4 ≤ (s.queue o).length) : s.queueFull o = true := decide_eq_true h

theorem queueFull_of_lt (h : (s.queue o).length < 4) : s.queueFull o = false := decide_eq_false (Nat.not_le.mpr h)

theorem changeSole_of_full (h : (s.sq o).state = .running) (hq : 4 ≤ (s.queue o).length) :
    changeSole s m tag o k = refuse s .full := by
  unfold changeSole
  rw [h]
  exact if_pos (queueFull_of_le hq)

theorem changeSole_of_room (h : (s.sq o).state = .running) (hq : (s.queue o).length < 4) :
    changeSole s m tag o k = ⟨(s.setSlot k { s.slot k with refs := (s.slot k).refs + 1 }).setQueue o
      (s.queue o ++ [⟨.change k, some (m, tag), .queued, none⟩]), .queued, []⟩ := by
  unfold changeSole
  rw [h]
  dsimp only
  rw [if_neg (by rw [queueFull_of_lt hq]; exact nofun), appendEntry_of_room (Nat.not_le.mpr hq)]
  rfl

end Change

/-- Settles O27, by the checks of R34 and the output's state. -/
theorem changeBindsAnOutputAtRest : Obligations.ChangeBindsAnOutputAtRest := by
  unfold Obligations.ChangeBindsAnOutputAtRest
  refine ⟨fun s m f admitted high => exec_change_of_reply admitted (withOutput_of_lt high _),
    fun s m f o admitted out holder none => exec_change_of_reply admitted
      (changeRequest_of_no_slot out (isHolder_taken holder) (fixedSlotOf_of_none none)),
    fun s m f o admitted out sole k slot fixed => ?_⟩
  have owner := changeRequest_of_sole (s := taken s m f) (m := m) out (isSole_taken sole) slot fixed
  refine ⟨fun idle => ?_, fun rest => ?_⟩
  · have runs := exec_change_of_reply admitted (owner.trans (changeSole_of_idle idle))
    rwa [State.holders, taken_claim] at runs
  · exact exec_change_of_reply admitted (owner.trans (changeSole_of_rest rest))

/-- Settles O28. -/
theorem changeQueuesOnARunningOutput : Obligations.ChangeQueuesOnARunningOutput := by
  unfold Obligations.ChangeQueuesOnARunningOutput
  refine ⟨fun s m f o admitted out other => exec_change_of_reply admitted
    (changeRequest_of_not_holder out (isHolder_taken other)), fun s m f o k admitted out slot fixed => ?_⟩
  have owner (sole : s.isSole (.out o) m = true) :=
    changeRequest_of_sole (s := taken s m f) (m := m) out (isSole_taken sole) slot fixed
  exact ⟨fun sole running room => exec_change_of_reply admitted ((owner sole).trans (changeSole_of_room running room)),
    fun sole running full => exec_change_of_reply admitted ((owner sole).trans (changeSole_of_full running full)),
    fun sole stopping => exec_change_of_reply admitted ((owner sole).trans (changeSole_of_stopping stopping))⟩

/-- Settles O29: the proposal is handed over, and its last vote carries as `Carries` says. -/
theorem sharedChangeOpensAProposal : Obligations.SharedChangeOpensAProposal := by
  unfold Obligations.SharedChangeOpensAProposal
  refine ⟨fun s m f o k admitted out slot fixed holder shared => ?_, fun s m f p o k last matter => ?_⟩
  · exact handedOver_of_exec (joined_of_admitted admitted) _ _ fun r hr => exec_change_of_reply admitted
      ((changeRequest_of_shared out (isHolder_taken holder) (isSole_taken shared) slot
        fixed).trans hr)
  · have carried := carries_of_last_vote last
    unfold Carries at carried
    rw [matter, voted_eq] at carried
    simp only [setQueue_setProposals, entriesGo_setProposals, addRef_setProposals, dropRefOpt_setProposals,
      setSq_setProposals, dropRef_setProposals, holders_setProposals, handAll_setProposals, State.sq_setProposals,
      State.queue_setProposals, taken_sq, taken_queue] at carried
    obtain ⟨runs, rests, idles⟩ := carried
    refine ⟨fun running => exec_of_votes (runs running) rfl, fun rest => ?_, fun idle => ?_⟩
    · have notIdle : (s.sq o).state ≠ .idle := by rcases rest with h | h <;> rw [h] <;> exact nofun
      rw [if_neg notIdle]
      exact exec_of_votes (rests rest) (by simp [entriesGo_consent])
    · have carries := idles idle
      rw [holders_taken, idle] at carries
      rw [if_pos idle]
      exact exec_of_votes carries (by simp [entriesGo_consent])

end Sys2Proof.OutputProofs
end

section
/-! STOP and START of an output (chapter 2): what each owner answers, what a BOUND output does when it starts to wait, and
what the last vote on a shared output carries. -/

namespace Sys2Proof.StartProofs

open Machine Laws VoteProofs OutputProofs

/-! ### STOP (R35, R48) -/

theorem exec_stop_of_reply {s : State} {m : Master} {f : Frame} {r : Reply} (h : Admitted s m 0x0D f)
    (hr : stopRequest (taken s m f) m f = r) : exec (.stop m) s = .next (answered r.state m f r.code r.payload) :=
  exec_of_reply (owner := fun s f => stopRequest s m f) h (by decide) rfl hr

section Stop

variable {s : State} {m : Master} {f : Frame} {o : Output}

theorem stopRequest_of_not_holder (ho : byteAt f.payload 0 = o.val) (h : s.isHolder (.out o) m = false) :
    stopRequest s m f = refuse s .notHolder := by
  unfold stopRequest
  rw [withOutput_val ho, if_pos (by rw [h]; rfl)]

theorem stopRequest_of_sole (ho : byteAt f.payload 0 = o.val) (h : s.isSole (.out o) m = true) :
    stopRequest s m f = stopSole s m f.tag o := by
  unfold stopRequest
  rw [withOutput_val ho, if_neg (by rw [isHolder_of_isSole h]; exact nofun), if_pos h]

theorem stopRequest_of_shared (ho : byteAt f.payload 0 = o.val) (hh : s.isHolder (.out o) m = true)
    (h : s.isSole (.out o) m = false) :
    stopRequest s m f = openProposal s m f.tag (.outputStop o) (wordAt f.payload 1) := by
  unfold stopRequest
  rw [withOutput_val ho, if_neg (by rw [hh]; exact nofun), if_neg (by rw [h]; exact nofun)]

variable {tag : Byte}

theorem stopSole_of_full (h : (s.sq o).state = .running) (hq : 4 ≤ (s.queue o).length) :
    stopSole s m tag o = refuse s .full := by
  unfold stopSole
  rw [h]
  exact if_pos (queueFull_of_le hq)

theorem stopSole_of_room (h : (s.sq o).state = .running) (hq : (s.queue o).length < 4) :
    stopSole s m tag o = ⟨s.setQueue o (s.queue o ++ [⟨.stop, some (m, tag), .queued, none⟩]), .queued, []⟩ := by
  unfold stopSole
  rw [h]
  dsimp only
  rw [if_neg (by rw [queueFull_of_lt hq]; exact nofun), appendEntry_of_room (Nat.not_le.mpr hq)]
  rfl

/-- A waiting output returns to BOUND (R35). -/
theorem stopSole_of_waiting (h : (s.sq o).state = .waiting) : stopSole s m tag o = okay
    ((s.setSq o { s.sq o with state := .bound, wakeStart := false }).handAll (s.holders (.out o))
      (.outputState o .waiting .bound (s.sq o).frameNo)) := by
  have returns : stopSole s m tag o = okay (returnToBound s o) := by
    unfold stopSole
    rw [h]
  rw [returns]
  unfold returnToBound
  rw [setOutState_setSq, h]

theorem stopSole_of_other (h : (s.sq o).state = .idle ∨ (s.sq o).state = .bound ∨ (s.sq o).state = .stopping) :
    stopSole s m tag o = refuse s .state := by
  unfold stopSole
  rcases h with h | h | h <;> rw [h]

end Stop

/-- Settles O30, by the output's state for the sole holder, and by `Carries` for the last vote. -/
theorem stopActsByState : Obligations.StopActsByState := by
  unfold Obligations.StopActsByState
  refine ⟨fun s m f o admitted out sole => ?_, fun s m f o admitted out => ⟨fun other => ?_, fun holder shared => ?_⟩,
    fun s m f admitted high => exec_stop_of_reply admitted (withOutput_of_lt high _), fun s m f p o last matter => ?_⟩
  · have owner := stopRequest_of_sole (s := taken s m f) (m := m) out (isSole_taken sole)
    refine ⟨fun running room => exec_stop_of_reply admitted (owner.trans (stopSole_of_room running room)),
      fun running full => exec_stop_of_reply admitted (owner.trans (stopSole_of_full running full)),
      fun waiting => ?_, fun other => exec_stop_of_reply admitted (owner.trans (stopSole_of_other other))⟩
    have runs := exec_stop_of_reply admitted (owner.trans (stopSole_of_waiting waiting))
    rwa [holders_taken] at runs
  · exact exec_stop_of_reply admitted (stopRequest_of_not_holder out (isHolder_taken other))
  · exact handedOver_of_exec (joined_of_admitted admitted) _ _ fun r hr => exec_stop_of_reply admitted
      ((stopRequest_of_shared out (isHolder_taken holder) (isSole_taken shared)).trans hr)
  · have carried := carries_of_last_vote last
    unfold Carries at carried
    rw [matter, voted_eq] at carried
    simp only [setQueue_setProposals, entriesGo_setProposals, setSq_setProposals, holders_setProposals,
      handAll_setProposals, State.sq_setProposals, State.queue_setProposals, taken_sq, taken_queue,
      holders_taken] at carried
    obtain ⟨runs, waits, rests⟩ := carried
    refine ⟨fun running => exec_of_votes (runs running) rfl, fun waiting => ?_,
      fun rest => exec_of_votes (rests rest) (by simp [entriesGo_consent])⟩
    have carries := waits waiting
    rw [waiting] at carries
    exact exec_of_votes carries (by simp [entriesGo_consent])

/-! ### An output that waits (R28, R29) -/

/-- A switch in WAIT_ALIGN waits for an output in RUNNING. -/
def AlignRuns (s : State) : Prop :=
  ∀ cur sw d, s.tbu.state = .waitAlign cur sw d → ∀ a, sw.align = some a → (s.sq a).state = .running

theorem alignRuns_of_undisturbed {s : State} (h : Undisturbed s) : AlignRuns s := fun cur sw d e => absurd e (h.2 cur sw d)

theorem alignRuns_of_no_timebase {s : State} (h : s.tbu.state.current = none) : AlignRuns s := fun cur sw d e => by
  rw [e] at h
  cases h

/-- The BOUND output `o` goes to WAITING, and its holders are told. -/
def waits (s : State) (o : Output) : State :=
  (s.setSq o { s.sq o with state := .waiting }).handAll (s.holders (.out o))
    (.outputState o .bound .waiting (s.sq o).frameNo)

/-- The waiting output `o` starts alone, with no burst to reach. -/
def starts (s : State) (o : Output) : State :=
  ((waits s o).setSq o (startRecord (s.sq o) s.tbu.fail)).handAll (s.holders (.out o))
    (.outputState o .waiting .running 0)

section Waits

variable {s : State} {o : Output}

theorem waits_sq (s : State) (o p : Output) :
    (waits s o).sq p = if p = o then { s.sq o with state := .waiting } else s.sq p := by
  unfold waits
  rw [State.sq_handAll]
  by_cases e : p = o
  · rw [if_pos e, e, State.sq_setSq_self]
  · rw [if_neg e, State.sq_setSq_ne _ _ e]

theorem waits_tbu (s : State) (o : Output) : (waits s o).tbu = s.tbu := by
  unfold waits
  rw [State.handAll_tbu, State.setSq_tbu]

theorem enterWaiting_eq (h : (s.sq o).state = .bound) (align : AlignRuns s) :
    enterWaiting s o = startTogether (waits s o) (starters (waits s o) none) := by
  have moves : setOutState s o .waiting = waits s o := by
    unfold setOutState outputNotice waits
    rw [State.sq_setSq_self, h]
    rfl
  unfold enterWaiting
  rw [moves]
  refine examine_eq none fun cur sw d e a ha => ?_
  rw [waits_tbu] at e
  have runs := align cur sw d e a ha
  rw [waits_sq]
  by_cases ao : a = o
  · rw [ao, h] at runs
    cases runs
  · rw [if_neg ao, runs]
    exact nofun

/-- Without a timebase no output starts. -/
theorem starters_of_no_timebase (h : s.tbu.state.current = none) (frame : Option Output) : starters s frame = [] := by
  unfold starters
  rw [h]
  simp

/-- A waiting output with nobody else waiting is the only one that may start. -/
theorem mem_starters_waits {p : Output} (calm : ∀ q, (s.sq q).state ≠ .waiting) (h : p ∈ starters (waits s o) none) :
    p = o := by
  have waiting := waiting_of_starters h
  rw [waits_sq] at waiting
  by_contra ne
  rw [if_neg ne] at waiting
  exact calm p waiting

/-- An output whose group has a member in RUNNING waits for that group's anchor. -/
theorem starters_waits_of_group {g : Group} {p : Output} (calm : ∀ q, (s.sq q).state ≠ .waiting)
    (bound : (s.sq o).state = .bound) (ho : (s.sq o).group = some g) (hp : (s.sq p).group = some g)
    (runs : (s.sq p).state = .running) : starters (waits s o) none = [] := by
  refine List.eq_nil_iff_forall_not_mem.mpr fun q hq => ?_
  have qo := mem_starters_waits calm hq
  subst qo
  have po : p ≠ q := fun e => by
    rw [e, bound] at runs
    cases runs
  have member : p ∈ allOutputs.filter fun x =>
      ((waits s q).sq x).group == some g && ((waits s q).sq x).state == .running := by
    refine List.mem_filter.mpr ⟨mem_allOutputs p, ?_⟩
    rw [waits_sq, if_neg po, hp, runs, beq_self_eq_true, beq_self_eq_true]
    rfl
  have may := (List.mem_filter.mp hq).2
  rw [waits_sq, if_pos rfl] at may
  simp only [ho, Bool.and_eq_true, Bool.or_self] at may
  have none : List.head? _ = none := beq_iff_eq.mp may.2
  rw [List.head?_eq_none_iff.mp none] at member
  cases member

/-- An output in no group starts at once where a timebase exists. -/
theorem starters_waits_alone (calm : ∀ q, (s.sq q).state ≠ .waiting) (timebase : s.tbu.state.current ≠ none)
    (group : (s.sq o).group = none) : starters (waits s o) none = [o] := by
  have one : ∀ q : Output, allOutputs.filter (fun p => p == q) = [q] := by decide
  unfold starters
  rw [← one o]
  refine List.filter_congr fun p _ => ?_
  rw [waits_tbu, waits_sq, Option.isSome_iff_ne_none.mpr timebase]
  by_cases e : p = o
  · rw [if_pos e, e]
    dsimp only
    rw [group, beq_self_eq_true, beq_self_eq_true]
    rfl
  · rw [if_neg e, beq_false_of_ne e, beq_false_of_ne (calm p)]
    rfl

theorem startTogether_waits (burst : s.burst o = none) : startTogether (waits s o) [o] = starts s o := by
  have still (u : State) (h : u.burst o = none) : lineReaches u o = u := by
    unfold lineReaches
    rw [h]
  have record : startRecord ((waits s o).sq o) (waits s o).tbu.fail = startRecord (s.sq o) s.tbu.fail := by
    rw [waits_sq, if_pos rfl, waits_tbu]
    rfl
  have quiet : (waits s o).holders (.out o) = s.holders (.out o) := by
    unfold waits State.holders
    rw [State.claim_handAll, State.claim_setSq]
  unfold startTogether starts
  rw [List.foldl_cons, List.foldl_nil, still _ (by
    rw [State.burst_setSq]
    unfold waits
    rw [State.burst_handAll, State.burst_setSq, burst]), record, quiet]

end Waits

end Sys2Proof.StartProofs
end

section
/-! START and GROUP_START (chapter 2): what each owner answers, and what the last vote on a shared output carries. -/

namespace Sys2Proof.StartProofs

open Machine Laws VoteProofs OutputProofs

/-! ### START (R28) -/

theorem startRow_of_form {f : Frame} (hk : f.kind = 0x0E) (h : byteAt f.payload 0 ≠ 1) : startRow f = true := by
  unfold startRow kindIs
  rw [hk, Bool.and_eq_true, bne_iff_ne]
  exact ⟨rfl, h⟩

theorem groupStartRow_of_form {f : Frame} (hk : f.kind = 0x0E) (h : byteAt f.payload 0 ≠ 0) :
    groupStartRow f = true := by
  unfold groupStartRow kindIs
  rw [hk, bne_iff_ne.mpr h]
  rfl

theorem exec_start_of_reply {s : State} {m : Master} {f : Frame} {r : Reply} (h : Admitted s m 0x0E f)
    (form : byteAt f.payload 0 ≠ 1) (hr : startRequest (taken s m f) m f = r) :
    exec (.start m) s = .next (answered r.state m f r.code r.payload) := by
  have served := serve_of_admitted h (by decide) (startRow_of_form h.2.1 form) (fun s f => startRequest s m f)
  rw [hr] at served
  exact congrArg Host.Outcome.next served

theorem exec_groupStart_of_reply {s : State} {m : Master} {f : Frame} {r : Reply} (h : Admitted s m 0x0E f)
    (form : byteAt f.payload 0 ≠ 0) (hr : groupStartRequest (taken s m f) m f = r) :
    exec (.groupStart m) s = .next (answered r.state m f r.code r.payload) := by
  have served := serve_of_admitted h (by decide) (groupStartRow_of_form h.2.1 form) (fun s f => groupStartRequest s m f)
  rw [hr] at served
  exact congrArg Host.Outcome.next served

section Start

variable {s : State} {m : Master} {f : Frame} {o : Output}

theorem startRequest_of_bad_form (form : byteAt f.payload 0 ≠ 0) : startRequest s m f = refuse s .badValue := by
  unfold startRequest
  rw [if_pos form]

theorem startRequest_of_output (form : byteAt f.payload 0 = 0) : startRequest s m f
    = withOutput s (byteAt f.payload 1) fun o =>
      if !s.isHolder (.out o) m then refuse s .notHolder
      else if !s.isSole (.out o) m then openProposal s m f.tag (.outputStart o) (wordAt f.payload 2)
      else if (s.sq o).state = .bound then okay (enterWaiting s o)
      else refuse s .state := by
  unfold startRequest
  rw [if_neg (not_not.mpr form)]

theorem startRequest_of_not_holder (form : byteAt f.payload 0 = 0) (ho : byteAt f.payload 1 = o.val)
    (h : s.isHolder (.out o) m = false) : startRequest s m f = refuse s .notHolder := by
  rw [startRequest_of_output form, withOutput_val ho, if_pos (by rw [h]; rfl)]

theorem startRequest_of_shared (form : byteAt f.payload 0 = 0) (ho : byteAt f.payload 1 = o.val)
    (hh : s.isHolder (.out o) m = true) (h : s.isSole (.out o) m = false) :
    startRequest s m f = openProposal s m f.tag (.outputStart o) (wordAt f.payload 2) := by
  rw [startRequest_of_output form, withOutput_val ho, if_neg (by rw [hh]; exact nofun), if_pos (by rw [h]; rfl)]

theorem startRequest_of_sole (form : byteAt f.payload 0 = 0) (ho : byteAt f.payload 1 = o.val)
    (h : s.isSole (.out o) m = true) : startRequest s m f
      = if (s.sq o).state = .bound then okay (enterWaiting s o) else refuse s .state := by
  rw [startRequest_of_output form, withOutput_val ho, if_neg (by rw [isHolder_of_isSole h]; exact nofun),
    if_neg (by rw [h]; exact nofun)]

end Start

/-! ### What a BOUND output that starts to wait comes to (R28, R29) -/

section EnterWaiting

variable {s : State} {o : Output}

theorem enterWaiting_of_no_timebase (h : (s.sq o).state = .bound) (none : s.tbu.state.current = none) :
    enterWaiting s o = waits s o := by
  rw [enterWaiting_eq h (alignRuns_of_no_timebase none), starters_of_no_timebase (by rw [waits_tbu]; exact none)]
  rfl

theorem enterWaiting_of_group {g : Group} {p : Output} (h : (s.sq o).state = .bound) (calm : Undisturbed s)
    (ho : (s.sq o).group = some g) (hp : (s.sq p).group = some g) (runs : (s.sq p).state = .running) :
    enterWaiting s o = waits s o := by
  rw [enterWaiting_eq h (alignRuns_of_undisturbed calm), starters_waits_of_group calm.1 h ho hp runs]
  rfl

theorem enterWaiting_alone (h : (s.sq o).state = .bound) (timebase : s.tbu.state.current ≠ none)
    (group : (s.sq o).group = none) (burst : s.burst o = none) (calm : Undisturbed s) :
    enterWaiting s o = starts s o := by
  rw [enterWaiting_eq h (alignRuns_of_undisturbed calm), starters_waits_alone calm.1 timebase group,
    startTogether_waits burst]

end EnterWaiting

/-! ### The state in which a request is taken, and that in which a vote is recorded -/

theorem waits_setProposals (s : State) (ps : List Proposal) (o : Output) :
    waits (s.setProposals ps) o = (waits s o).setProposals ps := by
  unfold waits
  rw [State.sq_setProposals, setSq_setProposals, holders_setProposals, handAll_setProposals]

theorem starts_setProposals (s : State) (ps : List Proposal) (o : Output) :
    starts (s.setProposals ps) o = (starts s o).setProposals ps := by
  unfold starts
  rw [waits_setProposals, State.sq_setProposals, setSq_setProposals, holders_setProposals, handAll_setProposals]
  rfl

theorem waits_consent (s : State) (o : Output) : (waits s o).consent = s.consent := by
  unfold waits
  rw [State.handAll_consent, State.setSq_consent]

theorem starts_consent (s : State) (o : Output) : (starts s o).consent = s.consent := by
  unfold starts
  rw [State.handAll_consent, State.setSq_consent, waits_consent]

/-- The Consent Unit's part of OUTPUT_START (R93). -/
theorem carry_outputStart {u : State} {p : Proposal} {o : Output} (hm : p.matter = .outputStart o) : carry u p
    = if (u.sq o).state = .bound then roundOver (enterWaiting u o) p .carried else roundOver u p (.failed .state) := by
  unfold carry applyMatter carryStart
  rw [hm]
  dsimp only
  split <;> rfl

theorem exec_vote_of_start {s : State} {m : Master} {f : Frame} {p : Proposal} {o : Output} (h : LastVote s m f p)
    (hm : p.matter = .outputStart o) : exec (.vote m) s = .next (answered
      (if (s.sq o).state = .bound then roundOver (enterWaiting (voted s m f p) o) p .carried
        else roundOver (voted s m f p) p (.failed .state)) m f .ok []) := by
  have votes := exec_vote_of_last h
  rw [carry_outputStart (p := p.accept m) hm] at votes
  exact votes

/-- The waiting state in the words of the statements, whose record and holders are those of `s`. -/
theorem waits_taken (s : State) (m : Master) (f : Frame) (o : Output) : waits (taken s m f) o
    = ((taken s m f).setSq o { s.sq o with state := .waiting }).handAll (s.holders (.out o))
        (.outputState o .bound .waiting (s.sq o).frameNo) := by
  unfold waits
  rw [holders_taken]
  rfl

theorem starts_taken (s : State) (m : Master) (f : Frame) (o : Output) : starts (taken s m f) o
    = ((waits (taken s m f) o).setSq o (startRecord (s.sq o) s.tbu.fail)).handAll (s.holders (.out o))
        (.outputState o .waiting .running 0) := by
  unfold starts
  rw [holders_taken]
  rfl

/-- Settles O31: the sole holder's START and the carried proposal both come to `enterWaiting`. -/
theorem startMovesABoundOutput : Obligations.StartMovesABoundOutput := by
  unfold Obligations.StartMovesABoundOutput
  intro waitsAt startsAt alignRuns
  have waitsAt_eq (s : State) (m : Master) (f : Frame) (o : Output) : waitsAt s (taken s m f) o = waits (taken s m f) o :=
    (waits_taken s m f o).symm
  have startsAt_eq (s : State) (m : Master) (f : Frame) (o : Output) :
      startsAt s (taken s m f) o = starts (taken s m f) o := by
    rw [starts_taken, ← waitsAt_eq]
    rfl
  refine ⟨fun s m f o admitted form out sole => ?_, fun s m f o admitted form out => ⟨fun other => ?_, fun holder shared => ?_⟩,
    fun s m f admitted => ⟨fun form high => ?_, fun bad => ?_⟩, fun s m f p o last matter => ?_⟩
  · have notGroup : byteAt f.payload 0 ≠ 1 := by rw [form]; decide
    have runs (h : (s.sq o).state = .bound) :
        exec (.start m) s = .next (answered (enterWaiting (taken s m f) o) m f .ok []) :=
      exec_start_of_reply admitted notGroup ((startRequest_of_sole form out (isSole_taken sole)).trans (if_pos h))
    refine ⟨fun bound align => ?_, fun g p bound calm ho hp running => ?_, fun bound none => ?_,
      fun bound timebase group burst calm => ?_, fun other => ?_⟩
    · dsimp only
      rw [waitsAt_eq, runs bound, enterWaiting_eq (s := taken s m f) bound align]
    · rw [waitsAt_eq, runs bound, enterWaiting_of_group (s := taken s m f) bound calm ho hp running]
    · rw [waitsAt_eq, runs bound, enterWaiting_of_no_timebase (s := taken s m f) bound none]
    · rw [startsAt_eq, runs bound, enterWaiting_alone (s := taken s m f) bound timebase group burst calm]
    · exact exec_start_of_reply admitted notGroup
        ((startRequest_of_sole form out (isSole_taken sole)).trans (if_neg other))
  · exact exec_start_of_reply admitted (by rw [form]; decide)
      (startRequest_of_not_holder form out (isHolder_taken other))
  · exact handedOver_of_exec (joined_of_admitted admitted) _ _ fun r hr => exec_start_of_reply admitted
      (by rw [form]; decide) ((startRequest_of_shared form out (isHolder_taken holder) (isSole_taken shared)).trans hr)
  · exact exec_start_of_reply admitted (by rw [form]; decide)
      ((startRequest_of_output form).trans (withOutput_of_lt high _))
  · have notOutput : byteAt f.payload 0 ≠ 0 := Nat.ne_zero_of_lt bad
    have notGroup : byteAt f.payload 0 ≠ 1 := Nat.ne_of_gt bad
    refine ⟨exec_start_of_reply admitted notGroup (startRequest_of_bad_form notOutput),
      exec_groupStart_of_reply admitted notOutput (r := refuse (taken s m f) .badValue) ?_⟩
    unfold groupStartRequest
    rw [if_pos notGroup]
  · have runs := exec_vote_of_start last matter
    refine ⟨fun bound align => ?_, fun bound none => ?_, fun bound timebase group burst calm => ?_, fun other => ?_⟩
    · rw [if_pos bound, enterWaiting_eq (s := voted s m f p) bound align, voted_eq, waits_setProposals, starters_setProposals,
        startTogether_setProposals] at runs
      dsimp only
      rw [waitsAt_eq]
      exact exec_of_votes runs ((startTogether_consent _ _).trans (waits_consent _ o))
    · rw [if_pos bound, enterWaiting_of_no_timebase (s := voted s m f p) bound none, voted_eq, waits_setProposals] at runs
      rw [waitsAt_eq]
      exact exec_of_votes runs (waits_consent _ o)
    · rw [if_pos bound, enterWaiting_alone (s := voted s m f p) bound timebase group burst calm, voted_eq, starts_setProposals] at runs
      rw [startsAt_eq]
      exact exec_of_votes runs (starts_consent _ o)
    · rw [if_neg other, voted_eq] at runs
      exact exec_of_votes runs rfl

/-! ### GROUP_START (R32) -/

section Group

variable {s : State} {m : Master} {f : Frame} {g : Group}

theorem groupStartRequest_of_bad_group (form : byteAt f.payload 0 = 1) (h : 3 < byteAt f.payload 1) :
    groupStartRequest s m f = refuse s .badValue := by
  unfold groupStartRequest
  rw [if_neg (not_not.mpr form), coded_of_le h]

theorem groupStartRequest_of_group (form : byteAt f.payload 0 = 1) (h : byteAt f.payload 1 = g.val) :
    groupStartRequest s m f = if groupMovers s m g = [] then refuse s .state
      else ⟨groupMove s (groupMovers s m g), .ok, outputSet (groupMovers s m g)⟩ := by
  unfold groupStartRequest
  rw [if_neg (not_not.mpr form), h, coded_val]

theorem groupMovers_bound {o : Output} (h : o ∈ groupMovers s m g) : (s.sq o).state = .bound := by
  have moves := (List.mem_filter.mp h).2
  rw [Bool.and_eq_true, Bool.and_eq_true, beq_iff_eq, beq_iff_eq] at moves
  exact moves.1.2

theorem groupMove_eq {moved : List Output} (hn : moved.Nodup) : groupMove s moved
    = movedTogether (moved.foldl (fun u o => u.setSq o { s.sq o with state := .waiting }) s) moved
        (starters (moved.foldl (fun u o => u.setSq o { s.sq o with state := .waiting }) s) none) := by
  have waiting : ∀ o ∈ moved, ((setWaiting s moved).sq o).state = .waiting := fun o ho => by
    rw [sq_setWaiting, if_pos ho]
  rw [← setWaiting_eq moved hn s]
  show handMoves (setWaiting s moved) moved ((setWaiting s moved).startSet []) = _
  rw [handMoves_eq moved _ waiting]
  exact congrArg _ (startSet_eq _ none)

/-- Outputs that move without starting change nothing but notices. -/
theorem movedTogether_quiet (s : State) (moved : List Output) :
    OnlyNotices s (movedTogether s moved [])
      ∧ movedTogether s moved [] = { s with links := (movedTogether s moved []).links,
                                            masters := (movedTogether s moved []).masters } := by
  unfold movedTogether
  generalize allOutputs = os
  induction os generalizing s with
  | nil => exact ⟨Laws.OnlyNotices.refl s, rfl⟩
  | cons o os ih =>
    rw [List.foldl_cons]
    have step (u : State) : (if ([] : List Output).contains o then startTogether u [o] else u) = u := rfl
    dsimp only
    rw [step]
    split
    · obtain ⟨quiet, rest⟩ := ih (s.handAll (s.holders (.out o)) (.outputState o .bound .waiting (s.sq o).frameNo))
      refine ⟨Laws.OnlyNotices.trans (onlyNotices_handAll s _ _) quiet, ?_⟩
      rw [rest, handAll_eq]
    · exact ih s

theorem chan_moved (moved : List Output) (hn : moved.Nodup) (u : State) (r : Output → OutRec) (o : Output) :
    (moved.foldl (fun v p => v.setSq p (r p)) u).chan o
      = if o ∈ moved then { u.chan o with sq := r o } else u.chan o :=
  mapSq_fold_chan (fun _ p => r p) o moved u hn fun _ _ _ => rfl

end Group

/-- Settles O32: the members move together, and without a timebase none of them starts. -/
theorem groupStartMovesItsMembers : Obligations.GroupStartMovesItsMembers := by
  unfold Obligations.GroupStartMovesItsMembers
  intro s m f admitted form
  have notOutput : byteAt f.payload 0 ≠ 0 := by rw [form]; decide
  refine ⟨fun high => exec_groupStart_of_reply admitted notOutput (groupStartRequest_of_bad_group form high),
    fun g group => ?_⟩
  intro moves movers w
  have movers_eq : groupMovers (taken s m f) m g = movers :=
    List.filter_congr fun o _ => by rw [taken_isSole]; rfl
  have nodup : movers.Nodup := List.Nodup.filter _ (by decide)
  have request := groupStartRequest_of_group (s := taken s m f) (m := m) form group
  rw [movers_eq] at request
  have mem_movers (o : Output) : o ∈ movers ↔ moves o = true := by
    rw [List.mem_filter]
    exact and_iff_right (mem_allOutputs o)
  have moved : (∃ o, moves o = true) → exec (.groupStart m) s =
      .next (answered (movedTogether w movers (starters w none)) m f .ok (outputSet movers)) := by
    rintro ⟨o, mover⟩
    have some : movers ≠ [] := List.ne_nil_of_mem ((mem_movers o).mpr mover)
    rw [if_neg some, groupMove_eq nodup] at request
    exact exec_groupStart_of_reply admitted notOutput request
  refine ⟨fun none => ?_, moved, fun some timebase => ?_⟩
  · have empty : movers = [] := List.filter_eq_nil_iff.mpr fun o _ => by rw [none o]; exact nofun
    rw [if_pos empty] at request
    exact exec_groupStart_of_reply admitted notOutput request
  · have moved_eq : w = { taken s m f with chans := w.chans } :=
      mapSq_fold_eq (fun _ o => { s.sq o with state := .waiting }) movers (taken s m f)
    have tbu : w.tbu = s.tbu := by rw [moved_eq]; rfl
    have runs := moved some
    rw [starters_of_no_timebase (by rw [tbu]; exact timebase)] at runs
    obtain ⟨notices, quiet⟩ := movedTogether_quiet w movers
    refine ⟨_, runs, ?_, ?_, fun o => ?_⟩
    · have still : OnlyNotices (taken s m f) w := Laws.OnlyNotices.of_eq (by rw [moved_eq]) (by rw [moved_eq])
      exact Laws.OnlyNotices.trans still notices
    · rw [quiet]
      exact congrArg (fun u : State => { u with links := (movedTogether w movers []).links,
                                                masters := (movedTogether w movers []).masters }) moved_eq
    · have chan : (movedTogether w movers []).chan o = w.chan o := by rw [quiet]; rfl
      rw [chan]
      have rest := chan_moved movers nodup (taken s m f) (fun o => { s.sq o with state := .waiting }) o
      simp only [mem_movers] at rest
      exact rest

end Sys2Proof.StartProofs
end

section
/-! CUT, OUTPUT_SET and BURST (chapters 2, 3 and 8): what each owner answers condition by condition; and what a line start
does to a burst. -/

namespace Sys2Proof.SettingProofs

open Machine Laws VoteProofs OutputProofs

/-! ### CUT (R55, R56) -/

theorem exec_cut_of_reply {s : State} {m : Master} {f : Frame} {r : Reply} (h : Admitted s m 0x0F f)
    (hr : cutRequest (taken s m f) m f = r) : exec (.cut m) s = .next (answered r.state m f r.code r.payload) :=
  exec_of_reply (owner := fun s f => cutRequest s m f) h (by decide) rfl hr

section Cut

variable {s : State} {m : Master} {f : Frame} {o : Output} {k : Slot}

theorem cutRequest_of_not_holder (ho : byteAt f.payload 0 = o.val) (h : s.isHolder (.out o) m = false) :
    cutRequest s m f = refuse s .notHolder := by
  unfold cutRequest
  rw [withOutput_val ho, if_pos (by rw [h]; rfl)]

theorem cutRequest_of_shared (ho : byteAt f.payload 0 = o.val) (hh : s.isHolder (.out o) m = true)
    (h : s.isSole (.out o) m = false) : cutRequest s m f = refuse s .notSole := by
  unfold cutRequest
  rw [withOutput_val ho, if_neg (by rw [hh]; exact nofun), if_pos (by rw [h]; rfl)]

theorem cutRequest_of_no_slot (ho : byteAt f.payload 0 = o.val) (h : s.isSole (.out o) m = true)
    (hk : fixedSlotOf s (byteAt f.payload 1) = none) : cutRequest s m f = refuse s .badValue := by
  unfold cutRequest
  rw [withOutput_val ho, if_neg (by rw [isHolder_of_isSole h]; exact nofun), if_neg (by rw [h]; exact nofun), hk]

theorem cutRequest_of_slot (ho : byteAt f.payload 0 = o.val) (h : s.isSole (.out o) m = true)
    (hk : fixedSlotOf s (byteAt f.payload 1) = some k) : cutRequest s m f
      = if (s.sq o).state ≠ .running then refuse s .state
        else ⟨(dropCut s o .superseded).setSq o { (dropCut s o .superseded).sq o with cut := some ⟨k, m, f.tag⟩ },
          .queued, []⟩ := by
  unfold cutRequest
  rw [withOutput_val ho, if_neg (by rw [isHolder_of_isSole h]; exact nofun), if_neg (by rw [h]; exact nofun), hk]

theorem dropCut_of_none {c : ChangeOutcome} (h : (s.sq o).cut = none) : dropCut s o c = s := by
  unfold dropCut
  rw [h]

theorem dropCut_of_some {c : ChangeOutcome} {p : PendingCut} (h : (s.sq o).cut = some p) : dropCut s o c
    = (s.setSq o { s.sq o with cut := none }).handAll (withOrigin (s.holders (.out o)) (some p.origin))
        (.changeDone o (.cut p.slot) (some (p.origin, p.tag)) none (s.sq o).frameNo c) := by
  unfold dropCut
  rw [h]
  unfold changeDone State.holders
  rw [State.claim_setSq, State.sq_setSq_self]
  rfl

end Cut

/-- Settles O33, by the checks of R55 and the pending cut. -/
theorem cutIsStored : Obligations.CutIsStored := by
  unfold Obligations.CutIsStored
  refine ⟨fun s m f admitted => ⟨fun high => exec_cut_of_reply admitted (withOutput_of_lt high _), fun o out =>
      ⟨fun other => ?_, fun holder shared => ?_, fun sole none => ?_⟩⟩,
    fun s m f o k admitted out slot fixed => ?_⟩
  · exact exec_cut_of_reply admitted (cutRequest_of_not_holder out (isHolder_taken other))
  · exact exec_cut_of_reply admitted (cutRequest_of_shared out (isHolder_taken holder) (isSole_taken shared))
  · exact exec_cut_of_reply admitted (cutRequest_of_no_slot out (isSole_taken sole) (fixedSlotOf_of_none none))
  · have owner (sole : s.isSole (.out o) m = true) := cutRequest_of_slot (s := taken s m f) (m := m) out
      (isSole_taken sole) (fixedSlotOf_byte slot fixed)
    refine ⟨fun sole running noCut => ?_, fun c sole running cut => ?_, fun sole other =>
      exec_cut_of_reply admitted ((owner sole).trans (if_pos other))⟩
    · have request := (owner sole).trans (if_neg (not_not.mpr running))
      rw [dropCut_of_none (s := taken s m f) noCut] at request
      exact exec_cut_of_reply admitted request
    · have request := (owner sole).trans (if_neg (not_not.mpr running))
      rw [dropCut_of_some (s := taken s m f) cut, State.sq_handAll, State.sq_setSq_self, holders_taken] at request
      exact exec_cut_of_reply admitted request

/-! ### OUTPUT_SET (R36, R37) -/

theorem exec_outputSet_of_reply {s : State} {m : Master} {f : Frame} {r : Reply} (h : Admitted s m 0x10 f)
    (hr : outputSetRequest (taken s m f) m f = r) :
    exec (.outputSet m) s = .next (answered r.state m f r.code r.payload) :=
  exec_of_reply (owner := fun s f => outputSetRequest s m f) h (by decide) rfl hr

/-- The group field as the statements read it: KEEP, none, or a group. -/
def groupArg : Option (Option Group) → GroupArg
  | none => .keep
  | some g => .set g

theorem groupOf_keep : groupOf 0xFE = some (groupArg none) := rfl

theorem groupOf_none : groupOf 0xFF = some (groupArg (some none)) := rfl

theorem groupOf_group (g : Group) : groupOf g.val = some (groupArg (some (some g))) := by revert g; decide

theorem groupOf_eq_none {n : Nat} (h : 3 < n) (keep : n ≠ 0xFE) (alone : n ≠ 0xFF) : groupOf n = none := by
  unfold groupOf
  rw [if_neg keep, if_neg alone, coded_of_le h]
  rfl

theorem polarityOf_keep : polarityOf 0xFE = some none := rfl

theorem polarityOf_eq_none {n : Nat} (h : 1 < n) (keep : n ≠ 0xFE) : polarityOf n = none := by
  unfold polarityOf
  rw [if_neg keep, if_neg (Nat.ne_zero_of_lt h), if_neg (Nat.ne_of_gt h)]

section OutputSet

variable {s : State} {m : Master} {f : Frame} {o : Output} {group : Option (Option Group)} {pol : Option Polarity}

theorem outputSetRequest_of_bad (h : groupOf (byteAt f.payload 1) = none ∨ polarityOf (byteAt f.payload 2) = none) :
    outputSetRequest s m f = refuse s .badValue := by
  unfold outputSetRequest withOutput
  split
  · rfl
  · split
    next hg hp =>
      rcases h with h | h
      · rw [h] at hg; cases hg
      · rw [h] at hp; cases hp
    next => rfl

theorem setGroup_eq (r : OutRec) : r.setGroup (groupArg group) = { r with group := group.getD r.group } := by
  cases group <;> rfl

theorem groupChanges_iff (r : OutRec) : groupChanges r (groupArg group) = true ↔ group.getD r.group ≠ r.group := by
  cases group
  case none => exact ⟨nofun, fun h => absurd rfl h⟩
  case some g => exact bne_iff_ne

theorem outputSetRequest_of_values (ho : byteAt f.payload 0 = o.val)
    (hg : groupOf (byteAt f.payload 1) = some (groupArg group)) (hp : polarityOf (byteAt f.payload 2) = some pol) :
    outputSetRequest s m f
      = if !s.isHolder (.out o) m then refuse s .notHolder
        else if !s.isSole (.out o) m then refuse s .notSole
        else if groupChanges (s.sq o) (groupArg group) && (s.sq o).state != .idle && (s.sq o).state != .bound then
          refuse s .state
        else okay (s.setSq o ((s.sq o).applySet (groupArg group) pol)) := by
  unfold outputSetRequest
  rw [withOutput_val ho, hg, hp]

theorem setPolarity_of_rest {r : OutRec} (p : Polarity) (h : r.runs = false) :
    r.setPolarity p = { r with polarity := p, pendingPol := none } := by
  unfold OutRec.setPolarity
  rw [if_neg (by rw [h]; exact nofun)]

theorem setPolarity_of_same {r : OutRec} {p : Polarity} (h : r.runs = true) (hp : p = r.polarity) :
    r.setPolarity p = { r with pendingPol := none } := by
  unfold OutRec.setPolarity
  rw [if_pos h, if_pos hp]

theorem setPolarity_of_other {r : OutRec} {p : Polarity} (h : r.runs = true) (hp : p ≠ r.polarity) :
    r.setPolarity p = { r with pendingPol := some p } := by
  unfold OutRec.setPolarity
  rw [if_pos h, if_neg hp]

theorem runs_iff (r : OutRec) : r.runs = true ↔ r.state = .running ∨ r.state = .stopping := by
  unfold OutRec.runs
  rw [Bool.or_eq_true, beq_iff_eq, beq_iff_eq]

end OutputSet

/-- Settles O34: the fields name their values, and then the checks of R36 and the rules of R37 follow. -/
theorem outputSetChangesSettings : Obligations.OutputSetChangesSettings := by
  unfold Obligations.OutputSetChangesSettings
  intro s m f admitted
  refine ⟨fun bad => ?_, fun o group pol out groupByte polByte => ?_⟩
  · rcases bad with high | ⟨high, keep, none⟩ | ⟨high, keep⟩
    · exact exec_outputSet_of_reply admitted (withOutput_of_lt high _)
    · exact exec_outputSet_of_reply admitted (outputSetRequest_of_bad (.inl (groupOf_eq_none high keep none)))
    · exact exec_outputSet_of_reply admitted (outputSetRequest_of_bad (.inr (polarityOf_eq_none high keep)))
  · intro r r'
    have names : groupOf (byteAt f.payload 1) = some (groupArg group) := by
      rw [groupByte]
      match group with
      | none => rfl
      | some none => rfl
      | some (some g) => exact groupOf_group g
    have signs : polarityOf (byteAt f.payload 2) = some pol := by
      rw [polByte]
      match pol with
      | none => rfl
      | some .normal => rfl
      | some .inverted => rfl
    have owner := outputSetRequest_of_values (s := taken s m f) (m := m) out names signs
    rw [taken_isHolder, taken_isSole] at owner
    refine ⟨fun other => ?_, fun holder shared => ?_, fun sole changes notIdle notBound => ?_, fun sole allowed => ?_⟩
    · rw [if_pos (by rw [other]; rfl)] at owner
      exact exec_outputSet_of_reply admitted owner
    · rw [if_neg (by rw [holder]; exact nofun), if_pos (by rw [shared]; rfl)] at owner
      exact exec_outputSet_of_reply admitted owner
    · rw [if_neg (by rw [isHolder_of_isSole sole]; exact nofun), if_neg (by rw [sole]; exact nofun), if_pos (by
        rw [Bool.and_eq_true, Bool.and_eq_true, bne_iff_ne, bne_iff_ne]
        exact ⟨⟨(groupChanges_iff (s.sq o)).mpr changes, notIdle⟩, notBound⟩)] at owner
      exact exec_outputSet_of_reply admitted owner
    · rw [if_neg (by rw [isHolder_of_isSole sole]; exact nofun), if_neg (by rw [sole]; exact nofun), if_neg (by
        rw [Bool.and_eq_true, Bool.and_eq_true, bne_iff_ne, bne_iff_ne]
        rintro ⟨⟨changes, notIdle⟩, notBound⟩
        rcases allowed with same | idle | bound
        · exact (groupChanges_iff (s.sq o)).mp changes same
        · exact notIdle idle
        · exact notBound bound)] at owner
      refine ⟨fun keep => ?_, fun p given => ⟨fun notRunning notStopping => ?_, fun runs differs => ?_,
        fun runs same => ?_⟩⟩
      · subst keep
        exact exec_outputSet_of_reply admitted (owner.trans
          (congrArg (fun r => okay (State.setSq (taken s m f) o r)) (setGroup_eq _)))
      all_goals
        subst given
        have set : ((taken s m f).sq o).applySet (groupArg group) (some p) = r'.setPolarity p :=
          congrArg (OutRec.setPolarity · p) (setGroup_eq _)
        rw [set] at owner
      · rw [setPolarity_of_rest p (Bool.eq_false_iff.mpr fun runs =>
          ((runs_iff r').mp runs).elim notRunning notStopping)] at owner
        exact exec_outputSet_of_reply admitted owner
      · rw [setPolarity_of_other ((runs_iff r').mpr runs) differs] at owner
        exact exec_outputSet_of_reply admitted owner
      · rw [setPolarity_of_same ((runs_iff r').mpr runs) same] at owner
        exact exec_outputSet_of_reply admitted owner

/-! ### BURST (R134 to R136) -/

theorem exec_burst_of_reply {s : State} {m : Master} {f : Frame} {r : Reply} (h : Admitted s m 0x11 f)
    (hr : burstRequest (taken s m f) m f = r) : exec (.burst m) s = .next (answered r.state m f r.code r.payload) :=
  exec_of_reply (owner := fun s f => burstRequest s m f) h (by decide) rfl hr

/-- The pattern bytes `p` of a BURST give the pattern, each field within its range (R134). -/
def Given (p : List Byte) : Pattern → Prop
  | .timed on off count rep pause => byteAt p 1 = 0 ∧ byteAt p 3 = on ∧ byteAt p 4 = off ∧ byteAt p 5 = count
      ∧ byteAt p 6 = rep ∧ wordAt p 7 = pause ∧ 1 ≤ on ∧ 1 ≤ off ∧ 1 ≤ count ∧ 1 ≤ rep ∧ rep ≤ 15 ∧ pause ≤ 1023
  | .continuous on off => byteAt p 1 = 1 ∧ byteAt p 3 = on ∧ byteAt p 4 = off ∧ 1 ≤ on ∧ 1 ≤ off
  | .perFrame line on => byteAt p 1 = 2 ∧ wordAt p 3 = line ∧ wordAt p 5 = on ∧ line ≤ 16383 ∧ 1 ≤ on ∧ on ≤ 16383

theorem patternOf_eq_some {p : List Byte} {pat : Pattern} (h : Given p pat) :
    patternOf (byteAt p 1) p 3 = some pat := by
  cases pat
  case timed on off count rep pause =>
    obtain ⟨kind, rfl, rfl, rfl, rfl, rfl, ranges⟩ := h
    rw [kind]
    exact if_pos ranges
  case continuous on off =>
    obtain ⟨kind, rfl, rfl, ranges⟩ := h
    rw [kind]
    exact if_pos ranges
  case perFrame line on =>
    obtain ⟨kind, rfl, rfl, ranges⟩ := h
    rw [kind]
    exact if_pos ranges

theorem given_of_patternOf {p : List Byte} {pat : Pattern} (h : patternOf (byteAt p 1) p 3 = some pat) : Given p pat := by
  unfold patternOf at h
  split at h
  case h_1 kind =>
    obtain ⟨ranges, e⟩ := Option.ite_none_right_eq_some.mp h
    obtain rfl := Option.some.inj e
    exact ⟨kind, rfl, rfl, rfl, rfl, rfl, ranges⟩
  case h_2 kind =>
    obtain ⟨ranges, e⟩ := Option.ite_none_right_eq_some.mp h
    obtain rfl := Option.some.inj e
    exact ⟨kind, rfl, rfl, ranges⟩
  case h_3 kind =>
    obtain ⟨ranges, e⟩ := Option.ite_none_right_eq_some.mp h
    obtain rfl := Option.some.inj e
    exact ⟨kind, rfl, rfl, ranges⟩
  case h_4 => cases h

/-- The start-point byte (R134). -/
def Starts (n : Nat) : StartPoint → Prop
  | .nextLine => n = 0
  | .nextEmittedFrame => n = 1

theorem startPointOf_eq_some {n : Nat} {start : StartPoint} (h : Starts n start) : startPointOf n = some start := by
  cases start
  all_goals
    obtain rfl := h
    rfl

theorem startPointOf_eq_none {n : Nat} (h : 1 < n) : startPointOf n = none := by
  unfold startPointOf
  split
  · exact absurd h (by decide)
  · exact absurd h (by decide)
  · rfl

/-- The pattern has a LINE at or beyond LF (R135). -/
def Beyond (g : Geometry) : Pattern → Prop
  | .perFrame line _ => g.lf ≤ line
  | .timed _ _ _ _ _ => False
  | .continuous _ _ => False

/-- The pattern is over the duty cap (R136). -/
def TooLong (g : Geometry) : Pattern → Prop
  | .timed on off _ _ _ => g.dc * (on + off) < on * 100
  | .continuous on off => g.dc * (on + off) < on * 100
  | .perFrame _ on => g.dc * g.lf < on * 100

theorem lineOk_iff (p : Pattern) (g : Geometry) : lineOk p g = true ↔ ¬Beyond g p := by
  cases p
  case perFrame line on => exact decide_eq_true_iff.trans Nat.not_le.symm
  case timed => exact ⟨fun _ => id, fun _ => rfl⟩
  case continuous => exact ⟨fun _ => id, fun _ => rfl⟩

theorem dutyOk_iff (p : Pattern) (g : Geometry) : dutyOk p g = true ↔ ¬TooLong g p := by
  cases p <;> exact decide_eq_true_iff.trans Nat.not_lt.symm

section Burst

variable {s : State} {m : Master} {f : Frame} {o : Output} {pat : Pattern} {start : StartPoint}

theorem burstRequest_of_bad (h : startPointOf (byteAt f.payload 2) = none
    ∨ patternOf (byteAt f.payload 1) f.payload 3 = none) : burstRequest s m f = refuse s .badValue := by
  unfold burstRequest withOutput
  split
  · rfl
  · split
    next hs hp =>
      rcases h with h | h
      · rw [h] at hs; cases hs
      · rw [h] at hp; cases hp
    next => rfl

theorem burstRequest_of_values (ho : byteAt f.payload 0 = o.val) (hp : Given f.payload pat)
    (hs : Starts (byteAt f.payload 2) start) : burstRequest s m f = burstTake s m f.tag o start pat := by
  unfold burstRequest
  rw [withOutput_val ho, startPointOf_eq_some hs, patternOf_eq_some hp]

variable {tag : Byte}

theorem burstTake_of_not_holder (h : s.isHolder (.out o) m = false) :
    burstTake s m tag o start pat = refuse s .notHolder := by
  unfold burstTake
  rw [if_pos (by rw [h]; rfl)]

theorem burstTake_of_shared (hh : s.isHolder (.out o) m = true) (h : s.isSole (.out o) m = false) :
    burstTake s m tag o start pat = refuse s .notSole := by
  unfold burstTake
  rw [if_neg (by rw [hh]; exact nofun), if_pos (by rw [h]; rfl)]

theorem burstTake_of_sole (h : s.isSole (.out o) m = true) : burstTake s m tag o start pat
    = if (s.sq o).state ≠ .running then refuse s .state
      else if (s.burst o).isSome then refuse s .busy
      else if !lineOk pat (s.geom o) then refuse s .badValue
      else if !dutyOk pat (s.geom o) then refuse s .duty
      else okay (s.setBurst o (some (newBurst m tag start pat))) := by
  unfold burstTake
  rw [if_neg (by rw [isHolder_of_isSole h]; exact nofun), if_neg (by rw [h]; exact nofun)]

theorem burstTake_of_busy (h : s.isSole (.out o) m = true) (hr : (s.sq o).state = .running) (hb : s.burst o ≠ none) :
    burstTake s m tag o start pat = refuse s .busy := by
  rw [burstTake_of_sole h, if_neg (not_not.mpr hr), if_pos (Option.isSome_iff_ne_none.mpr hb)]

/-- The sole holder's BURST of a RUNNING output without a burst, by the checks against the current profile. -/
theorem burstTake_of_idle (h : s.isSole (.out o) m = true) (hr : (s.sq o).state = .running) (hb : s.burst o = none) :
    burstTake s m tag o start pat
      = if !lineOk pat (s.geom o) then refuse s .badValue
        else if !dutyOk pat (s.geom o) then refuse s .duty
        else okay (s.setBurst o (some (newBurst m tag start pat))) := by
  rw [burstTake_of_sole h, if_neg (not_not.mpr hr), if_neg (by rw [hb]; exact nofun)]

end Burst

/-- Settles O40, by the fields of the frame and then the checks of R135 and R136 in their order. -/
theorem burstIsArmed : Obligations.BurstIsArmed := by
  unfold Obligations.BurstIsArmed
  intro s m f admitted p given starts
  refine ⟨fun high => exec_burst_of_reply admitted (withOutput_of_lt high _), fun o out => ?_⟩
  intro g tooLong beyond
  refine ⟨fun bad => ?_, fun pat start pattern point => ?_⟩
  · rcases bad with none | high
    · have noPattern : patternOf (byteAt f.payload 1) f.payload 3 = .none :=
        Option.eq_none_iff_forall_ne_some.mpr fun pat e => none pat (given_of_patternOf e)
      exact exec_burst_of_reply admitted (burstRequest_of_bad (.inr noPattern))
    · exact exec_burst_of_reply admitted (burstRequest_of_bad (.inl (startPointOf_eq_none high)))
  · have owner := burstRequest_of_values (s := taken s m f) (m := m) out pattern point
    have idle (sole : s.isSole (.out o) m = true) (running : (s.sq o).state = .running) (none : s.burst o = none) :=
      owner.trans (burstTake_of_idle (isSole_taken sole) running none)
    refine ⟨fun other => ?_, fun holder shared => ?_, fun sole other => ?_, fun sole running busy => ?_,
      fun sole running none far => ?_, fun sole running none near long => ?_, fun sole running none near short => ?_⟩
    · exact exec_burst_of_reply admitted (owner.trans (burstTake_of_not_holder (isHolder_taken other)))
    · exact exec_burst_of_reply admitted (owner.trans
        (burstTake_of_shared (isHolder_taken holder) (isSole_taken shared)))
    · exact exec_burst_of_reply admitted (owner.trans
        ((burstTake_of_sole (isSole_taken sole)).trans (if_pos other)))
    · exact exec_burst_of_reply admitted (owner.trans (burstTake_of_busy (isSole_taken sole) running busy))
    · have bad : lineOk pat g = false := Bool.eq_false_iff.mpr fun ok => (lineOk_iff pat g).mp ok far
      exact exec_burst_of_reply admitted ((idle sole running none).trans (if_pos (by
        show (!lineOk pat g) = true
        rw [bad]; rfl)))
    · have fine : lineOk pat g = true := (lineOk_iff pat g).mpr near
      have bad : dutyOk pat g = false := Bool.eq_false_iff.mpr fun ok => (dutyOk_iff pat g).mp ok long
      exact exec_burst_of_reply admitted ((idle sole running none).trans ((if_neg (by
        show ¬(!lineOk pat g) = true
        rw [fine]; exact nofun)).trans (if_pos (by
          show (!dutyOk pat g) = true
          rw [bad]; rfl))))
    · have fine : lineOk pat g = true := (lineOk_iff pat g).mpr near
      have duty : dutyOk pat g = true := (dutyOk_iff pat g).mpr short
      exact exec_burst_of_reply admitted ((idle sole running none).trans ((if_neg (by
        show ¬(!lineOk pat g) = true
        rw [fine]; exact nofun)).trans (if_neg (by
          show ¬(!dutyOk pat g) = true
          rw [duty]; exact nofun))))

/-! ### A line start of a burst (R137, R138) -/

section LineStart

variable {b : Burst} {r : OutRec}

theorem reached_iff (p : StartPoint) (r : OutRec) :
    p.reached r = true ↔ p = .nextLine ∨ r.line = 0 ∧ r.phase = 0 := by
  cases p
  case nextLine => exact ⟨fun _ => .inl rfl, fun _ => rfl⟩
  case nextEmittedFrame => simp [StartPoint.reached, OutRec.emitted]

theorem lineStart_of_waiting (h : b.phase = .armed) (hr : b.start.reached r = false) : b.lineStart r = .runsOn b := by
  unfold Burst.lineStart
  rw [if_pos h, if_neg (by rw [hr]; exact nofun)]

section Reached

variable (h : b.phase = .armed) (hr : b.start.reached r = true)
include h hr

theorem lineStart_reached_timed {on off count rep pause : Nat} (hp : b.pattern = .timed on off count rep pause) :
    b.lineStart r = .runsOn (b.pulse on 1) := by
  unfold Burst.lineStart
  rw [if_pos h, if_pos hr, hp]

theorem lineStart_reached_continuous {on off : Nat} (hp : b.pattern = .continuous on off) :
    b.lineStart r = .runsOn (b.pulse on 1) := by
  unfold Burst.lineStart
  rw [if_pos h, if_pos hr, hp]

theorem lineStart_reached_perFrame {line on : Nat} (hp : b.pattern = .perFrame line on) :
    b.lineStart r = .runsOn (perFrameLine { b with phase := .off, left := 0 } r line on) := by
  unfold Burst.lineStart
  rw [if_pos h, if_pos hr]
  split
  next e => rw [hp] at e; cases e
  next e => rw [hp] at e; cases e
  next e =>
    rw [hp] at e
    obtain ⟨rfl, rfl⟩ := Pattern.perFrame.inj e
    rfl

end Reached

theorem lineStart_timed {on off count rep pause : Nat} (hp : b.pattern = .timed on off count rep pause)
    (h : b.phase ≠ .armed) : b.lineStart r
      = if b.left ≤ 1 then timedNext b on off count rep pause else .runsOn { b with left := b.left - 1 } := by
  unfold Burst.lineStart
  rw [if_neg h, hp]

theorem lineStart_continuous {on off : Nat} (hp : b.pattern = .continuous on off) (h : b.phase ≠ .armed) :
    b.lineStart r = if b.left ≤ 1 then continuousNext b on off else .runsOn { b with left := b.left - 1 } := by
  unfold Burst.lineStart
  rw [if_neg h, hp]

theorem lineStart_perFrame {line on : Nat} (hp : b.pattern = .perFrame line on) (h : b.phase ≠ .armed) :
    b.lineStart r = .runsOn (perFrameLine b r line on) := by
  unfold Burst.lineStart
  rw [if_neg h, hp]

theorem perFrameLine_at {line on : Nat} (hp : r.phase = 0) (hl : r.line = line) :
    perFrameLine b r line on = { b with phase := .on, left := on, pulses := countPulse b.pulses } := by
  unfold perFrameLine OutRec.emitted
  rw [hp, hl, if_pos (by rw [beq_self_eq_true, beq_self_eq_true]; rfl)]

theorem perFrameLine_off {line on : Nat} (h : r.phase ≠ 0 ∨ r.line ≠ line) : perFrameLine b r line on
    = if b.phase = .on then
        if b.left ≤ 1 then { b with phase := .off, left := 0 } else { b with left := b.left - 1 }
      else b := by
  unfold perFrameLine OutRec.emitted
  refine if_neg ?_
  rw [Bool.and_eq_true, beq_iff_eq, beq_iff_eq]
  exact fun ⟨hp, hl⟩ => h.elim (· hp) (· hl)

theorem lineStart_timed_ends {on off count rep pause : Nat} (hp : b.pattern = .timed on off count rep pause)
    (h : b.phase ≠ .armed) (hl : b.left = 1) : b.lineStart r = timedNext b on off count rep pause := by
  rw [lineStart_timed hp h, if_pos (Nat.le_of_eq hl)]

theorem lineStart_continuous_ends {on off : Nat} (hp : b.pattern = .continuous on off) (h : b.phase ≠ .armed)
    (hl : b.left = 1) : b.lineStart r = continuousNext b on off := by
  rw [lineStart_continuous hp h, if_pos (Nat.le_of_eq hl)]

theorem timedNext_off {on off count rep pause : Nat} (h : b.phase = .off) : timedNext b on off count rep pause
    = if b.pulses < count then .runsOn (b.pulse on (b.pulses + 1))
      else if b.repeats + 1 < rep then
        if 0 < pause then .runsOn { b with phase := .pause, left := pause, repeats := b.repeats + 1 }
        else .runsOn { b.pulse on 1 with repeats := b.repeats + 1 }
      else .completes { b with left := 0, repeats := rep } := by
  unfold timedNext
  rw [h]

end LineStart

theorem not_armed_of_eq {b : Burst} {p : BurstPhase} (h : b.phase = p) (hp : p ≠ .armed) : b.phase ≠ .armed :=
  h ▸ hp

/-- Settles O42: ARMED at its start point, then the tables of the three kinds. -/
theorem timedBurstFollowsItsTable : Obligations.TimedBurstFollowsItsTable := by
  unfold Obligations.TimedBurstFollowsItsTable
  refine ⟨fun b r armed => ?_, fun b r on off count rep pause pattern => ?_, fun b r on off pattern => ?_,
    fun b r line on pattern left => ?_⟩
  · intro reached
    have start (h : reached) := (reached_iff b.start r).mpr h
    refine ⟨fun h => lineStart_of_waiting armed (Bool.eq_false_iff.mpr fun k => h ((reached_iff b.start r).mp k)),
      fun on off count rep pause h pattern => lineStart_reached_timed armed (start h) pattern,
      fun on off h pattern => lineStart_reached_continuous armed (start h) pattern,
      fun line on h pattern emitted here => ?_, fun line on h pattern away => ?_⟩
    · rw [lineStart_reached_perFrame armed (start h) pattern, perFrameLine_at emitted here]
      rfl
    · rw [lineStart_reached_perFrame armed (start h) pattern, perFrameLine_off away, if_neg nofun]
  · refine ⟨fun going long => ?_, fun phase last => ?_, fun phase last more => ?_, fun phase last all more pauses => ?_,
      fun phase last all more none => ?_, fun phase last all done => ?_, fun phase last => ?_⟩
    · rw [lineStart_timed pattern going, if_neg (Nat.not_le.mpr long)]
    · rw [lineStart_timed_ends pattern (not_armed_of_eq phase nofun) last]
      unfold timedNext
      rw [phase]
    · rw [lineStart_timed_ends pattern (not_armed_of_eq phase nofun) last, timedNext_off phase, if_pos more]
      rfl
    · rw [lineStart_timed_ends pattern (not_armed_of_eq phase nofun) last, timedNext_off phase,
        if_neg (Nat.not_lt.mpr all.ge), if_pos more, if_pos pauses]
    · rw [lineStart_timed_ends pattern (not_armed_of_eq phase nofun) last, timedNext_off phase,
        if_neg (Nat.not_lt.mpr all.ge), if_pos more, if_neg (by rw [none]; exact Nat.lt_irrefl 0)]
      rfl
    · rw [lineStart_timed_ends pattern (not_armed_of_eq phase nofun) last, timedNext_off phase,
        if_neg (Nat.not_lt.mpr all.ge), if_neg (Nat.not_lt.mpr done.ge)]
    · rw [lineStart_timed_ends pattern (not_armed_of_eq phase nofun) last]
      unfold timedNext
      rw [phase]
      rfl
  · refine ⟨fun going long => ?_, fun phase last => ?_, fun phase last => ?_⟩
    · rw [lineStart_continuous pattern going, if_neg (Nat.not_le.mpr long)]
    · rw [lineStart_continuous_ends pattern (not_armed_of_eq phase nofun) last]
      unfold continuousNext
      rw [phase]
    · rw [lineStart_continuous_ends pattern (not_armed_of_eq phase nofun) last]
      unfold continuousNext
      rw [phase]
      rfl
  · rw [lineStart_perFrame pattern left]
    refine ⟨fun emitted here => ?_, fun away => ⟨fun phase long => ?_, fun phase last => ?_, fun phase => ?_⟩⟩
    · rw [perFrameLine_at emitted here]
      rfl
    · rw [perFrameLine_off away, if_pos phase, if_neg (Nat.not_le.mpr long)]
    · rw [perFrameLine_off away, if_pos phase, if_pos last.le]
    · rw [perFrameLine_off away, if_neg phase]

end Sys2Proof.SettingProofs
end

section
/-! CLAIM, CLAIM_SET and RELEASE (chapter 4): what each owner answers condition by condition, what the last vote on an
EXCLUSIVE claim carries, and what the removal of a holder comes to (`HolderGone`). -/

namespace Sys2Proof.ClaimProofs

open Machine Laws VoteProofs OutputProofs

/-! ### The fields of a CLAIM (R64, R66) -/

theorem modeOf_toNat (excl : Bool) : modeOf excl.toNat = some excl := by cases excl <;> rfl

theorem modeOf_of_le {n : Nat} (h : n ≤ 1) : modeOf n = some (n == 1) := by
  rcases Nat.le_one_iff_eq_zero_or_eq_one.mp h with rfl | rfl <;> rfl

theorem modeOf_eq_none {n : Nat} (h : 1 < n) : modeOf n = none := by
  unfold modeOf
  split
  · exact absurd h (by decide)
  · exact absurd h (by decide)
  · rfl

theorem levelOf_eq_none {n : Nat} (h : 2 < n) : levelOf n = none := by
  unfold levelOf
  split
  · exact absurd h (by decide)
  · exact absurd h (by decide)
  · exact absurd h (by decide)
  · rfl

theorem policyOf_eq_none {n : Nat} (h : 2 < n) : policyOf n = none := by
  unfold policyOf
  split
  · exact absurd h (by decide)
  · exact absurd h (by decide)
  · exact absurd h (by decide)
  · rfl

theorem policyOf_of_le {n : Nat} (h : n ≤ 2) : ∃ c, policyOf n = some c := by
  match n, h with
  | 0, _ => exact ⟨.keep, rfl⟩
  | 1, _ => exact ⟨.stop, rfl⟩
  | 2, _ => exact ⟨.fallback, rfl⟩

theorem targetOf_eq_none {n : Nat} (h : 8 < n) : targetOf n = none := by
  unfold targetOf
  rw [if_neg (Nat.ne_of_gt h), outputOf_of_le (Nat.le_of_lt h)]
  rfl

theorem targetOf_val {n : Nat} {t : Target} (h : n = t.number) : targetOf n = some t := by rw [h, targetOf_number]

section Args

variable {p : List Byte} {o : Output}

theorem claimArgs_tb {excl : Bool} (h : modeOf (byteAt p 1) = some excl) :
    claimArgs .tb p = some ⟨excl, .none, .keep, 0, wordAt p 5⟩ := by
  unfold claimArgs
  rw [h]

theorem claimArgs_out {excl : Bool} {level : ReportLevel} {policy : PolicyCode} (h : modeOf (byteAt p 1) = some excl)
    (hl : byteAt p 2 = level.number) (hp : policyOf (byteAt p 3) = some policy) :
    claimArgs (.out o) p = some ⟨excl, level, policy, byteAt p 4, wordAt p 5⟩ := by
  unfold claimArgs
  rw [h, hl, levelOf_number, hp]

theorem claimArgs_of_bad_mode {t : Target} (h : 1 < byteAt p 1) : claimArgs t p = none := by
  unfold claimArgs
  rw [modeOf_eq_none h]

theorem claimArgs_of_bad_output (h : 2 < byteAt p 2 ∨ 2 < byteAt p 3) : claimArgs (.out o) p = none := by
  unfold claimArgs
  split
  · rfl
  · dsimp only
    split
    next hl hp =>
      rcases h with h | h
      · rw [levelOf_eq_none h] at hl; cases hl
      · rw [policyOf_eq_none h] at hp; cases hp
    next => rfl

/-- The level, and for an output the policy, are in their lists: the fields decode, with the mode and the window. -/
theorem claimArgs_of_level {t : Target} {level : ReportLevel} {excl : Bool} (h : modeOf (byteAt p 1) = some excl)
    (hl : match t with
      | .out _ => byteAt p 2 = level.number ∧ byteAt p 3 ≤ 2
      | .tb => level = .none) :
    ∃ policy slot, claimArgs t p = some ⟨excl, level, policy, slot, wordAt p 5⟩ := by
  cases t
  case tb => exact ⟨_, _, hl ▸ claimArgs_tb h⟩
  case out o =>
    obtain ⟨hl, hp⟩ := hl
    obtain ⟨c, hc⟩ := policyOf_of_le hp
    exact ⟨_, _, claimArgs_out h hl hc⟩

end Args

/-! ### CLAIM (R66 to R70) -/

theorem exec_claim_of_reply {s : State} {m : Master} {f : Frame} {r : Reply} (h : Admitted s m 0x09 f)
    (hr : claimRequest (taken s m f) m f = r) : exec (.claim m) s = .next (answered r.state m f r.code r.payload) :=
  exec_of_reply (owner := fun s f => claimRequest s m f) h (by decide) rfl hr

section Claim

variable {s : State} {m : Master} {f : Frame} {t : Target} {a : ClaimArgs}

theorem claimRequest_of_no_target (h : 8 < byteAt f.payload 0) : claimRequest s m f = refuse s .badValue := by
  unfold claimRequest
  rw [targetOf_eq_none h]

theorem claimRequest_of_bad_args (ht : byteAt f.payload 0 = t.number) (ha : claimArgs t f.payload = none) :
    claimRequest s m f = refuse s .badValue := by
  unfold claimRequest
  rw [targetOf_val ht]
  dsimp only
  rw [ha]

theorem claimRequest_of_free (ht : byteAt f.payload 0 = t.number) (ha : claimArgs t f.payload = some a)
    (h : (s.claim t).mode = .free) : claimRequest s m f = claimFree s m t a := by
  unfold claimRequest
  rw [targetOf_val ht]
  dsimp only
  rw [ha]
  dsimp only
  rw [h]

theorem claimRequest_of_shared (ht : byteAt f.payload 0 = t.number) (ha : claimArgs t f.payload = some a)
    (h : (s.claim t).mode = .shared) : claimRequest s m f = claimShared s m f.tag t a := by
  unfold claimRequest
  rw [targetOf_val ht]
  dsimp only
  rw [ha]
  dsimp only
  rw [h]

theorem claimRequest_of_exclusive (ht : byteAt f.payload 0 = t.number) (ha : claimArgs t f.payload = some a)
    (h : (s.claim t).mode = .exclusive) : claimRequest s m f = claimExclusive s m t a := by
  unfold claimRequest
  rw [targetOf_val ht]
  dsimp only
  rw [ha]
  dsimp only
  rw [h]

theorem claimFree_of_policy {pol : Policy} (h : policyFor s a.policy a.slot = some pol) : claimFree s m t a
    = okay ((addRefOpt s pol.slot).setClaim t ⟨claimMode a.exclusive, [⟨m, a.level⟩], pol⟩) := by
  unfold claimFree
  rw [h]

theorem claimFree_of_bad_slot (h : policyFor s a.policy a.slot = none) : claimFree s m t a = refuse s .badValue := by
  unfold claimFree
  rw [h]

theorem policyFor_fallback {n : Nat} {k : Slot} (h : n = k.val) (hf : (s.slot k).state = .fixedSlot) :
    policyFor s .fallback n = some (.fallback k) := by
  unfold policyFor
  rw [fixedSlotOf_byte h hf]
  rfl

theorem policyFor_fallback_none {n : Nat} (h : ∀ k : Slot, n = k.val → (s.slot k).state ≠ .fixedSlot) :
    policyFor s .fallback n = none := by
  unfold policyFor
  rw [fixedSlotOf_of_none h]
  rfl

/-- The holders of a target with the level of `m` replaced. -/
def leveled (c : ClaimRec) (m : Master) (level : ReportLevel) : List Holder :=
  c.holders.map fun h => if h.master = m then { h with level := level } else h

theorem setLevel_eq (level : ReportLevel) :
    setLevel s t m level = s.setClaim t { s.claim t with holders := leveled (s.claim t) m level } := rfl

theorem setLevel_setMode (mode : ClaimMode) (level : ReportLevel) : setLevel (setMode s t mode) t m level
    = s.setClaim t { s.claim t with mode := mode, holders := leveled (s.claim t) m level } := by
  rw [setLevel_eq]
  unfold setMode
  rw [State.claim_setClaim_self, State.setClaim_setClaim]
  rfl

theorem claimShared_joins (hh : s.isHolder t m = false) (ha : a.exclusive = false) {tag : Byte} :
    claimShared s m tag t a
      = okay (s.setClaim t { s.claim t with holders := (s.claim t).holders ++ [⟨m, a.level⟩] }) := by
  unfold claimShared
  rw [if_neg (by rw [hh]; exact nofun), if_pos (by rw [ha]; rfl)]
  rfl

theorem claimShared_levels (hh : s.isHolder t m = true) (ha : a.exclusive = false) {tag : Byte} :
    claimShared s m tag t a
      = okay (s.setClaim t { s.claim t with holders := leveled (s.claim t) m a.level }) := by
  unfold claimShared
  rw [if_pos hh, if_pos (by rw [ha]; rfl)]
  rfl

theorem claimShared_alone (hs : s.isSole t m = true) (ha : a.exclusive = true) {tag : Byte} :
    claimShared s m tag t a
      = okay (s.setClaim t { s.claim t with mode := .exclusive, holders := leveled (s.claim t) m a.level }) := by
  unfold claimShared
  rw [if_pos (isHolder_of_isSole hs), if_neg (by rw [ha]; exact nofun), if_pos hs, setLevel_setMode]

/-- EXCLUSIVE asked of a SHARED target that others hold: once the proposal is open the level is replaced, or the
requester joins. -/
theorem claimShared_asks (hs : s.isSole t m = false) (ha : a.exclusive = true) {tag : Byte} {u : State}
    {code : ResultCode} {bytes : List Byte}
    (ho : openProposal s m tag (.claimExclusive t) a.window = ⟨u, code, bytes⟩) : claimShared s m tag t a
      = ⟨if code = .proposed then u.setClaim t { s.claim t with
            holders := if s.isHolder t m then leveled (s.claim t) m a.level else (s.claim t).holders ++ [⟨m, a.level⟩] }
          else u, code, bytes⟩ := by
  have keeps : u.claim t = s.claim t := by
    have k := claim_openProposal_exclusive s m tag t t a.window
    rwa [ho] at k
  have asks (joined : State → State) : claimByConsent s m tag t a joined
      = ⟨if code = .proposed then joined u else u, code, bytes⟩ := by
    unfold claimByConsent
    rw [ho]
    dsimp only
    split <;> rfl
  unfold claimShared
  cases hh : s.isHolder t m
  · rw [if_neg nofun, if_neg (by rw [ha]; exact nofun), asks]
    unfold appendHolder
    rw [keeps]
    rfl
  · rw [if_pos rfl, if_neg (by rw [ha]; exact nofun), if_neg (by rw [hs]; exact nofun), asks, setLevel_eq, keeps]
    rfl

theorem claimExclusive_of_other (hh : s.isHolder t m = false) : claimExclusive s m t a = refuse s .claimed := by
  unfold claimExclusive
  rw [if_neg (by rw [hh]; exact nofun)]

theorem claimExclusive_of_holder (hh : s.isHolder t m = true) : claimExclusive s m t a
    = okay (s.setClaim t { s.claim t with
        mode := claimMode a.exclusive, holders := leveled (s.claim t) m a.level }) := by
  unfold claimExclusive
  rw [if_pos hh, setLevel_setMode]

theorem isSole_of_holders {level : ReportLevel} (h : (s.claim t).holders = [⟨m, level⟩]) : s.isSole t m = true := by
  unfold State.isSole State.holders
  rw [h]
  exact beq_self_eq_true _

end Claim

/-- Settles O24: the fields, then FREE, SHARED and EXCLUSIVE records, and the last vote. -/
theorem claimTakesATarget : Obligations.ClaimTakesATarget := by
  unfold Obligations.ClaimTakesATarget
  refine ⟨fun s m f admitted bad => ?_, fun s m f excl admitted modeByte => ?_,
    fun s m f t level admitted target levelByte => ?_, fun s m f p t last matter => ?_⟩
  · rcases bad with high | mode | ⟨out, fields⟩
    · exact exec_claim_of_reply admitted (claimRequest_of_no_target high)
    · rcases Nat.lt_or_ge 8 (byteAt f.payload 0) with high | low
      · exact exec_claim_of_reply admitted (claimRequest_of_no_target high)
      · obtain ⟨t, target⟩ : ∃ t : Target, byteAt f.payload 0 = t.number := by
          rcases Nat.lt_or_eq_of_le low with out | tb
          · exact ⟨.out ⟨_, out⟩, rfl⟩
          · exact ⟨.tb, tb⟩
        exact exec_claim_of_reply admitted (claimRequest_of_bad_args target (claimArgs_of_bad_mode mode))
    · exact exec_claim_of_reply admitted
        (claimRequest_of_bad_args (t := .out ⟨_, out⟩) rfl (claimArgs_of_bad_output fields))
  · intro mode
    have modes : modeOf (byteAt f.payload 1) = some excl := by rw [modeByte, modeOf_toNat]
    refine ⟨fun tb free => ?_, fun o level out free levelByte => ?_⟩
    · exact exec_claim_of_reply admitted
        ((claimRequest_of_free tb (claimArgs_tb modes) (by rw [taken_claim]; exact free)).trans
          (claimFree_of_policy rfl))
    · have owner {policy : PolicyCode} (hp : policyOf (byteAt f.payload 3) = some policy) :=
        claimRequest_of_free (s := taken s m f) (m := m) (t := .out o) out (claimArgs_out modes levelByte hp)
          (by rw [taken_claim]; exact free)
      refine ⟨fun keep => ?_, fun stop => ?_, fun k fallback slot fixed => ?_, fun fallback none => ?_⟩
      · exact exec_claim_of_reply admitted ((owner (policy := .keep) (by rw [keep]; rfl)).trans
          (claimFree_of_policy rfl))
      · exact exec_claim_of_reply admitted ((owner (policy := .stop) (by rw [stop]; rfl)).trans
          (claimFree_of_policy rfl))
      · exact exec_claim_of_reply admitted ((owner (policy := .fallback) (by rw [fallback]; rfl)).trans
          (claimFree_of_policy (policyFor_fallback slot fixed)))
      · exact exec_claim_of_reply admitted ((owner (policy := .fallback) (by rw [fallback]; rfl)).trans
          (claimFree_of_bad_slot (policyFor_fallback_none none)))
  · intro c levels
    have held : (taken s m f).claim t = c := taken_claim s m f t
    have args {excl : Bool} (h : modeOf (byteAt f.payload 1) = some excl) := claimArgs_of_level (t := t) h levelByte
    refine ⟨fun shared other mode => ?_, fun exclusive other mode => ?_, fun old shared alone mode => ?_,
      fun shared holder mode => ?_, fun excl exclusive holder mode => ?_, fun shared others mode => ?_⟩
    · obtain ⟨policy, slot, ha⟩ := args (excl := false) (by rw [mode]; rfl)
      have request := (claimRequest_of_shared (s := taken s m f) (m := m) target ha (by rw [held]; exact shared)).trans
        (claimShared_joins (isHolder_taken other) rfl)
      rw [held] at request
      exact exec_claim_of_reply admitted request
    · obtain ⟨policy, slot, ha⟩ := args (modeOf_of_le mode)
      exact exec_claim_of_reply admitted ((claimRequest_of_exclusive target ha (by rw [held]; exact exclusive)).trans
        (claimExclusive_of_other (isHolder_taken other)))
    · obtain ⟨policy, slot, ha⟩ := args (excl := true) (by rw [mode]; rfl)
      have request := (claimRequest_of_shared (s := taken s m f) (m := m) target ha (by rw [held]; exact shared)).trans
        (claimShared_alone (isSole_taken (isSole_of_holders alone)) rfl)
      have one : leveled c m level = [⟨m, level⟩] := by
        unfold leveled
        rw [alone]
        simp
      rw [held, one] at request
      exact exec_claim_of_reply admitted request
    · obtain ⟨policy, slot, ha⟩ := args (excl := false) (by rw [mode]; rfl)
      have request := (claimRequest_of_shared (s := taken s m f) (m := m) target ha (by rw [held]; exact shared)).trans
        (claimShared_levels (isHolder_taken holder) rfl)
      rw [held] at request
      exact exec_claim_of_reply admitted request
    · obtain ⟨policy, slot, ha⟩ := args (excl := excl) (by rw [mode, modeOf_toNat])
      have request := (claimRequest_of_exclusive (s := taken s m f) (m := m) target ha
        (by rw [held]; exact exclusive)).trans (claimExclusive_of_holder (isHolder_taken holder))
      rw [held] at request
      exact exec_claim_of_reply admitted request
    · obtain ⟨policy, slot, ha⟩ := args (excl := true) (by rw [mode]; rfl)
      refine handedOver_imp (openProposal_handedOver f (joined_of_admitted admitted) f.tag _ _) fun u code bytes opens => ?_
      have request := (claimRequest_of_shared (s := taken s m f) (m := m) target ha (by rw [held]; exact shared)).trans
        (claimShared_asks (isSole_taken others) rfl opens)
      rw [held, taken_isHolder] at request
      exact exec_claim_of_reply admitted request
  · have carried := carries_of_last_vote last
    unfold Carries at carried
    rw [matter, voted_eq] at carried
    simp only [State.claim_setProposals, taken_claim, setClaim_setProposals] at carried
    rw [hands_setProposals (n := fun _ => _)] at carried
    exact exec_of_votes carried ((hands_consent (fun _ => _) _ _).trans (by cases t <;> rfl))

/-! ### CLAIM_SET (R71) -/

theorem exec_claimSet_of_reply {s : State} {m : Master} {f : Frame} {r : Reply} (h : Admitted s m 0x0A f)
    (hr : claimSetRequest (taken s m f) m f = r) :
    exec (.claimSet m) s = .next (answered r.state m f r.code r.payload) :=
  exec_of_reply (owner := fun s f => claimSetRequest s m f) h (by decide) rfl hr

section ClaimSet

variable {s : State} {m : Master} {f : Frame} {o : Output} {c : PolicyCode}

theorem claimSetRequest_of_bad_policy (ho : byteAt f.payload 0 = o.val) (h : 2 < byteAt f.payload 1) :
    claimSetRequest s m f = refuse s .badValue := by
  unfold claimSetRequest
  rw [withOutput_val ho, policyOf_eq_none h]

theorem claimSetRequest_of_not_holder (ho : byteAt f.payload 0 = o.val) (hc : policyOf (byteAt f.payload 1) = some c)
    (h : s.isHolder (.out o) m = false) : claimSetRequest s m f = refuse s .notHolder := by
  unfold claimSetRequest
  rw [withOutput_val ho, hc]
  exact if_pos (by rw [h]; rfl)

theorem claimSetRequest_of_shared (ho : byteAt f.payload 0 = o.val) (hc : policyOf (byteAt f.payload 1) = some c)
    (hh : s.isHolder (.out o) m = true) (h : s.isSole (.out o) m = false) :
    claimSetRequest s m f = refuse s .notSole := by
  unfold claimSetRequest
  rw [withOutput_val ho, hc]
  exact (if_neg (by rw [hh]; exact nofun)).trans (if_pos (by rw [h]; rfl))

theorem claimSetRequest_of_bad_slot (ho : byteAt f.payload 0 = o.val) (hc : policyOf (byteAt f.payload 1) = some c)
    (h : s.isSole (.out o) m = true) (hp : policyFor s c (byteAt f.payload 2) = none) :
    claimSetRequest s m f = refuse s .badValue := by
  unfold claimSetRequest
  rw [withOutput_val ho, hc]
  dsimp only
  rw [if_neg (by rw [isHolder_of_isSole h]; exact nofun), if_neg (by rw [h]; exact nofun), hp]

theorem claimSetRequest_of_policy {pol : Policy} (ho : byteAt f.payload 0 = o.val)
    (hc : policyOf (byteAt f.payload 1) = some c) (h : s.isSole (.out o) m = true)
    (hp : policyFor s c (byteAt f.payload 2) = some pol) :
    claimSetRequest s m f = okay (setPolicy s (.out o) pol) := by
  unfold claimSetRequest
  rw [withOutput_val ho, hc]
  dsimp only
  rw [if_neg (by rw [isHolder_of_isSole h]; exact nofun), if_neg (by rw [h]; exact nofun), hp]

/-- The policy is replaced in the words of the statements. -/
theorem setPolicy_taken (t : Target) (pol : Policy) : setPolicy (taken s m f) t pol
    = ((addRefOpt (taken s m f) pol.slot).dropRefOpt (s.claim t).policy.slot).setClaim t
        { s.claim t with policy := pol } := by
  unfold setPolicy
  rw [taken_claim]

end ClaimSet

/-- Settles O25, by the checks of R71 in their order. -/
theorem claimSetReplacesThePolicy : Obligations.ClaimSetReplacesThePolicy := by
  unfold Obligations.ClaimSetReplacesThePolicy
  intro s m f admitted
  refine ⟨fun high => exec_claimSet_of_reply admitted (withOutput_of_lt high _), fun o out => ?_⟩
  intro c former
  have former_eq : former = (s.claim (.out o)).policy.slot := by
    show (match (s.claim (.out o)).policy with
      | .fallback k => some k
      | .keep => none
      | .stop => none) = _
    cases (s.claim (.out o)).policy <;> rfl
  rw [former_eq]
  refine ⟨fun bad => ?_, fun other low => ?_, fun holder shared low => ?_, fun sole fallback none => ?_,
    fun k sole fallback slot fixed => ?_, fun sole keep => ?_, fun sole stop => ?_⟩
  · exact exec_claimSet_of_reply admitted (claimSetRequest_of_bad_policy out bad)
  · obtain ⟨code, named⟩ := policyOf_of_le low
    exact exec_claimSet_of_reply admitted (claimSetRequest_of_not_holder out named (isHolder_taken other))
  · obtain ⟨code, named⟩ := policyOf_of_le low
    exact exec_claimSet_of_reply admitted
      (claimSetRequest_of_shared out named (isHolder_taken holder) (isSole_taken shared))
  · exact exec_claimSet_of_reply admitted (claimSetRequest_of_bad_slot (c := .fallback) out (by rw [fallback]; rfl)
      (isSole_taken sole) (policyFor_fallback_none none))
  · have request := claimSetRequest_of_policy (c := .fallback) out (by rw [fallback]; rfl) (isSole_taken sole)
      (policyFor_fallback (s := taken s m f) slot fixed)
    rw [setPolicy_taken] at request
    exact exec_claimSet_of_reply admitted request
  · have request := claimSetRequest_of_policy (s := taken s m f) (c := .keep) (pol := .keep) out (by rw [keep]; rfl)
      (isSole_taken sole) rfl
    rw [setPolicy_taken] at request
    exact exec_claimSet_of_reply admitted request
  · have request := claimSetRequest_of_policy (s := taken s m f) (c := .stop) (pol := .stop) out (by rw [stop]; rfl)
      (isSole_taken sole) rfl
    rw [setPolicy_taken] at request
    exact exec_claimSet_of_reply admitted request

end Sys2Proof.ClaimProofs
end

section
/-! RELEASE (chapter 4) and the removal of a holder: what removing it comes to, by the round open on the target and by
the orphan policy, in the words of `HolderGone`. -/

namespace Sys2Proof.ReleaseProofs

open Machine Laws VoteProofs OutputProofs

/-! ### Entries that leave -/

theorem removeQueued_eq (u : State) (o : Output) : removeEntries u o Entry.isQueued .discarded
    = entriesGo o .discarded (u.setQueue o ((u.queue o).filter fun e => e.state != .queued))
        ((u.queue o).filter fun e => e.state == .queued) :=
  entriesGo_eq o .discarded _ _

theorem queue_entriesGo (o p : Output) (c : ChangeOutcome) (s : State) (es : List Entry) :
    (entriesGo o c s es).queue p = s.queue p := by
  have chans := (quiet_entriesGo o c es s).chans
  unfold State.queue State.chan
  rw [chans]

theorem claim_entriesGo (o : Output) (c : ChangeOutcome) (s : State) (es : List Entry) (t : Target) :
    (entriesGo o c s es).claim t = s.claim t := by
  have quiet := quiet_entriesGo o c es s
  cases t
  case out p =>
    unfold State.claim
    rw [quiet.outClaims]
  case tb => exact quiet.tbClaim

theorem claim_addEntryRef (s : State) (kind : EntryKind) (t : Target) : (addEntryRef s kind).claim t = s.claim t := by
  cases kind
  case change k => exact State.claim_addRef s k t
  case stop => rfl

/-! ### The orphan policy (R73 to R75) -/

section Orphan

variable {u : State} {o : Output}

/-- The QUEUED entries are discarded and the policy's own entry joins the others. -/
theorem orphanAppend_of_room (kind : EntryKind)
    (room : ((u.queue o).filter fun e => e.state != .queued).length < 4) : orphanAppend u o kind
    = (addEntryRef (entriesGo o .discarded (u.setQueue o ((u.queue o).filter fun e => e.state != .queued))
        ((u.queue o).filter fun e => e.state == .queued)) kind).setQueue o
      (((u.queue o).filter fun e => e.state != .queued) ++ [⟨kind, none, .queued, none⟩]) := by
  have kept : (entriesGo o .discarded (u.setQueue o ((u.queue o).filter fun e => e.state != .queued))
      ((u.queue o).filter fun e => e.state == .queued)).queue o = (u.queue o).filter fun e => e.state != .queued := by
    rw [queue_entriesGo, State.queue_setQueue_self]
  have same (v : State) : (addEntryRef v kind).queue o = v.queue o := by cases kind <;> rfl
  unfold orphanAppend
  rw [removeQueued_eq]
  unfold appendEntry
  rw [if_neg (by rw [queueFull_of_lt (by rw [kept]; exact room)]; exact nofun), same, kept]

/-- With no holder left nobody is told of an output's change of state. -/
theorem setOutState_unheld {r : OutRec} {st : OutState} {v : State} (h : v.holders (.out o) = []) :
    setOutState (v.setSq o r) o st = v.setSq o { r with state := st } := by
  rw [setOutState_setSq, h]
  rfl

theorem returnToBound_unheld (h : u.holders (.out o) = []) :
    returnToBound u o = u.setSq o { u.sq o with state := .bound, wakeStart := false } := by
  unfold returnToBound
  rw [setOutState_unheld h]

theorem bind_unheld {k : Slot} (h : u.holders (.out o) = []) : Machine.bind u o k
    = ((u.addRef k).dropRefOpt (u.sq o).current).setSq o { u.sq o with
        current := some k, state := if (u.sq o).state = .idle then .bound else (u.sq o).state } := by
  unfold Machine.bind
  simp only [State.sq_dropRefOpt, State.sq_addRef]
  by_cases idle : (u.sq o).state = .idle
  · rw [if_pos idle, if_pos idle, setOutState_unheld (by rw [holders_rebound]; exact h)]
  · rw [if_neg idle, if_neg idle]

theorem orphanStop_of_other (running : (u.sq o).state ≠ .running) (waiting : (u.sq o).state ≠ .waiting) :
    orphanStop u o = u := by
  unfold orphanStop
  cases h : (u.sq o).state
  case running => exact absurd h running
  case waiting => exact absurd h waiting
  all_goals rfl

theorem orphanStop_of_running (h : (u.sq o).state = .running) : orphanStop u o = orphanAppend u o .stop := by
  unfold orphanStop
  rw [h]

theorem orphanStop_of_waiting (h : (u.sq o).state = .waiting) : orphanStop u o = returnToBound u o := by
  unfold orphanStop
  rw [h]

theorem orphanFallback_of_runs {k : Slot} (h : (u.sq o).state = .running ∨ (u.sq o).state = .stopping) :
    orphanFallback u o k = orphanAppend u o (.change k) := by
  unfold orphanFallback
  rcases h with h | h <;> rw [h]

theorem orphanFallback_of_rest {k : Slot} (running : (u.sq o).state ≠ .running) (stopping : (u.sq o).state ≠ .stopping) :
    orphanFallback u o k = Machine.bind u o k := by
  unfold orphanFallback
  cases h : (u.sq o).state
  case running => exact absurd h running
  case stopping => exact absurd h stopping
  all_goals rfl

theorem settle_of_keep {t : Target} (h : (u.claim t).policy = .keep) : settle u t = u.setClaim t .reset := by
  cases t
  all_goals
    unfold settle
    rw [h]
    rfl

theorem settle_of_stop (h : (u.claim (.out o)).policy = .stop) :
    settle u (.out o) = (orphanStop u o).setClaim (.out o) .reset := by
  unfold settle
  rw [h]
  rfl

theorem settle_of_fallback {k : Slot} (h : (u.claim (.out o)).policy = .fallback k) :
    settle u (.out o) = ((orphanFallback u o k).setClaim (.out o) .reset).dropRef k := by
  unfold settle
  rw [h]
  rfl

end Orphan

/-! ### The removal of a holder (R72, R89) -/

/-- The holders of the target `t` without `m`. -/
def left (s : State) (t : Target) (m : Master) : List Holder := (s.claim t).holders.filter fun h => h.master != m

/-- The state with the entry of `m` gone from the target `t`. -/
def unlisted (s : State) (t : Target) (m : Master) : State := s.setClaim t { s.claim t with holders := left s t m }

section Remove

variable {s : State} {t : Target} {m : Master} {p : Proposal}

theorem claim_unlisted (s : State) (t : Target) (m : Master) :
    (unlisted s t m).claim t = { s.claim t with holders := left s t m } := State.claim_setClaim_self _ _ _

theorem consent_unlisted (s : State) (t : Target) (m : Master) : (unlisted s t m).consent = s.consent := by
  unfold unlisted
  rw [State.setClaim_consent]

theorem holders_unlisted (h : left s t m = []) : (unlisted s t m).holders t = [] := by
  unfold State.holders
  rw [claim_unlisted, h]
  rfl

theorem removeHolder_eq (s : State) (t : Target) (m : Master) : removeHolder s t m
    = if ((releaseProposal (unlisted s t m) t m).claim t).holders = [] then
        settle (releaseProposal (unlisted s t m) t m) t
      else releaseProposal (unlisted s t m) t m := rfl

theorem releaseProposal_none (h : s.proposalOn (some t) = none) :
    releaseProposal (unlisted s t m) t m = unlisted s t m := by
  have none : (unlisted s t m).proposalOn (some t) = .none := by
    unfold State.proposalOn
    rw [consent_unlisted]
    exact h
  unfold releaseProposal
  rw [none]

theorem releaseProposal_some (h : s.proposalOn (some t) = some p) :
    releaseProposal (unlisted s t m) t m = leaveProposal (unlisted s t m) p m := by
  have some : (unlisted s t m).proposalOn (some t) = .some p := by
    unfold State.proposalOn
    rw [consent_unlisted]
    exact h
  unfold releaseProposal
  rw [some]

/-- A target with holders left is not settled. -/
theorem removeHolder_of_left {v : State} (hr : releaseProposal (unlisted s t m) t m = v)
    (hv : (v.claim t).holders = left s t m) (h : left s t m ≠ []) : removeHolder s t m = v := by
  rw [removeHolder_eq, hr, if_neg (by rw [hv]; exact h)]

theorem removeHolder_of_last {v : State} (hr : releaseProposal (unlisted s t m) t m = v)
    (hv : (v.claim t).holders = left s t m) (h : left s t m = []) : removeHolder s t m = settle v t := by
  rw [removeHolder_eq, hr, if_pos (by rw [hv]; exact h)]

theorem claim_roundOver (s : State) (p : Proposal) (c : RoundOutcome) (b : Bool) (t : Target) :
    (roundOver s p c b).claim t = s.claim t := by
  have told (ms : List Master) : ∀ u : State, (ms.foldl (fun v j => v.handMarked j b
      (.proposalEnd p.id p.matter p.proposer p.tag c)) u).claim t = u.claim t := by
    induction ms with
    | nil => exact fun _ => rfl
    | cons j ms ih =>
      intro u
      rw [List.foldl_cons, ih, handMarked_eq]
      cases t <;> rfl
  exact (told _ _).trans (State.claim_setProposals _ _ _)

theorem claim_unreserve (s : State) (p : Proposal) (t : Target) : (unreserve s p).claim t = s.claim t := by
  unfold unreserve
  cases p.matter
  case outputChange o k => rw [State.claim_dropRef, claim_entriesGo, State.claim_setQueue]
  case outputStop o => rw [claim_entriesGo, State.claim_setQueue]
  all_goals rfl

theorem leaveProposal_of_proposer (h : p.proposer = m) :
    leaveProposal s p m = roundOver (unreserve s p) p .withdrawn := by
  unfold leaveProposal
  rw [if_pos h, ConsentProofs.endProposal_eq_roundOver]

theorem leaveProposal_of_other (hp : p.proposer ≠ m) (hr : m ∉ p.required) : leaveProposal s p m = s := by
  unfold leaveProposal
  rw [if_neg hp, if_neg (by simpa using hr)]

/-- The proposals with the voter `m` gone from `p`. -/
def withoutVoter (ps : List Proposal) (p : Proposal) (m : Master) : List Proposal :=
  ps.map fun x => if x.id == p.id then p.without m else x

theorem updateProposal_without (uniq : ∀ x ∈ s.consent.proposals, x.id = p.id → x = p) :
    updateProposal s p.id (·.without m) = s.setProposals (withoutVoter s.consent.proposals p m) := by
  unfold updateProposal withoutVoter
  refine congrArg s.setProposals (List.map_congr_left fun x hx => ?_)
  split
  next e => rw [uniq x hx (beq_iff_eq.mp e)]
  next => rfl

theorem leaveProposal_of_awaited (hm : p ∈ s.consent.proposals)
    (uniq : ∀ x ∈ s.consent.proposals, x.id = p.id → x = p) (hp : p.proposer ≠ m) (hr : m ∈ p.required)
    (ha : (p.without m).accepted ≠ (p.without m).required) :
    leaveProposal s p m = s.setProposals (withoutVoter s.consent.proposals p m) := by
  have found : (s.setProposals (withoutVoter s.consent.proposals p m)).proposal p.id = some (p.without m) :=
    find_of_map hm rfl
  unfold leaveProposal
  rw [if_neg hp, if_pos (by simpa using hr), updateProposal_without uniq, carryIfAgreed_of_waiting found ha]

end Remove

/-! ### `HolderGone` -/

/-- States that agree in what the removal of a holder reads. -/
structure Agrees (s v : State) : Prop where
  claim : ∀ t, v.claim t = s.claim t
  consent : v.consent = s.consent
  sq : ∀ o, v.sq o = s.sq o
  queue : ∀ o, v.queue o = s.queue o

namespace Agrees

theorem refl (s : State) : Agrees s s := ⟨fun _ => rfl, rfl, fun _ => rfl, fun _ => rfl⟩

theorem taken (s : State) (m : Master) (f : Frame) : Agrees s (taken s m f) :=
  ⟨taken_claim s m f, rfl, fun _ => rfl, fun _ => rfl⟩

end Agrees

section Orphaned

variable {v : State} {m : Master} {o : Output} (none : v.proposalOn (some (.out o)) = .none)
  (last : left v (.out o) m = [])
include none last

theorem removeHolder_orphan : removeHolder v (.out o) m = settle (unlisted v (.out o) m) (.out o) :=
  removeHolder_of_last (releaseProposal_none none) (congrArg ClaimRec.holders (claim_unlisted v _ m)) last

theorem removeHolder_stop (policy : (v.claim (.out o)).policy = .stop) :
    removeHolder v (.out o) m = (orphanStop (unlisted v (.out o) m) o).setClaim (.out o) .reset := by
  rw [removeHolder_orphan none last, settle_of_stop (by rw [claim_unlisted]; exact policy)]

theorem removeHolder_fallback {k : Slot} (policy : (v.claim (.out o)).policy = .fallback k) : removeHolder v (.out o) m
    = ((orphanFallback (unlisted v (.out o) m) o k).setClaim (.out o) .reset).dropRef k := by
  rw [removeHolder_orphan none last, settle_of_fallback (by rw [claim_unlisted]; exact policy)]

end Orphaned

/-- The removal of a holder comes to what `HolderGone` says of it. -/
theorem holderGone_of_removeHolder {s v : State} {t : Target} {m : Master} {ends : State → Prop} (agree : Agrees s v)
    (h : ends (removeHolder v t m)) : HolderGone s v t m ends := by
  have left_eq : left v t m = (s.claim t).holders.filter fun h => h.master != m := by
    unfold left
    rw [agree.claim]
  have unlisted_eq : unlisted v t m
      = v.setClaim t { s.claim t with holders := (s.claim t).holders.filter fun h => h.master != m } := by
    unfold unlisted
    rw [left_eq, agree.claim]
  have proposalOn : v.proposalOn (some t) = s.proposalOn (some t) := by
    unfold State.proposalOn
    rw [agree.consent]
  have freed : (unlisted v t m).setClaim t .reset = v.setClaim t .reset := State.setClaim_setClaim v t _ _
  have settles {w : State} (hw : (w.claim t).policy = (s.claim t).policy) (keep : (s.claim t).policy = .keep) :
      settle w t = w.setClaim t .reset := settle_of_keep (hw.trans keep)
  unfold HolderGone
  rw [← proposalOn]
  intro c rest u
  have rest_eq : rest = left v t m := left_eq.symm
  have u_eq : u = unlisted v t m := unlisted_eq.symm
  clear_value rest u
  subst rest_eq u_eq
  refine ⟨fun none => ⟨fun some => ?_, fun last keep => ?_, fun o out last => ?_⟩, fun p open' uniq => ?_⟩
  · rwa [removeHolder_of_left (releaseProposal_none none) (congrArg ClaimRec.holders (claim_unlisted v t m)) some] at h
  · rw [removeHolder_of_last (releaseProposal_none none) (congrArg ClaimRec.holders (claim_unlisted v t m)) last,
      settles (by rw [claim_unlisted, agree.claim]) keep, freed] at h
    exact h
  · subst out
    have sq : (unlisted v (.out o) m).sq o = s.sq o := (State.sq_setClaim _ _ _ _).trans (agree.sq o)
    have queue : (unlisted v (.out o) m).queue o = s.queue o := (State.queue_setClaim _ _ _ _).trans (agree.queue o)
    have policy_eq : (v.claim (.out o)).policy = (s.claim (.out o)).policy := congrArg ClaimRec.policy (agree.claim _)
    have unheld := holders_unlisted last
    have room (short : ((s.queue o).filter fun e => e.state != .queued).length < 4) :
        (((unlisted v (.out o) m).queue o).filter fun e => e.state != .queued).length < 4 := by
      rw [queue]
      exact short
    refine ⟨fun stop running short => ?_, fun stop waiting => ?_, fun stop running waiting => ?_,
      fun k fallback runs short => ?_, fun k fallback running stopping => ?_⟩
    · rw [removeHolder_stop none last (policy_eq.trans stop), orphanStop_of_running (by rw [sq]; exact running),
        orphanAppend_of_room _ (room short), queue] at h
      exact h
    · rw [removeHolder_stop none last (policy_eq.trans stop), orphanStop_of_waiting (by rw [sq]; exact waiting),
        returnToBound_unheld unheld, sq] at h
      exact h
    · rw [removeHolder_stop none last (policy_eq.trans stop),
        orphanStop_of_other (by rw [sq]; exact running) (by rw [sq]; exact waiting)] at h
      exact h
    · rw [removeHolder_fallback none last (policy_eq.trans fallback), orphanFallback_of_runs (by rw [sq]; exact runs),
        orphanAppend_of_room _ (room short), queue] at h
      exact h
    · rw [removeHolder_fallback none last (policy_eq.trans fallback),
        orphanFallback_of_rest (by rw [sq]; exact running) (by rw [sq]; exact stopping), bind_unheld unheld, sq] at h
      exact h
  · have consent : (unlisted v t m).consent.proposals = s.consent.proposals := by
      rw [consent_unlisted, agree.consent]
    have uniq' : ∀ x ∈ (unlisted v t m).consent.proposals, x.id = p.id → x = p := by
      rw [consent]
      exact uniq
    have member : p ∈ (unlisted v t m).consent.proposals := by
      rw [consent_unlisted]
      exact (proposalOn_mem open').1
    have released := releaseProposal_some (m := m) open'
    refine ⟨fun own some => ?_, fun own last keep => ?_, fun other voter some => ?_, fun other voter waits some => ?_,
      fun other voter agreed some stays => ?_⟩
    · rw [leaveProposal_of_proposer own] at released
      rwa [removeHolder_of_left released (by rw [claim_roundOver, claim_unreserve, claim_unlisted]) some] at h
    · rw [leaveProposal_of_proposer own] at released
      rw [removeHolder_of_last released (by rw [claim_roundOver, claim_unreserve, claim_unlisted]) last,
        settles (by rw [claim_roundOver, claim_unreserve, claim_unlisted, agree.claim]) keep] at h
      exact h
    · rw [leaveProposal_of_other other voter] at released
      rwa [removeHolder_of_left released (by rw [claim_unlisted]) some] at h
    · rw [leaveProposal_of_awaited member uniq' other voter waits, consent] at released
      rw [removeHolder_of_left released (by rw [State.claim_setProposals, claim_unlisted]) some] at h
      exact h
    · have onTarget : (p.matter == .deviceReset) = false := by
        have target := (proposalOn_mem open').2
        cases matter : p.matter
        case deviceReset => rw [matter] at target; cases target
        all_goals rfl
      rw [removeHolder_carries open' (by rw [agree.consent]; exact uniq) other voter agreed some stays] at h
      have carried := carries_carry h
      rw [show ((p.without m).matter == .deviceReset) = false from onTarget, agree.consent] at carried
      exact carried

/-! ### RELEASE (R72) -/

theorem exec_release_of_reply {s : State} {m : Master} {f : Frame} {r : Reply} (h : Admitted s m 0x0B f)
    (hr : releaseRequest (taken s m f) m f = r) : exec (.release m) s = .next (answered r.state m f r.code r.payload) :=
  exec_of_reply (owner := fun s f => releaseRequest s m f) h (by decide) rfl hr

theorem releaseRequest_of_target {s : State} {m : Master} {f : Frame} {t : Target} (ht : byteAt f.payload 0 = t.number) :
    releaseRequest s m f = if s.isHolder t m then okay (removeHolder s t m) else refuse s .notHolder := by
  unfold releaseRequest
  rw [ClaimProofs.targetOf_val ht]

/-- Settles O26: a holder is removed as `HolderGone` says. -/
theorem releaseRemovesTheHolder : Obligations.ReleaseRemovesTheHolder := by
  unfold Obligations.ReleaseRemovesTheHolder
  refine ⟨fun s m f admitted => ⟨fun high => ?_, fun t target other => ?_⟩, fun s m f t admitted target holder => ?_⟩
  · refine exec_release_of_reply admitted (r := refuse (taken s m f) .badValue) ?_
    unfold releaseRequest
    rw [ClaimProofs.targetOf_eq_none high]
  · exact exec_release_of_reply admitted ((releaseRequest_of_target target).trans
      (if_neg (by rw [isHolder_taken other]; exact nofun)))
  · exact holderGone_of_removeHolder (Agrees.taken s m f) (exec_release_of_reply admitted
      ((releaseRequest_of_target target).trans (if_pos (isHolder_taken holder))))

end Sys2Proof.ReleaseProofs
end

section
/-! What the operations of one output's frame leave as it was: the record, queue and burst of that output change, slots
change in their references only, links and master records in their notices only (`OneOutput`). -/

namespace Sys2Proof.FrameProofs

open Machine Laws MachineProofs ReleaseProofs

/-! ### The frame of an operation -/

/-- From `s` to `t` one output changes, and besides it notices and the references of slots. -/
structure OneOutput (o : Output) (s t : State) : Prop where
  chans : ∀ p, p ≠ o → t.chan p = s.chan p
  slots : ∀ j, t.slot j = { s.slot j with refs := (t.slot j).refs }
  notices : OnlyNotices s t
  rest : t = { s with links := t.links, masters := t.masters, slots := t.slots, chans := t.chans }

namespace OneOutput

variable {o : Output} {s t u : State}

theorem refl (o : Output) (s : State) : OneOutput o s s := ⟨fun _ _ => rfl, fun _ => rfl, OnlyNotices.refl s, rfl⟩

theorem trans (h : OneOutput o s t) (g : OneOutput o t u) : OneOutput o s u where
  chans p ne := (g.chans p ne).trans (h.chans p ne)
  slots j := by rw [g.slots j, h.slots j]
  notices := OnlyNotices.trans h.notices g.notices
  rest := by rw [g.rest, h.rest]

theorem of_setChan (c : Channel) : OneOutput o s (s.setChan o c) where
  chans _ ne := State.chan_setChan_ne s c ne
  slots _ := rfl
  notices := OnlyNotices.of_eq rfl rfl
  rest := rfl

theorem setSq (h : OneOutput o s t) (r : OutRec) : OneOutput o s (t.setSq o r) := h.trans (of_setChan _)

theorem setQueue (h : OneOutput o s t) (q : List Entry) : OneOutput o s (t.setQueue o q) := h.trans (of_setChan _)

theorem setBurst (h : OneOutput o s t) (b : Option Burst) : OneOutput o s (t.setBurst o b) := h.trans (of_setChan _)

theorem of_setRefs (k : Slot) (n : Nat) : OneOutput o s (s.setSlot k { s.slot k with refs := n }) where
  chans _ _ := rfl
  slots j := by
    by_cases e : j = k
    · subst e; rw [State.slot_setSlot_self]
    · rw [State.slot_setSlot_ne _ _ e]
  notices := OnlyNotices.of_eq rfl rfl
  rest := rfl

theorem addRef (h : OneOutput o s t) (k : Slot) : OneOutput o s (t.addRef k) := h.trans (of_setRefs k _)

theorem dropRef (h : OneOutput o s t) (k : Slot) : OneOutput o s (t.dropRef k) := h.trans (of_setRefs k _)

theorem dropRefOpt (h : OneOutput o s t) (k : Option Slot) : OneOutput o s (t.dropRefOpt k) := by
  cases k with
  | none => exact h
  | some k => exact h.dropRef k

theorem handAll (h : OneOutput o s t) (ms : List Master) (n : Notice) : OneOutput o s (t.handAll ms n) := by
  refine h.trans ⟨fun p _ => ?_, fun j => ?_, onlyNotices_handAll t ms n, ?_⟩
  · rw [State.chan_handAll]
  · rw [State.slot_handAll]
  · rw [handAll_eq]

theorem hand (h : OneOutput o s t) (m : Master) (n : Notice) : OneOutput o s (t.hand m n) := h.handAll [m] n

theorem entriesGo (h : OneOutput o s t) (c : ChangeOutcome) (es : List Entry) : OneOutput o s (entriesGo o c t es) := by
  unfold Sys2Proof.entriesGo
  induction es generalizing t with
  | nil => exact h
  | cons e es ih =>
    refine ih (handAll ?_ _ _)
    cases e.kind with
    | change k => exact h.dropRef k
    | stop => exact h

theorem frameReported (h : OneOutput o s t) (st : FrameStatus) : OneOutput o s (frameReported t o st) := by
  unfold Sys2Proof.frameReported
  split
  · exact (h.setSq _).handAll _ _
  · exact h

theorem lineReaches (h : OneOutput o s t) : OneOutput o s (lineReaches t o) := by
  unfold Sys2Proof.lineReaches
  split
  · exact h
  · split
    · exact h.setBurst _
    · exact (h.setBurst _).hand _ _

theorem burstEnds (h : OneOutput o s t) (c : BurstOutcome) : OneOutput o s (burstEnds t o c) := by
  unfold Sys2Proof.burstEnds
  split
  · exact h
  · exact (h.setBurst _).hand _ _

theorem tbu (h : OneOutput o s t) : t.tbu = s.tbu := by rw [h.rest]

theorem claim (h : OneOutput o s t) (g : Target) : t.claim g = s.claim g := by rw [h.rest]; cases g <;> rfl

theorem holders (h : OneOutput o s t) (g : Target) : t.holders g = s.holders g := by
  unfold State.holders
  rw [h.claim]

theorem geomOf (h : OneOutput o s t) (k : Slot) : (t.slot k).geom = (s.slot k).geom := by rw [h.slots k]

/-- Nothing else is set going where the changed output itself does not wait. -/
theorem undisturbed (h : OneOutput o s t) (still : Undisturbed s) (state : (t.sq o).state ≠ .waiting) : Undisturbed t := by
  refine ⟨fun p => ?_, fun cur sw d => by rw [h.tbu]; exact still.2 cur sw d⟩
  by_cases e : p = o
  · exact e ▸ state
  · unfold State.sq
    rw [h.chans p e]
    exact still.1 p

end OneOutput

end Sys2Proof.FrameProofs
end

section
/-! LINE_START and FRAME_BOUNDARY (chapters 2 and 3): the intake point, the frame that goes on, the swap, the stop and
the cut, in the words of the statements. -/

namespace Sys2Proof.BoundaryProofs

open Machine Laws MachineProofs SettingProofs ReleaseProofs FrameProofs

/-! ### When a line ends (R19, R27) -/

section Due

variable {s : State} {o : Output}

theorem exec_lineStart_of_due (due : LineDue s o) (more : (s.sq o).line + 1 < (s.geom o).lf) :
    exec (.lineStart o) s = .next (lineStart s o) := by
  show execLineStart o s = _
  unfold execLineStart lastLine
  rw [(lineDue_iff s o).mpr due, decide_eq_false (Nat.not_le.mpr more)]
  rfl

theorem exec_frameBoundary_of_due (due : LineDue s o) (last : (s.geom o).lf ≤ (s.sq o).line + 1) :
    exec (.frameBoundary o) s = .next (frameBoundary s o) := by
  show execFrameBoundary o s = _
  unfold execFrameBoundary lastLine
  rw [(lineDue_iff s o).mpr due, decide_eq_true last]
  rfl

theorem exec_of_not_due (early : ¬LineDue s o) :
    exec (.lineStart o) s = .next s ∧ exec (.frameBoundary o) s = .next s := by
  have low : lineDue s o = false := Bool.eq_false_iff.mpr fun due => early ((lineDue_iff s o).mp due)
  constructor
  · show execLineStart o s = _
    unfold execLineStart
    rw [low]
    rfl
  · show execFrameBoundary o s = _
    unfold execFrameBoundary
    rw [low]
    rfl

theorem runs_of_due (due : LineDue s o) : (s.sq o).runs = true := (Bool.and_eq_true_iff.mp due.1).1

theorem lineStart_of_no_cut (early : (s.sq o).cut = none ∨ (s.sq o).line + 1 < 16) : lineStart s o = nextLine s o := by
  unfold lineStart
  rcases early with no | low
  · rw [no]
  · cases (s.sq o).cut with
    | none => rfl
    | some c => exact if_neg (Nat.not_le.mpr low)

theorem nextLine_eq : nextLine s o
    = if (s.sq o).line + 1 = 4 then
        intake (lineReaches (s.setSq o { s.sq o with line := (s.sq o).line + 1, tick := 0, lineEnd := false }) o) o
      else lineReaches (s.setSq o { s.sq o with line := (s.sq o).line + 1, tick := 0, lineEnd := false }) o := by
  unfold nextLine
  dsimp only
  rw [strobeLine_eq, (lineReaches_frame _ o).1, State.sq_setSq_self]
  rfl

end Due

/-! ### The line start and its burst (R19, R137) -/

section Reached

variable {s : State} {o : Output} {b b' : Burst}

theorem lineReaches_of_none (h : s.burst o = none) : lineReaches s o = s := by
  unfold lineReaches
  rw [h]

theorem lineReaches_of_runsOn (h : s.burst o = some b) (on : b.lineStart (s.sq o) = .runsOn b') :
    lineReaches s o = s.setBurst o (some b') := by
  unfold lineReaches
  rw [h]
  dsimp only
  rw [on]

theorem lineReaches_of_completes (h : s.burst o = some b) (ends : b.lineStart (s.sq o) = .completes b') :
    lineReaches s o = (s.setBurst o none).hand b.origin
      (.burstDone o b.pattern b.origin b.tag .complete b'.pulses b'.repeats (s.sq o).frameNo) := by
  unfold lineReaches
  rw [h]
  dsimp only
  rw [ends]

theorem slot_lineReaches (k : Slot) : (lineReaches s o).slot k = s.slot k := by
  unfold lineReaches
  split
  · rfl
  · split <;> simp

theorem queue_lineReaches : (lineReaches s o).queue o = s.queue o := by
  unfold lineReaches
  split
  · rfl
  · split <;> simp

end Reached

/-! ### The intake point (R52) -/

section Intake

variable {u : State} {o : Output} {origin : Option (Master × Byte)} {pid : Option Nat} {rest : List Entry}

theorem mark_unsettle {r : OutRec} (runs : r.runs = true) :
    r.mark FrameStatus.unsettle = { r with status := unsettled r } := by
  unfold OutRec.mark OutRec.emitted unsettled
  rw [runs]
  by_cases emitted : r.phase = 0
  · rw [emitted]; rfl
  · rw [beq_eq_false_iff_ne.mpr emitted, if_neg emitted]; rfl

theorem intake_of_empty (h : u.queue o = []) : intake u o = u := by
  unfold intake
  rw [h]

theorem intake_of_other {e : Entry} (h : u.queue o = e :: rest) (state : e.state ≠ .queued) : intake u o = u := by
  unfold intake
  rw [h]
  exact if_neg (by rw [Entry.isQueued, beq_eq_false_iff_ne.mpr state]; exact nofun)

/-- A QUEUED CHANGE becomes TAKEN, its slot becomes next with a reference, and the frame is marked. -/
theorem intake_of_change {k : Slot} (h : u.queue o = ⟨.change k, origin, .queued, pid⟩ :: rest)
    (runs : (u.sq o).runs = true) : intake u o
      = ((u.setQueue o (⟨.change k, origin, .taken, pid⟩ :: rest)).addRef k).setSq o
          { u.sq o with next := some k, status := unsettled (u.sq o) } := by
  unfold intake
  rw [h]
  show unsettleFrame _ o = _
  unfold unsettleFrame takeHead
  rw [State.setSq_setSq, State.sq_setSq_self, State.sq_addRef, State.sq_setQueue]
  exact congrArg _ (mark_unsettle (r := { u.sq o with next := some k }) runs)

/-- A QUEUED STOP becomes TAKEN, the frame is marked, and the output goes to STOPPING. -/
theorem intake_of_stop (h : u.queue o = ⟨.stop, origin, .queued, pid⟩ :: rest) (state : (u.sq o).state = .running) :
    intake u o
      = leftRunning (((u.setQueue o (⟨.stop, origin, .taken, pid⟩ :: rest)).setSq o
          { u.sq o with state := .stopping, status := unsettled (u.sq o) }).handAll (u.holders (.out o))
            (.outputState o .running .stopping (u.sq o).frameNo)) o := by
  have runs : (u.sq o).runs = true := by unfold OutRec.runs; rw [state]; rfl
  unfold intake
  rw [h]
  show (if (u.sq o).state = .running then _ else _) = _
  rw [if_pos state]
  unfold unsettleFrame takeHead setOutState outputNotice
  rw [State.setSq_setSq, State.sq_setSq_self, State.sq_setSq_self, State.sq_setQueue, mark_unsettle runs]
  unfold State.holders
  rw [State.claim_setSq, State.claim_setQueue]
  dsimp only
  rw [state]

end Intake

/-! ### The pins (R17, R133) -/

section Levels

variable {s : State} {o : Output}

theorem pinLevel_eq (pol : Polarity) (active : Bool) :
    pinLevel pol active = if pol = .normal then active else !active := by cases pol <;> rfl

theorem pins_of_held {p : Pins} (h : (s.sq o).held = some p) : s.pins o = p := by
  unfold State.pins
  rw [h]

/-- The pins of an output that is not held follow what its line and its burst make active. -/
theorem pins_of_not_held (h : (s.sq o).held = none) : s.pins o
    = ⟨pinLevel (s.sq o).polarity (activePins (s.sq o) (s.geom o) (s.burst o)).fs,
       pinLevel (s.sq o).polarity (activePins (s.sq o) (s.geom o) (s.burst o)).ls,
       pinLevel (s.sq o).polarity (activePins (s.sq o) (s.geom o) (s.burst o)).win,
       pinLevel (s.sq o).polarity (activePins (s.sq o) (s.geom o) (s.burst o)).stb⟩ := by
  unfold State.pins
  rw [h]

theorem activePins_of_rest {r : OutRec} {g : Geometry} {b : Option Burst} (h : r.runs = false) :
    activePins r g b = ⟨false, false, false, false⟩ := by
  unfold activePins
  rw [if_neg (by rw [h]; exact nofun)]

theorem activePins_of_runs {r : OutRec} {g : Geometry} {b : Option Burst} (h : r.runs = true) : activePins r g b
    = { fs := decide (r.phase = 0 ∧ r.line < g.fsw)
        ls := decide (r.tick < g.lsw)
        win := decide (r.phase = 0 ∧ g.ws ≤ r.line ∧ r.line < g.ws + g.wh)
        stb := decide (b.map Burst.phase = some .on) } := by
  unfold activePins OutRec.emitted
  rw [if_pos h]
  congr 1
  · simp [Bool.beq_eq_decide_eq]
  · simp [Bool.beq_eq_decide_eq, Bool.and_assoc]
  · cases b with
    | none => rfl
    | some b => simp [Bool.beq_eq_decide_eq]

/-- Settles O35: an inner line start by its line, and the pins by the state of the output. -/
theorem lineStartIntakeAndPins : Obligations.LineStartIntakeAndPins := by
  unfold Obligations.LineStartIntakeAndPins
  refine ⟨fun s o => ⟨fun due more inner early => ?_, exec_of_not_due⟩, fun s o => ?_,
    fun s o due third more => ?_⟩
  · have w := exec_lineStart_of_due due more
    rw [lineStart_of_no_cut early, nextLine_eq, if_neg inner] at w
    refine ⟨fun none => ?_, fun b b' burst on => ?_, fun b b' burst ends => ?_⟩
    · rw [w, lineReaches_of_none (by rw [State.burst_setSq]; exact none)]
    · rw [w, lineReaches_of_runsOn (by rw [State.burst_setSq]; exact burst) (by rw [State.sq_setSq_self]; exact on)]
    · rw [w, lineReaches_of_completes (by rw [State.burst_setSq]; exact burst)
        (by rw [State.sq_setSq_self]; exact ends), State.sq_setSq_self]
  · intro r g level
    refine ⟨fun free runs => ?_, fun free running stopping => ?_, fun p held => pins_of_held held⟩
    · rw [pins_of_not_held free, activePins_of_runs ((runs_iff _).mpr runs)]
      simp only [pinLevel_eq]
      rfl
    · have rest : (s.sq o).runs = false :=
        Bool.eq_false_iff.mpr fun runs => ((runs_iff _).mp runs).elim running stopping
      rw [pins_of_not_held free, activePins_of_rest rest]
      simp only [pinLevel_eq]
      rfl
  · have w := exec_lineStart_of_due due (by rw [third]; exact more)
    have fourth : (s.sq o).line + 1 = 4 := by rw [third]
    rw [lineStart_of_no_cut (.inr (by omega)), nextLine_eq, if_pos fourth, fourth] at w
    intro r u
    have record : u.sq o = r := by rw [(lineReaches_frame _ o).1, State.sq_setSq_self]
    have queue : u.queue o = s.queue o := by rw [queue_lineReaches, State.queue_setSq]
    have one : OneOutput o s u := ((OneOutput.refl o s).setSq r).lineReaches
    have live : (u.sq o).runs = true := by rw [record]; exact runs_of_due due
    refine ⟨fun empty => ?_, fun e rest h state => ?_, fun k origin pid rest h => ?_, fun origin pid rest h state => ?_⟩
    · rw [w, intake_of_empty (u := u) (queue.trans empty)]
    · rw [w, intake_of_other (u := u) (queue.trans h) state]
    · rw [w, intake_of_change (u := u) (queue.trans h) live, record]
      have slot : u.slot k = s.slot k := slot_lineReaches k
      unfold State.addRef
      rw [State.slot_setQueue, slot]
      rfl
    · refine handedOn_leftRunning ?_
      rw [w, intake_of_stop (u := u) (queue.trans h) (by rw [record]; exact state), record, one.holders]
      rfl

end Levels

end Sys2Proof.BoundaryProofs
end

section
/-! FRAME_BOUNDARY (chapters 2 and 3): the frame that goes on, the swap of the profile, the stop and the cut, in the words
of the statements. -/

namespace Sys2Proof.BoundaryProofs

open Machine Laws MachineProofs SettingProofs ReleaseProofs FrameProofs

/-! ### The frame that ends (R25, R26) -/

section Ended

variable {s : State} {o : Output}

theorem completeFrame_eq (s : State) (o : Output) (cut : Bool) :
    completeFrame s o cut = frameReported s o ((s.sq o).status.complete cut) := by
  have told (c : ClaimRec) (st : FrameStatus) : reportTo c st = (c.holders.filter fun h =>
      h.level == .all || h.level == .irregular && (st.base != .settled || st.degraded)).map Holder.master := by
    unfold reportTo
    refine congrArg _ (List.filter_congr fun h _ => ?_)
    cases h.level <;> rfl
  unfold completeFrame frameReported OutRec.emitted
  simp only [told, beq_iff_eq]

theorem sq_frameReported (s : State) (o : Output) (st : FrameStatus) : (frameReported s o st).sq o
    = { s.sq o with last := if (s.sq o).phase = 0 then some ⟨(s.sq o).frameNo, st⟩ else (s.sq o).last } := by
  unfold frameReported
  split
  next => rw [State.sq_handAll, State.sq_setSq_self]
  next => rfl

theorem queue_frameReported (st : FrameStatus) : (frameReported s o st).queue o = s.queue o := by
  unfold frameReported
  split <;> simp

theorem burst_frameReported (st : FrameStatus) : (frameReported s o st).burst o = s.burst o := by
  unfold frameReported
  split <;> simp

theorem slot_frameReported (st : FrameStatus) (k : Slot) : (frameReported s o st).slot k = s.slot k := by
  unfold frameReported
  split <;> simp

theorem tbu_frameReported (st : FrameStatus) : (frameReported s o st).tbu = s.tbu :=
  ((OneOutput.refl o s).frameReported st).tbu

theorem geom_frameReported (st : FrameStatus) : (frameReported s o st).geom o = s.geom o := by
  unfold State.geom
  rw [sq_frameReported]
  dsimp only
  cases (s.sq o).current with
  | none => rfl
  | some k => exact congrArg SlotRec.geom (slot_frameReported st k)

/-- An emitted frame that ends, where its record is written anew at once. -/
theorem frameReported_setSq_of_emitted {st : FrameStatus} {r : OutRec} (h : (s.sq o).phase = 0) :
    (frameReported s o st).setSq o r
      = (s.handAll (((s.claim (.out o)).holders.filter fun h =>
          h.level == .all || h.level == .irregular && (st.base != .settled || st.degraded)).map Holder.master)
          (.frameEnd o (s.sq o).frameNo st)).setSq o r := by
  unfold frameReported
  rw [if_pos h, handAll_setSq, State.setSq_setSq]

theorem frameReported_of_silent {st : FrameStatus} (h : (s.sq o).phase ≠ 0) : frameReported s o st = s := if_neg h

end Ended

/-! ### The frame that goes on (R20, R27) -/

section GoesOn

variable {s : State} {o : Output}

theorem frameBoundary_of_none_taken (cut : (s.sq o).cut = none) (state : (s.sq o).state = .running)
    (none : takenChange (s.queue o) = none) : frameBoundary s o = frameGoesOn s o := by
  unfold frameBoundary
  rw [cut]
  dsimp only
  rw [if_neg (by rw [state]; exact nofun), none]

theorem frameBoundary_of_taken {k : Slot} (cut : (s.sq o).cut = none) (state : (s.sq o).state = .running)
    (taken : takenChange (s.queue o) = some k) : frameBoundary s o = profileSwap s o k := by
  unfold frameBoundary
  rw [cut]
  dsimp only
  rw [if_neg (by rw [state]; exact nofun), taken]

theorem takenChange_of_head (h : ∀ e, (s.queue o).head? = some e → e.state ≠ .taken) : takenChange (s.queue o) = none := by
  cases queue : s.queue o with
  | nil => rfl
  | cons e rest =>
    have state := h e (by rw [queue]; rfl)
    unfold takenChange
    dsimp only
    split
    next taken _ => exact absurd taken state
    next => rfl

/-- The next frame of the output begins, and its line start reaches the burst. -/
theorem frameGoesOn_eq (s : State) (o : Output) : frameGoesOn s o
    = if ((s.sq o).phase + 1) % (s.geom o).fd = 0 then
        emittedStart (lineReaches ((frameReported s o (s.sq o).status).setSq o
          (((frameReported s o (s.sq o).status).sq o).beginFrame (((s.sq o).phase + 1) % (s.geom o).fd) s.tbu.fail)) o) o
      else lineReaches ((frameReported s o (s.sq o).status).setSq o
          (((frameReported s o (s.sq o).status).sq o).beginFrame (((s.sq o).phase + 1) % (s.geom o).fd) s.tbu.fail)) o := by
  have completed : completeFrame s o false = frameReported s o (s.sq o).status := completeFrame_eq s o false
  unfold frameGoesOn
  dsimp only
  rw [completed, geom_frameReported, tbu_frameReported, strobeLine_eq, (lineReaches_frame _ o).1, State.sq_setSq_self]
  have phase : ((frameReported s o (s.sq o).status).sq o).phase = (s.sq o).phase := by rw [sq_frameReported]
  rw [phase]
  unfold OutRec.emitted OutRec.beginFrame
  simp only [beq_iff_eq]

/-- Settles O36: an emitted frame is handed on, a silent one is not. -/
theorem frameBoundaryGoesOn : Obligations.FrameBoundaryGoesOn := by
  unfold Obligations.FrameBoundaryGoesOn
  intro s o due state last cut head r phase told next u
  have w := exec_frameBoundary_of_due due last
  rw [frameBoundary_of_none_taken cut state (takenChange_of_head head), frameGoesOn_eq] at w
  have begun : ((frameReported s o r.status).sq o).beginFrame phase s.tbu.fail
      = next (if r.phase = 0 then some ⟨r.frameNo, r.status⟩ else r.last) := by
    rw [sq_frameReported]
    rfl
  have emitted (h : phase = 0) : exec (.frameBoundary o) s = .next (emittedStart u o) := by
    rw [w, if_pos h]
    exact congrArg (fun x => Host.Outcome.next (emittedStart (lineReaches (State.setSq _ o x) o) o)) begun
  have silent (h : phase ≠ 0) : exec (.frameBoundary o) s = .next u := by
    rw [w, if_neg h]
    exact congrArg (fun x => Host.Outcome.next (lineReaches (State.setSq _ o x) o)) begun
  have one : OneOutput o s u := (((OneOutput.refl o s).frameReported _).setSq _).lineReaches
  have running : (u.sq o).state = .running := by
    rw [(lineReaches_frame _ o).1, State.sq_setSq_self]
    exact state
  have goes (still : Undisturbed s) : exec (.frameBoundary o) s = .next u := by
    by_cases h : phase = 0
    · rw [emitted h, emittedStart_of_undisturbed (one.undisturbed still (by rw [running]; exact nofun))]
    · exact silent h
  have alone (none : s.burst o = none) : u
      = (frameReported s o r.status).setSq o (next (if r.phase = 0 then some ⟨r.frameNo, r.status⟩ else r.last)) :=
    lineReaches_of_none (by rw [State.burst_setSq, burst_frameReported]; exact none)
  refine ⟨fun still none h => ?_, fun still none h => ?_, goes, silent, fun h => handedOn_emittedStart (emitted h)⟩
  · rw [goes still, alone none, frameReported_setSq_of_emitted h, if_pos h]
  · rw [goes still, alone none, frameReported_of_silent h, if_neg h]

end GoesOn

/-! ### The swap of the profile (R54, R138) -/

section Swap

variable {s : State} {o : Output} {k old : Slot} {origin : Option (Master × Byte)} {pid : Option Nat} {rest : List Entry}

/-- The record of an output whose frame has ended and which begins on slot `k`. -/
def swapRecord (s : State) (o : Output) (k : Slot) : OutRec :=
  { s.sq o with
    current := some k, next := none, phase := 0, line := 0, tick := 0, lineEnd := false,
    status := ⟨.settled, s.tbu.fail, false⟩, frameNo := (s.sq o).frameNo + 1,
    last := if (s.sq o).phase = 0 then some ⟨(s.sq o).frameNo, (s.sq o).status⟩ else (s.sq o).last,
    polarity := (s.sq o).pendingPol.getD (s.sq o).polarity, pendingPol := none }

/-- The swap from `old` to `k` by the TAKEN entry `e`, before the line start. -/
def swapped (s : State) (o : Output) (k old : Slot) (e : Entry) (rest : List Entry) : State :=
  entriesGo o .applied ((((((frameReported s o (s.sq o).status).addRef k).dropRef old).dropRef k).setSq o
    (swapRecord s o k)).setQueue o rest) [e]

theorem oneOutput_swapped (e : Entry) : OneOutput o s (swapped s o k old e rest) :=
  (((((((OneOutput.refl o s).frameReported _).addRef k).dropRef old).dropRef k).setSq _).setQueue rest).entriesGo _ _

theorem sq_swapped (e : Entry) : (swapped s o k old e rest).sq o = swapRecord s o k := by
  unfold swapped
  rw [(quiet_entriesGo _ _ _ _).sq, State.sq_setQueue, State.sq_setSq_self]

theorem queue_swapped (e : Entry) : (swapped s o k old e rest).queue o = rest := by
  unfold swapped
  rw [(quiet_entriesGo _ _ _ _).queue, State.queue_setQueue_self]

theorem burst_swapped (e : Entry) : (swapped s o k old e rest).burst o = s.burst o := by
  unfold swapped
  rw [(quiet_entriesGo _ _ _ _).burst]
  simp [burst_frameReported]

theorem geom_swapped (e : Entry) : (swapped s o k old e rest).geom o = (s.slot k).geom := by
  unfold State.geom
  rw [sq_swapped]
  exact (oneOutput_swapped e).geomOf k

/-- The frame ends, the references move, and the TAKEN entry leaves before the line start. -/
theorem profileSwap_eq (queue : s.queue o = ⟨.change k, origin, .taken, pid⟩ :: rest) (others : ∀ e ∈ rest, e.state ≠ .taken)
    (next : (s.sq o).next = some k) (current : (s.sq o).current = some old) : profileSwap s o k
      = emittedStart (strobeSwap (swapped s o k old ⟨.change k, origin, .taken, pid⟩ rest) o) o := by
  have none : rest.filter Entry.isTaken = [] :=
    List.filter_eq_nil_iff.mpr fun e he => by rw [Entry.isTaken, beq_eq_false_iff_ne.mpr (others e he)]; exact nofun
  have all : (rest.filter fun e => !e.isTaken) = rest :=
    List.filter_eq_self.mpr fun e he => by rw [Entry.isTaken, beq_eq_false_iff_ne.mpr (others e he)]; rfl
  have completed : completeFrame s o false = frameReported s o (s.sq o).status := completeFrame_eq s o false
  unfold profileSwap removeEntries clearNext
  dsimp only
  rw [completed, entriesGo_eq]
  simp only [State.sq_addRef, State.sq_dropRefOpt, State.sq_setSq_self, State.setSq_setSq, State.queue_setSq, State.queue_addRef, State.queue_dropRefOpt,
    queue_frameReported, queue, sq_frameReported, next, current, State.setSq_tbu, State.dropRefOpt_tbu, State.addRef_tbu,
    tbu_frameReported]
  have removed : ((⟨.change k, origin, .taken, pid⟩ :: rest : List Entry).filter fun e => !e.isTaken) = rest := all
  have leaving : (⟨.change k, origin, .taken, pid⟩ :: rest : List Entry).filter Entry.isTaken
      = [⟨.change k, origin, .taken, pid⟩] := congrArg (List.cons _) none
  rw [removed, leaving]
  rfl

theorem refs_addRef (s : State) (k j : Slot) :
    ((s.addRef k).slot j).refs = if j = k then (s.slot j).refs + 1 else (s.slot j).refs := by
  unfold State.addRef
  by_cases e : j = k
  · subst e; rw [State.slot_setSlot_self, if_pos rfl]
  · rw [State.slot_setSlot_ne _ _ e, if_neg e]

theorem refs_dropRef (s : State) (k j : Slot) :
    ((s.dropRef k).slot j).refs = if j = k then (s.slot j).refs - 1 else (s.slot j).refs := by
  unfold State.dropRef
  by_cases e : j = k
  · subst e; rw [State.slot_setSlot_self, if_pos rfl]
  · rw [State.slot_setSlot_ne _ _ e, if_neg e]

/-- The new slot gains current's reference and loses next's and the entry's; the former one loses its own. -/
theorem refs_swapped (j : Slot) : ((swapped s o k old ⟨.change k, origin, .taken, pid⟩ rest).slot j).refs
    = ((((((s.addRef k).dropRef old).dropRef k).dropRef k)).slot j).refs := by
  have moved : ((swapped s o k old ⟨.change k, origin, .taken, pid⟩ rest).slot j).refs
      = ((((((frameReported s o (s.sq o).status).addRef k).dropRef old).dropRef k).dropRef k).slot j).refs := by
    unfold swapped entriesGo
    rw [List.foldl_cons, List.foldl_nil, State.slot_handAll]
    rfl
  rw [moved]
  simp only [refs_dropRef, refs_addRef, slot_frameReported]

section Burst

variable {b : Burst} {e : Entry}

theorem strobeSwap_of_passes (burst : s.burst o = some b) (duty : ¬TooLong (s.slot k).geom b.pattern)
    (line : ¬Beyond (s.slot k).geom b.pattern) :
    strobeSwap (swapped s o k old e rest) o = lineReaches (swapped s o k old e rest) o := by
  unfold strobeSwap
  rw [burst_swapped, burst]
  dsimp only
  rw [geom_swapped, (dutyOk_iff _ _).mpr duty, (lineOk_iff _ _).mpr line, strobeLine_eq]
  rfl

theorem strobeSwap_of_fails (burst : s.burst o = some b)
    (fails : TooLong (s.slot k).geom b.pattern ∨ Beyond (s.slot k).geom b.pattern) :
    strobeSwap (swapped s o k old e rest) o = burstEnds (swapped s o k old e rest) o .duty := by
  have bad : (dutyOk b.pattern (s.slot k).geom && lineOk b.pattern (s.slot k).geom) = false :=
    Bool.eq_false_iff.mpr fun both => by
      obtain ⟨duty, line⟩ := Bool.and_eq_true_iff.mp both
      exact fails.elim ((dutyOk_iff _ _).mp duty) ((lineOk_iff _ _).mp line)
  unfold strobeSwap burstEnds
  rw [burst_swapped, burst]
  dsimp only
  rw [geom_swapped, if_neg (by rw [bad]; exact nofun)]
  rfl

end Burst

/-- Settles O37: the swap, then what the line start finds of the burst under the new profile. -/
theorem profileSwapAtTheBoundary : Obligations.ProfileSwapAtTheBoundary := by
  unfold Obligations.ProfileSwapAtTheBoundary
  intro s o k old origin pid rest due state last cut queue others next current r swap passes
  have w := exec_frameBoundary_of_due due last
  rw [frameBoundary_of_taken (k := k) cut state (by rw [queue]; rfl), profileSwap_eq queue others next current] at w
  have same : swap = swapped s o k old ⟨.change k, origin, .taken, pid⟩ rest := rfl
  rw [← same] at w
  have one : OneOutput o s swap := oneOutput_swapped _
  have record : swap.sq o = r := sq_swapped _
  have burst : swap.burst o = s.burst o := burst_swapped _
  have runs : r.state ≠ .waiting := by
    show (s.sq o).state ≠ .waiting
    rw [state]
    exact nofun
  have meets (p : Pattern) : passes p ↔ ¬TooLong (s.slot k).geom p ∧ ¬Beyond (s.slot k).geom p := by
    cases p with
    | timed => exact ⟨fun h => ⟨Nat.not_lt.mpr h, id⟩, fun h => Nat.not_lt.mp h.1⟩
    | continuous => exact ⟨fun h => ⟨Nat.not_lt.mpr h, id⟩, fun h => Nat.not_lt.mp h.1⟩
    | perFrame => exact ⟨fun h => ⟨Nat.not_lt.mpr h.1, Nat.not_le.mpr h.2⟩, fun h => ⟨Nat.not_lt.mp h.1, Nat.not_le.mp h.2⟩⟩
  have alone (none : s.burst o = none) : exec (.frameBoundary o) s = .next (emittedStart swap o) := by
    rw [w, strobeSwap_of_none (burst.trans none)]
  have reached {b : Burst} (some : s.burst o = some b) (pass : passes b.pattern) :
      exec (.frameBoundary o) s = .next (emittedStart (lineReaches swap o) o) := by
    obtain ⟨duty, line⟩ := (meets _).mp pass
    rw [w, same, strobeSwap_of_passes some duty line]
  have ended {b : Burst} (some : s.burst o = some b) (fail : ¬passes b.pattern) :
      exec (.frameBoundary o) s = .next (emittedStart (burstEnds swap o .duty) o) := by
    have fails : TooLong (s.slot k).geom b.pattern ∨ Beyond (s.slot k).geom b.pattern := by
      by_contra h
      exact fail ((meets _).mpr (not_or.mp h))
    rw [w, same, strobeSwap_of_fails some fails]
  have refs (j : Slot) := refs_swapped (s := s) (o := o) (k := k) (old := old) (origin := origin) (pid := pid) (rest := rest) j
  simp only [refs_dropRef, refs_addRef] at refs
  refine ⟨fun still none => ⟨swap, ?_, rfl, record, queue_swapped _, burst.trans none, one.chans, fun ne => ?_,
      fun ne => ?_, fun e => ?_, one.slots, fun j hk ho => ?_, one.notices, one.rest⟩,
    fun b still some pass => ?_, fun b still some fail => ?_, fun none => handedOn_emittedStart (alone none),
    fun b some pass => handedOn_emittedStart (reached some pass),
    fun b some fail => handedOn_emittedStart (ended some fail)⟩
  · rw [alone none, emittedStart_of_undisturbed (one.undisturbed still (by rw [record]; exact runs))]
  · rw [same, refs, if_pos rfl, if_pos rfl, if_neg ne, if_pos rfl]
    omega
  · rw [same, refs, if_neg (Ne.symm ne), if_neg (Ne.symm ne), if_pos rfl, if_neg (Ne.symm ne)]
  · subst e
    rw [same, refs, if_pos rfl, if_pos rfl, if_pos rfl, if_pos rfl]
    omega
  · rw [one.slots j, same, refs, if_neg hk, if_neg hk, if_neg ho, if_neg hk]
  · rw [reached some pass, emittedStart_of_undisturbed (one.lineReaches.undisturbed still ?_)]
    rw [(lineReaches_frame _ o).1, record]
    exact runs
  · rw [ended some fail, emittedStart_of_undisturbed ((one.burstEnds .duty).undisturbed still ?_)]
    rw [(burstEnds_frame _ o _).1, record]
    exact runs

end Swap

end Sys2Proof.BoundaryProofs
end

section
/-! FRAME_BOUNDARY in STOPPING, and the cut that takes effect (chapter 3): what leaves the queue, and in which order. -/

namespace Sys2Proof.BoundaryProofs

open Machine Laws MachineProofs SettingProofs ReleaseProofs FrameProofs

/-! ### What leaves the queue (R45, R46, R53, R57) -/

section Leaving

variable {s : State} {o : Output}

theorem setQueue_entriesGo (c : ChangeOutcome) (q : List Entry) (es : List Entry) (s : State) :
    (entriesGo o c s es).setQueue o q = entriesGo o c (s.setQueue o q) es := by
  unfold entriesGo
  induction es generalizing s with
  | nil => rfl
  | cons e es ih =>
    rw [List.foldl_cons, List.foldl_cons, ih]
    refine congrArg (fun u => List.foldl _ u es) ?_
    cases e.kind with
    | change k =>
      show State.setQueue (State.handAll _ _ _) _ _ = State.handAll ((s.dropRef k).setQueue o q) _ _
      rw [handAll_setQueue]
      simp [State.holders]
    | stop =>
      show State.setQueue (State.handAll _ _ _) _ _ = State.handAll (s.setQueue o q) _ _
      rw [handAll_setQueue]
      simp [State.holders]

/-- TAKEN entries leave first, then QUEUED ones; a RESERVED one stays. -/
theorem removeEntries_taken_queued (a b : ChangeOutcome) :
    removeEntries (removeEntries s o Entry.isTaken a) o Entry.isQueued b
      = entriesGo o b (entriesGo o a (s.setQueue o ((s.queue o).filter fun e => e.state == .reserved))
          ((s.queue o).filter fun e => e.state == .taken)) ((s.queue o).filter fun e => e.state == .queued) := by
  have kept : ((s.queue o).filter fun e => !e.isTaken).filter (fun e => !e.isQueued)
      = (s.queue o).filter fun e => e.state == .reserved := by
    rw [List.filter_filter]
    refine List.filter_congr fun e _ => ?_
    unfold Entry.isTaken Entry.isQueued
    cases e.state <;> rfl
  have leaving : ((s.queue o).filter fun e => !e.isTaken).filter Entry.isQueued
      = (s.queue o).filter fun e => e.state == .queued := by
    rw [List.filter_filter]
    refine List.filter_congr fun e _ => ?_
    unfold Entry.isTaken Entry.isQueued
    cases e.state <;> rfl
  unfold removeEntries
  rw [entriesGo_eq, entriesGo_eq, queue_entriesGo, State.queue_setQueue_self, kept, leaving, setQueue_entriesGo,
    State.setQueue_setQueue]
  rfl

end Leaving

/-! ### The stop (R53) -/

section Stop

variable {s : State} {o : Output}

theorem frameBoundary_of_stopping (cut : (s.sq o).cut = none) (state : (s.sq o).state = .stopping) :
    frameBoundary s o = stopTakesEffect s o := by
  unfold frameBoundary
  rw [cut]
  exact if_pos state

theorem endBurst_eq {c : BurstOutcome} (own : ∀ b, burstRecipients s o b c = [b.origin]) :
    endBurst s o c = burstEnds s o c := by
  unfold endBurst burstEnds
  cases s.burst o with
  | none => rfl
  | some b =>
    show finishBurst s o b c = _
    unfold finishBurst
    rw [own]
    rfl

theorem burst_burstEnds (c : BurstOutcome) : (burstEnds s o c).burst o = none := by
  unfold burstEnds
  split
  next h => exact h
  next => rw [State.burst_hand, State.burst_setBurst_self]

theorem queue_burstEnds (c : BurstOutcome) : (burstEnds s o c).queue o = s.queue o := by
  unfold burstEnds
  split <;> simp

/-- Settles O38: the frame is reported, the entries leave, the burst ends, and the holders are told last. -/
theorem stopTakesEffectAtTheBoundary : Obligations.StopTakesEffectAtTheBoundary := by
  unfold Obligations.StopTakesEffectAtTheBoundary
  intro s o due state last cut r
  have w := exec_frameBoundary_of_due due last
  rw [frameBoundary_of_stopping cut state] at w
  have completed : completeFrame s o false = frameReported s o (s.sq o).status := completeFrame_eq s o false
  unfold stopTakesEffect at w
  dsimp only at w
  rw [completed, removeEntries_taken_queued, queue_frameReported, endBurst_eq (fun _ => rfl)] at w
  generalize cleared : entriesGo o .discarded _ _ = v at w ⊢
  have one : OneOutput o s v := by
    rw [← cleared]
    exact ((((OneOutput.refl o s).frameReported _).setQueue _).entriesGo _ _).entriesGo _ _
  have record : (burstEnds v o .stopped).sq o
      = { s.sq o with last := if (s.sq o).phase = 0 then some ⟨(s.sq o).frameNo, (s.sq o).status⟩ else (s.sq o).last } := by
    rw [(burstEnds_frame v o _).1, ← cleared, (quiet_entriesGo _ _ _ _).sq, (quiet_entriesGo _ _ _ _).sq,
      State.sq_setQueue, sq_frameReported]
  have rests : setOutState ((burstEnds v o .stopped).setSq o ((burstEnds v o .stopped).sq o).toRest) o .bound
      = ((burstEnds v o .stopped).setSq o r).handAll (s.holders (.out o)) (.outputState o .stopping .bound (s.sq o).frameNo) := by
    unfold setOutState outputNotice
    rw [State.sq_setSq_self, State.setSq_setSq, State.sq_setSq_self, ((one.burstEnds .stopped).setSq _).holders, record]
    unfold OutRec.toRest OutRec.applyPolarity
    dsimp only
    rw [state]
    rfl
  rw [rests] at w
  have whole := ((one.burstEnds .stopped).setSq r).handAll (s.holders (.out o))
    (.outputState o .stopping .bound (s.sq o).frameNo)
  refine ⟨_, w, rfl, ?_, ?_, ?_, whole.chans, whole.slots, whole.notices, whole.rest⟩
  · rw [State.sq_handAll, State.sq_setSq_self]
  · rw [State.queue_handAll, State.queue_setSq, queue_burstEnds, ← cleared, queue_entriesGo, queue_entriesGo,
      State.queue_setQueue_self]
  · rw [State.burst_handAll, State.burst_setSq, burst_burstEnds]

end Stop

/-! ### The cut (R57, R58) -/

section Cut

variable {s : State} {o : Output} {c : PendingCut}

theorem lineEnd_of_cut {i : Instr} (due : LineDue s o) (cut : (s.sq o).cut = some c)
    (h : i = .lineStart o ∧ 16 ≤ (s.sq o).line + 1 ∧ (s.sq o).line + 1 < (s.geom o).lf
      ∨ i = .frameBoundary o ∧ (s.geom o).lf ≤ (s.sq o).line + 1) : exec i s = .next (cutFrame s o c) := by
  rcases h with ⟨rfl, reached, more⟩ | ⟨rfl, last⟩
  · rw [exec_lineStart_of_due due more]
    unfold lineStart
    rw [cut]
    exact congrArg _ (if_pos reached)
  · rw [exec_frameBoundary_of_due due last]
    unfold frameBoundary
    rw [cut]

/-- The record of an output whose frame a cut has ended and which begins on the cut's slot. -/
def cutRecord (s : State) (o : Output) (c : PendingCut) : OutRec :=
  { s.sq o with
    state := .running, current := some c.slot, next := none, cut := none, phase := 0, line := 0, tick := 0,
    lineEnd := false, status := ⟨.settled, s.tbu.fail, false⟩, frameNo := (s.sq o).frameNo + 1,
    last := if (s.sq o).phase = 0 then some ⟨(s.sq o).frameNo, { (s.sq o).status with base := .cut }⟩ else (s.sq o).last,
    polarity := (s.sq o).pendingPol.getD (s.sq o).polarity, pendingPol := none }

/-- The frame a cut ended is reported, the references have moved, and the new frame has begun. -/
def restarted (s : State) (o : Output) (c : PendingCut) : State :=
  ((((frameReported s o { (s.sq o).status with base := .cut }).dropRefOpt (s.sq o).next).addRef c.slot).dropRefOpt
    (s.sq o).current).setSq o (cutRecord s o c)

/-- The queue is cleared at a cut: all but a RESERVED entry leave SUPERSEDED. -/
def cutCleared (s : State) (o : Output) (c : PendingCut) : State :=
  entriesGo o .superseded (entriesGo o .superseded
    ((restarted s o c).setQueue o ((s.queue o).filter fun e => e.state == .reserved))
    ((s.queue o).filter fun e => e.state == .taken)) ((s.queue o).filter fun e => e.state == .queued)

/-- The line start at a cut, and the CHANGE_DONE and OUTPUT_STATE that follow it. -/
def cutTold (s : State) (o : Output) (c : PendingCut) : State :=
  let told := (lineReaches (cutCleared s o c) o).handAll (withOrigin (s.holders (.out o)) (some c.origin))
    (.changeDone o (.cut c.slot) (some (c.origin, c.tag)) none ((s.sq o).frameNo + 1) .applied)
  if (s.sq o).state = .stopping then
    told.handAll (s.holders (.out o)) (.outputState o .stopping .running ((s.sq o).frameNo + 1)) else told

theorem oneOutput_cutCleared : OneOutput o s (cutCleared s o c) :=
  (((((((OneOutput.refl o s).frameReported _).dropRefOpt _).addRef _).dropRefOpt _).setSq _).setQueue _).entriesGo _ _
    |>.entriesGo _ _

theorem oneOutput_cutTold : OneOutput o s (cutTold s o c) := by
  unfold cutTold
  dsimp only
  split
  · exact (oneOutput_cutCleared.lineReaches.handAll _ _).handAll _ _
  · exact oneOutput_cutCleared.lineReaches.handAll _ _

theorem sq_cutCleared : (lineReaches (cutCleared s o c) o).sq o = cutRecord s o c := by
  unfold cutCleared restarted
  rw [(lineReaches_frame _ o).1, (quiet_entriesGo _ _ _ _).sq, (quiet_entriesGo _ _ _ _).sq, State.sq_setQueue,
    State.sq_setSq_self]

theorem sq_cutTold : (cutTold s o c).sq o = cutRecord s o c := by
  unfold cutTold
  dsimp only
  split
  · rw [State.sq_handAll, State.sq_handAll, sq_cutCleared]
  · rw [State.sq_handAll, sq_cutCleared]

theorem queue_cutTold : (cutTold s o c).queue o = (s.queue o).filter fun e => e.state == .reserved := by
  have cleared : (lineReaches (cutCleared s o c) o).queue o = (s.queue o).filter fun e => e.state == .reserved := by
    unfold cutCleared
    rw [queue_lineReaches, queue_entriesGo, queue_entriesGo, State.queue_setQueue_self]
  unfold cutTold
  dsimp only
  split
  · rw [State.queue_handAll, State.queue_handAll, cleared]
  · rw [State.queue_handAll, cleared]

theorem addRef_setSq (s : State) (o : Output) (r : OutRec) (k : Slot) :
    (s.setSq o r).addRef k = (s.addRef k).setSq o r := rfl

theorem dropRefOpt_setSq (s : State) (o : Output) (r : OutRec) (k : Option Slot) :
    (s.setSq o r).dropRefOpt k = (s.dropRefOpt k).setSq o r := by cases k <;> rfl

/-- The new frame of a cut, up to the entries that leave. -/
theorem restarted_eq (s : State) (o : Output) (c : PendingCut) :
    restarted s o c
      = let v := clearNext (completeFrame s o true) o
        let v := (v.addRef c.slot).dropRefOpt (v.sq o).current
        v.setSq o (({ v.sq o with state := .running, current := some c.slot, cut := none }).beginFrame 0 v.tbu.fail) := by
  have completed : completeFrame s o true = frameReported s o { (s.sq o).status with base := .cut } :=
    completeFrame_eq s o true
  unfold restarted clearNext
  dsimp only
  rw [completed]
  simp only [State.sq_dropRefOpt, State.sq_setSq_self, addRef_setSq, dropRefOpt_setSq, State.setSq_setSq,
    sq_frameReported, State.setSq_tbu, State.dropRefOpt_tbu, State.addRef_tbu, tbu_frameReported]
  rfl

/-- A cut that takes effect, before its emitted frame start is handed on. -/
theorem cutFrame_eq (s : State) (o : Output) (c : PendingCut) : cutFrame s o c = emittedStart (cutTold s o c) o := by
  have queue : (restarted s o c).queue o = s.queue o := by
    unfold restarted
    simp [queue_frameReported]
  have cleared : removeEntries (removeEntries (restarted s o c) o Entry.isTaken .superseded) o Entry.isQueued .superseded
      = cutCleared s o c := by
    rw [removeEntries_taken_queued, queue]
    rfl
  have one : OneOutput o s (lineReaches (cutCleared s o c) o) := oneOutput_cutCleared.lineReaches
  have told : changeDone (lineReaches (cutCleared s o c) o) o (.cut c.slot) (some (c.origin, c.tag)) none .applied
      = (lineReaches (cutCleared s o c) o).handAll (withOrigin (s.holders (.out o)) (some c.origin))
          (.changeDone o (.cut c.slot) (some (c.origin, c.tag)) none ((s.sq o).frameNo + 1) .applied) := by
    unfold changeDone
    rw [one.holders, sq_cutCleared]
    rfl
  unfold cutFrame
  dsimp only
  have begun := restarted_eq s o c
  dsimp only at begun
  rw [← begun, cleared, strobeLine_eq, told]
  unfold cutTold
  by_cases state : (s.sq o).state = .stopping
  · rw [if_pos (by rw [state]; rfl), if_pos state]
    unfold outputNotice
    rw [State.sq_handAll, sq_cutCleared, (one.handAll _ _).holders]
    rfl
  · rw [if_neg (by rw [beq_eq_false_iff_ne.mpr state]; exact nofun), if_neg state]

/-- Settles O39: the state `cutTold` is reached, and the frame start is handed on from it. -/
theorem cutTakesEffect : Obligations.CutTakesEffect := by
  unfold Obligations.CutTakesEffect
  intro s o c i due cut kind completed r restart cleared told cutDone
  have w := lineEnd_of_cut due cut kind
  rw [cutFrame_eq] at w
  have same : cutDone = cutTold s o c := rfl
  have one : OneOutput o s cutDone := oneOutput_cutTold
  have record : cutDone.sq o = r := sq_cutTold
  refine ⟨fun still => ⟨_, ?_, rfl, record, queue_cutTold, one.chans, one.slots, one.notices, one.rest⟩,
    handedOn_emittedStart w⟩
  rw [w, ← same, emittedStart_of_undisturbed (one.undisturbed still (by rw [record]; exact nofun))]

end Cut

end Sys2Proof.BoundaryProofs
end

section
/-! What the Timebase Unit's events leave as it was (chapter 6): the notices, the output records, the unit itself and the
gates change, and nothing else (`UnitOnly`); and what a completion, a failure and the entry to LOST do to each output. -/

namespace Sys2Proof.TimebaseProofs

open Machine Laws VoteProofs StartProofs SettingProofs

/-! ### The frame of the unit's events -/

/-- From `s` to `t` the Timebase Unit, the gates, the output channels and the notices change. -/
structure UnitOnly (s t : State) : Prop where
  notices : OnlyNotices s t
  rest : t = { s with links := t.links, masters := t.masters, chans := t.chans, tbu := t.tbu, da := t.da, db := t.db }

/-- Every output record is written anew, from a table of records. -/
def writeAll (g : Output → OutRec) (s : State) : State := allOutputs.foldl (fun u o => u.setSq o (g o)) s

theorem chan_writeAll (g : Output → OutRec) (s : State) (o : Output) :
    (writeAll g s).chan o = { s.chan o with sq := g o } := chan_mapSq s (fun _ o => g o) o fun _ _ _ => rfl

theorem tbu_writeAll (g : Output → OutRec) (s : State) : (writeAll g s).tbu = s.tbu := mapSq_tbu s fun _ o => g o

theorem sq_writeAll (g : Output → OutRec) (s : State) (o : Output) : (writeAll g s).sq o = g o :=
  congrArg Channel.sq (chan_writeAll g s o)

theorem chan_switchTold (s : State) (sw : Switch) (e : ClockEvent) (o : Output) : (switchTold s sw e).chan o = s.chan o :=
  State.chan_handAll _ _ _ _

theorem tbu_switchTold (s : State) (sw : Switch) (e : ClockEvent) : (switchTold s sw e).tbu = s.tbu :=
  State.handAll_tbu _ _ _

theorem chan_unitGoes (s : State) (st : TbuState) (o : Output) : (unitGoes s st).chan o = s.chan o := rfl

/-- States whose outputs have the same channels hold the same channels. -/
theorem chans_ext {s t : State} (h : ∀ o, t.chan o = s.chan o) : t.chans = s.chans :=
  Vector.ext fun i hi => h ⟨i, hi⟩

namespace UnitOnly

variable {s t u : State}

theorem refl (s : State) : UnitOnly s s := ⟨OnlyNotices.refl s, rfl⟩

theorem trans (h : UnitOnly s t) (g : UnitOnly t u) : UnitOnly s u where
  notices := OnlyNotices.trans h.notices g.notices
  rest := by rw [g.rest, h.rest]

theorem setTbu (h : UnitOnly s t) (b : Tbu) : UnitOnly s (t.setTbu b) := h.trans ⟨OnlyNotices.of_eq rfl rfl, rfl⟩

theorem unitGoes (h : UnitOnly s t) (st : TbuState) : UnitOnly s (unitGoes t st) :=
  h.trans ⟨OnlyNotices.of_eq rfl rfl, rfl⟩

theorem handAll (h : UnitOnly s t) (ms : List Master) (n : Notice) : UnitOnly s (t.handAll ms n) :=
  h.trans ⟨onlyNotices_handAll t ms n, by rw [handAll_eq]⟩

theorem switchTold (h : UnitOnly s t) (sw : Switch) (e : ClockEvent) : UnitOnly s (switchTold t sw e) := h.handAll _ _

theorem writeAll (h : UnitOnly s t) (g : Output → OutRec) : UnitOnly s (TimebaseProofs.writeAll g t) := by
  have same : TimebaseProofs.writeAll g t = { t with chans := (TimebaseProofs.writeAll g t).chans } := mapSq_eq t fun _ o => g o
  refine h.trans ⟨?_, ?_⟩
  · rw [same]; exact OnlyNotices.of_eq rfl rfl
  · rw [same]

theorem now (h : UnitOnly s t) : t.now = s.now := by rw [h.rest]

/-- Where the channels stand as well, only the notices, the unit and the gates have changed. -/
theorem still (h : UnitOnly s t) (chans : t.chans = s.chans) :
    t = { s with links := t.links, masters := t.masters, tbu := t.tbu, da := t.da, db := t.db } :=
  h.rest.trans (by rw [chans])

end UnitOnly

/-! ### A failure of the current source (R128, R130) -/

section Failure

variable (s : State) (cause : FailCause) (src : Source)

/-- What fail-safe makes of an output record. -/
def failedRecord (s : State) (o : Output) : OutRec :=
  if ((s.sq o).state = .running ∨ (s.sq o).state = .stopping) ∧ (s.sq o).phase = 0 then
    { s.sq o with status := { (s.sq o).status with base := .unsettled, degraded := true } }
  else s.sq o

/-- What LOST makes of an output record. -/
def frozenRecord (s : State) (o : Output) : OutRec :=
  if ((s.sq o).state = .running ∨ (s.sq o).state = .stopping) ∧ (s.sq o).frozen = false then
    { s.sq o with frozen := true, held := some (s.pins o) }
  else s.sq o

/-- The unit at fail-safe, before the switch in flight and the failure are told. -/
def safeUnit (s : State) : State :=
  writeAll (failedRecord s) (unitGoes { s with tbu := { s.tbu with fail := true, xoCheck := none } } (.running ⟨.irc, none⟩))

theorem failedSafe_of_no_switch (h : s.tbu.state.switch = none) : failedSafe s cause src
    = (safeUnit s).handAll (allMasters.filter s.joined) (.clockEvent (.failsafe cause src) (.running ⟨.irc, none⟩) true) := by
  unfold failedSafe
  dsimp only
  rw [h]
  rfl

theorem failedSafe_of_switch {sw : Switch} (h : s.tbu.state.switch = some sw) : failedSafe s cause src
    = (switchTold (safeUnit s) sw (.abortedFailsafe sw)).handAll (allMasters.filter s.joined)
        (.clockEvent (.failsafe cause src) (.running ⟨.irc, none⟩) true) := by
  unfold failedSafe
  dsimp only
  rw [h]
  rfl

theorem goneLost_eq : goneLost s cause src
    = (writeAll (frozenRecord s) (unitGoes { s with tbu := { s.tbu with xoCheck := none } } .lost)).handAll
        (allMasters.filter s.joined) (.clockEvent (.lost cause src) .lost s.tbu.fail) := rfl

theorem unitOnly_safeUnit : UnitOnly s (safeUnit s) :=
  (((UnitOnly.refl s).setTbu { s.tbu with fail := true, xoCheck := none }).unitGoes (.running ⟨.irc, none⟩)).writeAll _

theorem unitOnly_failedSafe : UnitOnly s (failedSafe s cause src) := by
  cases h : s.tbu.state.switch with
  | none => rw [failedSafe_of_no_switch s cause src h]; exact (unitOnly_safeUnit s).handAll _ _
  | some sw => rw [failedSafe_of_switch s cause src h]; exact ((unitOnly_safeUnit s).switchTold _ _).handAll _ _

theorem tbu_failedSafe : (failedSafe s cause src).tbu = (safeUnit s).tbu := by
  cases h : s.tbu.state.switch with
  | none => rw [failedSafe_of_no_switch s cause src h, State.handAll_tbu]
  | some sw => rw [failedSafe_of_switch s cause src h, State.handAll_tbu, tbu_switchTold]

theorem chan_failedSafe (o : Output) : (failedSafe s cause src).chan o = { s.chan o with sq := failedRecord s o } := by
  have safe : (safeUnit s).chan o = { s.chan o with sq := failedRecord s o } := chan_writeAll _ _ o
  cases h : s.tbu.state.switch with
  | none => rw [failedSafe_of_no_switch s cause src h, State.chan_handAll, safe]
  | some sw => rw [failedSafe_of_switch s cause src h, State.chan_handAll, chan_switchTold, safe]

theorem unitOnly_goneLost : UnitOnly s (goneLost s cause src) :=
  ((((UnitOnly.refl s).setTbu { s.tbu with xoCheck := none }).unitGoes .lost).writeAll _).handAll _ _

theorem tbu_goneLost : (goneLost s cause src).tbu = (unitGoes { s with tbu := { s.tbu with xoCheck := none } } .lost).tbu := by
  rw [goneLost_eq, State.handAll_tbu, tbu_writeAll]

theorem chan_goneLost (o : Output) : (goneLost s cause src).chan o = { s.chan o with sq := frozenRecord s o } := by
  rw [goneLost_eq, State.chan_handAll, chan_writeAll, chan_unitGoes]
  rfl

theorem not_runs {r : OutRec} (h : r.runs = false) : ¬(r.state = .running ∨ r.state = .stopping) := fun g => by
  rw [(runs_iff r).mpr g] at h
  exact absurd h nofun

/-- Settles O51: fail-safe and LOST by the strap, with what each leaves of every output. -/
theorem sourceFailureActsByTheStrap : Obligations.SourceFailureActsByTheStrap := by
  unfold Obligations.SourceFailureActsByTheStrap
  intro s cause src t
  cases strap : s.straps.fse with
  | true =>
    have safe : t = failedSafe s cause src := by
      show sourceFails s cause src = _
      rw [sourceFails_eq, if_pos strap]
    clear_value t
    subst safe
    have only := unitOnly_failedSafe s cause src
    have unit : (failedSafe s cause src).tbu = (unitGoes { s with tbu := { s.tbu with fail := true, xoCheck := none } }
        (.running ⟨.irc, none⟩)).tbu := (tbu_failedSafe s cause src).trans (tbu_writeAll _ _)
    refine ⟨fun _ => rfl, nofun, only.notices, only.rest, ?_, ?_, ?_, ?_, fun o rest => ?_, fun _ => ⟨?_, ?_, fun o runs => ?_⟩,
      nofun⟩
    · rw [unit]; rfl
    · rw [unit]; rfl
    · rw [unit]; rfl
    · rw [unit]; rfl
    · rw [chan_failedSafe, failedRecord, if_neg fun h => not_runs rest h.1]
      rfl
    · rw [unit]; rfl
    · rw [unit]; rfl
    · rw [chan_failedSafe, failedRecord]
      by_cases emitted : (s.sq o).phase = 0
      · rw [if_pos ⟨(runs_iff _).mp runs, emitted⟩, if_pos emitted]
      · rw [if_neg fun h => emitted h.2, if_neg emitted]
  | false =>
    have lost : t = goneLost s cause src := by
      show sourceFails s cause src = _
      rw [sourceFails_eq, if_neg (by rw [strap]; exact nofun)]
    clear_value t
    subst lost
    have only := unitOnly_goneLost s cause src
    have unit := tbu_goneLost s cause src
    refine ⟨nofun, fun _ => rfl, only.notices, only.rest, ?_, ?_, ?_, ?_, fun o rest => ?_, nofun,
      fun _ => ⟨?_, ?_, fun o runs moving => ?_⟩⟩
    · rw [unit]; rfl
    · rw [unit]; rfl
    · rw [unit]; rfl
    · rw [unit]; rfl
    · rw [chan_goneLost, frozenRecord, if_neg fun h => not_runs rest h.1]
      rfl
    · rw [unit]; rfl
    · rw [unit]; rfl
    · rw [chan_goneLost, frozenRecord, if_pos ⟨(runs_iff _).mp runs, moving⟩]

end Failure

end Sys2Proof.TimebaseProofs
end

section
/-! SELECT_LOCK, XO_READY, LOCK_COMPLETE and ALIGNMENT_DEADLINE (chapter 6): the lock, the readiness of a target, and the
completion of a switch. -/

namespace Sys2Proof.CompletionProofs

open Machine Laws VoteProofs StartProofs SettingProofs TimebaseProofs

/-! ### SELECT_LOCK (R118) -/

theorem exec_selectLock_of_reply {s : State} {m : Master} {f : Frame} {r : Reply} (h : Admitted s m 0x15 f)
    (hr : selectLockRequest (taken s m f) m = r) : exec (.selectLock m) s = .next (answered r.state m f r.code r.payload) :=
  exec_of_reply (owner := fun s _ => selectLockRequest s m) h (by decide) rfl hr

section SelectLock

variable {s : State} {m : Master}

theorem selectLockRequest_of_shared (h : s.isSole .tb m = false) : selectLockRequest s m = refuse s .notSole := by
  unfold selectLockRequest
  rw [if_pos (by rw [h]; rfl)]

theorem selectLockRequest_of_strap (sole : s.isSole .tb m = true) (h : s.straps.fse = true) :
    selectLockRequest s m = refuse s .state := by
  unfold selectLockRequest
  rw [if_neg (by rw [sole]; exact nofun), if_pos h]

theorem selectLockRequest_of_locked (sole : s.isSole .tb m = true) (strap : s.straps.fse = false) (h : s.tbu.lock ≠ none) :
    selectLockRequest s m = refuse s .locked := by
  unfold selectLockRequest
  rw [if_neg (by rw [sole]; exact nofun), if_neg (by rw [strap]; exact nofun), if_pos (Option.isSome_iff_ne_none.mpr h)]

theorem selectLockRequest_of_running {cur : Selection} (sole : s.isSole .tb m = true) (strap : s.straps.fse = false)
    (free : s.tbu.lock = none) (h : s.tbu.state = .running cur) :
    selectLockRequest s m = okay (s.setTbu { s.tbu with lock := some cur }) := by
  unfold selectLockRequest
  rw [if_neg (by rw [sole]; exact nofun), if_neg (by rw [strap]; exact nofun), if_neg (by rw [free]; exact nofun), h]

theorem selectLockRequest_of_other (sole : s.isSole .tb m = true) (strap : s.straps.fse = false) (free : s.tbu.lock = none)
    (h : ∀ cur, s.tbu.state ≠ .running cur) : selectLockRequest s m = refuse s .state := by
  unfold selectLockRequest
  rw [if_neg (by rw [sole]; exact nofun), if_neg (by rw [strap]; exact nofun), if_neg (by rw [free]; exact nofun)]
  split
  next cur running => exact absurd running (h cur)
  next => rfl

end SelectLock

/-- Settles O45: the checks in their order, and the lock of the current selection. -/
theorem selectLockLocksTheSelection : Obligations.SelectLockLocksTheSelection := by
  unfold Obligations.SelectLockLocksTheSelection
  intro s m f h
  have sole (b : Bool) (hb : s.isSole .tb m = b) : (taken s m f).isSole .tb m = b := isSole_taken hb
  refine ⟨fun shared => ?_, fun alone strap => ?_, fun alone strap locked => ?_, fun alone strap free other => ?_,
    fun cur alone strap free running => ?_⟩
  · exact exec_selectLock_of_reply h (selectLockRequest_of_shared (sole _ shared))
  · exact exec_selectLock_of_reply h (selectLockRequest_of_strap (s := taken s m f) (sole _ alone) strap)
  · exact exec_selectLock_of_reply h (selectLockRequest_of_locked (s := taken s m f) (sole _ alone) strap locked)
  · exact exec_selectLock_of_reply h (selectLockRequest_of_other (s := taken s m f) (sole _ alone) strap free other)
  · exact exec_selectLock_of_reply h (selectLockRequest_of_running (s := taken s m f) (sole _ alone) strap free running)

/-! ### XO_READY (R101, R114) -/

theorem exec_xoReady {s : State} {n : Nat} (h : s.tbu.xo = .starting n) :
    exec .xoReady s = .next (sourceBecomesReady (s.setTbu { s.tbu with xo := .ready }) .xo) := by
  show Host.Outcome.next (xoBecomesReady s) = _
  unfold xoBecomesReady
  rw [h]

theorem switch_of_switching {s : State} {cur : Selection} {sw : Switch} {d : Nat} (h : s.tbu.state = .switching cur sw d) :
    s.tbu.state.switch = some sw := by rw [h]; rfl

theorem switch_of_preparing {s : State} {sw : Switch} {d : Nat} (h : s.tbu.state = .preparing sw d) :
    s.tbu.state.switch = some sw := by rw [h]; rfl

/-- In WAIT_ALIGN readying has nothing left to do. -/
theorem progress_of_waitAlign {s : State} {cur : Selection} {sw : Switch} {d : Nat} (h : s.tbu.state = .waitAlign cur sw d) :
    progress s = s := by
  unfold progress
  rw [h]

theorem sourceBecomesReady_of_waitAlign {s : State} {cur : Selection} {sw : Switch} {d : Nat} (src : Source)
    (h : s.tbu.state = .waitAlign cur sw d) : sourceBecomesReady s src = s := by
  unfold sourceBecomesReady
  rw [progress_of_waitAlign h]
  exact ite_self s

/-- Settles O46: a target on the XO is readied, and nothing else acts on its becoming READY. -/
theorem xoReadyReadiesTheSource : Obligations.XoReadyReadiesTheSource := by
  unfold Obligations.XoReadyReadiesTheSource
  intro s n starting
  have w := exec_xoReady starting
  have readied (sw : Switch) (d : Nat) (hs : (∃ cur, s.tbu.state = .switching cur sw d) ∨ s.tbu.state = .preparing sw d)
      (source : sw.target.source = .xo) :
      Readied (s.setTbu { s.tbu with xo := .ready }) fun t => exec .xoReady s = .next t := by
    have flight : s.tbu.state.switch = some sw := by
      rcases hs with ⟨cur, h⟩ | h
      · exact switch_of_switching h
      · exact switch_of_preparing h
    refine readied_progress (fun cur x e h => ?_) ?_
    · rcases hs with ⟨c, g⟩ | g
      · exact absurd (g.symm.trans h) nofun
      · exact absurd (g.symm.trans h) nofun
    · have goes := sourceBecomesReady_of_target (s := s.setTbu { s.tbu with xo := .ready }) flight
      rw [source] at goes
      exact w.trans (congrArg _ goes)
  refine ⟨fun other => ?_, fun cur sw d c h target stopped ctx => ?_, readied, fun cur sw d h => ?_⟩
  · exact w.trans (congrArg _ (sourceBecomesReady_of_other (s := s.setTbu { s.tbu with xo := .ready }) other))
  · have source : sw.target.source = .xo := by rw [target]
    have invalid : (s.setTbu { s.tbu with xo := .ready }).tbu.ctx.get sw.target.source ≠ some c := by
      rw [source]
      exact ctx
    obtain ⟨-, lock, -⟩ := readied sw d (.inl ⟨cur, h⟩) source sw (switch_of_switching h)
    have begun := lock c (by rw [source]; rfl) (by rw [target]) stopped
    dsimp only at begun
    rw [if_neg invalid] at begun
    exact begun
  · exact w.trans (congrArg _ (sourceBecomesReady_of_waitAlign (s := s.setTbu { s.tbu with xo := .ready }) .xo h))

/-! ### The completion of a switch (R116, R117) -/

section Completion

variable {s : State} {sw : Switch}

/-- The unit and the outputs at a completion, before waiting outputs start and DONE is told. -/
def completedUnit (s : State) (sw : Switch) (aligned : Bool) : State :=
  writeAll (fun o => completionMark (s.sq o) (aligned && sw.align == some o))
    ((unitGoes { s with tbu := { s.tbu with fail := false } } (.running sw.target)).setTbu
      { (unitGoes { s with tbu := { s.tbu with fail := false } } (.running sw.target)).tbu with
        xoCheck := if sw.target.source = .xo then some ⟨0, s.now + cyclesPerMs / 2⟩ else none })

theorem unitOnly_completedUnit (s : State) (sw : Switch) (aligned : Bool) : UnitOnly s (completedUnit s sw aligned) :=
  ((((UnitOnly.refl s).setTbu { s.tbu with fail := false }).unitGoes (.running sw.target)).setTbu _).writeAll _

theorem chan_completedUnit (s : State) (sw : Switch) (aligned : Bool) (o : Output) : (completedUnit s sw aligned).chan o
    = { s.chan o with sq := completionMark (s.sq o) (aligned && sw.align == some o) } := chan_writeAll _ _ o

theorem starters_of_none_waiting (h : ∀ o, (s.sq o).state ≠ .waiting) (frame : Option Output) : starters s frame = [] := by
  rw [← startSet_eq]
  exact startSet_of_none_waiting h _

theorem state_completionMark (r : OutRec) (spared : Bool) : (completionMark r spared).state = r.state := by
  unfold completionMark
  split <;> rfl

theorem switchCompletes_eq (s : State) (sw : Switch) (aligned : Bool) (frame : Option Output) :
    switchCompletes s sw aligned frame
      = switchTold (startTogether (completedUnit s sw aligned) (starters (completedUnit s sw aligned) frame)) sw
          (.completed sw aligned) := by
  unfold switchCompletes completedUnit writeAll
  rfl

theorem startTogether_nil (s : State) : startTogether s [] = s := rfl

/-- Where no output waits, a completion starts none. -/
theorem switchCompletes_of_none_waiting (h : ∀ o, (s.sq o).state ≠ .waiting) (aligned : Bool) (frame : Option Output) :
    switchCompletes s sw aligned frame = switchTold (completedUnit s sw aligned) sw (.completed sw aligned) := by
  have still (o : Output) : ((completedUnit s sw aligned).sq o).state ≠ .waiting := by
    have record : (completedUnit s sw aligned).sq o = completionMark (s.sq o) (aligned && sw.align == some o) :=
      congrArg Channel.sq (chan_completedUnit s sw aligned o)
    rw [record, state_completionMark]
    exact h o
  rw [switchCompletes_eq, starters_of_none_waiting still, startTogether_nil]

theorem completionMark_of_rest {r : OutRec} {spared : Bool} (h : r.runs = false) : completionMark r spared = r := by
  unfold completionMark
  rw [if_neg fun g => not_runs h g.1]

theorem completionMark_of_runs {r : OutRec} (h : r.runs = true) : completionMark r false
    = { r with status := unsettled r, frozen := false, held := if r.frozen then none else r.held } := by
  unfold completionMark
  rw [if_pos ⟨(runs_iff r).mp h, .inr rfl⟩]

/-- An output that is not frozen only has its frame marked. -/
theorem completionMark_of_moving {r : OutRec} (h : r.runs = true) (moving : r.frozen = false) :
    completionMark r false = { r with status := unsettled r } := by
  rw [completionMark_of_runs h, moving]
  obtain ⟨⟩ := r
  subst moving
  rfl

/-- A frozen output resumes as well. -/
theorem completionMark_of_frozen {r : OutRec} (h : r.runs = true) (frozen : r.frozen = true) :
    completionMark r false = { r with status := unsettled r, frozen := false, held := none } := by
  rw [completionMark_of_runs h, frozen]
  rfl

/-- The state after an unaligned completion with no output waiting. -/
structure Completed (s : State) (sw : Switch) (t : State) : Prop where
  only : UnitOnly s t
  state : t.tbu.state = .running sw.target
  fail : t.tbu.fail = false
  lock : t.tbu.lock = s.tbu.lock
  ctx : t.tbu.ctx = s.tbu.ctx
  synth : sw.target.syn.isSome = true → t.tbu.synth = s.tbu.synth
  chan : ∀ o, t.chan o = { s.chan o with sq := completionMark (s.sq o) false }

theorem completed_of_none_waiting (h : ∀ o, (s.sq o).state ≠ .waiting) :
    Completed s sw (switchCompletes s sw false none) := by
  rw [switchCompletes_of_none_waiting h]
  have unit : (switchTold (completedUnit s sw false) sw (.completed sw false)).tbu
      = { (unitGoes { s with tbu := { s.tbu with fail := false } } (.running sw.target)).tbu with
          xoCheck := if sw.target.source = .xo then some ⟨0, s.now + cyclesPerMs / 2⟩ else none } :=
    (tbu_switchTold _ _ _).trans (tbu_writeAll _ _)
  refine ⟨(unitOnly_completedUnit s sw false).switchTold _ _, ?_, ?_, ?_, ?_, fun syn => ?_, fun o => ?_⟩
  · rw [unit]; rfl
  · rw [unit]; rfl
  · rw [unit]; rfl
  · rw [unit]; rfl
  · rw [unit]
    show (if ([sw.target].any fun x => x.syn.isSome) then s.tbu.synth else .stopped) = _
    rw [List.any_cons, syn]
    rfl
  · rw [chan_switchTold, chan_completedUnit]
    rfl

end Completion

/-! ### ALIGNMENT_DEADLINE (R116) -/

theorem exec_alignmentDeadline {s : State} {cur : Selection} {sw : Switch} {d : Nat} (h : s.tbu.state = .waitAlign cur sw d) :
    exec .alignmentDeadline s = .next (switchCompletes { s with now := max s.now d } sw false none) := by
  show Host.Outcome.next (alignmentExpires s) = _
  unfold alignmentExpires
  rw [h]
  exact congrArg _ (complete_eq (s.reach d) sw false none)

/-- Settles O48: the completion at the deadline, and what it leaves where no output waits. -/
theorem completionMarksEveryFrame : Obligations.CompletionMarksEveryFrame := by
  unfold Obligations.CompletionMarksEveryFrame
  intro s cur sw d h
  refine ⟨exec_alignmentDeadline h, fun still => ?_⟩
  have done := completed_of_none_waiting (s := { s with now := max s.now d }) (sw := sw) still
  refine ⟨_, exec_alignmentDeadline h, ?_⟩
  generalize switchCompletes { s with now := max s.now d } sw false none = t at done
  have now : t.now = max s.now d := done.only.now
  refine ⟨done.state, done.fail, done.lock, done.ctx, now, fun o rest => ?_, fun o runs moving => ?_,
    fun o runs frozen => ?_, done.only.notices, ?_⟩
  · rw [done.chan o]
    exact congrArg (fun r => { s.chan o with sq := r }) (completionMark_of_rest rest)
  · rw [done.chan o]
    exact congrArg (fun r => { s.chan o with sq := r }) (completionMark_of_moving runs moving)
  · rw [done.chan o]
    exact congrArg (fun r => { s.chan o with sq := r }) (completionMark_of_frozen runs frozen)
  · rw [now]
    exact done.only.rest

/-! ### LOCK_COMPLETE (R106, R114, R116) -/

section Lock

variable {u : State} {sw : Switch} {cur : Selection} {d : Nat}

theorem targetReady_of_aligning {o : Output} (h : u.tbu.state = .switching cur sw d) (align : sw.align = some o)
    (running : (u.sq o).state = .running) :
    targetReady u = u.setTbu { u.tbu with state := .waitAlign cur sw (u.now + 2000 * cyclesPerMs) } := by
  unfold targetReady
  rw [h]
  dsimp only
  rw [align]
  exact if_pos running

theorem targetReady_of_switching (h : u.tbu.state = .switching cur sw d)
    (free : ∀ o, sw.align = some o → (u.sq o).state ≠ .running) : targetReady u = switchCompletes u sw false none := by
  refine Eq.trans ?_ (complete_eq u sw false none)
  unfold targetReady
  rw [h]
  dsimp only
  cases align : sw.align with
  | none => rfl
  | some o => exact if_neg (free o align)

theorem targetReady_of_preparing (h : u.tbu.state = .preparing sw d) :
    targetReady u = switchCompletes u sw false none := by
  refine Eq.trans ?_ (complete_eq u sw false none)
  unfold targetReady
  rw [h]
  rfl

theorem lockCompletes_of_flight {s : State} (h : (∃ cur d, s.tbu.state = .switching cur sw d) ∨ ∃ d, s.tbu.state = .preparing sw d) :
    lockCompletes s = lockFor s sw := by
  unfold lockCompletes
  rcases h with ⟨cur, d, h⟩ | ⟨d, h⟩
  · rw [h]
  · rw [h]

/-- The lock of the target of `sw` on the settings `c` completes at the instant `t` and stores the context. -/
def lockedAt (s : State) (sw : Switch) (c : Settings) (t : Nat) : State :=
  { s with now := max s.now t, freeCount := s.freeCount + 1, synPhase := Config.lockPhase s.freeCount,
           tbu := { s.tbu with synth := .locked, ctx := s.tbu.ctx.set sw.target.source (some c) } }

theorem lockFor_of_valid {s : State} {q : Bool} {t : Nat} {c : Settings} (locking : s.tbu.synth = .locking q t)
    (syn : sw.target.syn = some c) (valid : settingsValid (s.table.freq sw.target.source) c = true) :
    lockFor s sw = targetReady (lockedAt s sw c t) := by
  unfold lockFor
  rw [locking, syn]
  dsimp only
  rw [State.reach_table, if_pos valid]
  rfl

theorem lockFor_of_bad {s : State} {q : Bool} {t : Nat} {c : Settings} (locking : s.tbu.synth = .locking q t)
    (syn : sw.target.syn = some c) (bad : settingsValid (s.table.freq sw.target.source) c = false) :
    lockFor s sw = State.setTbu { s with now := max s.now t } { s.tbu with synth := .notLocking } := by
  unfold lockFor
  rw [locking, syn]
  dsimp only
  rw [State.reach_table, if_neg (by rw [bad]; exact nofun)]
  rfl

end Lock

/-- Settles O47: the context is stored and the switch waits or completes; with settings that are not valid neither. -/
theorem lockCompletionStoresTheContext : Obligations.LockCompletionStoresTheContext := by
  unfold Obligations.LockCompletionStoresTheContext
  intro s sw t q c locking syn now valid ctx phase locked completes
  have same : locked = lockedAt s sw c t := rfl
  have fit (good : valid = true) (flight : (∃ cur d, s.tbu.state = .switching cur sw d) ∨ ∃ d, s.tbu.state = .preparing sw d) :
      exec .lockComplete s = .next (targetReady locked) := by
    show Host.Outcome.next (lockCompletes s) = _
    rw [lockCompletes_of_flight flight, lockFor_of_valid locking syn good, same]
  have finished (flight : exec .lockComplete s = .next (switchCompletes locked sw false none))
      (still : ∀ o, (s.sq o).state ≠ .waiting) : completes := by
    have done := completed_of_none_waiting (s := locked) (sw := sw) still
    refine ⟨_, flight, ?_⟩
    generalize switchCompletes locked sw false none = u at done
    have time : u.now = now := done.only.now
    refine ⟨done.state, done.fail, done.lock, done.ctx, done.synth (by rw [syn]; rfl), time, fun o rest => ?_,
      fun o runs => ?_, done.only.notices, ?_⟩
    · rw [done.chan o]
      exact congrArg (fun r => { s.chan o with sq := r }) (completionMark_of_rest rest)
    · rw [done.chan o]
      exact congrArg (fun r => { s.chan o with sq := r }) (completionMark_of_runs runs)
    · rw [time]
      exact done.only.rest
  have switched {cur : Selection} {d : Nat} (h : s.tbu.state = .switching cur sw d) (good : valid = true)
      (free : ∀ o, sw.align = some o → (s.sq o).state ≠ .running) :
      exec .lockComplete s = .next (switchCompletes locked sw false none) := by
    rw [fit good (.inl ⟨cur, d, h⟩), targetReady_of_switching (u := locked) h free]
  have prepared {d : Nat} (h : s.tbu.state = .preparing sw d) (good : valid = true) :
      exec .lockComplete s = .next (switchCompletes locked sw false none) := by
    rw [fit good (.inr ⟨d, h⟩), targetReady_of_preparing (u := locked) h]
  refine ⟨fun cur d h => ⟨fun o good align running => ?_, fun good free still => finished (switched h good free) still,
      switched h⟩,
    fun d h good still => finished (prepared h good) still, fun d => prepared, fun ⟨cur, d, h⟩ bad => ?_⟩
  · rw [fit good (.inl ⟨cur, d, h⟩), targetReady_of_aligning (u := locked) h align running]
  · have flight : (∃ cur d, s.tbu.state = .switching cur sw d) ∨ ∃ d, s.tbu.state = .preparing sw d :=
      h.elim (fun h => .inl ⟨cur, d, h⟩) fun h => .inr ⟨d, h⟩
    show Host.Outcome.next (lockCompletes s) = _
    rw [lockCompletes_of_flight flight, lockFor_of_bad locking syn bad]

end Sys2Proof.CompletionProofs
end

section
/-! SWITCH_TIMEOUT, XO_ACTIVITY_CHECK and LOSS_OF_LOCK (chapter 6): what a deadline, a missing activity and a lost lock do
to a switch in flight and to the current selection. -/

namespace Sys2Proof.WatchProofs

open Machine Laws VoteProofs StartProofs SettingProofs TimebaseProofs CompletionProofs

/-! ### SWITCH_TIMEOUT (R106, R115, R169) -/

section Timeout

variable {s : State} {sw : Switch} {cur : Selection} {d : Nat}

/-- The contexts at a deadline `d`: a lock whose instant is no later has been stored. -/
def contextsAt (s : State) (sw : Switch) (d : Nat) : LockContexts :=
  match s.tbu.synth, sw.target.syn with
  | .locking _ t, some c =>
    if t ≤ d ∧ settingsValid (s.table.freq sw.target.source) c = true then s.tbu.ctx.set sw.target.source (some c)
    else s.tbu.ctx
  | _, _ => s.tbu.ctx

theorem contextsAt_of_locking {q : Bool} {t : Nat} {c : Settings} (locking : s.tbu.synth = .locking q t)
    (syn : sw.target.syn = some c) : contextsAt s sw d
      = if t ≤ d ∧ settingsValid (s.table.freq sw.target.source) c = true then s.tbu.ctx.set sw.target.source (some c)
        else s.tbu.ctx := by
  unfold contextsAt
  rw [locking, syn]

theorem contextsAt_of_other (other : ∀ q t c, s.tbu.synth = .locking q t → sw.target.syn ≠ some c) :
    contextsAt s sw d = s.tbu.ctx := by
  unfold contextsAt
  split
  next q t c locking syn => exact absurd syn (other q t c locking)
  next => rfl

theorem lockAtDeadline_eq (u : State) (sw : Switch) (d : Nat) :
    lockAtDeadline u sw d = u.setTbu { u.tbu with ctx := contextsAt u sw d } := by
  unfold lockAtDeadline
  split
  next q t c locking syn =>
    rw [contextsAt_of_locking locking syn]
    by_cases stored : t ≤ d ∧ settingsValid (u.table.freq sw.target.source) c = true
    · rw [if_pos (by rw [Bool.and_eq_true, decide_eq_true_iff]; exact stored), if_pos stored]
      rfl
    · rw [if_neg (by rw [Bool.and_eq_true, decide_eq_true_iff]; exact stored), if_neg stored]
      rfl
  next other => 
    rw [contextsAt_of_other fun q t c locking syn => other q t c locking syn]
    rfl

theorem abandonLock_of_serves {u : State} (h : synOf u.tbu.state.current = true) : abandonLock u = u := if_pos h

theorem abandonLock_of_direct {u : State} (h : synOf u.tbu.state.current = false) :
    abandonLock u = u.setTbu { u.tbu with synth := .stopped } := if_neg (by rw [h]; exact nofun)

/-- Settling in a state of the unit whose selections are served only where the current one was makes no difference to a
lock that is abandoned first. -/
theorem unitGoes_abandonLock (u : State) (st : TbuState)
    (h : synOf u.tbu.state.current = false → (selectionsOf st).any (fun x => x.syn.isSome) = false) :
    unitGoes (abandonLock u) st = unitGoes u st := by
  unfold abandonLock
  split
  next => rfl
  next direct =>
    have none := h (Bool.eq_false_iff.mpr direct)
    unfold unitGoes
    rw [none]
    rfl

/-- The unit at the deadline of a switch, its context and FAIL given. -/
def expiredAt (s : State) (sw : Switch) (d : Nat) (fail : Bool) : State :=
  { s with now := max s.now d, tbu := { s.tbu with ctx := contextsAt s sw d, fail := fail } }

theorem settleClocks_abandonLock (u : State) (st : TbuState)
    (h : synOf u.tbu.state.current = false → (selectionsOf st).any (fun x => x.syn.isSome) = false) :
    settleClocks ((abandonLock u).setTbu { (abandonLock u).tbu with state := st }) = unitGoes u st :=
  (settleClocks_of_state (abandonLock u) st).trans (unitGoes_abandonLock u st h)

theorem abandonLock_fail (u : State) (fail : Bool) : abandonLock (u.setTbu { u.tbu with fail := fail })
    = (abandonLock u).setTbu { (abandonLock u).tbu with fail := fail } := by
  cases h : synOf u.tbu.state.current with
  | true =>
    have kept := abandonLock_of_serves (u := u.setTbu { u.tbu with fail := fail }) h
    rw [kept, abandonLock_of_serves h]
  | false =>
    have stops := abandonLock_of_direct (u := u.setTbu { u.tbu with fail := fail }) h
    rw [stops, abandonLock_of_direct h]
    rfl

theorem lockAtDeadline_reach (s : State) (sw : Switch) (d : Nat) :
    lockAtDeadline (s.reach d) sw d = expiredAt s sw d s.tbu.fail := lockAtDeadline_eq (s.reach d) sw d

/-- From SWITCHING the unit runs on its current selection. -/
theorem switchExpires_of_switching (h : s.tbu.state = .switching cur sw d) : switchExpires s
    = switchTold (unitGoes (expiredAt s sw d s.tbu.fail) (.running cur)) sw (.timeout sw) := by
  have serves : synOf s.tbu.state.current = false → (selectionsOf (.running cur)).any (fun x => x.syn.isSome) = false := by
    rw [h]
    intro direct
    show (cur.syn.isSome || false) = false
    rw [Bool.or_false]
    exact direct
  unfold switchExpires
  rw [h]
  dsimp only
  rw [lockAtDeadline_reach, settleClocks_abandonLock (expiredAt s sw d s.tbu.fail) _ serves, switchNotice_eq]

theorem straps_abandonLock (u : State) : (abandonLock u).straps = u.straps := by
  unfold abandonLock
  split <;> rfl

/-- From PREPARING with FSE 1 the unit falls back to IRC direct with FAIL, and the waiting outputs are examined. -/
theorem switchExpires_of_fallback (h : s.tbu.state = .preparing sw d) (strap : s.straps.fse = true) : switchExpires s
    = examine (switchTold (unitGoes (expiredAt s sw d true) (.running ⟨.irc, none⟩)) sw (.timeout sw)) [] := by
  have settles := settleClocks_abandonLock (expiredAt s sw d true) (.running ⟨.irc, none⟩) fun _ => rfl
  have kept : abandonLock (expiredAt s sw d true) = _ := abandonLock_fail (expiredAt s sw d s.tbu.fail) true
  rw [kept] at settles
  unfold switchExpires
  rw [h]
  dsimp only
  rw [lockAtDeadline_reach, if_pos (by rw [straps_abandonLock]; exact strap)]
  unfold fallBack
  dsimp only
  rw [switchNotice_eq]
  exact congrArg (fun u => examine (switchTold u sw (.timeout sw)) []) settles

/-- From PREPARING with FSE 0 the unit is LOST, after the TIMEOUT. -/
theorem switchExpires_of_lost (h : s.tbu.state = .preparing sw d) (strap : s.straps.fse = false) : switchExpires s
    = goneLost (switchTold (unitGoes (expiredAt s sw d s.tbu.fail) .lost) sw (.timeout sw)) .switchTimeout
        sw.target.source := by
  unfold switchExpires
  rw [h]
  dsimp only
  rw [lockAtDeadline_reach, if_neg (by rw [straps_abandonLock]; exact Bool.eq_false_iff.mp strap),
    settleClocks_abandonLock (expiredAt s sw d s.tbu.fail) .lost (fun _ => rfl), switchNotice_eq, enterLost_eq]

theorem unitOnly_ended (s : State) (sw : Switch) (d : Nat) (fail : Bool) (st : TbuState) :
    UnitOnly { s with now := max s.now d } (switchTold (unitGoes (expiredAt s sw d fail) st) sw (.timeout sw)) :=
  (((UnitOnly.refl { s with now := max s.now d }).setTbu _).unitGoes st).switchTold sw (.timeout sw)

theorem chans_ended (s : State) (sw : Switch) (d : Nat) (fail : Bool) (st : TbuState) :
    (switchTold (unitGoes (expiredAt s sw d fail) st) sw (.timeout sw)).chans = s.chans :=
  State.handAll_chans _ _ _

/-- A switch that has ended at its deadline leaves the outputs as they were. -/
theorem ended_leaves (s : State) (sw : Switch) (d : Nat) (fail : Bool) (st : TbuState) :
    let t := switchTold (unitGoes (expiredAt s sw d fail) st) sw (.timeout sw)
    t.tbu.state = st ∧ t.tbu.fail = fail ∧ t.tbu.lock = s.tbu.lock ∧ t.tbu.ctx = contextsAt s sw d ∧ OnlyNotices s t
      ∧ t = { s with now := max s.now d, links := t.links, masters := t.masters, tbu := t.tbu, da := t.da, db := t.db } := by
  intro t
  have only := unitOnly_ended s sw d fail st
  have unit : t.tbu = (unitGoes (expiredAt s sw d fail) st).tbu := tbu_switchTold _ _ _
  refine ⟨?_, ?_, ?_, ?_, only.notices, only.still (chans_ended s sw d fail st)⟩
  · rw [unit]; rfl
  · rw [unit]; rfl
  · rw [unit]; rfl
  · rw [unit]; rfl

/-- A record that nothing generates events for stays as LOST finds it. -/
theorem frozenRecord_of_not_live {o : Output} (h : (s.sq o).live = false) : frozenRecord s o = s.sq o := by
  unfold frozenRecord
  refine if_neg fun ⟨runs, moving⟩ => ?_
  rw [OutRec.live, (runs_iff _).mpr runs, moving] at h
  exact absurd h nofun

/-- Settles O49: the outcomes by the state of the unit and the strap, and what each leaves. -/
theorem switchTimeoutFallsBack : Obligations.SwitchTimeoutFallsBack := by
  unfold Obligations.SwitchTimeoutFallsBack
  intro s sw d ctx expired fallen
  have due (t : State) (h : switchExpires s = t) : exec .switchTimeout s = .next t := congrArg _ h
  have settled : fallen.tbu.state = .running ⟨.irc, none⟩ := (congrArg Tbu.state (tbu_switchTold _ _ _)).trans rfl
  have falls (h : s.tbu.state = .preparing sw d) (strap : s.straps.fse = true) :
      exec .switchTimeout s = .next (startTogether fallen (starters fallen none)) := by
    refine due _ ((switchExpires_of_fallback h strap).trans (examine_none fun cur x e g => ?_))
    exact absurd (settled.symm.trans g) nofun
  have lost (h : s.tbu.state = .preparing sw d) (strap : s.straps.fse = false) :=
    due _ (switchExpires_of_lost h strap)
  refine ⟨fun cur h => due _ (switchExpires_of_switching h), falls, lost,
    fun cur h => ⟨_, due _ (switchExpires_of_switching h), ?_⟩, fun h strap still => ⟨fallen, ?_, ?_⟩,
    fun h strap dead => ⟨_, lost h strap, ?_⟩⟩
  · exact ended_leaves s sw d s.tbu.fail (.running cur)
  · have quiet (o : Output) : (fallen.sq o).state ≠ .waiting := by
      have same : fallen.chans = s.chans := chans_ended s sw d true (.running ⟨.irc, none⟩)
      unfold State.sq State.chan
      rw [same]
      exact still o
    rw [falls h strap, starters_of_none_waiting quiet, startTogether_nil]
  · exact ended_leaves s sw d true (.running ⟨.irc, none⟩)
  · obtain ⟨-, fail, lock, kept, -, -⟩ := ended_leaves s sw d s.tbu.fail .lost
    have chans := chans_ended s sw d s.tbu.fail .lost
    have only := unitOnly_ended s sw d s.tbu.fail .lost
    generalize switchTold (unitGoes (expiredAt s sw d s.tbu.fail) .lost) sw (.timeout sw) = u at *
    have gone := tbu_goneLost u .switchTimeout sw.target.source
    have whole := only.trans (unitOnly_goneLost u .switchTimeout sw.target.source)
    refine ⟨?_, ?_, ?_, ?_, whole.notices, whole.still (chans_ext fun o => ?_)⟩
    · rw [gone]; rfl
    · rw [gone]; exact fail
    · rw [gone]; exact lock
    · rw [gone]; exact kept
    · have same : u.chan o = s.chan o := by unfold State.chan; rw [chans]
      have record : u.sq o = s.sq o := congrArg Channel.sq same
      rw [chan_goneLost, frozenRecord_of_not_live (by rw [record]; exact dead o)]
      exact same

end Timeout

/-! ### XO_ACTIVITY_CHECK (R126) -/

section Activity

variable {s : State} {c : XoCheck}

theorem activityCheck_of_cycle (h : s.tbu.xoCheck = some c) : activityCheck s true
    = State.setTbu { s with now := max s.now c.due } { s.tbu with xoCheck := some ⟨0, c.due + cyclesPerMs / 2⟩ } := by
  unfold activityCheck
  rw [h]
  rfl

theorem activityCheck_of_first_miss (h : s.tbu.xoCheck = some c) (first : c.misses = 0) : activityCheck s false
    = State.setTbu { s with now := max s.now c.due } { s.tbu with xoCheck := some ⟨1, c.due + cyclesPerMs / 2⟩ } := by
  unfold activityCheck
  rw [h]
  dsimp only
  rw [first]
  rfl

theorem activityCheck_of_second_miss (h : s.tbu.xoCheck = some c) (second : c.misses = 1) : activityCheck s false
    = sourceFails { s with now := max s.now c.due } .xoActivity .xo := by
  unfold activityCheck
  rw [h]
  dsimp only
  rw [second]
  rfl

end Activity

/-! ### LOSS_OF_LOCK (R106, R107, R114) -/

section Loss

variable {s : State} {sw : Switch} {cur : Selection} {d : Nat}

theorem get_set_context (c : LockContexts) (src : Source) (v : Option Settings) : (c.set src v).get src = v := by
  cases src <;> rfl

/-- The synthesizer makes TCK: its loss is a failure of the current source. -/
theorem lockLost_of_current {src : Source} {c : Settings} (h : s.tbu.state.current = some ⟨src, some c⟩) : lockLost s
    = sourceFails (s.setTbu { s.tbu with ctx := s.tbu.ctx.set src none }) .synLock src := by
  unfold lockLost
  rw [h]
  rfl

/-- The synthesizer serves the target of a switch in flight. -/
theorem lockLost_of_target (direct : ∀ x, s.tbu.state.current = some x → x.syn = none)
    (flight : s.tbu.state.switch = some sw) (syn : sw.target.syn.isSome = true) : lockLost s = targetLockLost s sw := by
  unfold lockLost
  rw [flight]
  split
  next src c h => exact absurd (direct _ h) nofun
  next x same _ =>
    obtain rfl := Option.some.inj same
    exact if_pos syn
  next none _ => exact absurd none nofun

theorem lockLost_of_none_served (direct : ∀ x, s.tbu.state.current = some x → x.syn = none)
    (idle : ∀ x, s.tbu.state.switch = some x → x.target.syn = none) : lockLost s = s := by
  unfold lockLost
  split
  next src c h => exact absurd (direct _ h) nofun
  next x flight _ => exact if_neg (by rw [idle x flight]; exact nofun)
  next => rfl

/-- From WAIT_ALIGN the unit returns to SWITCHING with a new deadline, and a direct current selection leaves the
synthesizer stopped. -/
theorem losesReadiness_of_waitAlign {u : State} (h : u.tbu.state = .waitAlign cur sw d) : losesReadiness u
    = abandonLock (u.setTbu { u.tbu with state := .switching cur sw (u.now + 40 * cyclesPerMs) }) := by
  unfold losesReadiness
  rw [h]
  rfl

theorem targetLockLost_of_waitAlign {src : Source} {c : Settings} (h : s.tbu.state = .waitAlign ⟨src, none⟩ sw d)
    (syn : sw.target.syn = some c) : targetLockLost s sw = s.setTbu { s.tbu with
      state := .switching ⟨src, none⟩ sw (s.now + 40 * cyclesPerMs)
      ctx := s.tbu.ctx.set sw.target.source none
      synth := if s.sourceReady sw.target.source then .locking false (s.now + 2 * cyclesPerMs) else .stopped } := by
  have begun : targetLockLost s sw = progress (losesReadiness (setContext s sw.target.source none)) := by
    unfold targetLockLost
    rw [h]
  have loses : losesReadiness (setContext s sw.target.source none) = s.setTbu { s.tbu with
      state := .switching ⟨src, none⟩ sw (s.now + 40 * cyclesPerMs)
      ctx := s.tbu.ctx.set sw.target.source none
      synth := .stopped } := by
    rw [losesReadiness_of_waitAlign (u := setContext s sw.target.source none) h, abandonLock_of_direct rfl]
    rfl
  rw [begun, loses]
  obtain ⟨waits, locks, -⟩ := readied_progress (s := s.setTbu { s.tbu with
      state := .switching ⟨src, none⟩ sw (s.now + 40 * cyclesPerMs)
      ctx := s.tbu.ctx.set sw.target.source none
      synth := .stopped }) (ends := fun t => progress _ = t) nofun rfl sw rfl
  have ready (x : Source) : (s.setTbu { s.tbu with
      state := .switching ⟨src, none⟩ sw (s.now + 40 * cyclesPerMs)
      ctx := s.tbu.ctx.set sw.target.source none
      synth := .stopped }).sourceReady x = s.sourceReady x := by cases x <;> rfl
  cases source : s.sourceReady sw.target.source with
  | false => exact waits ((ready _).trans source)
  | true =>
    refine (locks c ((ready _).trans source) syn rfl).trans ?_
    dsimp only
    rw [if_neg (by rw [State.setTbu_tbu, get_set_context]; exact nofun)]
    rfl

end Loss

/-- Settles O50: the checks of the XO, and the losses of lock by what the synthesizer serves. -/
theorem activityAndLockAreWatched : Obligations.ActivityAndLockAreWatched := by
  unfold Obligations.ActivityAndLockAreWatched
  refine ⟨fun s c h => ⟨congrArg _ (activityCheck_of_cycle h), fun first => congrArg _ (activityCheck_of_first_miss h first),
    fun second => congrArg _ (activityCheck_of_second_miss h second)⟩, fun s => ?_⟩
  have loses (t : State) (h : lockLost s = t) : exec .lossOfLock s = .next t := congrArg _ h
  refine ⟨fun src c h => loses _ (lockLost_of_current h), fun src sw c d h syn => loses _ ?_,
    fun sw c d h syn serves => loses _ ?_, fun direct idle => loses _ ?_⟩
  · rw [lockLost_of_target (sw := sw) (fun x e => ?_) (by rw [h]; rfl) (by rw [syn]; rfl), targetLockLost_of_waitAlign h syn]
    rw [h] at e
    obtain rfl := Option.some.inj e
    rfl
  · have direct (x : Selection) (e : s.tbu.state.current = some x) : x.syn = none := by
      rcases h with ⟨src, h⟩ | h
      · rw [h] at e
        obtain rfl := Option.some.inj e
        rfl
      · rw [h] at e
        exact absurd e nofun
    have flight : s.tbu.state.switch = some sw := by
      rcases h with ⟨src, h⟩ | h
      · exact switch_of_switching h
      · exact switch_of_preparing h
    have moving (cur : Selection) (x : Switch) (e : Nat) : s.tbu.state ≠ .waitAlign cur x e := by
      rcases h with ⟨src, h⟩ | h
      · rw [h]; exact nofun
      · rw [h]; exact nofun
    rw [lockLost_of_target direct flight (by rw [syn]; rfl), targetLockLost_locking moving, if_neg serves]
    rfl
  · by_cases none : ∀ x, s.tbu.state.switch = some x → x.target.syn = none
    · exact lockLost_of_none_served direct none
    · push Not at none
      obtain ⟨sw, flight, syn⟩ := none
      obtain ⟨stopped, moving⟩ := (idle sw flight).resolve_left syn
      have locking (cur : Selection) (x : Switch) (d : Nat) (h : s.tbu.state = .waitAlign cur x d) : False := by
        have same : some x = some sw := by rw [← flight, h]; rfl
        obtain rfl := Option.some.inj same
        exact moving cur d h
      rw [lockLost_of_target direct flight (Option.isSome_iff_ne_none.mpr syn), targetLockLost_locking locking, if_pos stopped]

end Sys2Proof.WatchProofs
end

section
/-! GATE_COMPLETION and SOURCE_SET (chapters 6 and 7): the result of a gate, the moves of a detector, and what a change of
presence does to the Timebase Unit. -/

namespace Sys2Proof.DetectorProofs

open Machine Laws VoteProofs StartProofs SettingProofs TimebaseProofs CompletionProofs WatchProofs

/-! ### What a change of presence does (R124) -/

section Presence

variable {s : State} {d : Detector} {cause : RefCause} {sw : Switch} {cur : Selection} {dl : Nat}

/-- The holders of TB are told of the detector as it stands. -/
def presenceTold (s : State) (d : Detector) (cause : RefCause) (present : Bool) : State :=
  s.handAll (s.holders .tb) (.reference d present cause (s.det d).dev (s.det d).timing (s.det d).good)

theorem tbu_presenceTold (present : Bool) : (presenceTold s d cause present).tbu = s.tbu := State.handAll_tbu _ _ _

theorem sourceReady_presenceTold (present : Bool) (src : Source) :
    (presenceTold s d cause present).sourceReady src = s.sourceReady src := by
  unfold presenceTold
  rw [handAll_eq]
  cases src <;> rfl

theorem presenceChanged_of_entered (h : (s.det d).state = .present) : presenceChanged s d cause true
    = sourceBecomesReady (presenceTold s d cause true) (detSource d) := by
  unfold presenceChanged referenceNotice
  dsimp only
  rw [h]
  rfl

theorem presenceChanged_of_left (h : (s.det d).state ≠ .present) : presenceChanged s d cause false
    = referenceAbsent (presenceTold s d cause false) (detSource d) := by
  unfold presenceChanged referenceNotice
  dsimp only
  rw [beq_eq_false_iff_ne.mpr h]
  rfl

/-- The context of the detector's source is invalid, and its holders have been told. -/
def contextLost (s : State) (d : Detector) (cause : RefCause) : State :=
  (presenceTold s d cause false).setTbu { s.tbu with ctx := s.tbu.ctx.set (detSource d) none }

theorem setContext_told : setContext (presenceTold s d cause false) (detSource d) none = contextLost s d cause := by
  unfold setContext contextLost
  rw [tbu_presenceTold]

theorem uses_eq_false {src : Source} {x : Option Selection} (h : ∀ sel, x = some sel → sel.source ≠ src) :
    uses src x = false := by
  cases x with
  | none => rfl
  | some sel => exact beq_eq_false_iff_ne.mpr (h sel rfl)

theorem uses_of_source {src : Source} {x : Option Selection} {sel : Selection} (h : x = some sel) (source : sel.source = src) :
    uses src x = true := by
  rw [h, ← source]
  exact beq_self_eq_true _

theorem referenceAbsent_of_current {sel : Selection} (h : s.tbu.state.current = some sel) (source : sel.source = detSource d) :
    referenceAbsent (presenceTold s d cause false) (detSource d)
      = sourceFails (contextLost s d cause) .detector (detSource d) := by
  unfold referenceAbsent
  rw [setContext_told]
  exact if_pos (uses_of_source h source)

theorem referenceAbsent_of_target (other : ∀ sel, s.tbu.state.current = some sel → sel.source ≠ detSource d)
    (flight : s.tbu.state.switch = some sw) (source : sw.target.source = detSource d) :
    referenceAbsent (presenceTold s d cause false) (detSource d) = losesReadiness (contextLost s d cause) := by
  have serves : uses (detSource d) (s.tbu.state.switch.map Switch.target) = true := by
    rw [flight]
    exact uses_of_source rfl source
  unfold referenceAbsent
  rw [setContext_told]
  exact (if_neg (by
    rw [show (contextLost s d cause).tbu.state = s.tbu.state from rfl, uses_eq_false other]
    exact nofun)).trans (if_pos serves)

theorem referenceAbsent_of_unused (other : ∀ sel, s.tbu.state.current = some sel → sel.source ≠ detSource d)
    (elsewhere : ∀ sw, s.tbu.state.switch = some sw → sw.target.source ≠ detSource d) :
    referenceAbsent (presenceTold s d cause false) (detSource d) = contextLost s d cause := by
  have idle : uses (detSource d) (s.tbu.state.switch.map Switch.target) = false := by
    refine uses_eq_false fun sel h => ?_
    obtain ⟨sw, flight, rfl⟩ := Option.map_eq_some_iff.mp h
    exact elsewhere sw flight
  unfold referenceAbsent
  rw [setContext_told]
  exact (if_neg (by
    rw [show (contextLost s d cause).tbu.state = s.tbu.state from rfl, uses_eq_false other]
    exact nofun)).trans (if_neg (by
    rw [show (contextLost s d cause).tbu.state = s.tbu.state from rfl, idle]
    exact nofun))

/-- A lock is abandoned unless the synthesizer serves a current selection. -/
theorem abandonLock_of_current {u : State} (h : u.tbu.state.current = some cur) : abandonLock u
    = u.setTbu { u.tbu with synth := if cur.syn.isSome then u.tbu.synth else .stopped } := by
  cases syn : cur.syn.isSome with
  | true => exact abandonLock_of_serves (by rw [h]; exact syn)
  | false => exact abandonLock_of_direct (by rw [h]; exact syn)

theorem losesReadiness_of_preparing {u : State} (h : u.tbu.state = .preparing sw dl) :
    losesReadiness u = u.setTbu { u.tbu with synth := .stopped } := by
  unfold losesReadiness
  rw [h]
  exact abandonLock_of_direct (by rw [h]; rfl)

theorem losesReadiness_of_switching {u : State} (h : u.tbu.state = .switching cur sw dl) : losesReadiness u
    = u.setTbu { u.tbu with synth := if cur.syn.isSome then u.tbu.synth else .stopped } := by
  unfold losesReadiness
  rw [h]
  exact abandonLock_of_current (by rw [h]; rfl)

/-- A target on the detector's source is readied when the detector enters PRESENT. -/
theorem readied_presence (present : (s.det d).state = .present) (flight : s.tbu.state.switch = some sw)
    (source : sw.target.source = detSource d) (moving : ∀ cur x e, s.tbu.state ≠ .waitAlign cur x e) :
    Readied (presenceTold s d cause true) fun t => presenceChanged s d cause true = t := by
  refine readied_progress (fun cur x e => by rw [tbu_presenceTold]; exact moving cur x e) ?_
  rw [presenceChanged_of_entered present, ← source]
  exact sourceBecomesReady_of_target (by rw [tbu_presenceTold]; exact flight)

theorem sourceReady_of_present (present : (s.det d).state = .present) : s.sourceReady (detSource d) = true := by
  cases d
  case da => exact beq_iff_eq.mpr present
  case db => exact beq_iff_eq.mpr present

end Presence

/-! ### The result of a gate (R122) -/

section Gate

variable {s : State} {d : Detector} {edges n : Nat}

theorem within_iff (v : Deviation) (threshold : Nat) :
    v.within threshold = true ↔ ∃ x : Int, v = .ppm x ∧ x.natAbs ≤ threshold := by
  cases v with
  | ppm x => exact ⟨fun h => ⟨x, rfl, of_decide_eq_true h⟩, fun ⟨y, e, h⟩ => by cases e; exact decide_eq_true h⟩
  | noEdges => exact ⟨nofun, fun ⟨y, e, _⟩ => nomatch e⟩
  | outOfRange => exact ⟨nofun, fun ⟨y, e, _⟩ => nomatch e⟩

theorem gateResult_xo (t : SourceTable) (d : Detector) (edges n : Nat) : gateResult t d .xo edges n
    = if edges = 0 then .noEdges
      else if Int.tdiv (((edges * t.xo.freq : Nat) - ((t.ref d).freq * n : Nat) : Int) * 1000000) ((t.ref d).freq * n : Nat) < -50000
          ∨ 50000 < Int.tdiv (((edges * t.xo.freq : Nat) - ((t.ref d).freq * n : Nat) : Int) * 1000000) ((t.ref d).freq * n : Nat)
        then .outOfRange
        else .ppm (Int.tdiv (((edges * t.xo.freq : Nat) - ((t.ref d).freq * n : Nat) : Int) * 1000000) ((t.ref d).freq * n : Nat)) :=
  rfl

theorem gateResult_irc (t : SourceTable) (d : Detector) (edges n : Nat) : gateResult t d .irc edges n
    = if edges = 0 then .noEdges
      else if 95 * (t.ref d).freq ≤ 10 * edges ∧ 10 * edges ≤ 105 * (t.ref d).freq then .ppm 0 else .outOfRange := by
  have near : (95 * (10 * (t.ref d).freq) ≤ 100 * edges ∧ 100 * edges ≤ 105 * (10 * (t.ref d).freq))
      ↔ (95 * (t.ref d).freq ≤ 10 * edges ∧ 10 * edges ≤ 105 * (t.ref d).freq) := by omega
  show ircTimed (t.ref d).freq edges = _
  unfold ircTimed
  simp only [near]

/-- The record of a detector whose gate has completed. -/
def gateRecord (s : State) (d : Detector) (v : Deviation) (timing : GateTiming) (st : DetState) (good : Nat) : DetRec :=
  ⟨st, good, some v, some timing, (s.det d).gateStart + 10 * cyclesPerMs, s.tbu.xo == .ready⟩

/-- A gate completes: the detector moves, and a change of presence is handed on. -/
theorem gateCompletes_eq (s : State) (d : Detector) (edges n : Nat) {timing : GateTiming} {v : Deviation}
    {st : DetState} {mv : DetState × Nat} (ht : gateTiming (s.det d) n = timing)
    (hv : gateResult s.table d timing edges n = v) (hs : (s.det d).state = st)
    (hm : detMove (s.table.ref d) st (s.det d).good v = mv) : gateCompletes s d edges n
      = if (st == .present) == (mv.1 == .present) then
          State.setDet { s with now := max s.now ((s.det d).gateStart + 10 * cyclesPerMs) } d (gateRecord s d v timing mv.1 mv.2)
        else presenceChanged
          (State.setDet { s with now := max s.now ((s.det d).gateStart + 10 * cyclesPerMs) } d
            (gateRecord s d v timing mv.1 mv.2)) d .gate (mv.1 == .present) := by
  subst ht hv hs hm
  rfl

section Moves

variable {e : RefEntry} {good : Nat} {v : Deviation}

theorem detMove_absent_good (h : v.within e.on = true) (more : 2 ≤ e.qualify) : detMove e .absent good v = (.qualifying, 1) := by
  unfold detMove
  dsimp only
  rw [if_pos h, if_neg (Nat.not_le.mpr more)]

theorem detMove_absent_qualified (h : v.within e.on = true) (one : e.qualify ≤ 1) : detMove e .absent good v = (.present, 1) := by
  unfold detMove
  dsimp only
  rw [if_pos h, if_pos one]

theorem detMove_qualifying_good (h : v.within e.on = true) (more : good + 1 < e.qualify) :
    detMove e .qualifying good v = (.qualifying, good + 1) := by
  unfold detMove
  dsimp only
  rw [if_pos h, if_neg (Nat.not_le.mpr more)]

theorem detMove_qualifying_qualified (h : v.within e.on = true) (enough : e.qualify ≤ good + 1) :
    detMove e .qualifying good v = (.present, e.qualify) := by
  unfold detMove
  dsimp only
  rw [if_pos h, if_pos enough]

theorem detMove_present_good (h : v.within e.off = true) : detMove e .present good v = (.present, good) := by
  unfold detMove
  dsimp only
  rw [if_pos h]

theorem detMove_present_bad (h : v.within e.off = false) : detMove e .present good v = (.absent, 0) := by
  unfold detMove
  dsimp only
  rw [if_neg (by rw [h]; exact nofun)]

theorem detMove_other_bad {st : DetState} (h : v.within e.on = false) (other : st ≠ .present) :
    detMove e st good v = (.absent, 0) := by
  unfold detMove
  cases st with
  | absent => exact if_neg (by rw [h]; exact nofun)
  | qualifying => exact if_neg (by rw [h]; exact nofun)
  | present => exact absurd rfl other

end Moves

end Gate

/-- Settles O52: the table of the detector's moves, and what a change of presence does by the state of the unit. -/
theorem gateMovesTheDetector : Obligations.GateMovesTheDetector := by
  unfold Obligations.GateMovesTheDetector
  refine ⟨fun s d edges n running => ?_, fun s d cause => ?_⟩
  · intro e r timing ppm v within after s'
    have ht : gateTiming r n = timing := rfl
    clear_value timing
    have hv : gateResult s.table d timing edges n = v := by
      cases timing
      case xo => exact gateResult_xo s.table d edges n
      case irc => exact gateResult_irc s.table d edges n
    have good (threshold : Nat) : v.within threshold = true ↔ within threshold := within_iff v threshold
    have bad (threshold : Nat) (h : ¬within threshold) : v.within threshold = false :=
      Bool.eq_false_iff.mpr fun g => h ((good threshold).mp g)
    have moves {st : DetState} {mv : DetState × Nat} (hs : r.state = st) (hm : detMove e st r.good v = mv) :=
      gateCompletes_eq s d edges n ht hv hs hm
    have w : exec (.gateCompletion d edges n) s = .next (gateCompletes s d edges n) := by
      show Host.Outcome.next (if s.resetLow then s else gateCompletes s d edges n) = _
      rw [running]
      rfl
    refine ⟨fun near state more => ?_, fun near state one => ?_, fun near state more => ?_, fun near state enough => ?_,
      fun near state => ?_, fun far state => ?_, fun far state => ?_⟩
    · rw [w, moves state (detMove_absent_good ((good _).mpr near) more)]
      rfl
    · rw [w, moves state (detMove_absent_qualified ((good _).mpr near) one)]
      rfl
    · rw [w, moves state (detMove_qualifying_good ((good _).mpr near) more)]
      rfl
    · rw [w, moves state (detMove_qualifying_qualified ((good _).mpr near) enough)]
      rfl
    · rw [w, moves state (detMove_present_good ((good _).mpr near))]
      rfl
    · rw [w, moves rfl (detMove_other_bad (bad _ far) state), beq_eq_false_iff_ne.mpr state]
      rfl
    · rw [w, moves state (detMove_present_bad (bad _ far))]
      rfl
  · intro src r told invalid
    have same : detSource d = src := by cases d <;> rfl
    have lost : contextLost s d cause = (told false).setTbu invalid := by
      show (told false).setTbu { s.tbu with ctx := s.tbu.ctx.set (detSource d) none } = _
      rw [same]
    have other {x : Option Selection} (h : ∀ sel, x = some sel → sel.source ≠ src) :
        ∀ sel, x = some sel → sel.source ≠ detSource d := fun sel e => by rw [same]; exact h sel e
    have entered (present : r.state = .present) : presenceChanged s d cause true = sourceBecomesReady (told true) src := by
      rw [presenceChanged_of_entered present, same]
      rfl
    have readied (sw : Switch) (dl : Nat) (present : r.state = .present)
        (h : (∃ cur, s.tbu.state = .switching cur sw dl) ∨ s.tbu.state = .preparing sw dl) (source : sw.target.source = src) :
        Readied (told true) fun t => presenceChanged s d cause true = t := by
      rcases h with ⟨cur, h⟩ | h
      · exact readied_presence present (switch_of_switching h) (source.trans same.symm) (by rw [h]; exact nofun)
      · exact readied_presence present (switch_of_preparing h) (source.trans same.symm) (by rw [h]; exact nofun)
    have unit (present : Bool) : (told present).tbu = s.tbu := tbu_presenceTold present
    have leaves {sw : Switch} (absent : r.state ≠ .present) (free : ∀ sel, s.tbu.state.current = some sel → sel.source ≠ src)
        (flight : s.tbu.state.switch = some sw) (source : sw.target.source = src) :
        presenceChanged s d cause false = losesReadiness ((told false).setTbu invalid) := by
      rw [presenceChanged_of_left absent, referenceAbsent_of_target (other free) flight (source.trans same.symm), lost]
    refine ⟨fun present elsewhere => ?_, fun cur sw dl present h => ?_, fun cur sw dl c present h target stopped => ?_,
      readied, fun absent free idle => ?_, fun sel absent current source => ?_, fun sw dl absent h source => ?_,
      fun cur sw dl absent h free source => ?_, fun cur sw dl absent h free source => ?_⟩
    · rw [entered present]
      exact sourceBecomesReady_of_other (s := told true) fun sw h => elsewhere sw (unit true ▸ h)
    · rw [entered present]
      exact sourceBecomesReady_of_waitAlign (s := told true) src (by rw [unit]; exact h)
    · have source : sw.target.source = src := by rw [target]
      have flight : (told true).tbu.state.switch = some sw := by
        rw [unit]
        exact h.elim switch_of_switching switch_of_preparing
      obtain ⟨-, locks, -⟩ := readied sw dl present (h.imp (fun h => ⟨cur, h⟩) id) source sw flight
      have ready : (told true).sourceReady sw.target.source = true := by
        rw [source, ← same]
        exact (sourceReady_presenceTold true _).trans (sourceReady_of_present present)
      have begun := locks c ready (by rw [target]) (by rw [unit]; exact stopped)
      rw [unit, source, State.handAll_now] at begun
      exact begun
    · rw [presenceChanged_of_left absent, referenceAbsent_of_unused (other free) fun sw h => by rw [same]; exact idle sw h, lost]
    · rw [presenceChanged_of_left absent, referenceAbsent_of_current current (source.trans same.symm), lost, same]
    · rw [leaves absent (by rw [h]; exact nofun) (switch_of_preparing h) source,
        losesReadiness_of_preparing (u := (told false).setTbu invalid) h]
      rfl
    · have only (sel : Selection) (e : s.tbu.state.current = some sel) : sel.source ≠ src := by
        rw [h] at e
        exact Option.some.inj e ▸ free
      rw [leaves absent only (switch_of_switching h) source,
        losesReadiness_of_switching (u := (told false).setTbu invalid) h]
      rfl
    · have only (sel : Selection) (e : s.tbu.state.current = some sel) : sel.source ≠ src := by
        rw [h] at e
        exact Option.some.inj e ▸ free
      rw [leaves absent only (by rw [h]; rfl) source, losesReadiness_of_waitAlign (u := (told false).setTbu invalid) h,
        abandonLock_of_current (cur := cur) rfl]
      have now : ((told false).setTbu invalid).now = s.now := State.handAll_now _ _ _
      rw [now]
      rfl

end Sys2Proof.DetectorProofs
end

section
/-! SOURCE_SET (chapter 6): its checks in order, the entry of the XO, and the entry of a reference with its detector. -/

namespace Sys2Proof.SourceProofs

open Machine Laws VoteProofs DetectorProofs

theorem exec_sourceSet_of_reply {s : State} {m : Master} {f : Frame} {r : Reply} (h : Admitted s m 0x14 f)
    (hr : sourceSetRequest (taken s m f) m f = r) : exec (.sourceSet m) s = .next (answered r.state m f r.code r.payload) :=
  exec_of_reply (owner := fun s f => sourceSetRequest s m f) h (by decide) rfl hr

section Request

variable {s : State} {m : Master} {f : Frame} {d : Detector}

theorem sourceOf_eq_none {n : Nat} (h : 3 < n) : sourceOf n = none := by
  match n, h with
  | n + 4, _ => rfl

theorem maySetSource_iff : maySetSource s m = true ↔ s.tbClaim.mode = .free ∨ s.isSole .tb m = true := by
  unfold maySetSource
  rw [Bool.or_eq_true, beq_iff_eq]
  rfl

/-- A source outside the three that have an entry. -/
theorem sourceSetRequest_of_bad (h : byteAt f.payload 0 < 1 ∨ 3 < byteAt f.payload 0) :
    sourceSetRequest s m f = refuse s .badValue := by
  unfold sourceSetRequest
  rcases h with low | high
  · rw [Nat.lt_one_iff.mp low]
    rfl
  · rw [sourceOf_eq_none high]

theorem sourceSetRequest_of_xo (h : byteAt f.payload 0 = 1) : sourceSetRequest s m f = sourceSetXo s m f.payload := by
  unfold sourceSetRequest
  rw [h]
  rfl

theorem sourceSetRequest_of_ref (h : sourceOf (byteAt f.payload 0) = some (detSource d)) :
    sourceSetRequest s m f = sourceSetRef s m d f.payload := by
  unfold sourceSetRequest
  rw [h]
  cases d <;> rfl

theorem sourceSetRequest_cases (low : 1 ≤ byteAt f.payload 0) (high : byteAt f.payload 0 ≤ 3) :
    sourceSetRequest s m f = sourceSetXo s m f.payload ∨ ∃ d, sourceSetRequest s m f = sourceSetRef s m d f.payload := by
  have three : byteAt f.payload 0 = 1 ∨ byteAt f.payload 0 = 2 ∨ byteAt f.payload 0 = 3 := by omega
  rcases three with h | h | h
  · exact .inl (sourceSetRequest_of_xo h)
  · exact .inr ⟨.da, sourceSetRequest_of_ref (by rw [h]; rfl)⟩
  · exact .inr ⟨.db, sourceSetRequest_of_ref (by rw [h]; rfl)⟩

/-- While TB is held by others, or shared, nobody sets a source. -/
theorem sourceSetRequest_of_not_sole (low : 1 ≤ byteAt f.payload 0) (high : byteAt f.payload 0 ≤ 3)
    (no : maySetSource s m = false) : sourceSetRequest s m f = refuse s .notSole := by
  rcases sourceSetRequest_cases low high with h | ⟨d, h⟩
  · rw [h]
    exact if_pos (by rw [no]; rfl)
  · rw [h]
    exact if_pos (by rw [no]; rfl)

theorem sourceSetRequest_of_locked (low : 1 ≤ byteAt f.payload 0) (high : byteAt f.payload 0 ≤ 3)
    (may : maySetSource s m = true) (locked : s.tbu.lock ≠ none) : sourceSetRequest s m f = refuse s .locked := by
  rcases sourceSetRequest_cases low high with h | ⟨d, h⟩
  · rw [h]
    exact (if_neg (by rw [may]; exact nofun)).trans (if_pos (Option.isSome_iff_ne_none.mpr locked))
  · rw [h]
    exact (if_neg (by rw [may]; exact nofun)).trans (if_pos (Option.isSome_iff_ne_none.mpr locked))

theorem sourceSetXo_of_bad (may : maySetSource s m = true) (free : s.tbu.lock = none) (h : xoEntryOf f.payload = none) :
    sourceSetXo s m f.payload = refuse s .badValue := by
  unfold sourceSetXo
  rw [if_neg (by rw [may]; exact nofun), if_neg (by rw [free]; exact nofun), h]

theorem sourceSetXo_of_entry {e : XoEntry} (may : maySetSource s m = true) (free : s.tbu.lock = none)
    (h : xoEntryOf f.payload = some e) : sourceSetXo s m f.payload = okay (setXoEntry s e) := by
  unfold sourceSetXo
  rw [if_neg (by rw [may]; exact nofun), if_neg (by rw [free]; exact nofun), h]

theorem sourceSetRef_of_bad (may : maySetSource s m = true) (free : s.tbu.lock = none) (h : refEntryOf f.payload = none) :
    sourceSetRef s m d f.payload = refuse s .badValue := by
  unfold sourceSetRef
  rw [if_neg (by rw [may]; exact nofun), if_neg (by rw [free]; exact nofun), h]

theorem sourceSetRef_of_entry {e : RefEntry} (may : maySetSource s m = true) (free : s.tbu.lock = none)
    (h : refEntryOf f.payload = some e) : sourceSetRef s m d f.payload = okay (setRefEntry s d e) := by
  unfold sourceSetRef
  rw [if_neg (by rw [may]; exact nofun), if_neg (by rw [free]; exact nofun), h]

end Request

/-! ### The entries that are replaced (R103, R125) -/

section Entry

variable {s : State} {d : Detector} {e : RefEntry}

/-- A changed frequency makes the XO's context invalid, and the XO is settled under its new entry. -/
theorem setXoEntry_eq (s : State) (e : XoEntry) : setXoEntry s e = xoSettled
    { s with
      table := { s.table with xo := e },
      tbu := { s.tbu with ctx := if e.freq = s.table.xo.freq then s.tbu.ctx else { s.tbu.ctx with xo := none } } } := by
  unfold setXoEntry
  dsimp only
  rw [settleXo_settled]
  by_cases same : e.freq = s.table.xo.freq
  · rw [if_pos same, bne_eq_false_iff_eq.mpr same]
    rfl
  · rw [if_neg same, bne_iff_ne.mpr same]
    rfl

/-- The entry of the reference `d` replaced by `e`. -/
def refTable (t : SourceTable) (d : Detector) (e : RefEntry) : SourceTable :=
  match d with
  | .da => { t with exa := e }
  | .db => { t with exb := e }

/-- The detector `d` begins anew under the entry `e`. -/
def restartedUnder (s : State) (d : Detector) (e : RefEntry) : State :=
  State.setDet { s with table := refTable s.table d e } d ⟨.absent, 0, none, none, s.now, s.tbu.xo == .ready⟩

theorem setRefEntry_of_same (h : e = s.table.ref d) : setRefEntry s d e = s := if_pos h

theorem setRefEntry_of_changed (h : e ≠ s.table.ref d) : setRefEntry s d e
    = if (s.det d).state = .present then presenceChanged (restartedUnder s d e) d .sourceSet false
      else restartedUnder s d e := by
  unfold setRefEntry
  rw [if_neg h]
  cases d <;> rfl

end Entry

/-- Settles O44: the checks in their order, then the entry by its source. -/
theorem sourceSetReplacesAnEntry : Obligations.SourceSetReplacesAnEntry := by
  unfold Obligations.SourceSetReplacesAnEntry
  intro s m f h source freq may
  have mayIff : maySetSource (taken s m f) m = true ↔ may := by
    rw [maySetSource_iff, taken_isSole]
    rfl
  have no (refused : ¬may) : maySetSource (taken s m f) m = false := Bool.eq_false_iff.mpr fun g => refused (mayIff.mp g)
  refine ⟨fun bad => ?_, fun low high refused => ?_, fun low high allowed locked => ?_,
    fun one allowed free => ⟨fun bad => ?_, fun low high => ?_⟩, fun d number allowed free => ?_⟩
  · exact exec_sourceSet_of_reply h (sourceSetRequest_of_bad bad)
  · exact exec_sourceSet_of_reply h (sourceSetRequest_of_not_sole low high (no refused))
  · exact exec_sourceSet_of_reply h (sourceSetRequest_of_locked (s := taken s m f) low high (mayIff.mpr allowed) locked)
  · refine exec_sourceSet_of_reply h ((sourceSetRequest_of_xo one).trans
      (sourceSetXo_of_bad (s := taken s m f) (mayIff.mpr allowed) free (if_neg fun good => ?_)))
    exact bad.elim (Nat.not_lt.mpr good.1) (Nat.not_lt.mpr good.2)
  · have entry : xoEntryOf f.payload = some ⟨freq, byteAt f.payload 3 != 0⟩ := if_pos ⟨low, high⟩
    have reply := (sourceSetRequest_of_xo one).trans (sourceSetXo_of_entry (s := taken s m f) (mayIff.mpr allowed) free entry)
    rw [setXoEntry_eq] at reply
    exact exec_sourceSet_of_reply h reply
  · intro e good t
    have named : sourceOf (byteAt f.payload 0) = some (detSource d) := by
      cases d
      case da => exact congrArg sourceOf number
      case db => exact congrArg sourceOf number
    have request := sourceSetRequest_of_ref (s := taken s m f) (m := m) named
    have under : t = restartedUnder (taken s m f) d e := by cases d <;> rfl
    have replaced (fits : good) : sourceSetRequest (taken s m f) m f = okay (setRefEntry (taken s m f) d e) :=
      request.trans (sourceSetRef_of_entry (s := taken s m f) (mayIff.mpr allowed) free (if_pos fits))
    refine ⟨fun unfit => ?_, fun fits same => ?_, fun fits changed absent => ?_, fun fits changed present => ?_⟩
    · exact exec_sourceSet_of_reply h (request.trans
        (sourceSetRef_of_bad (s := taken s m f) (mayIff.mpr allowed) free (if_neg unfit)))
    · exact exec_sourceSet_of_reply h ((replaced fits).trans
        (congrArg okay (setRefEntry_of_same (s := taken s m f) same)))
    · rw [under]
      exact exec_sourceSet_of_reply h ((replaced fits).trans
        (congrArg okay ((setRefEntry_of_changed (s := taken s m f) changed).trans (if_neg absent))))
    · rw [under]
      exact exec_sourceSet_of_reply h ((replaced fits).trans
        (congrArg okay ((setRefEntry_of_changed (s := taken s m f) changed).trans (if_pos present))))

end Sys2Proof.SourceProofs
end

section
/-! CLOCK (chapter 6): its checks in order, and a CLOCK that is taken alone, proposed, or carried. -/

namespace Sys2Proof.ClockProofs

open Machine Laws VoteProofs OutputProofs

theorem exec_clock_of_reply {s : State} {m : Master} {f : Frame} {r : Reply} (h : Admitted s m 0x13 f)
    (hr : clockRequest (taken s m f) m f = r) : exec (.clock m) s = .next (answered r.state m f r.code r.payload) :=
  exec_of_reply (owner := fun s f => clockRequest s m f) h (by decide) rfl hr

/-! ### The operands (R104, R160) -/

section Operands

variable {p : List Byte}

/-- The payload asks for the selection `sel`. -/
def Names (p : List Byte) (sel : Selection) : Prop :=
  byteAt p 0 = sel.source.number + (if sel.syn.isSome then 4 else 0)
  ∧ ∀ c, sel.syn = some c → c = ⟨byteAt p 1, wordAt p 2, byteAt p 4⟩

theorem selectionOf_of_names {sel : Selection} (h : Names p sel) :
    selectionOf (byteAt p 0) (byteAt p 1) (wordAt p 2) (byteAt p 4) = some sel := by
  obtain ⟨code, settings⟩ := h
  have low : sel.source.number < 4 := by cases sel.source <;> decide
  obtain ⟨src, syn⟩ := sel
  unfold selectionOf
  cases syn with
  | none =>
    have code : byteAt p 0 = src.number := code
    rw [code, if_pos low, sourceOf_number]
    rfl
  | some c =>
    have code : byteAt p 0 = src.number + 4 := code
    rw [code, if_neg (Nat.not_lt.mpr (Nat.le_add_left 4 _)), Nat.add_sub_cancel, sourceOf_number, ← settings c rfl]
    rfl

theorem selectionOf_eq_none {n a b c : Nat} (h : 7 < n) : selectionOf n a b c = none := by
  unfold selectionOf
  rw [if_neg (by omega), SourceProofs.sourceOf_eq_none (by omega)]
  rfl

theorem alignOf_eq_none {n : Nat} (high : 7 < n) (none : n ≠ 255) : alignOf n = .none := by
  unfold alignOf
  rw [if_neg none, outputOf_of_le high]
  rfl

theorem alignOf_none : alignOf 255 = some none := rfl

theorem alignOf_output (o : Output) : alignOf o.val = some (some o) := by revert o; decide

end Operands

/-! ### The request (R110) -/

section Request

variable {s : State} {m : Master} {f : Frame} {sel : Selection} {align : Option Output}

theorem clockRequest_of_not_holder (h : s.isHolder .tb m = false) : clockRequest s m f = refuse s .notHolder := by
  unfold clockRequest
  rw [if_pos (by rw [h]; rfl)]

theorem clockRequest_of_refused {x : Option Selection} {y : Option (Option Output)} {code : ResultCode}
    (holder : s.isHolder .tb m = true)
    (hx : selectionOf (byteAt f.payload 0) (byteAt f.payload 1) (wordAt f.payload 2) (byteAt f.payload 4) = x)
    (hy : alignOf (byteAt f.payload 5) = y) (h : clockCheck s x y = some code) : clockRequest s m f = refuse s code := by
  unfold clockRequest
  dsimp only
  rw [if_neg (by rw [holder]; exact nofun), hx, hy, h]

theorem clockRequest_of_sole (holder : s.isHolder .tb m = true) (sole : s.isSole .tb m = true)
    (hx : selectionOf (byteAt f.payload 0) (byteAt f.payload 1) (wordAt f.payload 2) (byteAt f.payload 4) = some sel)
    (hy : alignOf (byteAt f.payload 5) = some align) (h : clockCheck s (some sel) (some align) = none) :
    clockRequest s m f = okay (takeClock s sel align (.master m f.tag)) := by
  unfold clockRequest
  dsimp only
  rw [if_neg (by rw [holder]; exact nofun), hx, hy, h]
  exact if_pos sole

theorem clockRequest_of_shared (holder : s.isHolder .tb m = true) (shared : s.isSole .tb m = false)
    (hx : selectionOf (byteAt f.payload 0) (byteAt f.payload 1) (wordAt f.payload 2) (byteAt f.payload 4) = some sel)
    (hy : alignOf (byteAt f.payload 5) = some align) (h : clockCheck s (some sel) (some align) = none) :
    clockRequest s m f = openProposal s m f.tag (.clockChange sel align) (wordAt f.payload 6) := by
  unfold clockRequest
  dsimp only
  rw [if_neg (by rw [holder]; exact nofun), hx, hy, h]
  exact if_neg (by rw [shared]; exact nofun)

/-! ### The checks (R110, steps 2 to 5) -/

theorem clockCheck_of_locked {x : Option Selection} {y : Option (Option Output)} (h : lockRefuses s x = true) :
    clockCheck s x y = some .locked := if_pos h

theorem lockRefuses_of_free {x : Option Selection} (h : s.tbu.lock = none) : lockRefuses s x = false := by
  unfold lockRefuses
  rw [h]

theorem lockRefuses_of_no_selection (h : s.tbu.lock ≠ none) : lockRefuses s none = true := by
  obtain ⟨l, lock⟩ := Option.ne_none_iff_exists'.mp h
  unfold lockRefuses
  rw [lock]
  rfl

theorem lockRefuses_of_current {x : Option Selection} (h : s.tbu.lock ≠ none) (current : s.tbu.state.current ≠ none) :
    lockRefuses s x = true := by
  obtain ⟨l, lock⟩ := Option.ne_none_iff_exists'.mp h
  have timebase : s.tbu.state.hasTimebase = true := Option.isSome_iff_ne_none.mpr current
  unfold lockRefuses
  rw [lock]
  dsimp only
  rw [timebase, Bool.or_true]

theorem clockCheck_of_no_selection {y : Option (Option Output)} (h : s.tbu.lock = none) :
    clockCheck s none y = some .badValue := by
  unfold clockCheck
  rw [if_neg (by rw [lockRefuses_of_free h]; exact nofun)]

theorem clockCheck_of_bad_align (h : LockPasses s sel) : clockCheck s (some sel) none = some .badValue := by
  unfold clockCheck
  rw [if_neg fun refuses => (lockRefuses_iff s sel).mp refuses h]

end Request

/-! ### A switch to the XO (R101, R112) -/

section ToXo

variable {u : State} {src : Source}

theorem meets_xo {s : State} (h : s.table.xo.freq ≤ 240000) : SelectionMeets s ⟨.xo, none⟩ := h

theorem not_synBusy_direct {s : State} {src : Source} : ¬SynBusy s ⟨src, none⟩ := fun h => absurd h.1 nofun

theorem not_redundant_of_running {cur sel : Selection} (h : u.tbu.state = .running cur) (ne : cur ≠ sel) :
    ¬Redundant u sel := by
  rintro (same | same)
  · rw [h] at same
    exact ne (TbuState.running.inj same)
  · rw [h] at same
    exact absurd same nofun

/-- From a direct selection a switch to the XO starts it, and stops the synthesizer. -/
theorem switchBegins_xo (off : u.tbu.xo = .off) {sw : Switch} (target : sw.target = ⟨.xo, none⟩) (dl : Nat) :
    switchBegins u (.switching ⟨src, none⟩ sw dl) sw none
      = switchTold (u.setTbu { u.tbu with state := .switching ⟨src, none⟩ sw dl, xo := .starting 0, synth := .stopped }) sw
          (.started sw) := by
  have goes : unitGoes u (.switching ⟨src, none⟩ sw dl)
      = u.setTbu { u.tbu with state := .switching ⟨src, none⟩ sw dl, xo := .starting 0, synth := .stopped } := by
    unfold unitGoes xoSettled selectionsOf
    simp [TbuState.current, TbuState.switch, TbuState.standbySel, target, off]
    rfl
  exact congrArg (fun v => switchTold v sw (.started sw)) goes

/-- A CLOCK of the XO taken in RUNNING on another direct selection waits for the XO to become READY. -/
theorem clockTaken_xo {origin : SwitchOrigin} {align : Option Output} {ends : State → Prop}
    (taken : ClockTaken u ⟨⟨.xo, none⟩, origin, align⟩ ends) (running : u.tbu.state = .running ⟨src, none⟩)
    (off : u.tbu.xo = .off) :
    ends ((u.setTbu { u.tbu with
        state := .switching ⟨src, none⟩ ⟨⟨.xo, none⟩, origin, align⟩ (u.now + 40 * cyclesPerMs)
        xo := .starting 0, synth := .stopped }).handAll
      (withOrigin (u.holders .tb) (clockMaster origin)) (.clockEvent (.started ⟨⟨.xo, none⟩, origin, align⟩)
        (.switching ⟨src, none⟩ ⟨⟨.xo, none⟩, origin, align⟩ (u.now + 40 * cyclesPerMs)) u.tbu.fail)) := by
  have readied := taken.1 ⟨src, none⟩ running
  rw [switchBegins_xo off rfl] at readied
  obtain ⟨waits, -⟩ := readied ⟨⟨.xo, none⟩, origin, align⟩ (by rw [TimebaseProofs.tbu_switchTold]; rfl)
  refine waits ?_
  unfold switchTold State.sourceReady
  rw [State.handAll_tbu]
  rfl

theorem withOrigin_of_mem {ms : List Master} {m : Master} (h : m ∈ ms) : withOrigin ms (some m) = ms :=
  if_pos (List.contains_iff_mem.mpr h)

theorem mem_holders_of_sole {s : State} {t : Target} {m : Master} (h : s.isSole t m = true) : m ∈ s.holders t := by
  rw [beq_iff_eq.mp h]
  exact List.mem_singleton.mpr rfl

end ToXo

/-- Settles O43: the checks in their order, a CLOCK taken alone, proposed and carried, and a direct XO spelled out. -/
theorem clockBeginsASwitch : Obligations.ClockBeginsASwitch := by
  unfold Obligations.ClockBeginsASwitch
  intro names
  have request (s : State) (m : Master) (f : Frame) (sel : Selection) (align : Option Output) (admitted : Admitted s m 0x13 f)
      (named : names f sel) (holder : s.isHolder .tb m = true)
      (output : alignOf (byteAt f.payload 5) = some align) (passes : LockPasses s sel) (meets : SelectionMeets s sel)
      (quiet : ¬SynBusy s sel) (new : ¬Redundant s sel) (sole : s.isSole .tb m = true) :
      ClockTaken (taken s m f) ⟨sel, .master m f.tag, align⟩ fun t => exec (.clock m) s = .next (answered t m f .ok []) :=
    clockTaken_takeClock (exec_clock_of_reply admitted (clockRequest_of_sole (isHolder_taken holder) (isSole_taken sole)
      (selectionOf_of_names named) output
      (((clockCheck_eq (taken s m f) sel align).2 passes).2 meets |>.2.2 quiet new)))
  have carried (s : State) (m : Master) (f : Frame) (p : Proposal) (sel : Selection) (align : Option Output)
      (last : LastVote s m f p) (matter : p.matter = .clockChange sel align) :
      ClockCarried (voted s m f p) p sel align fun t outcome =>
        exec (.vote m) s = .next (answered (roundOver t p outcome) m f .ok []) := by
    have carries := carries_of_last_vote last
    unfold Carries at carries
    rw [matter] at carries
    exact carries
  have aligned {n : Nat} {align : Option Output} (output : n = match align with
      | none => 255
      | some o => o.val) : alignOf n = some align := by
    cases align with
    | none => exact congrArg alignOf output
    | some o => exact (congrArg alignOf output).trans (alignOf_output o)
  refine ⟨settingsValid_iff, selectionValid_iff, fun s m f admitted => ⟨fun other => ?_, fun holder locked bad => ?_,
      fun holder free bad => ?_, fun src sole running ne free off freq code output => ?_⟩,
    fun s m f sel admitted named holder => ⟨fun locked => ?_, fun passes bad => ?_, fun align output passes meets =>
      ⟨fun busy => ?_, fun same => ?_, fun quiet new shared => ?_, fun quiet new sole => ?_⟩⟩,
    fun s m f p sel align last matter => ?_, fun s m f p align last matter freq => ⟨fun src running ne free off => ?_,
      fun running free => ?_, fun locked current => ?_⟩⟩
  · exact exec_clock_of_reply admitted (clockRequest_of_not_holder (isHolder_taken other))
  · rcases bad with high | current
    · exact exec_clock_of_reply admitted (clockRequest_of_refused (isHolder_taken holder) (selectionOf_eq_none high) rfl
        (clockCheck_of_locked (s := taken s m f) (lockRefuses_of_no_selection (s := taken s m f) locked)))
    · exact exec_clock_of_reply admitted (clockRequest_of_refused (isHolder_taken holder) rfl rfl
        (clockCheck_of_locked (s := taken s m f) (lockRefuses_of_current (s := taken s m f) locked current)))
  · exact exec_clock_of_reply admitted (clockRequest_of_refused (isHolder_taken holder) (selectionOf_eq_none bad) rfl
      (clockCheck_of_no_selection (s := taken s m f) free))
  · have named : names f ⟨.xo, none⟩ := ⟨code, nofun⟩
    have goes := clockTaken_xo (request s m f ⟨.xo, none⟩ none admitted named (isHolder_of_isSole sole)
      (by rw [output]; rfl) (.inl free) (meets_xo freq) not_synBusy_direct
      (not_redundant_of_running running fun same => ne (congrArg Selection.source same)) sole) running off
    rw [holders_taken, clockMaster, withOrigin_of_mem (mem_holders_of_sole sole)] at goes
    exact goes
  · exact exec_clock_of_reply admitted (clockRequest_of_refused (isHolder_taken holder) (selectionOf_of_names named) rfl
      (clockCheck_of_locked ((lockRefuses_iff (taken s m f) sel).mpr locked)))
  · have refused {y : Option (Option Output)} (hy : alignOf (byteAt f.payload 5) = y)
        (check : clockCheck (taken s m f) (some sel) y = some .badValue) :=
      exec_clock_of_reply admitted (clockRequest_of_refused (isHolder_taken holder) (selectionOf_of_names named) hy check)
    cases align : alignOf (byteAt f.payload 5) with
    | none => exact refused align (clockCheck_of_bad_align (s := taken s m f) passes)
    | some a =>
      rcases bad with ⟨high, none⟩ | unfit
      · exact absurd (align.symm.trans (alignOf_eq_none high none)) nofun
      · exact refused align (((clockCheck_eq (taken s m f) sel a).2 passes).1 unfit)
  · exact exec_clock_of_reply admitted (clockRequest_of_refused (isHolder_taken holder) (selectionOf_of_names named)
      (aligned output) (((clockCheck_eq (taken s m f) sel align).2 passes).2 meets |>.1 busy))
  · exact exec_clock_of_reply admitted (clockRequest_of_refused (isHolder_taken holder) (selectionOf_of_names named)
      (aligned output) (((clockCheck_eq (taken s m f) sel align).2 passes).2 meets |>.2.1 same))
  · exact handedOver_of_exec (joined_of_admitted admitted) _ _ fun r hr => exec_clock_of_reply admitted
      ((clockRequest_of_shared (isHolder_taken holder) (isSole_taken shared) (selectionOf_of_names named) (aligned output)
        (((clockCheck_eq (taken s m f) sel align).2 passes).2 meets |>.2.2 quiet new)).trans hr)
  · exact request s m f sel align admitted named holder (aligned output) passes meets quiet new sole
  · exact carried s m f p sel align last matter
  · obtain ⟨-, judged⟩ := carried s m f p ⟨.xo, none⟩ align last matter
    obtain ⟨-, -, begins⟩ := judged (.inl free) (meets_xo freq)
    have goes := clockTaken_xo (begins not_synBusy_direct
      (not_redundant_of_running running fun same => ne (congrArg Selection.source same))) running off
    rw [voted_eq, holders_setProposals, holders_taken] at goes
    exact exec_of_votes (by rw [← handAll_setProposals]; exact goes) (State.handAll_consent _ _ _)
  · obtain ⟨-, judged⟩ := carried s m f p ⟨.xo, none⟩ align last matter
    obtain ⟨-, same, -⟩ := judged (.inl free) (meets_xo freq)
    exact exec_of_votes (t := taken s m f) (same (.inl running)) rfl
  · obtain ⟨refused, -⟩ := carried s m f p ⟨.xo, none⟩ align last matter
    refine exec_of_votes (t := taken s m f) (refused fun passes => ?_) rfl
    exact passes.elim locked fun passes => current passes.2

end Sys2Proof.ClockProofs
end

section
/-! PROPOSAL_DEADLINE (chapter 5): an open proposal lapses, with what it reserved. -/

namespace Sys2Proof.DeadlineProofs

open Machine Laws VoteProofs ConsentProofs

section Lapse

variable {s : State} {p : Proposal}

theorem proposalLapses_of_open {id : Nat} (h : s.proposal id = some p) :
    proposalLapses s id = endProposal { s with now := max s.now p.deadline } p .lapsed := by
  unfold proposalLapses
  rw [h]
  rfl

theorem proposalLapses_of_none {id : Nat} (h : s.proposal id = none) : proposalLapses s id = s := by
  unfold proposalLapses
  rw [h]

/-- What is told at the end of a round, its record freed. -/
theorem roundOver_eq (u : State) (p : Proposal) (c : RoundOutcome) : roundOver u p c
    = (p.proposer :: p.required).foldl (fun u m => u.hand m (.proposalEnd p.id p.matter p.proposer p.tag c))
        (u.setProposals (u.consent.proposals.filter fun x => x.id != p.id)) := rfl

theorem unreserve_of_device (h : p.matter = .standby ∨ p.matter = .deviceReset) : unreserve s p = s := by
  unfold unreserve
  rcases h with h | h
  · rw [h]
  · rw [h]

theorem dropRef_handAll (u : State) (k : Slot) (ms : List Master) (n : Notice) :
    (u.handAll ms n).dropRef k = (u.dropRef k).handAll ms n := by
  unfold State.dropRef
  rw [handAll_setSlot, State.slot_handAll]

theorem dropRef_dropRef (u : State) (k : Slot) :
    (u.dropRef k).dropRef k = u.setSlot k { u.slot k with refs := (u.slot k).refs - 2 } := by
  unfold State.dropRef
  rw [State.setSlot_setSlot, State.slot_setSlot_self]
  rfl

/-- A lone RESERVED entry leaves, and the slot loses its reference and the payload's. -/
theorem unreserve_of_change {o : Output} {k : Slot} {e : Entry} (matter : p.matter = .outputChange o k)
    (kind : e.kind = .change k) (reserved : e.state = .reserved) (owner : e.pid = some p.id) (queue : s.queue o = [e]) :
    unreserve s p = (((s.setQueue o []).setSlot k { s.slot k with refs := (s.slot k).refs - 2 }).handAll
      (withOrigin (s.holders (.out o)) (e.origin.map Prod.fst))
      (.changeDone o (.change k) e.origin (some p.id) (s.sq o).frameNo .withdrawn)) := by
  have mine : reservedFor p e = true := by
    unfold reservedFor
    rw [reserved, owner, beq_self_eq_true, beq_self_eq_true]
    rfl
  have leaves : (s.queue o).filter (reservedFor p) = [e] := by
    rw [queue, List.filter_cons_of_pos mine]
    rfl
  have stays : ((s.queue o).filter fun e => !reservedFor p e) = [] := by
    rw [queue, List.filter_cons_of_neg (by rw [mine]; exact nofun)]
    rfl
  unfold unreserve
  rw [matter]
  dsimp only
  rw [leaves, stays]
  unfold entriesGo
  rw [List.foldl_cons, List.foldl_nil, kind, owner]
  dsimp only
  rw [dropRef_handAll, dropRef_dropRef]
  simp only [State.holders, State.claim_setQueue, State.sq_setQueue, State.slot_setQueue]

end Lapse

/-- Settles O55: what the end of the round leaves, by the matter of the proposal. -/
theorem deadlineLapsesTheProposal : Obligations.DeadlineLapsesTheProposal := by
  unfold Obligations.DeadlineLapsesTheProposal
  refine ⟨fun s id p h => ?_, fun s id h => congrArg _ (proposalLapses_of_none h)⟩
  intro s' others told
  have ends : exec (.proposalDeadline id) s = .next (endProposal s' p .lapsed) := congrArg _ (proposalLapses_of_open h)
  have finished : exec (.proposalDeadline id) s = .next (roundOver (unreserve s' p) p .lapsed) := by
    rw [ends, endProposal_eq_roundOver]
  refine ⟨ends, finished, fun device => ?_, fun o k e matter kind reserved owner queue => ?_⟩
  · rw [finished, unreserve_of_device device]
    rfl
  · rw [finished, unreserve_of_change (s := s') matter kind reserved owner queue, roundOver_eq, State.handAll_consent]
    rfl

end Sys2Proof.DeadlineProofs
end

section
/-! Standby entry (chapter 11): what the rest of one output does to the others, and what it leaves of the output itself. -/

namespace Sys2Proof.StandbyProofs

open Machine Laws FrameProofs BoundaryProofs CompletionProofs TimebaseProofs

/-! ### What reaches an output that is not itself settled -/

/-- From `s` to `t` the output `o` may start where it waits, and may be marked by a completion; what standby entry looks
at stays. -/
structure Spared (o : Output) (s t : State) : Prop where
  state : (s.sq o).state ≠ .waiting → (t.sq o).state = (s.sq o).state
  starts : (s.sq o).state = .waiting → (t.sq o).state = .waiting ∨ (t.sq o).state = .running
  mark : (t.sq o).resumeMark = (s.sq o).resumeMark
  current : (t.sq o).current = (s.sq o).current
  group : (t.sq o).group = (s.sq o).group
  next : (t.sq o).next = (s.sq o).next
  cut : (t.sq o).cut = (s.sq o).cut
  frame : (s.sq o).state ≠ .waiting → (t.sq o).frameNo = (s.sq o).frameNo ∧ (t.sq o).last = (s.sq o).last
  queue : t.queue o = s.queue o
  burst : (s.sq o).state ≠ .waiting → t.burst o = s.burst o

namespace Spared

variable {o : Output} {s t u : State}

theorem of_record {r : OutRec} (record : t.sq o = r) (state : r.state = (s.sq o).state)
    (mark : r.resumeMark = (s.sq o).resumeMark) (current : r.current = (s.sq o).current) (group : r.group = (s.sq o).group)
    (next : r.next = (s.sq o).next) (cut : r.cut = (s.sq o).cut) (number : r.frameNo = (s.sq o).frameNo)
    (last : r.last = (s.sq o).last) (queue : t.queue o = s.queue o) (burst : t.burst o = s.burst o) : Spared o s t := by
  subst record
  exact ⟨fun _ => state, fun h => .inl (state.trans h), mark, current, group, next, cut, fun _ => ⟨number, last⟩, queue,
    fun _ => burst⟩

theorem of_chan (h : t.chan o = s.chan o) : Spared o s t :=
  of_record (congrArg Channel.sq h) rfl rfl rfl rfl rfl rfl rfl rfl (congrArg Channel.queue h) (congrArg Channel.burst h)

theorem refl (s : State) : Spared o s s := of_chan rfl

theorem trans (h : Spared o s t) (g : Spared o t u) : Spared o s u := by
  have still (n : (s.sq o).state ≠ .waiting) : (t.sq o).state ≠ .waiting := by rw [h.state n]; exact n
  refine ⟨fun n => (g.state (still n)).trans (h.state n), fun w => ?_, g.mark.trans h.mark, g.current.trans h.current,
    g.group.trans h.group, g.next.trans h.next, g.cut.trans h.cut, fun n => ?_, g.queue.trans h.queue,
    fun n => (g.burst (still n)).trans (h.burst n)⟩
  · rcases h.starts w with waits | runs
    · exact g.starts waits
    · exact .inr ((g.state (by rw [runs]; exact nofun)).trans runs)
  · obtain ⟨number, last⟩ := h.frame n
    obtain ⟨number', last'⟩ := g.frame (still n)
    exact ⟨number'.trans number, last'.trans last⟩

/-- The start of a waiting output, another one's or the output's own. -/
theorem start (p : Output) (waits : (s.sq p).state = .waiting) : Spared o s (startTogether s [p]) := by
  have one : OneOutput p s (startTogether s [p]) :=
    (((OneOutput.refl p s).setSq (startRecord (s.sq p) s.tbu.fail)).lineReaches).handAll (s.holders (.out p))
      (.outputState p .waiting .running 0)
  by_cases e : o = p
  · subst e
    have record : (startTogether s [o]).sq o = startRecord (s.sq o) s.tbu.fail := by
      unfold startTogether
      rw [List.foldl_cons, List.foldl_nil, State.sq_handAll, (lineReaches_frame _ o).1, State.sq_setSq_self]
    have queue : (startTogether s [o]).queue o = s.queue o := by
      unfold startTogether
      rw [List.foldl_cons, List.foldl_nil, State.queue_handAll, queue_lineReaches, State.queue_setSq]
    exact ⟨fun n => absurd waits n, fun _ => .inr (by rw [record]; rfl), by rw [record]; rfl, by rw [record]; rfl,
      by rw [record]; rfl, by rw [record]; rfl, by rw [record]; rfl, fun n => absurd waits n, queue,
      fun n => absurd waits n⟩
  · exact of_chan (one.chans o e)

theorem startTogether : ∀ (os : List Output) (s : State), os.Nodup → (∀ p ∈ os, (s.sq p).state = .waiting) →
    Spared o s (startTogether s os)
  | [], s, _, _ => refl s
  | p :: os, s, nodup, waits => by
    obtain ⟨fresh, nodup⟩ := List.nodup_cons.mp nodup
    have one : OneOutput p s (Sys2Proof.startTogether s [p]) :=
      (((OneOutput.refl p s).setSq (startRecord (s.sq p) s.tbu.fail)).lineReaches).handAll (s.holders (.out p))
        (.outputState p .waiting .running 0)
    refine (start p (waits p (.head _))).trans (startTogether os _ nodup fun q hq => ?_)
    have same := congrArg Channel.sq (one.chans q fun e => fresh (e ▸ hq))
    exact (congrArg OutRec.state same).trans (waits q (.tail _ hq))

theorem startAll (s : State) (moment : List Output) : Spared o s (startAll s (s.startSet moment)) := by
  rw [startAll_eq]
  refine startTogether _ s (List.Nodup.filter _ (by decide)) fun p hp => ?_
  have may := (List.mem_filter.mp hp).2
  unfold State.mayStart at may
  simp only [Bool.and_eq_true, beq_iff_eq] at may
  exact may.1.1

/-- A completion marks the output at most, and may start it. -/
theorem complete (s : State) (sw : Switch) (aligned : Bool) (moment : List Output) :
    Spared o s (Machine.complete s sw aligned moment) := by
  unfold Machine.complete
  dsimp only
  generalize hu : settleClocks (s.setTbu { s.tbu with state := .running sw.target, fail := false }) = u
  have chan : u.chan o = s.chan o := by
    rw [← hu, settleClocks_eq]
    rfl
  generalize hv : (u.setTbu { u.tbu with xoCheck := checksFor u.now sw.target }).mapSq
    (fun s o => (s.sq o).completion (spared sw aligned o)) = v
  have marked : v.chan o = { s.chan o with sq := completionMark (s.sq o) (spared sw aligned o) } := by
    rw [← hv, chan_mapSq _ _ o fun t h _ => by rw [show t.sq o = _ from congrArg Channel.sq h]; rfl]
    rw [State.chan_setTbu, State.sq_setTbu, completion_eq, chan]
    unfold State.sq
    rw [chan]
  have record : v.sq o = completionMark (s.sq o) (spared sw aligned o) := congrArg Channel.sq marked
  have kept : Spared o s v := by
    have queue : v.queue o = s.queue o := by
      unfold State.queue
      rw [marked]
    have burst : v.burst o = s.burst o := by
      unfold State.burst
      rw [marked]
    unfold completionMark at record
    split at record
    next => exact of_record record rfl rfl rfl rfl rfl rfl rfl rfl queue burst
    next => exact of_record record rfl rfl rfl rfl rfl rfl rfl rfl queue burst
  refine (kept.trans (startAll v moment)).trans (of_chan ?_)
  unfold switchNotice
  rw [State.chan_handAll]

theorem examine (s : State) (moment : List Output) : Spared o s (Machine.examine s moment) := by
  unfold Machine.examine
  dsimp only
  split
  · split
    · split
      · exact (startAll s moment).trans (complete _ _ _ _)
      · exact startAll s moment
    · exact startAll s moment
  · exact startAll s moment

end Spared

/-! ### An output that is settled -/

section Settled

variable {s : State} {o : Output}

theorem oneOutput_outputCleared (s : State) (o : Output) : OneOutput o s (outputCleared s o) := by
  unfold outputCleared
  dsimp only
  refine OneOutput.burstEnds ?_ .standby
  have entries : OneOutput o s (entriesGo o .discarded
      (((s.dropRefOpt (s.sq o).next).setSq o { s.sq o with next := none }).setQueue o
        ((s.queue o).filter fun e => e.state == .reserved)) ((s.queue o).filter fun e => e.state != .reserved)) :=
    ((((OneOutput.refl o s).dropRefOpt _).setSq _).setQueue _).entriesGo _ _
  split
  next => exact entries
  next => exact (entries.setSq _).handAll _ _

theorem sq_outputCleared (s : State) (o : Output) :
    (outputCleared s o).sq o = { s.sq o with next := none, cut := none } := (outputCleared_eq s o).2.1

theorem burst_outputCleared (s : State) (o : Output) : (outputCleared s o).burst o = none := burst_burstEnds _

theorem queue_outputCleared (s : State) (o : Output) :
    (outputCleared s o).queue o = (s.queue o).filter fun e => e.state == .reserved := by
  unfold outputCleared
  dsimp only
  rw [queue_burstEnds]
  have entries (u : State) (es : List Entry) (q : List Entry) : (entriesGo o .discarded (u.setQueue o q) es).queue o = q := by
    rw [(quiet_entriesGo _ _ _ _).queue, State.queue_setQueue_self]
  split
  next => exact entries _ _ _
  next => rw [State.queue_handAll, State.queue_setSq, entries]

/-- The rest of an output that generated events or waited to. -/
theorem sq_standbyRest (s : State) (o : Output) : (standbyRest s o).sq o
    = { (s.sq o).toRest with resumeMark := (s.sq o).resumeMark || (s.sq o).state != .stopping, state := .bound } := by
  unfold standbyRest setOutState outputNotice
  rw [State.sq_handAll, State.sq_setSq_self, State.sq_setSq_self]

theorem oneOutput_standbyRest (s : State) (o : Output) : OneOutput o s (standbyRest s o) := by
  unfold standbyRest setOutState outputNotice
  exact (((OneOutput.refl o s).setSq _).setSq _).handAll _ _

theorem standbyOutput_of_rest (h : (s.sq o).state = .idle ∨ (s.sq o).state = .bound) :
    standbyOutput s o = outputCleared s o := by
  unfold standbyOutput
  dsimp only
  rw [(outputCleared_eq s o).1, sq_outputCleared]
  rcases h with h | h
  · rw [h]
  · rw [h]

theorem standbyOutput_of_halted (h : (s.sq o).state = .waiting ∨ (s.sq o).state = .stopping) :
    standbyOutput s o = standbyRest (outputCleared s o) o := by
  unfold standbyOutput
  dsimp only
  rw [(outputCleared_eq s o).1, sq_outputCleared]
  rcases h with h | h
  · rw [h]
  · rw [h]

theorem standbyOutput_of_running (h : (s.sq o).state = .running) :
    standbyOutput s o = examine (standbyRest (outputCleared s o) o) [] := by
  unfold standbyOutput
  dsimp only
  rw [(outputCleared_eq s o).1, sq_outputCleared, h]

/-- The rest of one output spares every other. -/
theorem spared_standbyOutput {p : Output} (ne : o ≠ p) (s : State) : Spared o s (standbyOutput s p) := by
  have cleared : Spared o s (outputCleared s p) := .of_chan ((oneOutput_outputCleared s p).chans o ne)
  have rests : Spared o s (standbyRest (outputCleared s p) p) :=
    cleared.trans (.of_chan ((oneOutput_standbyRest _ p).chans o ne))
  cases state : (s.sq p).state with
  | idle => rw [standbyOutput_of_rest (.inl state)]; exact cleared
  | bound => rw [standbyOutput_of_rest (.inr state)]; exact cleared
  | waiting => rw [standbyOutput_of_halted (.inl state)]; exact rests
  | stopping => rw [standbyOutput_of_halted (.inr state)]; exact rests
  | running => rw [standbyOutput_of_running state]; exact rests.trans (.examine _ _)

/-- The output `o` as standby entry leaves it, from its state in `s`. -/
structure Rested (o : Output) (s t : State) : Prop where
  state : (t.sq o).state = if (s.sq o).state = .idle then .idle else .bound
  mark : (t.sq o).resumeMark
    = if (s.sq o).state = .waiting ∨ (s.sq o).state = .running then true else (s.sq o).resumeMark
  current : (t.sq o).current = (s.sq o).current
  group : (t.sq o).group = (s.sq o).group
  next : (t.sq o).next = none
  cut : (t.sq o).cut = none
  frame : (s.sq o).state ≠ .waiting → (t.sq o).frameNo = (s.sq o).frameNo ∧ (t.sq o).last = (s.sq o).last
  queue : t.queue o = (s.queue o).filter fun e => e.state == .reserved
  burst : t.burst o = none

/-- What standby entry does to the other outputs leaves a rested one as it is. -/
theorem Rested.spared {u t : State} (h : Rested o s u) (g : Spared o u t) : Rested o s t := by
  have calm : (u.sq o).state ≠ .waiting := by
    rw [h.state]
    split <;> exact nofun
  refine ⟨(g.state calm).trans h.state, g.mark.trans h.mark, g.current.trans h.current, g.group.trans h.group,
    g.next.trans h.next, g.cut.trans h.cut, fun n => ?_, g.queue.trans h.queue, (g.burst calm).trans h.burst⟩
  obtain ⟨number, last⟩ := h.frame n
  obtain ⟨number', last'⟩ := g.frame calm
  exact ⟨number'.trans number, last'.trans last⟩

/-- An output that had been spared before it is settled is rested from its first state. -/
theorem Rested.of_spared {u t : State} (g : Spared o s u) (h : Rested o u t) : Rested o s t := by
  by_cases waits : (s.sq o).state = .waiting
  · have moving : (u.sq o).state ≠ .idle ∧ ((u.sq o).state = .waiting ∨ (u.sq o).state = .running) :=
      (g.starts waits).elim (fun e => ⟨by rw [e]; exact nofun, .inl e⟩) fun e => ⟨by rw [e]; exact nofun, .inr e⟩
    refine ⟨?_, ?_, h.current.trans g.current, h.group.trans g.group, h.next, h.cut, fun n => absurd waits n, ?_, h.burst⟩
    · rw [h.state, if_neg moving.1, waits]
      rfl
    · rw [h.mark, if_pos moving.2, if_pos (.inl waits)]
    · rw [h.queue, g.queue]
  · have same := g.state waits
    refine ⟨?_, ?_, h.current.trans g.current, h.group.trans g.group, h.next, h.cut, fun n => ?_, ?_, h.burst⟩
    · rw [h.state, same]
    · rw [h.mark, same, g.mark]
    · obtain ⟨number, last⟩ := g.frame n
      obtain ⟨number', last'⟩ := h.frame (by rw [same]; exact n)
      exact ⟨number'.trans number, last'.trans last⟩
    · rw [h.queue, g.queue]

theorem queue_standbyRest (s : State) (o : Output) : (standbyRest s o).queue o = s.queue o := by
  unfold standbyRest setOutState outputNotice
  rw [State.queue_handAll, State.queue_setSq, State.queue_setSq]

theorem burst_standbyRest (s : State) (o : Output) : (standbyRest s o).burst o = s.burst o := by
  unfold standbyRest setOutState outputNotice
  rw [State.burst_handAll, State.burst_setSq, State.burst_setSq]

/-- An output at rest is cleared only. -/
theorem rested_outputCleared (h : (s.sq o).state = .idle ∨ (s.sq o).state = .bound) : Rested o s (outputCleared s o) := by
  have record := sq_outputCleared s o
  have other : ¬((s.sq o).state = .waiting ∨ (s.sq o).state = .running) := by
    rcases h with h | h <;> rw [h] <;> decide
  refine ⟨?_, ?_, by rw [record], by rw [record], by rw [record], by rw [record], fun _ => ⟨by rw [record], by rw [record]⟩,
    queue_outputCleared s o, burst_outputCleared s o⟩
  · rw [record]
    rcases h with h | h
    · rw [if_pos h]; exact h
    · rw [if_neg (by rw [h]; exact nofun)]; exact h
  · rw [record, if_neg other]

/-- An output that generated events or waited to goes to BOUND. -/
theorem rested_standbyRest (idle : (s.sq o).state ≠ .idle) (bound : (s.sq o).state ≠ .bound) :
    Rested o s (standbyRest (outputCleared s o) o) := by
  have record := sq_standbyRest (outputCleared s o) o
  rw [sq_outputCleared] at record
  refine ⟨?_, ?_, by rw [record]; rfl, by rw [record]; rfl, by rw [record]; rfl, by rw [record]; rfl,
    fun _ => ⟨by rw [record]; rfl, by rw [record]; rfl⟩, (queue_standbyRest _ o).trans (queue_outputCleared s o),
    (burst_standbyRest _ o).trans (burst_outputCleared s o)⟩
  · rw [record, if_neg idle]
  · rw [record]
    show ((s.sq o).resumeMark || (s.sq o).state != .stopping) = _
    cases state : (s.sq o).state with
    | idle => exact absurd state idle
    | bound => exact absurd state bound
    | waiting => exact Bool.or_true _
    | running => exact Bool.or_true _
    | stopping => exact Bool.or_false _

/-- The output that is settled is rested. -/
theorem rested_standbyOutput (s : State) (o : Output) : Rested o s (standbyOutput s o) := by
  cases state : (s.sq o).state with
  | idle => rw [standbyOutput_of_rest (.inl state)]; exact rested_outputCleared (.inl state)
  | bound => rw [standbyOutput_of_rest (.inr state)]; exact rested_outputCleared (.inr state)
  | waiting =>
    rw [standbyOutput_of_halted (.inl state)]
    exact rested_standbyRest (by rw [state]; exact nofun) (by rw [state]; exact nofun)
  | stopping =>
    rw [standbyOutput_of_halted (.inr state)]
    exact rested_standbyRest (by rw [state]; exact nofun) (by rw [state]; exact nofun)
  | running =>
    rw [standbyOutput_of_running state]
    exact (rested_standbyRest (by rw [state]; exact nofun) (by rw [state]; exact nofun)).spared (.examine _ _)

/-- Standby entry, output by output: each ends rested, whatever becomes of the others meanwhile. -/
theorem rested_of_foldl (o : Output) : ∀ (l : List Output) (u : State), l.Nodup →
    (o ∉ l → Spared o u (l.foldl standbyOutput u)) ∧ (o ∈ l → Rested o u (l.foldl standbyOutput u))
  | [], u, _ => ⟨fun _ => .refl u, nofun⟩
  | p :: l, u, nodup => by
    obtain ⟨fresh, nodup⟩ := List.nodup_cons.mp nodup
    obtain ⟨spares, rests⟩ := rested_of_foldl o l (standbyOutput u p) nodup
    refine ⟨fun out => ?_, fun inside => ?_⟩
    · obtain ⟨ne, out⟩ := not_or.mp (fun h => out (List.mem_cons.mpr h))
      exact (spared_standbyOutput ne u).trans (spares out)
    · by_cases e : o = p
      · subst e
        exact (rested_standbyOutput u o).spared (spares fresh)
      · exact Rested.of_spared (spared_standbyOutput e u) (rests ((List.mem_cons.mp inside).resolve_left e))

end Settled

end Sys2Proof.StandbyProofs
end

section
/-! STANDBY (chapter 11): the Timebase Unit at standby entry, and the request taken alone, proposed and carried. -/

namespace Sys2Proof.StandbyProofs

open Machine Laws VoteProofs StartProofs FrameProofs BoundaryProofs CompletionProofs TimebaseProofs

/-! ### The Timebase Unit while outputs come to rest -/

section Kept

variable {s t u : State}

/-- The selection that standby keeps and the lock stand. -/
structure SelectionStands (s t : State) : Prop where
  kept : standbySelection t = standbySelection s
  lock : t.tbu.lock = s.tbu.lock
  straps : t.straps = s.straps

namespace SelectionStands

theorem refl (s : State) : SelectionStands s s := ⟨rfl, rfl, rfl⟩

theorem trans (h : SelectionStands s t) (g : SelectionStands t u) : SelectionStands s u :=
  ⟨g.kept.trans h.kept, g.lock.trans h.lock, g.straps.trans h.straps⟩

theorem of_tbu (h : t.tbu = s.tbu) (straps : t.straps = s.straps) : SelectionStands s t := by
  refine ⟨?_, by rw [h], straps⟩
  unfold standbySelection
  rw [h, straps]

theorem of_oneOutput {o : Output} (h : OneOutput o s t) : SelectionStands s t := of_tbu h.tbu (by rw [h.rest])

theorem startAll (s : State) (os : List Output) : SelectionStands s (startAll s os) :=
  of_tbu (by rw [startAll_eq, startTogether_tbu]) (Inner.straps (.foldl _ (fun s o => startOne_inner s o) _ _))

/-- A switch in WAIT_ALIGN that completes leaves its target to be kept. -/
theorem complete {cur : Selection} {sw : Switch} {d : Nat} (h : s.tbu.state = .waitAlign cur sw d) (aligned : Bool)
    (moment : List Output) : SelectionStands s (Machine.complete s sw aligned moment) := by
  have unit : (Machine.complete s sw aligned moment).tbu.state = .running sw.target
      ∧ (Machine.complete s sw aligned moment).tbu.lock = s.tbu.lock := by
    unfold Machine.complete switchNotice
    dsimp only
    rw [State.handAll_tbu, startAll_eq, startTogether_tbu, mapSq_tbu, State.setTbu_tbu, settleClocks_eq]
    exact ⟨rfl, rfl⟩
  refine ⟨?_, unit.2, Inner.straps (complete_inner _ _ _ _)⟩
  unfold standbySelection
  rw [unit.1, h]
  rfl

theorem examine (s : State) (moment : List Output) : SelectionStands s (Machine.examine s moment) := by
  unfold Machine.examine
  dsimp only
  split
  next cur sw d h =>
    split
    · split
      · exact (startAll s _).trans (complete h true _)
      · exact startAll s _
    · exact startAll s _
  next => exact startAll s _

theorem standbyOutput (s : State) (o : Output) : SelectionStands s (Machine.standbyOutput s o) := by
  have cleared : SelectionStands s (outputCleared s o) := of_oneOutput (oneOutput_outputCleared s o)
  have rests : SelectionStands s (standbyRest (outputCleared s o) o) :=
    cleared.trans (of_oneOutput (oneOutput_standbyRest _ o))
  cases state : (s.sq o).state with
  | idle => rw [standbyOutput_of_rest (.inl state)]; exact cleared
  | bound => rw [standbyOutput_of_rest (.inr state)]; exact cleared
  | waiting => rw [standbyOutput_of_halted (.inl state)]; exact rests
  | stopping => rw [standbyOutput_of_halted (.inr state)]; exact rests
  | running => rw [standbyOutput_of_running state]; exact rests.trans (examine _ _)

theorem foldl (l : List Output) (s : State) : SelectionStands s (l.foldl Machine.standbyOutput s) := by
  induction l generalizing s with
  | nil => exact refl s
  | cons o l ih => exact (standbyOutput s o).trans (ih _)

end SelectionStands

/-- The Timebase Unit's own part of standby entry leaves the outputs as they are. -/
theorem chan_tbuStandby (s : State) (o : Output) : (tbuStandby s).chan o = s.chan o := by
  unfold tbuStandby
  dsimp only
  rw [endNotice_eq, settleClocks_eq]
  split
  next => rfl
  next => rw [chan_switchTold]; rfl

theorem tbu_tbuStandby (s : State) : (tbuStandby s).tbu
    = { s.tbu with state := .standby (standbySelection s), xo := .off, synth := .stopped, xoCheck := none } := by
  have settles : settleClocks (s.setTbu { s.tbu with state := .standby (standbySelection s), xoCheck := none })
      = unitGoes { s with tbu := { s.tbu with xoCheck := none } } (.standby (standbySelection s)) :=
    settleClocks_of_state { s with tbu := { s.tbu with xoCheck := none } } _
  unfold tbuStandby
  dsimp only
  rw [settles, endNotice_tbu]
  rfl

/-- Standby entry rests every output, whichever of them start meanwhile. -/
theorem rested_enterStandby (s : State) (o : Output) : Rested o s (enterStandby s) := by
  obtain ⟨-, rests⟩ := rested_of_foldl o allOutputs s (by decide)
  unfold enterStandby
  exact (rests (mem_allOutputs o)).spared (.of_chan (chan_tbuStandby _ o))

theorem tbu_enterStandby (s : State) : (enterStandby s).tbu.state = .standby (keptSelection s)
    ∧ (enterStandby s).tbu.xo = .off ∧ (enterStandby s).tbu.synth = .stopped ∧ (enterStandby s).tbu.xoCheck = none
    ∧ (enterStandby s).tbu.lock = s.tbu.lock := by
  have stands := SelectionStands.foldl allOutputs s
  unfold enterStandby
  generalize allOutputs.foldl standbyOutput s = u at stands
  rw [tbu_tbuStandby]
  exact ⟨congrArg TbuState.standby (stands.kept.trans (standbySelection_eq rfl rfl)), rfl, rfl, rfl, stands.lock⟩

end Kept

/-! ### A device at rest -/

section AtRest

variable {s : State} {cur : Selection}

/-- Nothing runs, waits or is queued, and the unit runs on `cur` with no gate timed by the XO. -/
def AtRest (s : State) (cur : Selection) : Prop :=
  s.tbu.state = .running cur ∧ s.da.xoThroughout = false ∧ s.db.xoThroughout = false
    ∧ ∀ o, ((s.sq o).state = .idle ∨ (s.sq o).state = .bound) ∧ (s.sq o).next = none ∧ (s.sq o).cut = none
      ∧ s.burst o = none ∧ ∀ e ∈ s.queue o, e.state = .reserved

theorem outputCleared_of_quiet {o : Output} (next : (s.sq o).next = none) (cut : (s.sq o).cut = none)
    (burst : s.burst o = none) (queue : ∀ e ∈ s.queue o, e.state = .reserved) : outputCleared s o = s := by
  have stays : ((s.queue o).filter fun e => e.state == .reserved) = s.queue o :=
    List.filter_eq_self.mpr fun e he => by rw [queue e he]; rfl
  have leaves : ((s.queue o).filter fun e => e.state != .reserved) = [] :=
    List.filter_eq_nil_iff.mpr fun e he => by rw [queue e he]; exact nofun
  have record : ({ s.sq o with next := none } : OutRec) = s.sq o := by
    generalize s.sq o = r at next
    obtain ⟨⟩ := r
    exact next ▸ rfl
  have dropped : s.dropRefOpt (s.sq o).next = s := by rw [next]; rfl
  unfold outputCleared
  dsimp only
  rw [stays, leaves, dropped, record, setSq_self]
  split
  next =>
    show burstEnds (s.setQueue o (s.queue o)) o .standby = s
    rw [setQueue_self]
    unfold burstEnds
    rw [burst]
  next c pending => exact absurd (cut.symm.trans pending) nofun

theorem standbyOutputs_of_atRest (h : AtRest s cur) : ∀ l : List Output, l.foldl standbyOutput s = s
  | [] => rfl
  | o :: l => by
    obtain ⟨rest, next, cut, burst, queue⟩ := h.2.2.2 o
    rw [List.foldl_cons, standbyOutput_of_rest rest, outputCleared_of_quiet next cut burst queue]
    exact standbyOutputs_of_atRest h l

/-- Only the Timebase Unit has anything left to do. -/
theorem enterStandby_of_atRest (h : AtRest s cur) : enterStandby s
    = s.setTbu { s.tbu with state := .standby cur, xo := .off, synth := .stopped, xoCheck := none } := by
  have still := standbyOutputs_of_atRest h allOutputs
  obtain ⟨running, da, db, -⟩ := h
  have keeps : standbySelection s = cur := by
    unfold standbySelection
    rw [running]
    rfl
  have settles : settleClocks (s.setTbu { s.tbu with state := .standby cur, xoCheck := none })
      = unitGoes { s with tbu := { s.tbu with xoCheck := none } } (.standby cur) :=
    settleClocks_of_state { s with tbu := { s.tbu with xoCheck := none } } _
  have untimed (r : DetRec) (h : r.xoThroughout = false) : ({ r with xoThroughout := false } : DetRec) = r := by
    obtain ⟨⟩ := r
    exact h ▸ rfl
  unfold enterStandby
  rw [still]
  unfold tbuStandby
  dsimp only
  rw [keeps, settles, running]
  show unitGoes { s with tbu := { s.tbu with xoCheck := none } } (.standby cur) = _
  unfold unitGoes xoSettled
  show { s with
    tbu := { s.tbu with state := .standby cur, xo := .off, synth := .stopped, xoCheck := none }
    da := { s.da with xoThroughout := false }
    db := { s.db with xoThroughout := false } } = _
  rw [untimed s.da da, untimed s.db db]
  rfl

theorem alignSettled_of_atRest (h : AtRest s cur) : AlignSettled s := fun c sw d e => by
  rw [h.1] at e
  exact absurd e nofun

end AtRest

/-! ### STANDBY (R170) -/

section Request

variable {s : State} {m : Master} {f : Frame}

theorem exec_standby_of_reply {r : Reply} (h : Admitted s m 0x18 f) (hr : standbyRequest (taken s m f) m f = r) :
    exec (.standby m) s = .next (answered r.state m f r.code r.payload) :=
  exec_of_reply (owner := fun s f => standbyRequest s m f) h (by decide) rfl hr

theorem standbyRequest_of_alone (h : onlyJoined s m = true) : standbyRequest s m f = okay (enterStandby s) := by
  unfold standbyRequest
  rw [if_pos h]

theorem standbyRequest_of_others (h : onlyJoined s m = false) :
    standbyRequest s m f = openProposal s m f.tag .standby (wordAt f.payload 0) := by
  unfold standbyRequest
  rw [if_neg (by rw [h]; exact nofun)]

/-- A master that is alone puts the device to standby at once. -/
theorem exec_standby_of_alone (h : Admitted s m 0x18 f) (alone : otherMembers s m = []) :
    exec (.standby m) s = .next (answered (enterStandby (taken s m f)) m f .ok []) := by
  have reply := standbyRequest_of_alone (f := f) (onlyJoined_of_alone f (joined_of_admitted h) alone)
  generalize enterStandby (taken s m f) = t at reply
  exact exec_standby_of_reply h reply

theorem applyMatter_standby {u : State} {p : Proposal} (matter : p.matter = .standby) :
    applyMatter u p = (enterStandby u, .carried) := by
  unfold applyMatter
  rw [matter]

/-- What the carrying of a STANDBY proposal comes to. -/
theorem carry_standby {u : State} {p : Proposal} (matter : p.matter = .standby) :
    carry u p = roundOver (enterStandby u) p .carried := by
  unfold carry
  rw [applyMatter_standby matter]
  generalize enterStandby u = t
  dsimp only
  rw [matter]
  rfl

/-- The last ACCEPT of a STANDBY proposal puts the device to standby. -/
theorem exec_vote_of_standby {p : Proposal} (last : LastVote s m f p) (matter : p.matter = .standby) :
    exec (.vote m) s = .next (answered (roundOver (enterStandby (voted s m f p)) p .carried) m f .ok []) := by
  have votes := exec_vote_of_last last
  rw [carry_standby (p := p.accept m) matter] at votes
  generalize enterStandby (voted s m f p) = t at votes
  exact votes

end Request

/-! ### The Proposal Table at standby entry -/

section Table

variable {s : State} {ps : List Proposal}

theorem burstEnds_setProposals (o : Output) (c : BurstOutcome) :
    burstEnds (s.setProposals ps) o c = (burstEnds s o c).setProposals ps := by
  unfold burstEnds
  rw [State.burst_setProposals, State.sq_setProposals]
  split
  next => rfl
  next => rw [setBurst_setProposals, hand_setProposals]

theorem outputCleared_setProposals (s : State) (o : Output) :
    outputCleared (s.setProposals ps) o = (outputCleared s o).setProposals ps := by
  unfold outputCleared
  simp only [State.sq_setProposals, State.queue_setProposals, dropRefOpt_setProposals, setSq_setProposals,
    setQueue_setProposals, entriesGo_setProposals, holders_setProposals]
  split
  next => rw [burstEnds_setProposals]
  next => rw [handAll_setProposals, burstEnds_setProposals]

theorem outputRests_setProposals (s : State) (o : Output) :
    outputRests (s.setProposals ps) o = (outputRests s o).setProposals ps := by
  unfold outputRests
  simp only [State.sq_setProposals, outputCleared_setProposals, setSq_setProposals, holders_setProposals,
    handAll_setProposals, starters_setProposals, startTogether_setProposals]
  split
  next => rfl
  next => split <;> rfl

theorem outputsRest_setProposals (l : List Output) (s : State) :
    l.foldl outputRests (s.setProposals ps) = (l.foldl outputRests s).setProposals ps := by
  induction l generalizing s with
  | nil => rfl
  | cons o l ih => rw [List.foldl_cons, List.foldl_cons, outputRests_setProposals, ih]

theorem switchTold_setProposals (s : State) (sw : Switch) (e : ClockEvent) :
    switchTold (s.setProposals ps) sw e = (switchTold s sw e).setProposals ps := by
  unfold switchTold
  rw [holders_setProposals, handAll_setProposals]
  rfl

/-- The Timebase Unit of `u` goes to standby with the selection kept from `s`. -/
def unitSleeps (u s : State) : State :=
  unitGoes { u with tbu := { u.tbu with xoCheck := none } } (.standby (keptSelection s))

theorem unitSleeps_setProposals (u s : State) :
    unitSleeps (u.setProposals ps) (s.setProposals ps) = (unitSleeps u s).setProposals ps := rfl

theorem unitSleeps_consent (u s : State) : (unitSleeps u s).consent = u.consent := rfl

theorem deviceRests_of_no_switch (h : s.tbu.state.switch = none) : deviceRests s = unitSleeps (allOutputs.foldl outputRests s) s := by
  unfold deviceRests
  dsimp only
  rw [h]
  rfl

theorem deviceRests_of_switch {sw : Switch} (h : s.tbu.state.switch = some sw) :
    deviceRests s = switchTold (unitSleeps (allOutputs.foldl outputRests s) s) sw (.abortedStandby sw) := by
  unfold deviceRests
  dsimp only
  rw [h]
  rfl

theorem deviceRests_setProposals (s : State) :
    deviceRests (s.setProposals ps) = (deviceRests s).setProposals ps := by
  cases h : s.tbu.state.switch with
  | none => rw [deviceRests_of_no_switch h, deviceRests_of_no_switch (s := s.setProposals ps) h, outputsRest_setProposals,
      unitSleeps_setProposals]
  | some sw =>
    rw [deviceRests_of_switch h, deviceRests_of_switch (s := s.setProposals ps) h, outputsRest_setProposals,
      unitSleeps_setProposals,       switchTold_setProposals]

theorem OneOutput.consent {o : Output} {s t : State} (h : OneOutput o s t) : t.consent = s.consent := by rw [h.rest]

theorem outputRests_consent (s : State) (o : Output) : (outputRests s o).consent = s.consent := by
  have cleared := oneOutput_outputCleared s o
  have rests := (cleared.setSq (standbyRecord { s.sq o with next := none, cut := none })).handAll (s.holders (.out o))
    (.outputState o (s.sq o).state .bound (s.sq o).frameNo)
  unfold outputRests
  dsimp only
  split
  next => exact OneOutput.consent cleared
  next =>
    split
    next => exact (startTogether_consent _ _).trans (OneOutput.consent rests)
    next => exact OneOutput.consent rests

theorem deviceRests_consent (s : State) : (deviceRests s).consent = s.consent := by
  have outputs (l : List Output) : (l.foldl outputRests s).consent = s.consent := by
    induction l using List.reverseRecOn with
    | nil => rfl
    | append_singleton l o ih => rw [List.foldl_append, List.foldl_cons, List.foldl_nil, outputRests_consent, ih]
  have unit : (unitSleeps (allOutputs.foldl outputRests s) s).consent = s.consent :=
    (unitSleeps_consent _ s).trans (outputs allOutputs)
  cases h : s.tbu.state.switch with
  | none => rw [deviceRests_of_no_switch h, unit]
  | some sw =>
    rw [deviceRests_of_switch h]
    exact (State.handAll_consent _ _ _).trans unit

end Table

/-- Settles O56: the outputs one by one, the Timebase Unit last, alone and carried. -/
theorem standbyRestsEveryOutput : Obligations.StandbyRestsEveryOutput := by
  unfold Obligations.StandbyRestsEveryOutput
  intro rests atRest asleep
  have settled (u : State) : rests u (enterStandby u) := by
    have each := rested_enterStandby u
    obtain ⟨state, xo, synth, check, lock⟩ := tbu_enterStandby u
    generalize enterStandby u = t at *
    exact ⟨fun o => (each o).state, fun o => (each o).mark, fun o => ⟨(each o).current, (each o).group, (each o).next⟩,
      fun o => (each o).frame, fun o => ⟨(each o).cut, (each o).burst, (each o).queue⟩, state, xo, synth, check, lock⟩
  have asleepOf (u : State) (cur : Selection) (quiet : AtRest u cur) : enterStandby u = asleep u u cur :=
    enterStandby_of_atRest quiet
  refine ⟨fun s m f admitted alone => ⟨⟨_, exec_standby_of_alone admitted alone, ?_⟩, fun law => ?_, fun cur quiet => ?_⟩,
    fun s m f admitted others => ?_, fun s m f p last matter => ⟨⟨_, exec_vote_of_standby last matter, ?_⟩,
      fun law => ?_, fun cur quiet => ?_⟩⟩
  · exact settled (taken s m f)
  · rw [exec_standby_of_alone admitted alone, enterStandby_eq (alignSettled_of_law (s := taken s m f) law)]
  · rw [exec_standby_of_alone admitted alone, asleepOf (taken s m f) cur quiet]
    rfl
  · exact handedOver_of_exec (joined_of_admitted admitted) _ _ fun r hr => exec_standby_of_reply admitted
      ((standbyRequest_of_others (onlyJoined_taken f (joined_of_admitted admitted) others)).trans hr)
  · exact settled (voted s m f p)
  · have votes := exec_vote_of_standby last matter
    rw [enterStandby_eq (alignSettled_of_law (s := voted s m f p) law), voted_eq, deviceRests_setProposals] at votes
    exact exec_of_votes votes (deviceRests_consent _)
  · have votes := exec_vote_of_standby last matter
    rw [asleepOf (voted s m f p) cur quiet] at votes
    exact exec_of_votes (t := asleep s (taken s m f) cur) votes rfl

end Sys2Proof.StandbyProofs
end

section
/-! WAKE (chapter 11): the marked outputs resume, output by output, once the start-up path has set the unit. -/

namespace Sys2Proof.WakeProofs

open Machine Laws VoteProofs StartProofs FrameProofs TimebaseProofs StandbyProofs

theorem exec_wake_of_reply {s : State} {m : Master} {f : Frame} {r : Reply} (h : Admitted s m 0x19 f)
    (hr : wakeRequest (taken s m f) = r) : exec (.wake m) s = .next (answered r.state m f r.code r.payload) :=
  exec_of_reply (owner := fun s _ => wakeRequest s) h (by decide) rfl hr

theorem wakeRequest_of_awake {s : State} (h : s.tbu.state.isStandby = false) : wakeRequest s = refuse s .state := by
  unfold wakeRequest
  split
  next sel standby =>
    rw [standby] at h
    exact absurd h nofun
  next => rfl

theorem wakeRequest_of_standby {s : State} {sel : Selection} (h : s.tbu.state = .standby sel) :
    wakeRequest s = okay (wakeRequest s).state := by
  unfold wakeRequest
  rw [h]
  rfl

/-! ### Outputs that move together (R32, R173) -/

section Moved

variable {moved starting : List Output} {o : Output}

/-- What one output does among those that move together. -/
def moveOne (moved starting : List Output) (u : State) (o : Output) : State :=
  let u := if moved.contains o then
      u.handAll (u.holders (.out o)) (.outputState o .bound .waiting (u.sq o).frameNo)
    else u
  if starting.contains o then startTogether u [o] else u

theorem movedTogether_eq (s : State) (moved starting : List Output) :
    movedTogether s moved starting = allOutputs.foldl (moveOne moved starting) s := rfl

theorem oneOutput_start (s : State) (o : Output) : OneOutput o s (startTogether s [o]) :=
  (((OneOutput.refl o s).setSq (startRecord (s.sq o) s.tbu.fail)).lineReaches).handAll (s.holders (.out o))
    (.outputState o .waiting .running 0)

theorem oneOutput_moveOne (u : State) (o : Output) : OneOutput o u (moveOne moved starting u o) := by
  have told : OneOutput o u (if moved.contains o then
      u.handAll (u.holders (.out o)) (.outputState o .bound .waiting (u.sq o).frameNo) else u) := by
    split
    · exact (OneOutput.refl o u).handAll _ _
    · exact OneOutput.refl o u
  unfold moveOne
  dsimp only
  split
  · exact told.trans (oneOutput_start _ o)
  · exact told

theorem sq_start (u : State) (o : Output) : (startTogether u [o]).sq o = startRecord (u.sq o) u.tbu.fail := by
  unfold startTogether
  rw [List.foldl_cons, List.foldl_nil, State.sq_handAll, (lineReaches_frame _ o).1, State.sq_setSq_self]

theorem sq_moveOne (u : State) (h : o ∈ starting) :
    (moveOne moved starting u o).sq o = startRecord (u.sq o) u.tbu.fail := by
  unfold moveOne
  dsimp only
  rw [if_pos (List.contains_iff_mem.mpr h), sq_start]
  split
  · rw [State.sq_handAll, State.handAll_tbu]
  · rfl

theorem moves_of_foldl (h : o ∈ starting) : ∀ (l : List Output) (u : State), l.Nodup →
    (l.foldl (moveOne moved starting) u).tbu = u.tbu
      ∧ (o ∉ l → (l.foldl (moveOne moved starting) u).sq o = u.sq o)
      ∧ (o ∈ l → (l.foldl (moveOne moved starting) u).sq o = startRecord (u.sq o) u.tbu.fail)
  | [], u, _ => ⟨rfl, fun _ => rfl, nofun⟩
  | p :: l, u, nodup => by
    obtain ⟨fresh, nodup⟩ := List.nodup_cons.mp nodup
    have one : OneOutput p u (moveOne moved starting u p) := oneOutput_moveOne u p
    obtain ⟨unit, others, starts⟩ := moves_of_foldl h l (moveOne moved starting u p) nodup
    have other (ne : o ≠ p) : (moveOne moved starting u p).sq o = u.sq o := congrArg Channel.sq (one.chans o ne)
    refine ⟨unit.trans one.tbu, fun out => ?_, fun inside => ?_⟩
    · obtain ⟨ne, out⟩ := not_or.mp fun h => out (List.mem_cons.mpr h)
      exact (others out).trans (other ne)
    · by_cases e : o = p
      · subst e
        exact (others fresh).trans (sq_moveOne u h)
      · rw [List.foldl_cons, starts ((List.mem_cons.mp inside).resolve_left e), other e, one.tbu]

/-- An output that starts among those that move begins its run from the record it had. -/
theorem movedTogether_starts (s : State) (h : o ∈ starting) : (movedTogether s moved starting).tbu = s.tbu
    ∧ (movedTogether s moved starting).sq o = startRecord (s.sq o) s.tbu.fail := by
  obtain ⟨unit, -, starts⟩ := moves_of_foldl (moved := moved) h allOutputs s (by decide)
  rw [movedTogether_eq]
  exact ⟨unit, starts (mem_allOutputs o)⟩

theorem movedTogether_nil (s : State) : movedTogether s [] [] = s := by
  rw [movedTogether_eq]
  generalize allOutputs = l
  induction l with
  | nil => rfl
  | cons o l ih => exact ih

end Moved

theorem sq_written {l : List Output} {o : Output} (h : o ∈ l) (nodup : l.Nodup) (u : State) (r : Output → OutRec) :
    (l.foldl (fun v p => v.setSq p (r p)) u).sq o = r o := by
  have chan := chan_moved l nodup u r o
  rw [if_pos h] at chan
  exact congrArg Channel.sq chan

theorem tbu_written (l : List Output) (u : State) (r : Output → OutRec) :
    (l.foldl (fun v p => v.setSq p (r p)) u).tbu = u.tbu := by
  rw [mapSq_fold_eq fun _ p => r p]

/-- Where nothing runs and nothing is kept running, the unit goes to IRC direct and nothing else changes. -/
theorem unitGoes_irc {u : State} (off : u.tbu.xo = .off) (keep : u.table.xo.keep = false) (stopped : u.tbu.synth = .stopped)
    (da : u.da.xoThroughout = false) (db : u.db.xoThroughout = false) :
    unitGoes u (.running ⟨.irc, none⟩) = u.setTbu { u.tbu with state := .running ⟨.irc, none⟩ } := by
  have unit : ({ u.tbu with state := .running ⟨.irc, none⟩, xo := .off, synth := .stopped } : Tbu)
      = { u.tbu with state := .running ⟨.irc, none⟩ } := by rw [← off, ← stopped]
  have untimed (r : DetRec) (h : r.xoThroughout = false) : ({ r with xoThroughout := false } : DetRec) = r := by
    obtain ⟨⟩ := r
    exact h ▸ rfl
  have goes : unitGoes u (.running ⟨.irc, none⟩)
      = { u with
          tbu := { u.tbu with state := .running ⟨.irc, none⟩, xo := .off, synth := .stopped }
          da := { u.da with xoThroughout := false }
          db := { u.db with xoThroughout := false } } := by
    unfold unitGoes xoSettled selectionsOf
    simp [TbuState.standbySel, TbuState.current, TbuState.switch, keep]
  rw [goes, unit, untimed u.da da, untimed u.db db]
  rfl

/-- Settles O57: the start-up path and the moves, a wake without a marked output, and a wake to IRC direct. -/
theorem wakeResumesTheMarkedOutputs : Obligations.WakeResumesTheMarkedOutputs := by
  unfold Obligations.WakeResumesTheMarkedOutputs
  intro s m f admitted
  have path (sel : Selection) (standby : s.tbu.state = .standby sel) :=
    pathTaken_wake (s := taken s m f) (ends := fun t => exec (.wake m) s = .next (answered t m f .ok [])) standby
      (exec_wake_of_reply admitted (wakeRequest_of_standby (s := taken s m f) standby))
  refine ⟨path, fun standby off keep stopped da db still unmarked => ?_,
    fun o standby still calm bound mark alone => ?_,
    fun awake => exec_wake_of_reply admitted (wakeRequest_of_awake (s := taken s m f) awake)⟩
  · obtain ⟨direct, -⟩ := path ⟨.irc, none⟩ standby
    have woken := direct rfl
    have none : (allOutputs.filter fun o => ((taken s m f).sq o).resumeMark) = [] :=
      List.filter_eq_nil_iff.mpr fun o _ => by rw [taken_sq, unmarked o]; exact nofun
    have goes := unitGoes_irc (u := taken s m f) off keep stopped da db
    simp only [none, List.filter_nil, List.foldl_nil, goes] at woken
    have waits : (allOutputs.filter fun o => (((taken s m f).setTbu { (taken s m f).tbu with
        state := .running ⟨.irc, .none⟩ }).sq o).state == .waiting && ((taken s m f).setTbu { (taken s m f).tbu with
        state := .running ⟨.irc, .none⟩ }).tbu.state.current.isSome) = [] :=
      List.filter_eq_nil_iff.mpr fun o _ => by
        rw [State.sq_setTbu, taken_sq, beq_eq_false_iff_ne.mpr (still o)]
        exact nofun
    rw [waits, movedTogether_nil] at woken
    exact woken
  · obtain ⟨direct, -⟩ := path ⟨.irc, none⟩ standby
    let marked := allOutputs.filter fun o => ((taken s m f).sq o).resumeMark
    let moved := marked.filter fun o => ((taken s m f).sq o).state == .bound
    let w := marked.foldl (fun u o => u.setSq o { (taken s m f).sq o with resumeMark := false, wakeStart := true }) (taken s m f)
    let u := unitGoes w (.running ⟨.irc, none⟩)
    let v := moved.foldl (fun v o => v.setSq o { u.sq o with state := .waiting }) u
    let starting := allOutputs.filter fun o => (v.sq o).state == .waiting && v.tbu.state.current.isSome
    have woken : exec (.wake m) s = .next (answered (movedTogether v moved starting) m f .ok []) := direct rfl
    have nodup : allOutputs.Nodup := by decide
    have isMarked : o ∈ marked := List.mem_filter.mpr ⟨mem_allOutputs o, mark⟩
    have isMoved : o ∈ moved := List.mem_filter.mpr ⟨isMarked, beq_iff_eq.mpr bound⟩
    have woke : u.sq o = { s.sq o with resumeMark := false, wakeStart := true } :=
      sq_written isMarked (nodup.filter _) (taken s m f) _
    have waits : v.sq o = { u.sq o with state := .waiting } := sq_written isMoved ((nodup.filter _).filter _) u _
    have unit : v.tbu = u.tbu := tbu_written moved u _
    have before : w.tbu = s.tbu := tbu_written marked (taken s m f) _
    have fail : u.tbu.fail = s.tbu.fail := by
      show w.tbu.fail = s.tbu.fail
      rw [before]
    have starts : o ∈ starting := by
      refine List.mem_filter.mpr ⟨mem_allOutputs o, ?_⟩
      rw [waits, unit]
      rfl
    obtain ⟨tbu, record⟩ := movedTogether_starts (moved := moved) v starts
    rw [waits, woke, unit, fail] at record
    refine ⟨_, woken, ?_, ?_, ?_, ?_, ?_, ?_, ?_⟩
    · rw [tbu, unit]; rfl
    · rw [record]; rfl
    · rw [record]; rfl
    · rw [record]; rfl
    · rw [record]; rfl
    · rw [record]; rfl
    · rw [record]; rfl

end Sys2Proof.WakeProofs
end

section
/-! QUERY (R163) and PROFILE_READ (R8): a QUERY is admitted from any sender, every class answers the part it names from
the state in which it is taken, and the records are spelled out byte by byte. -/

namespace Sys2Proof.QueryProofs

open Machine Laws

/-! ### Taking a QUERY -/

/-- The state in which the QUERY `f` of the master `m` is answered: only a joined sender has the common effect (R144). -/
def querier (s : State) (m : Master) (f : Frame) : State := if s.joined m then taken s m f else popped s m

theorem commonEffect_eq_querier (s : State) (m : Master) (f : Frame) :
    commonEffect (popRequest s m) m f = querier s m f := by
  unfold querier
  split
  next joined => exact commonEffect_of_joined joined
  next out => exact commonEffect_of_not_joined (Bool.eq_false_iff.mpr out)

/-- What taking a frame leaves as it is, the querier's state holds as `s` does. -/
theorem read_querier {α : Type} {s : State} {m : Master} {f : Frame} (g : State → α) (joined : g (taken s m f) = g s)
    (out : g (popped s m) = g s) : g (querier s m f) = g s := by
  unfold querier
  split
  · exact joined
  · exact out

/-- The frame of a QUERY for the class `q`, the index `i` and the part `p` (R163). -/
abbrev query (tag q i p : Byte) : Frame := ⟨0x04, tag, [q, i, p]⟩

/-- A QUERY of three bytes passes the admission checks of every sender, in standby too. -/
theorem admission_query (s : State) (m : Master) (tag q i p : Byte) : admission s m (query tag q i p) = none := by
  unfold admission
  dsimp only
  simp [show knownKind 4 = true from rfl, show lengthAllowed 4 3 = true from rfl,
    show admittedUnjoined 4 = true from rfl, show admittedInStandby 4 = true from rfl]

section Taken

variable {s : State} {m : Master} {tag q i p : Byte} {row : Frame → Bool} {owner : State → Frame → Reply} {r : Reply}

theorem serve_query (h : Offered s m (query tag q i p)) (hrow : row (query tag q i p) = true)
    (hr : owner (querier s m (query tag q i p)) (query tag q i p) = r) :
    serve s m row owner = answered r.state m (query tag q i p) r.code r.payload := by
  rw [serve_of_offered h hrow]
  unfold handle
  rw [commonEffect_eq_querier]
  dsimp only
  rw [admission_query, hr]
  rfl

/-- A class above 6 is taken by every row of QUERY, and refused there. -/
theorem serve_query_of_above {cls : Nat} (h : Offered s m (query tag q i p)) (above : 6 < q.toNat)
    (hr : owner (querier s m (query tag q i p)) (query tag q i p)
      = queryReply (querier s m (query tag q i p)) (query tag q i p) r) :
    serve s m (queryRow cls) owner
      = answered (querier s m (query tag q i p)) m (query tag q i p) .badValue [] := by
  have row : queryRow cls (query tag q i p) = true := by
    unfold queryRow
    rw [Bool.and_eq_true, Bool.or_eq_true]
    exact ⟨rfl, .inr (decide_eq_true above)⟩
  exact serve_query h row (hr.trans (if_pos above))

/-- A class of the list is taken by its row, whose owner's answer is sent. -/
theorem serve_query_of_class {cls : Nat} (h : Offered s m (query tag q i p)) (hq : q.toNat = cls) (low : cls ≤ 6)
    (hr : owner (querier s m (query tag q i p)) (query tag q i p)
      = queryReply (querier s m (query tag q i p)) (query tag q i p) r) :
    serve s m (queryRow cls) owner = answered r.state m (query tag q i p) r.code r.payload :=
  serve_query h (RequestProofs.queryRow_of_class rfl (.inr hq)) (hr.trans (if_neg (Nat.not_lt.mpr (hq.trans_le low))))

end Taken

/-- A class above 6 is refused by every row. -/
theorem exec_query_of_above {c : Instr} {s : State} {m : Master} {cls : Nat} {tag q i p : Byte}
    (hc : c.query = some (m, cls)) (h : Offered s m (query tag q i p)) (above : 6 < q.toNat) :
    exec c s = .next (answered (querier s m (query tag q i p)) m (query tag q i p) .badValue []) := by
  cases c <;> cases hc <;> exact congrArg Host.Outcome.next (serve_query_of_above h above rfl)

/-! ### The answers by class -/

section Answers

variable {s : State} {m : Master} {tag i p : Byte} {f : Frame} {o : Output} {bytes : List Byte}

theorem outputPart_of_out {n : Nat} (h : 4 ≤ n) : outputPart s o n = none := by
  match n, h with
  | n + 4, _ => rfl

/-- The part of an output read where the index or the part is outside its list. -/
theorem outputPart_of_bad {i p : Nat} (h : 8 ≤ i ∨ 4 ≤ p) :
    ((outputOf i).bind fun o => outputPart s o p) = none := by
  rcases h with h | h
  · rw [outputOf_of_le h]
    rfl
  · rw [Option.bind_eq_none_iff]
    exact fun _ _ => outputPart_of_out h

theorem outputPart_querier (o : Output) (n : Nat) : outputPart (querier s m f) o n = outputPart s o n :=
  read_querier (fun u => outputPart u o n) rfl rfl

/-- A QUERY of one of the seven classes is answered by its owner. -/
theorem exec_query {c : Instr} {q : Byte} {cls : Nat} {owner : State → Frame → Reply} {r : Reply}
    (hc : ∀ s, exec c s = .next (serve s m (queryRow cls) owner)) (h : Offered s m (query tag q i p))
    (hq : q.toNat = cls) (low : cls ≤ 6)
    (hr : owner (querier s m (query tag q i p)) (query tag q i p)
      = queryReply (querier s m (query tag q i p)) (query tag q i p) r) :
    exec c s = .next (answered r.state m (query tag q i p) r.code r.payload) :=
  (hc s).trans (congrArg Host.Outcome.next (serve_query_of_class h hq low hr))

theorem exec_queryDevice (h : Offered s m (query tag 0 i p)) :
    exec (.queryDevice m) s = .next (answered (querier s m (query tag 0 i p)) m (query tag 0 i p) .ok
      [0x30, 0x48, 0x01, BitVec.ofNat 8 s.straps.initsel.val, BitVec.ofNat 8 s.straps.twospd.toNat,
        BitVec.ofNat 8 s.straps.fse.toNat, BitVec.ofNat 8 s.tbu.state.isStandby.toNat,
        BitVec.ofNat 8 s.tbu.state.number]) := by
  have straps : (querier s m (query tag 0 i p)).straps = s.straps := read_querier State.straps rfl rfl
  have tbu : (querier s m (query tag 0 i p)).tbu = s.tbu := read_querier State.tbu rfl rfl
  rw [← straps, ← tbu, exec_query (owner := queryDevice) (fun _ => rfl) h rfl (by decide) rfl]
  rfl

/-- OUTPUT answers the part read. -/
theorem exec_queryOutput {part : Option (List Byte)} (h : Offered s m (query tag 1 i p))
    (hp : ((outputOf i.toNat).bind fun o => outputPart s o p.toNat) = part) :
    exec (.queryOutput m) s =
      let r := answerPart (querier s m (query tag 1 i p)) part
      .next (answered r.state m (query tag 1 i p) r.code r.payload) := by
  have read : ((outputOf i.toNat).bind fun o => outputPart (querier s m (query tag 1 i p)) o p.toNat) = part :=
    (congrArg _ (funext fun o => outputPart_querier o _)).trans hp
  rw [← read]
  exact exec_query (owner := queryOutput) (fun _ => rfl) h rfl (by decide) rfl

theorem exec_queryOutput_of_part (h : Offered s m (query tag 1 i p)) (ho : i.toNat = o.val)
    (hp : outputPart s o p.toNat = some bytes) :
    exec (.queryOutput m) s = .next (answered (querier s m (query tag 1 i p)) m (query tag 1 i p) .ok bytes) :=
  exec_queryOutput (part := some bytes) h (by rw [ho, outputOf_val]; exact hp)

theorem exec_queryTimebase (h : Offered s m (query tag 2 i p)) :
    exec (.queryTimebase m) s
      = .next (answered (querier s m (query tag 2 i p)) m (query tag 2 i p) .ok (timebasePart s p.toNat)) := by
  have read := read_querier (s := s) (m := m) (f := query tag 2 i p) (fun u => timebasePart u p.toNat) rfl rfl
  rw [← read]
  exact exec_query (owner := queryTimebase) (fun _ => rfl) h rfl (by decide) rfl

/-- SOURCE answers the record of the source that the index names. -/
theorem exec_querySource (h : Offered s m (query tag 3 i p)) :
    exec (.querySource m) s =
      let r := answerPart (querier s m (query tag 3 i p)) ((sourceOf i.toNat).map (sourceBytes s))
      .next (answered r.state m (query tag 3 i p) r.code r.payload) := by
  have read : sourceBytes (querier s m (query tag 3 i p)) = sourceBytes s := read_querier sourceBytes rfl rfl
  rw [← read]
  exact exec_query (owner := querySource) (fun _ => rfl) h rfl (by decide) rfl

theorem queryProposal_of_open {r : Proposal} (hr : s.proposal (byteAt f.payload 1) = some r) :
    queryProposal s f = queryReply s f ⟨s, .ok, proposalBytes s.now r⟩ := by
  unfold queryProposal
  rw [hr]

theorem queryProposal_of_none (hr : s.proposal (byteAt f.payload 1) = none) :
    queryProposal s f = queryReply s f (refuse s .noSuch) := by
  unfold queryProposal
  rw [hr]

theorem proposal_querier (n : Nat) : (querier s m f).proposal n = s.proposal n :=
  read_querier (fun u => u.proposal n) rfl rfl

theorem exec_queryProposal_of_open {r : Proposal} (h : Offered s m (query tag 4 i p))
    (hr : s.proposal i.toNat = some r) :
    exec (.queryProposal m) s = .next (answered (querier s m (query tag 4 i p)) m (query tag 4 i p) .ok
      (proposalBytes s.now r)) := by
  have now : (querier s m (query tag 4 i p)).now = s.now := read_querier State.now rfl rfl
  rw [← now]
  exact exec_query (owner := queryProposal) (fun _ => rfl) h rfl (by decide)
    (queryProposal_of_open ((proposal_querier _).trans hr))

theorem exec_queryProposal_of_none (h : Offered s m (query tag 4 i p)) (hr : s.proposal i.toNat = none) :
    exec (.queryProposal m) s
      = .next (answered (querier s m (query tag 4 i p)) m (query tag 4 i p) .noSuch []) :=
  exec_query (owner := queryProposal) (r := refuse _ .noSuch) (fun _ => rfl) h rfl (by decide)
    (queryProposal_of_none ((proposal_querier _).trans hr))

theorem exec_queryMaster (h : Offered s m (query tag 5 i p)) :
    exec (.queryMaster m) s =
      let u := querier s m (query tag 5 i p)
      let r := answerPart u ((masterOf i.toNat).map fun j => masterBytes s.now (u.master j))
      .next (answered r.state m (query tag 5 i p) r.code r.payload) := by
  have now : (querier s m (query tag 5 i p)).now = s.now := read_querier State.now rfl rfl
  rw [← now]
  exact exec_query (owner := queryMaster) (fun _ => rfl) h rfl (by decide) rfl

theorem exec_queryLink (h : Offered s m (query tag 6 i p)) :
    exec (.queryLink m) s = .next (answered (querier s m (query tag 6 i p)) m (query tag 6 i p) .ok
      (linkBytes ((querier s m (query tag 6 i p)).link m) (s.master m).dropped)) := by
  have dropped : ((querier s m (query tag 6 i p)).master m).dropped = (s.master m).dropped :=
    read_querier (fun u => (u.master m).dropped) (by rw [RequestProofs.taken_master]) rfl
  rw [← dropped]
  exact exec_query (owner := fun s f => queryLink s m f) (fun _ => rfl) h rfl (by decide) rfl

end Answers

/-! ### PROFILE_READ (R8) -/

section Profile

variable {s : State} {m : Master} {f : Frame}

theorem exec_profileRead_of_reply {r : Reply} (h : Admitted s m 0x08 f) (hr : profileRead (taken s m f) f = r) :
    exec (.profileRead m) s = .next (answered r.state m f r.code r.payload) :=
  VoteProofs.exec_of_reply (owner := profileRead) h (by decide) rfl hr

theorem exec_profileRead_of_slot {k : Slot} (h : Admitted s m 0x08 f) (hk : byteAt f.payload 0 = k.val) :
    exec (.profileRead m) s = .next (answered (taken s m f) m f .ok (profileBytes k (s.slot k))) :=
  exec_profileRead_of_reply h (withSlot_val hk _)

theorem exec_profileRead_of_bad (h : Admitted s m 0x08 f) (hk : 16 ≤ byteAt f.payload 0) :
    exec (.profileRead m) s = .next (answered (taken s m f) m f .badValue [0]) :=
  exec_profileRead_of_reply h (ProfileProofs.withSlot_of_le hk _)

end Profile

/-! ### The records byte by byte (R166) -/

theorem optFin_eq {k : Nat} (n : Option (Fin k)) : optFin n = [BitVec.ofNat 8 ((n.map Fin.val).getD 255)] := by
  cases n <;> rfl

theorem optByte_eq (n : Option Nat) : optByte n = [BitVec.ofNat 8 (n.getD 255)] := by
  cases n <;> rfl

theorem optWord_eq (n : Option Nat) : optWord n = u16 (n.getD 65535) := by
  cases n <;> rfl

theorem originTag_eq (c : Option (Master × Byte)) :
    originTag c = [BitVec.ofNat 8 ((c.map fun x => x.1.val).getD 255), (c.map Prod.snd).getD 0] := by
  cases c <;> rfl

/-- The profile record, field by field. -/
theorem profileBytes_eq (k : Slot) (r : SlotRec) :
    let b (n : Nat) : Byte := BitVec.ofNat 8 n
    profileBytes k r = [b k.val, b r.state.number, b ((r.owner.map Fin.val).getD 255), b r.refs,
        b r.geom.lp, b (r.geom.lp / 256), b r.geom.lsw, b (r.geom.lsw / 256), b r.geom.lf, b (r.geom.lf / 256),
        b r.geom.fsw, b r.geom.ws, b (r.geom.ws / 256), b r.geom.wh, b (r.geom.wh / 256), b r.geom.fd, b r.geom.dc,
        b (r.label.getD []).length] ++ r.label.getD [] := by
  intro b
  unfold profileBytes
  rw [optFin_eq]
  rfl

/-- The output record, field by field. -/
theorem outputBytes_fields (o : Output) (r : OutRec) :
    let b (n : Nat) : Byte := BitVec.ofNat 8 n
    let lastNo : Nat := (r.last.map fun l => l.number.toNat).getD 65535
    outputBytes o r = [b o.val, b r.state.number, b ((r.current.map Fin.val).getD 255), b ((r.next.map Fin.val).getD 255),
      b r.phase, b r.line, b (r.line / 256), b r.tick, b (r.tick / 256), b r.frameNo.toNat, b (r.frameNo.toNat / 256),
      b r.status.number, b lastNo, b (lastNo / 256), b ((r.last.map fun l => l.status.number).getD 255), b r.flagNumber,
      b ((r.group.map Fin.val).getD 255), b (((r.cut.map PendingCut.slot).map Fin.val).getD 255),
      b (((r.cut.map fun c => (c.origin, c.tag)).map fun x => x.1.val).getD 255),
      ((r.cut.map fun c => (c.origin, c.tag)).map Prod.snd).getD 0] := by
  intro b lastNo
  unfold outputBytes
  rw [optFin_eq, optFin_eq, optFin_eq, optFin_eq, optByte_eq, optWord_eq, originTag_eq]
  rfl

/-- Settles O19: each class and each record by its own lemma. -/
theorem queriesReadState : Obligations.QueriesReadState := by
  unfold Obligations.QueriesReadState
  refine ⟨fun s m tag q i p => ⟨?_, ?_, ?_, ?_, ?_, ?_, ?_, ?_, ?_, ?_, ?_, ?_⟩, fun o r => ?_, fun s m f => ?_,
    fun s m f k => ?_⟩
  · rintro _ c cls rfl offered hc above
    exact exec_query_of_above hc offered above
  · rintro _ rfl offered
    exact exec_queryDevice offered
  · rintro _ o rfl offered ho
    refine ⟨?_, ?_, ?_, ?_⟩ <;> rintro rfl <;> exact exec_queryOutput_of_part offered ho rfl
  · rintro _ rfl offered bad
    exact exec_queryOutput (part := none) offered (outputPart_of_bad bad)
  · rintro _ rfl offered
    refine ⟨fun hp => ?_, fun hp => ?_⟩
    · have part : p.toNat ≠ 3 := fun three => hp (BitVec.eq_of_toNat_eq three)
      rw [exec_queryTimebase offered, timebasePart_of_ne part]
      rfl
    · subst hp
      exact (exec_queryTimebase offered).trans (by rw [← timebasePart_three]; rfl)
  · rintro _ src rfl offered hsrc
    exact (exec_querySource offered).trans (by rw [hsrc, sourceOf_number]; rfl)
  · rintro _ rfl offered out
    exact (exec_querySource offered).trans (by rw [SourceProofs.sourceOf_eq_none out]; rfl)
  · rintro _ r rfl offered hr
    exact exec_queryProposal_of_open offered hr
  · rintro _ rfl offered hr
    exact exec_queryProposal_of_none offered hr
  · rintro _ j rfl offered hj
    exact (exec_queryMaster offered).trans (by rw [hj, masterOf_val]; rfl)
  · rintro _ rfl offered out
    exact (exec_queryMaster offered).trans (by rw [masterOf_of_le out]; rfl)
  · rintro _ rfl offered
    exact exec_queryLink offered
  · rw [outputBytes_fields]
    dsimp only
    obtain ⟨state, current, next, _, _, _, _, _, status, last, frozen, cut, group, polarity, pending, resume, wake⟩ := r
    dsimp only
    simp only [List.cons.injEq, true_and, and_true]
    refine ⟨?_, ?_, ?_, ?_, ?_, ?_, ?_, ?_, ?_, ?_, ?_, ?_⟩
    · cases state <;> rfl
    · cases current <;> rfl
    · cases next <;> rfl
    · obtain ⟨base, degraded, woken⟩ := status
      cases base <;> cases degraded <;> cases woken <;> rfl
    · cases last <;> rfl
    · cases last <;> rfl
    · rcases last with _ | ⟨_, ⟨base, degraded, woken⟩⟩
      · rfl
      · cases base <;> cases degraded <;> cases woken <;> rfl
    · rcases pending with _ | _ | _ <;> cases polarity <;> cases frozen <;> cases resume <;> cases wake <;> rfl
    · cases group <;> rfl
    · cases cut <;> rfl
    · cases cut <;> rfl
    · cases cut <;> rfl
  · exact exec_profileRead_of_bad
  · intro admitted hk
    rw [exec_profileRead_of_slot admitted hk, profileBytes_eq]
    generalize s.slot k = r
    obtain ⟨state, owner⟩ := r
    cases state <;> cases owner <;> rfl

end Sys2Proof.QueryProofs
end

section
/-! What a departure's parts may leave of queues, cuts, bursts, rounds and claims: they take from these records, and hand
nothing in them to a master that has not had it. -/

namespace Sys2Proof.RecedeProofs

open Machine Laws

/-! ### The relation -/

/-- The records of `t` hold nothing of a master that those of `s` do not: cuts, bursts, voters and holders go, entries go
or join without an origin, and an entry that `grant` lets pass may become QUEUED. -/
structure Recedes (grant : Entry → Prop) (s t : State) : Prop where
  cut : ∀ o, (t.sq o).cut = none ∨ (t.sq o).cut = (s.sq o).cut
  burst : ∀ o, t.burst o = none ∨ (t.burst o).map Burst.origin = (s.burst o).map Burst.origin
  entry : ∀ o, ∀ e ∈ t.queue o, e ∈ s.queue o ∨ e.origin = none
    ∨ ∃ r ∈ s.queue o, grant r ∧ e = { r with state := .queued }
  voters : ∀ p ∈ t.consent.proposals, ∃ q ∈ s.consent.proposals,
    p.id = q.id ∧ p.proposer = q.proposer ∧ p.required ⊆ q.required
  holder : ∀ g j, t.isHolder g j = true → s.isHolder g j = true

namespace Recedes

variable {g : Entry → Prop} {s t u : State}

theorem refl (s : State) : Recedes g s s :=
  ⟨fun _ => .inr rfl, fun _ => .inr rfl, fun _ _ h => .inl h, fun p h => ⟨p, h, rfl, rfl, List.Subset.refl _⟩, fun _ _ h => h⟩

theorem trans (h : Recedes g s t) (k : Recedes g t u) : Recedes g s u where
  cut o := (k.cut o).elim .inl fun e => (h.cut o).imp (e.trans ·) (e.trans ·)
  burst o := by
    rcases k.burst o with gone | same
    · exact .inl gone
    · rcases h.burst o with gone | had
      · rw [gone] at same
        exact .inl (Option.map_eq_none_iff.mp same)
      · exact .inr (same.trans had)
  entry o e he := by
    rcases k.entry o e he with old | new | ⟨r, hr, ok, rfl⟩
    · exact h.entry o e old
    · exact .inr (.inl new)
    · rcases h.entry o r hr with old | new | ⟨r', hr', ok', rfl⟩
      · exact .inr (.inr ⟨r, old, ok, rfl⟩)
      · exact .inr (.inl new)
      · exact .inr (.inr ⟨r', hr', ok', rfl⟩)
  voters p hp := by
    obtain ⟨q, hq, id, proposer, required⟩ := k.voters p hp
    obtain ⟨r, hr, id', proposer', required'⟩ := h.voters q hq
    exact ⟨r, hr, id.trans id', proposer.trans proposer', List.Subset.trans required required'⟩
  holder c j hj := h.holder c j (k.holder c j hj)

theorem mono {g' : Entry → Prop} (h : Recedes g s t) (le : ∀ o, ∀ e ∈ s.queue o, g e → g' e) : Recedes g' s t :=
  { h with entry := fun o e he => (h.entry o e he).imp id (.imp id fun ⟨r, hr, ok, eq⟩ => ⟨r, hr, le o r hr ok, eq⟩) }

theorem foldl {α : Type} {f : State → α → State} (h : ∀ s a, Recedes g s (f s a)) :
    ∀ (l : List α) (s : State), Recedes g s (l.foldl f s)
  | [], s => refl s
  | a :: l, s => (h s a).trans (foldl h l (f s a))

/-- What leaves these records as they are. -/
theorem of_eq (hc : t.chans = s.chans) (hp : t.consent = s.consent) (ho : t.outClaims = s.outClaims)
    (ht : t.tbClaim = s.tbClaim) : Recedes g s t := by
  have sq (o) : t.sq o = s.sq o := by unfold State.sq State.chan; rw [hc]
  have burst (o) : t.burst o = s.burst o := by unfold State.burst State.chan; rw [hc]
  have queue (o) : t.queue o = s.queue o := by unfold State.queue State.chan; rw [hc]
  have claim (c) : t.claim c = s.claim c := by cases c <;> simp only [State.claim, ho, ht]
  refine ⟨fun o => .inr (by rw [sq]), fun o => .inr (by rw [burst]), fun o e he => .inl (by rwa [queue] at he),
    fun p h => ⟨p, by rwa [hp] at h, rfl, rfl, List.Subset.refl _⟩, fun c j h => ?_⟩
  unfold State.isHolder State.holders at h ⊢
  rwa [claim] at h

/-! ### Single records -/

theorem setSq {o : Output} {r : OutRec} (h : r.cut = none ∨ r.cut = (s.sq o).cut) : Recedes g s (s.setSq o r) where
  cut p := by
    by_cases e : p = o
    · subst e
      rw [State.sq_setSq_self]
      exact h
    · rw [State.sq_setSq_ne _ _ e]
      exact .inr rfl
  burst p := .inr (by rw [State.burst_setSq])
  entry p e he := .inl (by rwa [State.queue_setSq] at he)
  voters := (refl (g := g) s).voters
  holder c j hj := by cases c <;> exact hj

/-- An output record changes, and its cut does not. -/
theorem setSq_cut {o : Output} {r : OutRec} (h : r.cut = (s.sq o).cut := by rfl) : Recedes g s (s.setSq o r) :=
  setSq (.inr h)

theorem setQueue {o : Output} {q : List Entry} (h : ∀ e ∈ q, e ∈ s.queue o ∨ e.origin = none
    ∨ ∃ r ∈ s.queue o, g r ∧ e = { r with state := .queued }) : Recedes g s (s.setQueue o q) where
  cut p := .inr (by rw [State.sq_setQueue])
  burst p := .inr (by rw [State.burst_setQueue])
  entry p e he := by
    by_cases eq : p = o
    · subst eq
      rw [State.queue_setQueue_self] at he
      exact h e he
    · rw [State.queue_setQueue_ne _ _ eq] at he
      exact .inl he
  voters := (refl (g := g) s).voters
  holder c j hj := by cases c <;> exact hj

theorem setBurst {o : Output} {b : Option Burst} (h : b = none ∨ b.map Burst.origin = (s.burst o).map Burst.origin) :
    Recedes g s (s.setBurst o b) where
  cut p := .inr (by rw [State.sq_setBurst])
  burst p := by
    by_cases e : p = o
    · subst e
      rw [State.burst_setBurst_self]
      exact h
    · rw [State.burst_setBurst_ne _ _ e]
      exact .inr rfl
  entry p e he := .inl (by rwa [State.queue_setBurst] at he)
  voters := (refl (g := g) s).voters
  holder c j hj := by cases c <;> exact hj

theorem setProposals {ps : List Proposal} (h : ∀ p ∈ ps, ∃ q ∈ s.consent.proposals,
    p.id = q.id ∧ p.proposer = q.proposer ∧ p.required ⊆ q.required) : Recedes g s (s.setProposals ps) :=
  { refl s with voters := h }

theorem setClaim {c : Target} {r : ClaimRec} (h : r.holders ⊆ (s.claim c).holders) : Recedes g s (s.setClaim c r) where
  cut o := .inr (by rw [State.sq_setClaim])
  burst o := .inr (by rw [State.burst_setClaim])
  entry o e he := .inl (by rwa [State.queue_setClaim] at he)
  voters p hp := ⟨p, by rwa [State.setClaim_consent] at hp, rfl, rfl, List.Subset.refl _⟩
  holder d j hj := by
    unfold State.isHolder State.holders at hj ⊢
    by_cases e : d = c
    · subst e
      rw [State.claim_setClaim_self] at hj
      rw [List.contains_iff_mem] at hj ⊢
      exact List.map_subset _ h hj
    · rwa [State.claim_setClaim_ne _ _ e] at hj

theorem setTbu (s : State) (x : Tbu) : Recedes g s (s.setTbu x) := of_eq rfl rfl rfl rfl

theorem setSlot (s : State) (k : Slot) (r : SlotRec) : Recedes g s (s.setSlot k r) := of_eq rfl rfl rfl rfl

theorem dropRefOpt (s : State) (k : Option Slot) : Recedes g s (s.dropRefOpt k) := by
  cases k
  · exact refl s
  · exact setSlot s _ _

theorem handMarked (s : State) (j : Master) (c : Bool) (n : Notice) : Recedes g s (s.handMarked j c n) := by
  rw [handMarked_eq]
  exact of_eq rfl rfl rfl rfl

theorem handAll (s : State) (ms : List Master) (n : Notice) : Recedes g s (s.handAll ms n) :=
  foldl (fun s j => handMarked s j false n) ms s

end Recedes

open Recedes

variable {g : Entry → Prop}

/-! ### Outputs (chapters 2, 3 and 8) -/

theorem setOutState_recedes (s : State) (o : Output) (st : OutState) : Recedes g s (setOutState s o st) :=
  Recedes.trans setSq_cut (handAll _ _ _)

theorem returnToBound_recedes (s : State) (o : Output) : Recedes g s (returnToBound s o) :=
  Recedes.trans setSq_cut (setOutState_recedes _ _ _)

theorem bind_recedes (s : State) (o : Output) (k : Slot) : Recedes g s (Machine.bind s o k) := by
  have rebound : Recedes g s (((s.addRef k).dropRefOpt (s.sq o).current).setSq o
      { (((s.addRef k).dropRefOpt (s.sq o).current).sq o) with current := some k }) :=
    ((setSlot s k _).trans (dropRefOpt _ _)).trans setSq_cut
  unfold Machine.bind
  dsimp only
  split
  · exact rebound.trans (setOutState_recedes _ _ _)
  · exact rebound

theorem mapSq_recedes {f : State → Output → OutRec} (h : ∀ s o, (f s o).cut = (s.sq o).cut) (s : State) :
    Recedes g s (s.mapSq f) := foldl (fun s o => setSq (.inr (h s o))) _ s

theorem dropEntryRef_recedes (s : State) (k : EntryKind) : Recedes g s (dropEntryRef s k) := by
  cases k
  · exact setSlot s _ _
  · exact refl s

theorem addEntryRef_recedes (s : State) (k : EntryKind) : Recedes g s (addEntryRef s k) := by
  cases k
  · exact setSlot s _ _
  · exact refl s

theorem changeDone_recedes (s : State) (o : Output) (k : DoneKind) (w : Option (Master × Byte)) (p : Option Nat)
    (c : ChangeOutcome) : Recedes g s (changeDone s o k w p c) := handAll _ _ _

theorem entryLeft_recedes (o : Output) (c : ChangeOutcome) (s : State) (e : Entry) : Recedes g s (entryLeft o c s e) :=
  (dropEntryRef_recedes s e.kind).trans (changeDone_recedes _ _ _ _ _ _)

theorem removeEntries_recedes (s : State) (o : Output) (p : Entry → Bool) (c : ChangeOutcome) :
    Recedes g s (removeEntries s o p c) :=
  (setQueue fun _ he => .inl (List.mem_of_mem_filter he)).trans
    (foldl (entryLeft_recedes o c) _ _)

/-- An entry of no master joins the tail. -/
theorem appendEntry_recedes (s : State) (o : Output) {e : Entry} (h : e.origin = none) : Recedes g s (appendEntry s o e) := by
  unfold appendEntry
  split
  · exact refl s
  · refine (addEntryRef_recedes s e.kind).trans (setQueue fun x hx => ?_)
    rcases List.mem_append.mp hx with old | new
    · exact .inl old
    · exact .inr (.inl (by rw [List.mem_singleton.mp new, h]))

theorem dropCut_recedes (s : State) (o : Output) (c : ChangeOutcome) : Recedes g s (dropCut s o c) := by
  unfold dropCut
  split
  · exact refl s
  · exact (setSq (.inl rfl)).trans (changeDone_recedes _ _ _ _ _ _)

theorem queueDeparture_recedes (s : State) (o : Output) (m : Master) : Recedes g s (queueDeparture s o m) := by
  unfold queueDeparture
  dsimp only
  split
  · exact (removeEntries_recedes _ _ _ _).trans (dropCut_recedes _ _ _)
  · exact removeEntries_recedes _ _ _ _

theorem finishBurst_recedes (s : State) (o : Output) (b : Burst) (c : BurstOutcome) :
    Recedes g s (finishBurst s o b c) := (setBurst (.inl rfl)).trans (handAll _ _ _)

theorem endBurst_recedes (s : State) (o : Output) (c : BurstOutcome) : Recedes g s (endBurst s o c) := by
  unfold endBurst
  split
  · exact refl s
  · exact finishBurst_recedes _ _ _ _

theorem strobeDeparture_recedes (s : State) (o : Output) (m : Master) : Recedes g s (strobeDeparture s o m) := by
  unfold strobeDeparture
  split
  · exact endBurst_recedes _ _ _
  · exact refl s

theorem origin_perFrameLine (b : Burst) (r : OutRec) (line on : Nat) : (perFrameLine b r line on).origin = b.origin := by
  unfold perFrameLine
  repeat' split
  all_goals rfl

theorem origin_timedNext {b b' : Burst} {on off count rep pause : Nat}
    (h : timedNext b on off count rep pause = .runsOn b') : b'.origin = b.origin := by
  unfold timedNext at h
  repeat' split at h
  all_goals cases h
  all_goals rfl

theorem origin_continuousNext {b b' : Burst} {on off : Nat} (h : continuousNext b on off = .runsOn b') :
    b'.origin = b.origin := by
  unfold continuousNext at h
  split at h
  all_goals cases h
  all_goals rfl

/-- A burst that runs on at a line start keeps its origin. -/
theorem origin_lineStart {b b' : Burst} {r : OutRec} (h : b.lineStart r = .runsOn b') : b'.origin = b.origin := by
  unfold Burst.lineStart at h
  split at h
  · split at h
    · split at h <;> cases h
      · rfl
      · rfl
      · exact origin_perFrameLine _ _ _ _
    · cases h
      rfl
  · split at h
    · cases h
      exact origin_perFrameLine _ _ _ _
    · split at h
      · exact origin_timedNext h
      · cases h
        rfl
    · split at h
      · exact origin_continuousNext h
      · cases h
        rfl

theorem strobeLine_recedes (s : State) (o : Output) : Recedes g s (strobeLine s o) := by
  unfold strobeLine
  split
  · exact refl s
  next b hb =>
    split
    next b' on => exact setBurst (.inr (by rw [hb, Option.map_some, Option.map_some, origin_lineStart on]))
    · exact finishBurst_recedes _ _ _ _

/-! ### The Timebase Unit (chapter 6) -/

theorem startOne_recedes (s : State) (o : Output) : Recedes g s (startOne s o) :=
  (Recedes.trans setSq_cut (strobeLine_recedes _ _)).trans (handAll _ _ _)

theorem startAll_recedes (s : State) (os : List Output) : Recedes g s (startAll s os) := foldl startOne_recedes os s

theorem settleXo_recedes (s : State) : Recedes g s (settleXo s) := by
  unfold settleXo
  split
  · split
    · exact setTbu s _
    · exact refl s
  · exact of_eq rfl rfl rfl rfl

theorem settleClocks_recedes (s : State) : Recedes g s (settleClocks s) := by
  unfold settleClocks
  split
  · exact settleXo_recedes s
  · exact (setTbu s _).trans (settleXo_recedes _)

theorem abandonLock_recedes (s : State) : Recedes g s (abandonLock s) := by
  unfold abandonLock
  split
  · exact refl s
  · exact setTbu s _

theorem switchNotice_recedes (s : State) (sw : Switch) (e : ClockEvent) : Recedes g s (switchNotice s sw e) :=
  handAll _ _ _

theorem endNotice_recedes (s : State) (sw : Option Switch) (e : Switch → ClockEvent) :
    Recedes g s (endNotice s sw e) := by
  cases sw
  · exact refl s
  · exact switchNotice_recedes _ _ _

theorem cut_mark (r : OutRec) (f : FrameStatus → FrameStatus) : (r.mark f).cut = r.cut := by
  unfold OutRec.mark
  split <;> rfl

theorem cut_completion (r : OutRec) (spare : Bool) : (r.completion spare).cut = r.cut := by
  unfold OutRec.completion
  repeat' split
  · exact cut_mark r _
  · rfl
  · exact cut_mark r _
  · rfl

theorem complete_recedes (s : State) (sw : Switch) (aligned : Bool) (moment : List Output) :
    Recedes g s (complete s sw aligned moment) := by
  unfold complete
  dsimp only
  refine Recedes.trans ?_ (switchNotice_recedes _ _ _)
  refine Recedes.trans ?_ (startAll_recedes _ _)
  refine Recedes.trans ?_ (mapSq_recedes (fun _ _ => cut_completion _ _) _)
  refine Recedes.trans ?_ (setTbu _ _)
  exact (setTbu s _).trans (settleClocks_recedes _)

theorem examine_recedes (s : State) (moment : List Output) : Recedes g s (examine s moment) := by
  have started := startAll_recedes (g := g) s (s.startSet moment)
  unfold examine
  dsimp only
  split
  · split
    · split
      · exact started.trans (complete_recedes _ _ _ _)
      · exact started
    · exact started
  · exact started

theorem targetReady_recedes (s : State) : Recedes g s (targetReady s) := by
  unfold targetReady
  split
  · exact complete_recedes _ _ _ _
  · split
    · exact complete_recedes _ _ _ _
    · split
      · exact setTbu s _
      · exact complete_recedes _ _ _ _
  · exact refl s

theorem readyTarget_recedes (s : State) (sw : Switch) : Recedes g s (readyTarget s sw) := by
  unfold readyTarget
  split
  · split
    · exact targetReady_recedes _
    · split
      · exact setTbu s _
      · exact refl s
  · exact refl s

theorem progress_recedes (s : State) : Recedes g s (progress s) := by
  unfold progress
  split
  · exact readyTarget_recedes _ _
  · exact readyTarget_recedes _ _
  · exact refl s

theorem beginSwitch_recedes (s : State) (st : TbuState) (sw : Switch) (ended : Option Switch) :
    Recedes g s (beginSwitch s st sw ended) :=
  ((((setTbu s _).trans (settleClocks_recedes _)).trans (endNotice_recedes _ _ _)).trans
    (switchNotice_recedes _ _ _)).trans (progress_recedes _)

theorem takeClock_recedes (s : State) (sel : Selection) (align : Option Output) (origin : SwitchOrigin) :
    Recedes g s (takeClock s sel align origin) := by
  have back (cur : Selection) (old : Option Switch) : Recedes g s (endNotice (settleClocks ((abandonLock s).setTbu
      { (abandonLock s).tbu with state := .running cur })) old .superseded) :=
    (((abandonLock_recedes s).trans (setTbu _ _)).trans (settleClocks_recedes _)).trans (endNotice_recedes _ _ _)
  unfold takeClock
  dsimp only
  split
  · exact beginSwitch_recedes _ _ _ _
  · split
    · exact back _ _
    · exact (abandonLock_recedes s).trans (beginSwitch_recedes _ _ _ _)
  · split
    · exact back _ _
    · exact (abandonLock_recedes s).trans (beginSwitch_recedes _ _ _ _)
  · exact (abandonLock_recedes s).trans (beginSwitch_recedes _ _ _ _)
  · exact beginSwitch_recedes _ _ _ _
  · exact setTbu s _

/-! ### Standby entry (chapter 11) -/

theorem queueStandby_recedes (s : State) (o : Output) : Recedes g s (queueStandby s o) :=
  (((dropRefOpt s _).trans setSq_cut).trans (removeEntries_recedes _ _ _ _)).trans (dropCut_recedes _ _ _)

theorem standbyRest_recedes (s : State) (o : Output) : Recedes g s (standbyRest s o) :=
  Recedes.trans setSq_cut (setOutState_recedes _ _ _)

theorem standbyOutput_recedes (s : State) (o : Output) : Recedes g s (standbyOutput s o) := by
  have cleared : Recedes g s (endBurst (queueStandby s o) o .standby) :=
    (queueStandby_recedes s o).trans (endBurst_recedes _ _ _)
  unfold standbyOutput
  dsimp only
  split
  · exact cleared
  · exact cleared
  · exact cleared.trans (standbyRest_recedes _ _)
  · exact cleared.trans (standbyRest_recedes _ _)
  · exact (cleared.trans (standbyRest_recedes _ _)).trans (examine_recedes _ _)

theorem tbuStandby_recedes (s : State) : Recedes g s (tbuStandby s) :=
  ((setTbu s _).trans (settleClocks_recedes _)).trans (endNotice_recedes _ _ _)

theorem enterStandby_recedes (s : State) : Recedes g s (enterStandby s) :=
  (foldl standbyOutput_recedes _ s).trans (tbuStandby_recedes _)

/-! ### Rounds (chapter 5) -/

theorem freeProposal_recedes (s : State) (id : Nat) : Recedes g s (freeProposal s id) :=
  setProposals fun p hp => ⟨p, List.mem_of_mem_filter hp, rfl, rfl, List.Subset.refl _⟩

/-- A voter leaves a round. -/
theorem updateProposal_recedes (s : State) (id : Nat) (m : Master) :
    Recedes g s (updateProposal s id (·.without m)) :=
  setProposals fun p hp => by
    obtain ⟨q, hq, rfl⟩ := List.mem_map.mp hp
    refine ⟨q, hq, ?_⟩
    split
    · exact ⟨rfl, rfl, List.filter_sublist.subset⟩
    · exact ⟨rfl, rfl, List.Subset.refl _⟩

theorem proposalEnd_recedes (s : State) (p : Proposal) (c : RoundOutcome) (b : Bool) :
    Recedes g s (proposalEnd s p c b) := foldl (fun s j => handMarked s j b _) _ s

theorem endProposal_recedes (s : State) (p : Proposal) (c : RoundOutcome) : Recedes g s (endProposal s p c) := by
  unfold endProposal
  dsimp only
  refine Recedes.trans ?_ (proposalEnd_recedes _ _ _ _)
  refine Recedes.trans ?_ (freeProposal_recedes _ _)
  refine Recedes.trans ?_ (dropRefOpt _ _)
  split
  · exact refl s
  · exact removeEntries_recedes _ _ _ _

section Carry

variable {id : Nat} (pass : ∀ e : Entry, e.isReservedBy id = true → g e)
include pass

/-- The RESERVED entry of a proposal that carries becomes QUEUED. -/
theorem queueReserved_recedes (s : State) (o : Output) : Recedes g s (queueReserved s o id) :=
  setQueue fun e he => by
    obtain ⟨r, hr, rfl⟩ := List.mem_map.mp he
    split
    next h => exact .inr (.inr ⟨r, hr, pass r h, rfl⟩)
    · exact .inl hr

theorem carryChange_recedes (s : State) (o : Output) (k : Slot) : Recedes g s (carryChange s id o k).1 := by
  unfold carryChange
  split
  · exact queueReserved_recedes pass _ _
  · exact (removeEntries_recedes _ _ _ _).trans (bind_recedes _ _ _)

theorem carryStop_recedes (s : State) (o : Output) : Recedes g s (carryStop s id o).1 := by
  unfold carryStop
  split
  · exact queueReserved_recedes pass _ _
  · exact (removeEntries_recedes s o (Entry.isReservedBy id) .applied).trans (returnToBound_recedes _ _)
  · exact removeEntries_recedes _ _ _ _
  · exact removeEntries_recedes _ _ _ _
  · exact removeEntries_recedes _ _ _ _

end Carry

theorem carryStart_recedes (s : State) (o : Output) : Recedes g s (carryStart s o).1 := by
  unfold carryStart
  split
  · exact (setOutState_recedes _ _ _).trans (examine_recedes _ _)
  · exact refl s

theorem carryExclusive_recedes (s : State) (id : Nat) (t : Target) (m : Master) :
    Recedes g s (carryExclusive s id t m).1 :=
  (setClaim (List.filter_sublist.subset)).trans (foldl (fun s j => handMarked s j false _) _ _)

theorem carryClock_recedes (s : State) (p : Proposal) (sel : Selection) (a : Option Output) :
    Recedes g s (carryClock s p sel a).1 := by
  unfold carryClock
  split
  · exact refl s
  · exact refl s
  · exact takeClock_recedes _ _ _ _

theorem applyMatter_recedes {p : Proposal} (pass : ∀ e : Entry, e.isReservedBy p.id = true → g e) (s : State) :
    Recedes g s (applyMatter s p).1 := by
  unfold applyMatter
  split
  · exact carryChange_recedes pass _ _ _
  · exact carryStop_recedes pass _ _
  · exact carryStart_recedes _ _
  · exact carryExclusive_recedes _ _ _ _
  · exact carryClock_recedes _ _ _ _
  · dsimp only
    exact enterStandby_recedes s
  · exact of_eq rfl rfl rfl rfl

theorem carry_recedes {p : Proposal} (pass : ∀ e : Entry, e.isReservedBy p.id = true → g e) (s : State) :
    Recedes g s (carry s p) := by
  unfold carry
  dsimp only
  refine Recedes.trans ?_ (proposalEnd_recedes _ _ _ _)
  refine Recedes.trans ?_ (freeProposal_recedes _ _)
  exact (applyMatter_recedes pass s).trans (dropRefOpt _ _)

theorem carryIfAgreed_recedes {id : Nat} (pass : ∀ e : Entry, e.isReservedBy id = true → g e) (s : State) :
    Recedes g s (carryIfAgreed s id) := by
  unfold carryIfAgreed
  split
  · exact refl s
  next p hp =>
    split
    · exact carry_recedes (by rw [(proposal_mem hp).2]; exact pass) s
    · exact refl s

/-- A master leaves a round: entries of the proposal become QUEUED only where another has proposed it. -/
theorem leaveProposal_recedes {p : Proposal} {m : Master}
    (pass : p.proposer ≠ m → ∀ e : Entry, e.isReservedBy p.id = true → g e) (s : State) :
    Recedes g s (leaveProposal s p m) := by
  unfold leaveProposal
  split
  · exact endProposal_recedes _ _ _
  next other =>
    split
    · exact (updateProposal_recedes s _ _).trans (carryIfAgreed_recedes (pass other) _)
    · exact refl s

/-! ### Claims (chapter 4) -/

theorem orphanAppend_recedes (s : State) (o : Output) (k : EntryKind) : Recedes g s (orphanAppend s o k) :=
  (removeEntries_recedes _ _ _ _).trans (appendEntry_recedes _ _ rfl)

theorem orphanStop_recedes (s : State) (o : Output) : Recedes g s (orphanStop s o) := by
  unfold orphanStop
  split
  · exact orphanAppend_recedes _ _ _
  · exact returnToBound_recedes _ _
  · exact refl s
  · exact refl s
  · exact refl s

theorem orphanFallback_recedes (s : State) (o : Output) (k : Slot) : Recedes g s (orphanFallback s o k) := by
  unfold orphanFallback
  split
  · exact orphanAppend_recedes _ _ _
  · exact orphanAppend_recedes _ _ _
  · exact bind_recedes _ _ _
  · exact bind_recedes _ _ _
  · exact bind_recedes _ _ _

theorem applyPolicy_recedes (s : State) (o : Output) (p : Policy) : Recedes g s (applyPolicy s o p) := by
  cases p
  · exact refl s
  · exact orphanStop_recedes _ _
  · exact orphanFallback_recedes _ _ _

theorem settle_recedes (s : State) (t : Target) : Recedes g s (settle s t) := by
  unfold settle
  dsimp only
  refine Recedes.trans ?_ (dropRefOpt _ _)
  refine Recedes.trans ?_ (setClaim (List.nil_subset _))
  split
  · exact refl s
  · exact applyPolicy_recedes _ _ _

/-! ### Profiles (chapter 1) -/

theorem profileDeparture_recedes (s : State) (m : Master) : Recedes g s (profileDeparture s m) :=
  foldl (fun s k => setSlot s k _) _ s

end Sys2Proof.RecedeProofs
end

section
/-! A master that is muted: what a departing master is told, and its places among the holders, decide nothing else. Every
operation of a round and of the orphan policy commutes with muting it. -/

namespace Sys2Proof.MuteProofs

open Machine Laws

/-- The record of a target without the holder `m`, its policy not settled. -/
def unclaimed (c : ClaimRec) (m : Master) : ClaimRec := { c with holders := c.holders.filter fun h => h.master != m }

/-- The master `m` is told nothing any more: it is not joined, its notices are gone, and it is no holder. -/
def mute (m : Master) (s : State) : State :=
  State.setMaster (State.setLink { s with
      outClaims := s.outClaims.map fun c => unclaimed c m, tbClaim := unclaimed s.tbClaim m } m
    { s.link m with queue := [] }) m { s.master m with state := .absent, dropped := false }

section Reads

variable (m : Master) (s : State)

theorem sq_mute (o : Output) : (mute m s).sq o = s.sq o := rfl
theorem queue_mute (o : Output) : (mute m s).queue o = s.queue o := rfl
theorem burst_mute (o : Output) : (mute m s).burst o = s.burst o := rfl
theorem tbu_mute : (mute m s).tbu = s.tbu := rfl
theorem consent_mute : (mute m s).consent = s.consent := rfl

theorem claim_mute (t : Target) : (mute m s).claim t = unclaimed (s.claim t) m := by
  cases t
  · unfold State.claim mute
    exact Vector.getElem_map ..
  · rfl

theorem holders_mute (t : Target) : (mute m s).holders t = (s.holders t).filter (· != m) := by
  unfold State.holders
  rw [claim_mute]
  unfold unclaimed
  dsimp only
  rw [List.filter_map]
  rfl

theorem link_mute_ne {j : Master} (h : j ≠ m) : (mute m s).link j = s.link j := State.link_setLink_ne _ _ h
theorem master_mute_ne {j : Master} (h : j ≠ m) : (mute m s).master j = s.master j := State.master_setMaster_ne _ _ h

theorem joined_mute_self : (mute m s).joined m = false := by
  unfold State.joined mute
  rw [State.master_setMaster_self]
  rfl

theorem joined_mute_ne {j : Master} (h : j ≠ m) : (mute m s).joined j = s.joined j := by
  unfold State.joined
  rw [master_mute_ne m s h]

end Reads

/-! ### Notices -/

section Notices

variable {m j : Master} {s : State}

theorem mute_setLink_self (l : Link) (h : { l with queue := [] } = { s.link m with queue := [] }) :
    mute m (s.setLink m l) = mute m s := by
  unfold mute
  rw [State.link_setLink_self, h]
  unfold State.setLink State.setMaster
  dsimp only
  congr 1
  exact Vector.set_set ..

theorem mute_setMaster_self (r : MasterRec)
    (h : { r with state := .absent, dropped := false } = { s.master m with state := .absent, dropped := false }) :
    mute m (s.setMaster m r) = mute m s := by
  unfold mute
  rw [State.master_setMaster_self, h]
  unfold State.setLink State.setMaster
  dsimp only
  congr 1
  exact Vector.set_set ..

theorem mute_setLink_ne (h : j ≠ m) (l : Link) : mute m (s.setLink j l) = (mute m s).setLink j l := by
  unfold mute
  rw [State.link_setLink_ne _ _ (Ne.symm h)]
  unfold State.setLink State.setMaster
  dsimp only
  congr 1
  exact Vector.set_comm _ _ (Fin.val_ne_of_ne h)

theorem mute_setMaster_ne (h : j ≠ m) (r : MasterRec) : mute m (s.setMaster j r) = (mute m s).setMaster j r := by
  unfold mute
  rw [State.master_setMaster_ne _ _ (Ne.symm h)]
  unfold State.setLink State.setMaster
  dsimp only
  congr 1
  exact Vector.set_comm _ _ (Fin.val_ne_of_ne h)

theorem mute_handMarked (s : State) (j : Master) (c : Bool) (n : Notice) :
    mute m (s.handMarked j c n) = (mute m s).handMarked j c n := by
  by_cases self : j = m
  · subst self
    rw [RequestProofs.handMarked_of_not_joined _ _ _ (joined_mute_self j s)]
    unfold State.handMarked
    split
    · split
      · exact mute_setLink_self _ rfl
      · exact mute_setMaster_self _ rfl
    · rfl
  · unfold State.handMarked
    rw [joined_mute_ne m s self, link_mute_ne m s self, master_mute_ne m s self]
    split
    · split
      · exact mute_setLink_ne self _
      · exact mute_setMaster_ne self _
    · rfl

theorem mute_handAll (s : State) (ms : List Master) (n : Notice) :
    mute m (s.handAll ms n) = (mute m s).handAll ms n := by
  induction ms generalizing s with
  | nil => rfl
  | cons j ms ih =>
    rw [State.handAll_cons, State.handAll_cons, ih]
    exact congrArg (fun u : State => u.handAll ms n) (mute_handMarked s j false n)

/-- A muted master may stand on the list or not. -/
theorem handAll_filter (s : State) (ms : List Master) (n : Notice) :
    (mute m s).handAll (ms.filter (· != m)) n = (mute m s).handAll ms n := by
  induction ms generalizing s with
  | nil => rfl
  | cons j ms ih =>
    by_cases self : j = m
    · subst self
      rw [List.filter_cons_of_neg (by simp), ih, State.handAll_cons]
      exact congrArg (fun u : State => u.handAll ms n) (RequestProofs.handMarked_of_not_joined _ _ _ (joined_mute_self j s)).symm
    · rw [List.filter_cons_of_pos (by simpa using self), State.handAll_cons, State.handAll_cons]
      have handed : (mute m s).hand j n = mute m (s.hand j n) := (mute_handMarked s j false n).symm
      rw [handed, ih]

/-- Two lists that differ in the muted master only. -/
theorem handAll_congr {ms ms' : List Master} (h : ms.filter (· != m) = ms'.filter (· != m)) (n : Notice) :
    (mute m s).handAll ms n = (mute m s).handAll ms' n := by
  rw [← handAll_filter, h, handAll_filter]

theorem mute_told (s : State) (t : Target) (n : Notice) :
    mute m (s.handAll (s.holders t) n) = (mute m s).handAll ((mute m s).holders t) n := by
  rw [mute_handAll, holders_mute, handAll_filter]

theorem withOrigin_filter (hs : List Master) (w : Option Master) :
    (withOrigin hs w).filter (· != m) = (withOrigin (hs.filter (· != m)) w).filter (· != m) := by
  have twice : (hs.filter (· != m)).filter (· != m) = hs.filter (· != m) := by simp
  cases w with
  | none => exact twice.symm
  | some j =>
    unfold withOrigin
    by_cases self : j = m
    · subst self
      have gone : [j].filter (· != j) = [] := by simp
      dsimp only
      split <;> split <;> simp only [List.filter_append, twice, gone, List.append_nil]
    · have same : (hs.filter (· != m)).contains j = hs.contains j := by
        rw [Bool.eq_iff_iff, List.contains_iff_mem, List.contains_iff_mem, List.mem_filter]
        exact ⟨And.left, fun h => ⟨h, by simpa using self⟩⟩
      dsimp only
      rw [same]
      split <;> simp only [List.filter_append, twice]

theorem mute_told_origin (s : State) (t : Target) (w : Option Master) (n : Notice) :
    mute m (s.handAll (withOrigin (s.holders t) w) n)
      = (mute m s).handAll (withOrigin ((mute m s).holders t) w) n := by
  rw [mute_handAll, holders_mute]
  exact handAll_congr (withOrigin_filter _ _) n

/-- A fold of operations that commute with muting. -/
theorem mute_foldl {α : Type} {f : State → α → State} (h : ∀ s a, mute m (f s a) = f (mute m s) a) (l : List α)
    (s : State) : mute m (l.foldl f s) = l.foldl f (mute m s) := by
  induction l generalizing s with
  | nil => rfl
  | cons a l ih => rw [List.foldl_cons, List.foldl_cons, ih, h]

end Notices

section Operations

variable {m : Master} (s : State)

/-! ### Outputs (chapters 2, 3 and 8) -/

theorem mute_dropRefOpt (k : Option Slot) : mute m (s.dropRefOpt k) = (mute m s).dropRefOpt k := by cases k <;> rfl

theorem mute_outputNotice (o : Output) (prev : OutState) :
    mute m (outputNotice s o prev) = outputNotice (mute m s) o prev := mute_told s (.out o) _

theorem mute_setOutState (o : Output) (st : OutState) : mute m (setOutState s o st) = setOutState (mute m s) o st :=
  mute_outputNotice (s.setSq o { s.sq o with state := st }) o _

theorem mute_returnToBound (o : Output) : mute m (returnToBound s o) = returnToBound (mute m s) o :=
  mute_setOutState _ o .bound

theorem mute_bind (o : Output) (k : Slot) : mute m (Machine.bind s o k) = Machine.bind (mute m s) o k := by
  have rebound : mute m ((s.addRef k).dropRefOpt (s.sq o).current)
      = ((mute m s).addRef k).dropRefOpt ((mute m s).sq o).current := mute_dropRefOpt (s.addRef k) _
  unfold Machine.bind
  dsimp only
  rw [← rebound, sq_mute, sq_mute]
  split
  · exact mute_setOutState _ o .bound
  · rfl

theorem mute_changeDone (o : Output) (k : DoneKind) (w : Option (Master × Byte)) (p : Option Nat) (c : ChangeOutcome) :
    mute m (changeDone s o k w p c) = changeDone (mute m s) o k w p c := mute_told_origin s (.out o) _ _

theorem mute_entryLeft (o : Output) (c : ChangeOutcome) (e : Entry) :
    mute m (entryLeft o c s e) = entryLeft o c (mute m s) e := by
  have dropped : mute m (dropEntryRef s e.kind) = dropEntryRef (mute m s) e.kind := by cases e.kind <;> rfl
  unfold entryLeft
  rw [mute_changeDone, dropped]

theorem mute_removeEntries (o : Output) (p : Entry → Bool) (c : ChangeOutcome) :
    mute m (removeEntries s o p c) = removeEntries (mute m s) o p c :=
  mute_foldl (fun u e => mute_entryLeft u o c e) _ _

theorem mute_appendEntry (o : Output) (e : Entry) : mute m (appendEntry s o e) = appendEntry (mute m s) o e := by
  have placed : mute m (addEntryRef s e.kind) = addEntryRef (mute m s) e.kind := by cases e.kind <;> rfl
  have full : (mute m s).queueFull o = s.queueFull o := rfl
  unfold appendEntry
  rw [full, ← placed, queue_mute]
  split <;> rfl

theorem mute_finishBurst (o : Output) (b : Burst) :
    mute m (finishBurst s o b .complete) = finishBurst (mute m s) o b .complete := mute_handAll (s.setBurst o none) _ _

theorem mute_strobeLine (o : Output) : mute m (strobeLine s o) = strobeLine (mute m s) o := by
  unfold strobeLine
  rw [burst_mute, sq_mute]
  split
  · rfl
  · split
    · rfl
    · exact mute_finishBurst s o _

/-! ### The Timebase Unit (chapter 6) -/

theorem mute_startOne (o : Output) : mute m (startOne s o) = startOne (mute m s) o :=
  (mute_outputNotice _ o .waiting).trans (congrArg (outputNotice · o .waiting) (mute_strobeLine _ o))

theorem mute_startAll (os : List Output) : mute m (startAll s os) = startAll (mute m s) os :=
  mute_foldl (fun u o => mute_startOne u o) os s

theorem startSet_mute (moment : List Output) : (mute m s).startSet moment = s.startSet moment := rfl

theorem mute_settleXo : mute m (settleXo s) = settleXo (mute m s) := by
  have wanted : (mute m s).xoWanted = s.xoWanted := rfl
  unfold settleXo
  rw [wanted, tbu_mute]
  split
  · split <;> rfl
  · rfl

theorem mute_settleClocks : mute m (settleClocks s) = settleClocks (mute m s) := by
  have serves : (mute m s).synthServes = s.synthServes := rfl
  unfold settleClocks
  rw [serves, mute_settleXo]
  split <;> rfl

theorem mute_abandonLock : mute m (abandonLock s) = abandonLock (mute m s) := by
  unfold abandonLock
  rw [tbu_mute]
  split <;> rfl

theorem mute_switchNotice (sw : Switch) (e : ClockEvent) :
    mute m (switchNotice s sw e) = switchNotice (mute m s) sw e := mute_told_origin s .tb _ _

theorem mute_endNotice (sw : Option Switch) (e : Switch → ClockEvent) :
    mute m (endNotice s sw e) = endNotice (mute m s) sw e := by
  cases sw
  · rfl
  · exact mute_switchNotice s _ _

theorem mute_mapSq {f : State → Output → OutRec} (h : ∀ s o, f (mute m s) o = f s o) :
    mute m (s.mapSq f) = (mute m s).mapSq f :=
  mute_foldl (fun u o => by rw [h u o]; rfl) _ _

/-- A completion before the outputs start: the unit runs on the target, and every output is reached (R117). -/
def reached (s : State) (sw : Switch) (aligned : Bool) : State :=
  let u := settleClocks (s.setTbu { s.tbu with state := .running sw.target, fail := false })
  (u.setTbu { u.tbu with xoCheck := checksFor u.now sw.target }).mapSq
    fun v o => (v.sq o).completion (spared sw aligned o)

theorem complete_eq (sw : Switch) (aligned : Bool) (moment : List Output) : complete s sw aligned moment
    = switchNotice (startAll (reached s sw aligned) ((reached s sw aligned).startSet moment)) sw
        (.completed sw aligned) := by
  unfold complete reached
  dsimp only

theorem mute_reached (sw : Switch) (aligned : Bool) : mute m (reached s sw aligned) = reached (mute m s) sw aligned := by
  have begun : mute m (s.setTbu { s.tbu with state := .running sw.target, fail := false })
      = (mute m s).setTbu { (mute m s).tbu with state := .running sw.target, fail := false } := rfl
  have checked (u : State) : mute m (u.setTbu { u.tbu with xoCheck := checksFor u.now sw.target })
      = (mute m u).setTbu { (mute m u).tbu with xoCheck := checksFor (mute m u).now sw.target } := rfl
  unfold reached
  dsimp only at begun checked ⊢
  rw [mute_mapSq _ fun _ _ => rfl, checked, mute_settleClocks, begun]

theorem mute_complete (sw : Switch) (aligned : Bool) (moment : List Output) :
    mute m (complete s sw aligned moment) = complete (mute m s) sw aligned moment := by
  rw [complete_eq, complete_eq, mute_switchNotice, mute_startAll, ← mute_reached, startSet_mute]

theorem mute_examine (moment : List Output) : mute m (examine s moment) = examine (mute m s) moment := by
  unfold examine
  dsimp only
  rw [startSet_mute, ← mute_startAll, tbu_mute]
  split
  · split
    · split
      · exact mute_complete _ _ _ _
      · rfl
    · rfl
  · rfl

theorem mute_targetReady : mute m (targetReady s) = targetReady (mute m s) := by
  unfold targetReady
  rw [tbu_mute]
  split
  · exact mute_complete s _ _ _
  · split
    · exact mute_complete s _ _ _
    · rw [sq_mute]
      split
      · rfl
      · exact mute_complete s _ _ _
  · rfl

theorem mute_readyTarget (sw : Switch) : mute m (readyTarget s sw) = readyTarget (mute m s) sw := by
  have ready : (mute m s).sourceReady sw.target.source = s.sourceReady sw.target.source := by
    cases sw.target.source <;> rfl
  unfold readyTarget
  rw [ready, tbu_mute]
  split
  · split
    · exact mute_targetReady s
    · split <;> rfl
  · rfl

theorem mute_progress : mute m (progress s) = progress (mute m s) := by
  unfold progress
  rw [tbu_mute]
  split
  · exact mute_readyTarget s _
  · exact mute_readyTarget s _
  · rfl

theorem mute_beginSwitch (st : TbuState) (sw : Switch) (ended : Option Switch) :
    mute m (beginSwitch s st sw ended) = beginSwitch (mute m s) st sw ended := by
  unfold beginSwitch
  dsimp only
  rw [mute_progress, mute_switchNotice, mute_endNotice, mute_settleClocks]
  rfl

/-- The unit runs on, and the switch in flight is told its end. -/
theorem mute_switchEnds (cur : Selection) (old : Option Switch) :
    mute m (endNotice (settleClocks (s.setTbu { s.tbu with state := .running cur })) old .superseded)
      = endNotice (settleClocks ((mute m s).setTbu { (mute m s).tbu with state := .running cur })) old .superseded := by
  rw [mute_endNotice, mute_settleClocks]
  rfl

theorem mute_takeClock (sel : Selection) (align : Option Output) (origin : SwitchOrigin) :
    mute m (takeClock s sel align origin) = takeClock (mute m s) sel align origin := by
  have now : (mute m s).now = s.now := rfl
  unfold takeClock
  dsimp only
  rw [tbu_mute, now, ← mute_abandonLock]
  split
  · exact mute_beginSwitch s _ _ _
  · split
    · exact mute_switchEnds _ _ _
    · exact mute_beginSwitch _ _ _ _
  · split
    · exact mute_switchEnds _ _ _
    · exact mute_beginSwitch _ _ _ _
  · exact mute_beginSwitch _ _ _ _
  · exact mute_beginSwitch s _ _ _
  · rfl

/-! ### Rounds (chapter 5) -/

theorem mute_proposalEnd (p : Proposal) (c : RoundOutcome) (b : Bool) :
    mute m (proposalEnd s p c b) = proposalEnd (mute m s) p c b :=
  mute_foldl (fun u j => mute_handMarked u j b _) _ s

theorem mute_endProposal (p : Proposal) (c : RoundOutcome) :
    mute m (endProposal s p c) = endProposal (mute m s) p c := by
  have freed (u : State) : mute m (proposalEnd (freeProposal (u.dropRefOpt p.matter.payloadSlot) p.id) p c false)
      = proposalEnd (freeProposal ((mute m u).dropRefOpt p.matter.payloadSlot) p.id) p c false := by
    rw [mute_proposalEnd, ← mute_dropRefOpt]
    rfl
  unfold endProposal
  dsimp only
  rw [freed]
  split
  · rfl
  · rw [mute_removeEntries]

theorem mute_carryChange (id : Nat) (o : Output) (k : Slot) :
    mute m (carryChange s id o k).1 = (carryChange (mute m s) id o k).1
      ∧ (carryChange (mute m s) id o k).2 = (carryChange s id o k).2 := by
  unfold carryChange
  rw [sq_mute]
  split
  · exact ⟨rfl, rfl⟩
  · exact ⟨by rw [mute_bind, mute_removeEntries], rfl⟩

theorem mute_carryStop (id : Nat) (o : Output) :
    mute m (carryStop s id o).1 = (carryStop (mute m s) id o).1
      ∧ (carryStop (mute m s) id o).2 = (carryStop s id o).2 := by
  unfold carryStop
  rw [sq_mute]
  split
  · exact ⟨rfl, rfl⟩
  · exact ⟨by rw [mute_returnToBound, mute_removeEntries], rfl⟩
  all_goals exact ⟨mute_removeEntries s _ _ _, rfl⟩

theorem mute_carryStart (o : Output) : mute m (carryStart s o).1 = (carryStart (mute m s) o).1
    ∧ (carryStart (mute m s) o).2 = (carryStart s o).2 := by
  unfold carryStart enterWaiting
  rw [sq_mute]
  split
  · exact ⟨by rw [mute_examine, mute_setOutState], rfl⟩
  · exact ⟨rfl, rfl⟩

theorem mute_setClaim (t : Target) (c : ClaimRec) :
    mute m (s.setClaim t c) = (mute m s).setClaim t (unclaimed c m) := by
  cases t
  · unfold mute State.setClaim State.setLink State.setMaster
    dsimp only
    congr 1
    exact Vector.map_set ..
  · rfl

theorem mute_carryExclusive (id : Nat) (t : Target) (j : Master) :
    mute m (carryExclusive s id t j).1 = (carryExclusive (mute m s) id t j).1 := by
  have told (u : State) (ms : List Master) (n : Notice) : ms.foldl (fun v i => v.hand i n) u = u.handAll ms n := rfl
  have kept : unclaimed { s.claim t with mode := .exclusive, holders := (s.claim t).holders.filter (·.master == j) } m
      = { unclaimed (s.claim t) m with
          mode := .exclusive, holders := (unclaimed (s.claim t) m).holders.filter (·.master == j) } := by
    unfold unclaimed
    dsimp only
    rw [List.filter_filter, List.filter_filter]
    simp only [Bool.and_comm]
  have lost : (((s.claim t).holders.filter (·.master != j)).map Holder.master).filter (· != m)
      = (((unclaimed (s.claim t) m).holders.filter (·.master != j)).map Holder.master).filter (· != m) := by
    unfold unclaimed
    simp only [List.filter_map, List.filter_filter, Function.comp_def]
    congr 2
    funext x
    cases (x.master != m) <;> simp
  unfold carryExclusive
  dsimp only
  rw [told, told, mute_handAll, claim_mute, ← kept, ← mute_setClaim]
  exact handAll_congr lost _

theorem mute_carryClock (p : Proposal) (sel : Selection) (align : Option Output) :
    mute m (carryClock s p sel align).1 = (carryClock (mute m s) p sel align).1
      ∧ (carryClock (mute m s) p sel align).2 = (carryClock s p sel align).2 := by
  have check : clockCheck (mute m s) (some sel) (some align) = clockCheck s (some sel) (some align) := rfl
  unfold carryClock
  rw [check]
  split
  · exact ⟨rfl, rfl⟩
  · exact ⟨rfl, rfl⟩
  · exact ⟨mute_takeClock s _ _ _, rfl⟩

/-- The owner of a target other than DEVICE applies the matter of a round. -/
theorem mute_applyMatter {p : Proposal} (h : p.matter.target ≠ none) :
    mute m (applyMatter s p).1 = (applyMatter (mute m s) p).1
      ∧ (applyMatter (mute m s) p).2 = (applyMatter s p).2 := by
  unfold applyMatter
  cases matter : p.matter with
  | outputChange o k => exact mute_carryChange s _ _ _
  | outputStop o => exact mute_carryStop s _ _
  | outputStart o => exact mute_carryStart s _
  | claimExclusive t => exact ⟨mute_carryExclusive s _ _ _, rfl⟩
  | clockChange sel align => exact mute_carryClock s _ _ _
  | standby => exact absurd (by rw [matter]; rfl) h
  | deviceReset => exact absurd (by rw [matter]; rfl) h

theorem mute_carry {p : Proposal} (h : p.matter.target ≠ none) : mute m (carry s p) = carry (mute m s) p := by
  obtain ⟨state, outcome⟩ := mute_applyMatter (m := m) s h
  have freed (u : State) : mute m (freeProposal u p.id) = freeProposal (mute m u) p.id := rfl
  unfold carry
  dsimp only
  rw [mute_proposalEnd, freed, mute_dropRefOpt, state, outcome]

theorem mute_updateProposal (id : Nat) (f : Proposal → Proposal) :
    mute m (updateProposal s id f) = updateProposal (mute m s) id f := rfl

theorem mute_carryIfAgreed {id : Nat} (h : ∀ p ∈ s.consent.proposals, p.id = id → p.matter.target ≠ none) :
    mute m (carryIfAgreed s id) = carryIfAgreed (mute m s) id := by
  have found : (mute m s).proposal id = s.proposal id := rfl
  unfold carryIfAgreed
  rw [found]
  split
  · rfl
  next p hp =>
    split
    · exact mute_carry s (h p (List.mem_of_find?_eq_some hp) (proposal_mem hp).2)
    · rfl

/-- A master leaves a round on a target other than DEVICE. -/
theorem mute_leaveProposal {p : Proposal} {j : Master}
    (h : ∀ x ∈ s.consent.proposals, x.id = p.id → x.matter.target ≠ none) :
    mute m (leaveProposal s p j) = leaveProposal (mute m s) p j := by
  unfold leaveProposal
  split
  · exact mute_endProposal s _ _
  · split
    · rw [mute_carryIfAgreed, mute_updateProposal]
      intro x hx id
      obtain ⟨y, hy, rfl⟩ := List.mem_map.mp hx
      have same : (if y.id == p.id then y.without j else y).matter = y.matter ∧
          (if y.id == p.id then y.without j else y).id = y.id := by
        split
        · exact ⟨rfl, rfl⟩
        · exact ⟨rfl, rfl⟩
      rw [same.1]
      exact h y hy (same.2.symm.trans id)
    · rfl

/-! ### The orphan policy (chapter 4) -/

theorem mute_orphanAppend (o : Output) (k : EntryKind) : mute m (orphanAppend s o k) = orphanAppend (mute m s) o k := by
  unfold orphanAppend
  rw [mute_appendEntry, mute_removeEntries]

theorem mute_applyPolicy (o : Output) (p : Policy) : mute m (applyPolicy s o p) = applyPolicy (mute m s) o p := by
  cases p with
  | keep => rfl
  | stop =>
    show mute m (orphanStop s o) = orphanStop (mute m s) o
    unfold orphanStop
    rw [sq_mute]
    split
    · exact mute_orphanAppend s _ _
    · exact mute_returnToBound s _
    all_goals rfl
  | fallback k =>
    show mute m (orphanFallback s o k) = orphanFallback (mute m s) o k
    unfold orphanFallback
    rw [sq_mute]
    split
    · exact mute_orphanAppend s _ _
    · exact mute_orphanAppend s _ _
    all_goals exact mute_bind s _ _

theorem mute_settle (t : Target) : mute m (settle s t) = settle (mute m s) t := by
  have reset : unclaimed .reset m = .reset := rfl
  have policy : ((mute m s).claim t).policy = (s.claim t).policy := by
    rw [claim_mute]
    rfl
  unfold settle
  dsimp only
  rw [policy, mute_dropRefOpt, mute_setClaim, reset]
  split
  · rfl
  · rw [mute_applyPolicy]

end Operations

end Sys2Proof.MuteProofs
end

section
/-! The parts of a departure one by one: which of them has nothing to do, and what comes of all of them where one of them
has (R149). -/

namespace Sys2Proof.PartProofs

open Machine Laws RecedeProofs

/-! ### Folds in which little happens -/

section Fold

variable {α β : Type} {f : β → α → β} {s t u v : β} {x y : α} {l : List α}

theorem foldl_of_fixed (h : ∀ a, f t a = t) (l : List α) : l.foldl f t = t := by
  induction l with
  | nil => rfl
  | cons a l ih => rw [List.foldl_cons, h, ih]

/-- One element of the list acts, and nothing is left to do after it. -/
theorem foldl_of_one (before : ∀ a, a ≠ x → f s a = s) (run : f s x = t) (after : ∀ a, f t a = t) (h : x ∈ l) :
    l.foldl f s = t := by
  induction l with
  | nil => cases h
  | cons a l ih =>
    rw [List.foldl_cons]
    by_cases e : a = x
    · rw [e, run, foldl_of_fixed after]
    · rw [before a e]
      exact ih ((List.mem_cons.mp h).resolve_left (Ne.symm e))

/-- Two elements act: `x` does all, or what is left after `y`. -/
theorem foldl_of_two (before : ∀ a, a ≠ x → a ≠ y → f s a = s) (first : f s x = t) (other : f s y = u)
    (done : ∀ a, f t a = t) (waits : ∀ a, a ≠ x → f u a = u) (last : f u x = v) (rest : ∀ a, f v a = v)
    (hx : x ∈ l) (hy : y ∈ l) : l.foldl f s = t ∨ l.foldl f s = v := by
  induction l with
  | nil => cases hx
  | cons a l ih =>
    rw [List.foldl_cons]
    by_cases ex : a = x
    · rw [ex, first, foldl_of_fixed done]
      exact .inl rfl
    · have hx := (List.mem_cons.mp hx).resolve_left (Ne.symm ex)
      by_cases ey : a = y
      · rw [ey, other]
        exact .inr (foldl_of_one waits last rest hx)
      · rw [before a ex ey]
        exact ih hx ((List.mem_cons.mp hy).resolve_left (Ne.symm ey))

/-- What one element brings about and none undoes holds in the end, while `i` holds throughout. -/
theorem foldl_reaches {i p : β → Prop} (kept : ∀ s a, i s → i (f s a)) (brings : ∀ s, i s → p (f s x))
    (stays : ∀ s a, i s → p s → p (f s a)) (h : i s) (hx : x ∈ l) : p (l.foldl f s) := by
  have remains (l : List α) : ∀ s, i s → p s → p (l.foldl f s) := by
    induction l with
    | nil => exact fun _ _ h => h
    | cons a l ih => exact fun s g h => ih _ (kept s a g) (stays s a g h)
  induction l generalizing s with
  | nil => cases hx
  | cons a l ih =>
    rw [List.foldl_cons]
    rcases List.mem_cons.mp hx with rfl | hx
    · exact remains l _ (kept _ _ h) (brings s h)
    · exact ih (kept _ _ h) hx

end Fold

/-! ### Parts that have nothing to do -/

/-- The part has nothing to do for the departure of `m`. -/
def Idle (m : Master) (s : State) : Part → Prop
  | .claims => ∀ t, s.isHolder t m = false
  | .consent => ∀ p ∈ s.consent.proposals, p.proposer ≠ m ∧ m ∉ p.required
  | .queue o => (∀ e ∈ s.queue o, e.state = .queued → e.origin.map Prod.fst ≠ some m)
      ∧ (s.sq o).cut.map PendingCut.origin ≠ some m
  | .profiles => ∀ k, (s.slot k).owner ≠ some m
  | .strobe o => (s.burst o).map Burst.origin ≠ some m

theorem uninvolved_iff {s : State} {m : Master} : Uninvolved s m ↔ ∀ q, Idle m s q := by
  constructor
  · rintro ⟨claims, consent, queue, cut, burst, slots⟩ q
    cases q
    · exact claims
    · exact consent
    · exact ⟨queue _, cut _⟩
    · exact slots
    · exact burst _
  · intro h
    exact ⟨h .claims, h .consent, fun o => (h (.queue o)).1, fun o => (h (.queue o)).2, fun o => h (.strobe o), h .profiles⟩

section Parts

variable {s : State} {m : Master}

theorem claimsDeparture_of_idle (h : Idle m s .claims) : claimsDeparture s m = s :=
  foldl_of_fixed (fun t => if_neg (by rw [h t]; exact nofun)) _

theorem leaveProposal_of_idle {p : Proposal} (h : p.proposer ≠ m ∧ m ∉ p.required) : leaveProposal s p m = s := by
  unfold leaveProposal
  rw [if_neg h.1, if_neg (by simpa using h.2)]

theorem leaveById_of_some {id : Nat} {p : Proposal} (h : s.proposal id = some p) :
    leaveById m s id = leaveProposal s p m := by
  unfold leaveById
  rw [h]

/-- A proposal that does not involve the master, or none, of the id. -/
theorem leaveById_of_idle {id : Nat} (h : ∀ p, s.proposal id = some p → p.proposer ≠ m ∧ m ∉ p.required) :
    leaveById m s id = s := by
  unfold leaveById
  split
  · rfl
  next p hp => exact leaveProposal_of_idle (h p hp)

theorem consentDeparture_of_idle (h : Idle m s .consent) : consentDeparture s m = s :=
  foldl_of_fixed (fun _ => leaveById_of_idle fun p hp => h p (List.mem_of_find?_eq_some hp)) _

theorem removeEntries_of_none {o : Output} {p : Entry → Bool} {c : ChangeOutcome} (h : ∀ e ∈ s.queue o, p e = false) :
    removeEntries s o p c = s := by
  have out : (s.queue o).filter p = [] := List.filter_eq_nil_iff.mpr fun e he => by rw [h e he]; exact nofun
  have stay : (s.queue o).filter (fun e => !p e) = s.queue o :=
    List.filter_eq_self.mpr fun e he => by rw [h e he]; rfl
  unfold removeEntries
  rw [out, stay, setQueue_self]
  rfl

/-- The QUEUED entries of a master. -/
def queuedBy (m : Master) (e : Entry) : Bool := e.isQueued && e.origin.map Prod.fst == some m

theorem queuedBy_eq_false {e : Entry} (h : e.state = .queued → e.origin.map Prod.fst ≠ some m) :
    queuedBy m e = false := by
  unfold queuedBy Entry.isQueued
  by_cases queued : e.state = .queued
  · rw [beq_false_of_ne (h queued), Bool.and_false]
  · rw [beq_false_of_ne queued]
    rfl

theorem queueDeparture_of_no_cut {o : Output} (h : (s.sq o).cut.map PendingCut.origin ≠ some m) :
    queueDeparture s o m = removeEntries s o (queuedBy m) .discarded :=
  if_neg (by rw [removeEntries_sq]; exact h)

theorem queueDeparture_of_cut {o : Output} (hq : ∀ e ∈ s.queue o, e.state = .queued → e.origin.map Prod.fst ≠ some m)
    (h : (s.sq o).cut.map PendingCut.origin = some m) : queueDeparture s o m = dropCut s o .discarded := by
  have none : removeEntries s o (queuedBy m) .discarded = s :=
    removeEntries_of_none fun e he => queuedBy_eq_false (hq e he)
  exact (if_pos (by rw [removeEntries_sq]; exact h)).trans (congrArg (dropCut · o .discarded) none)

theorem queueDeparture_of_idle {o : Output} (h : Idle m s (.queue o)) : queueDeparture s o m = s :=
  (queueDeparture_of_no_cut h.2).trans (removeEntries_of_none fun e he => queuedBy_eq_false (h.1 e he))

theorem depart_of_other {r : SlotRec} (h : r.owner ≠ some m) : r.depart m = r := if_neg h

theorem profileDeparture_of_idle (h : Idle m s .profiles) : profileDeparture s m = s :=
  foldl_of_fixed (fun k => by rw [depart_of_other (h k), setSlot_self]) _

theorem strobeDeparture_of_idle {o : Output} (h : Idle m s (.strobe o)) : strobeDeparture s o m = s := if_neg h

theorem runPart_of_idle {q : Part} (h : Idle m s q) : runPart m s q = s := by
  cases q
  · exact claimsDeparture_of_idle h
  · exact consentDeparture_of_idle h
  · exact queueDeparture_of_idle h
  · exact profileDeparture_of_idle h
  · exact strobeDeparture_of_idle h

end Parts

/-! ### All parts -/

/-- The state after step 1 of the departure of `m` (R149). -/
def parts (s : State) (m : Master) : State := (departureOrder s.partRank).foldl (runPart m) s

theorem mem_allParts (q : Part) : q ∈ allParts := by
  unfold allParts
  rw [List.mem_append, List.mem_append, List.mem_append]
  cases q with
  | claims => exact .inl (.inl (.inl List.mem_cons_self))
  | consent => exact .inl (.inl (.inl (List.mem_cons_of_mem _ List.mem_cons_self)))
  | queue o => exact .inl (.inl (.inr (List.mem_map_of_mem (mem_allOutputs o))))
  | profiles => exact .inl (.inr List.mem_cons_self)
  | strobe o => exact .inr (List.mem_map_of_mem (mem_allOutputs o))

theorem mem_order (rank : List Nat) (q : Part) : q ∈ departureOrder rank := mem_departureOrder rank (mem_allParts q)

section All

variable {s t u : State} {m : Master}

theorem parts_of_uninvolved (h : Uninvolved s m) : parts s m = s :=
  foldl_of_fixed (fun q => runPart_of_idle (uninvolved_iff.mp h q)) _

/-- One part has something to do. -/
theorem parts_of_one {x : Part} (before : ∀ q, q ≠ x → Idle m s q) (run : runPart m s x = t) (after : Uninvolved t m) :
    parts s m = t :=
  foldl_of_one (fun q hq => runPart_of_idle (before q hq)) run (fun q => runPart_of_idle (uninvolved_iff.mp after q))
    (mem_order _ x)

/-- The consent part and the claims part have something to do: whichever comes first, nothing is left after the claims
part. -/
theorem parts_of_two {v : State} (before : ∀ q, q ≠ .claims → q ≠ .consent → Idle m s q)
    (claims : claimsDeparture s m = t) (consent : consentDeparture s m = u) (done : Uninvolved t m)
    (waits : ∀ q, q ≠ .claims → Idle m u q) (last : claimsDeparture u m = v) (rest : Uninvolved v m) :
    parts s m = t ∨ parts s m = v :=
  foldl_of_two (f := runPart m) (x := Part.claims) (y := Part.consent)
    (fun q hx hy => runPart_of_idle (before q hx hy)) claims consent
    (fun q => runPart_of_idle (uninvolved_iff.mp done q)) (fun q hq => runPart_of_idle (waits q hq)) last
    (fun q => runPart_of_idle (uninvolved_iff.mp rest q)) (mem_order _ _) (mem_order _ _)

theorem idle_claims_of_recedes {g : Entry → Prop} (r : Recedes g s t) (h : Idle m s .claims) : Idle m t .claims :=
  fun c => Bool.eq_false_iff.mpr fun held => absurd ((h c).symm.trans (r.holder c m held)) nofun

theorem idle_consent_of_recedes {g : Entry → Prop} (r : Recedes g s t) (h : Idle m s .consent) : Idle m t .consent := by
  intro p hp
  obtain ⟨q, hq, -, proposer, required⟩ := r.voters p hp
  exact ⟨proposer ▸ (h q hq).1, fun hm => (h q hq).2 (required hm)⟩

theorem idle_queue_of_recedes {g : Entry → Prop} {o : Output} (r : Recedes g s t)
    (grant : ∀ e ∈ s.queue o, g e → e.origin.map Prod.fst ≠ some m) (h : Idle m s (.queue o)) : Idle m t (.queue o) := by
  refine ⟨fun e he queued => ?_, fun cut => ?_⟩
  · rcases r.entry o e he with old | new | ⟨e', he', ok, rfl⟩
    · exact h.1 e old queued
    · rw [new]
      exact nofun
    · exact grant e' he' ok
  · rcases r.cut o with gone | same
    · rw [gone] at cut
      cases cut
    · exact h.2 (same ▸ cut)

theorem idle_strobe_of_recedes {g : Entry → Prop} {o : Output} (r : Recedes g s t) (h : Idle m s (.strobe o)) :
    Idle m t (.strobe o) := by
  intro burst
  rcases r.burst o with gone | same
  · rw [gone] at burst
    cases burst
  · exact h (same ▸ burst)

/-- What recedes leaves a part with nothing to do, unless an entry of `m` may become QUEUED. -/
theorem idle_of_recedes {g : Entry → Prop} (r : Recedes g s t) (owner : ∀ k, (t.slot k).owner = (s.slot k).owner)
    (grant : ∀ o, ∀ e ∈ s.queue o, g e → e.origin.map Prod.fst ≠ some m) {q : Part} (h : Idle m s q) : Idle m t q := by
  cases q
  case claims => exact idle_claims_of_recedes r h
  case consent => exact idle_consent_of_recedes r h
  case queue o => exact idle_queue_of_recedes r (grant o) h
  case profiles =>
    intro k
    rw [owner]
    exact h k
  case strobe o => exact idle_strobe_of_recedes r h

/-- No entry becomes QUEUED. -/
abbrev NoGrant : Entry → Prop := fun _ => False

theorem uninvolved_of_recedes (r : Recedes NoGrant s t) (owner : ∀ k, (t.slot k).owner = (s.slot k).owner)
    (h : Uninvolved s m) : Uninvolved t m :=
  uninvolved_iff.mpr fun q => idle_of_recedes r owner (fun _ _ _ => False.elim) (uninvolved_iff.mp h q)

theorem owner_of_inner (h : Inner s t) (k : Slot) : (t.slot k).owner = (s.slot k).owner := by rw [h.slot k]

end All

end Sys2Proof.PartProofs
end

section
/-! A departure in which one part has something to do: profiles, a burst, queued entries, a pending cut, claims, a proposal
of its own on any target, a vote awaited on DEVICE (R13, R60, R73, R97, R141, R149). -/

namespace Sys2Proof.OnePartProofs

open Machine Laws RecedeProofs PartProofs

/-! ### What a part reads -/

section Reads

variable {s u : State} {m : Master} {o : Output}

theorem idle_claims_of (hc : ∀ t, u.claim t = s.claim t) (h : Idle m u .claims) : Idle m s .claims := fun t => by
  have held := h t
  unfold State.isHolder State.holders at held ⊢
  rwa [hc] at held

theorem idle_queue_of (hq : u.queue o = s.queue o) (hc : (u.sq o).cut = (s.sq o).cut) (h : Idle m u (.queue o)) :
    Idle m s (.queue o) :=
  ⟨fun e he => h.1 e (hq ▸ he), hc ▸ h.2⟩

theorem idle_strobe_of (hb : u.burst o = s.burst o) (h : Idle m u (.strobe o)) : Idle m s (.strobe o) := by
  intro burst
  rw [← hb] at burst
  exact h burst

end Reads

section Parts

variable {s : State} {m : Master}

/-! ### Profiles (R13) -/

theorem depart_eq_withoutOwner (r : SlotRec) (m : Master) : r.depart m = withoutOwner r m := by
  unfold SlotRec.depart withoutOwner
  by_cases own : r.owner = some m
  · rw [if_pos own]
    cases state : r.state
    · rw [if_neg (fun h => nomatch h.2), if_neg (fun h => nomatch h.2)]
    · rw [if_pos ⟨own, rfl⟩]
      rfl
    · rw [if_neg (fun h => nomatch h.2), if_pos ⟨own, rfl⟩]
  · rw [if_neg own, if_neg (fun h => own h.1), if_neg (fun h => own h.1)]

/-- Each slot of the list is left once. -/
theorem slot_departs {l : List Slot} (h : l.Nodup) (s : State) (k : Slot) :
    (l.foldl (fun u j => u.setSlot j ((u.slot j).depart m)) s).slot k
      = if k ∈ l then (s.slot k).depart m else s.slot k := by
  induction l generalizing s with
  | nil => rfl
  | cons j l ih =>
    rw [List.foldl_cons, ih (List.nodup_cons.mp h).2]
    by_cases e : k = j
    · subst e
      rw [if_neg (List.nodup_cons.mp h).1, if_pos List.mem_cons_self, State.slot_setSlot_self]
    · rw [State.slot_setSlot_ne _ _ e]
      simp only [List.mem_cons, e, false_or]

theorem slot_profileDeparture (s : State) (m : Master) (k : Slot) :
    (profileDeparture s m).slot k = withoutOwner (s.slot k) m := by
  have every : k ∈ allSlots := by revert k; decide
  rw [← depart_eq_withoutOwner]
  exact (slot_departs (by decide) s k).trans (if_pos every)

theorem profileDeparture_eq (s : State) (m : Master) :
    profileDeparture s m = { s with slots := s.slots.map fun r => withoutOwner r m } := by
  have only (l : List Slot) : ∀ u : State, l.foldl (fun u j => u.setSlot j ((u.slot j).depart m)) u
      = { u with slots := (l.foldl (fun u j => u.setSlot j ((u.slot j).depart m)) u).slots } := by
    induction l with
    | nil => exact fun _ => rfl
    | cons j l ih => exact fun u => ih _
  have slots : (profileDeparture s m).slots = s.slots.map fun r => withoutOwner r m :=
    Vector.ext fun i hi => by
      rw [Vector.getElem_map]
      exact slot_profileDeparture s m ⟨i, hi⟩
  rw [← slots]
  exact only allSlots s

theorem parts_of_profiles (h : Uninvolved { s with slots := s.slots.map fun r => withoutOwner r m } m) :
    parts s m = { s with slots := s.slots.map fun r => withoutOwner r m } := by
  have idle := uninvolved_iff.mp h
  refine parts_of_one (x := .profiles) (fun q hq => ?_) (profileDeparture_eq s m) h
  cases q
  case profiles => exact absurd rfl hq
  case claims => exact idle .claims
  case consent => exact idle .consent
  case queue o => exact idle (.queue o)
  case strobe o => exact idle (.strobe o)

/-! ### A burst (R141) -/

theorem parts_of_burst {o : Output} {b : Burst} (hb : s.burst o = some b) (own : b.origin = m)
    (h : Uninvolved (s.setBurst o none) m) : parts s m = (s.setBurst o none).handAll (s.holders (.out o))
      (.burstDone o b.pattern b.origin b.tag .originGone b.pulses b.repeats (s.sq o).frameNo) := by
  have idle := uninvolved_iff.mp h
  refine parts_of_one (x := .strobe o) (fun q hq => ?_) ?_
    (uninvolved_of_recedes (Recedes.handAll _ _ _) (owner_of_inner (handAll_inner _ _ _)) h)
  · cases q
    case claims => exact idle_claims_of (fun t => by cases t <;> rfl) (idle .claims)
    case consent => exact idle .consent
    case profiles => exact idle .profiles
    case queue p => exact idle_queue_of (by rw [State.queue_setBurst]) (by rw [State.sq_setBurst]) (idle (.queue p))
    case strobe p => exact idle_strobe_of (by rw [State.burst_setBurst_ne _ _ (fun e => hq (by rw [e]))]) (idle (.strobe p))
  · show strobeDeparture s o m = _
    unfold strobeDeparture endBurst
    rw [if_pos (by rw [hb]; exact congrArg some own), hb]
    rfl

/-! ### Queued entries and a pending cut (R60) -/

theorem parts_of_queued {o : Output} (h : Uninvolved (s.setQueue o ((s.queue o).filter fun e => !queuedBy m e)) m) :
    parts s m = entriesGo o .discarded (s.setQueue o ((s.queue o).filter fun e => !queuedBy m e))
      ((s.queue o).filter (queuedBy m)) := by
  have idle := uninvolved_iff.mp h
  have no_cut := (idle (.queue o)).2
  rw [State.sq_setQueue] at no_cut
  refine parts_of_one (x := .queue o) (fun q hq => ?_)
    ((queueDeparture_of_no_cut no_cut).trans (entriesGo_eq o .discarded _ _)) ?_
  · cases q
    case claims => exact idle_claims_of (fun t => by cases t <;> rfl) (idle .claims)
    case consent => exact idle .consent
    case profiles => exact idle .profiles
    case queue p => exact idle_queue_of (by rw [State.queue_setQueue_ne _ _ (fun e => hq (by rw [e]))]) (by rw [State.sq_setQueue]) (idle (.queue p))
    case strobe p => exact idle_strobe_of (by rw [State.burst_setQueue]) (idle (.strobe p))
  · rw [← entriesGo_eq]
    exact uninvolved_of_recedes (Recedes.foldl (entryLeft_recedes o _) _ _)
      (owner_of_inner (Inner.foldl _ (entryLeft_inner o _) _ _)) h

theorem parts_of_cut {o : Output} {c : PendingCut} (hc : (s.sq o).cut = some c) (own : c.origin = m)
    (h : Uninvolved (s.setSq o { s.sq o with cut := none }) m) :
    parts s m = (s.setSq o { s.sq o with cut := none }).handAll (withOrigin (s.holders (.out o)) (some m))
      (.changeDone o (.cut c.slot) (some (m, c.tag)) none (s.sq o).frameNo .discarded) := by
  have idle := uninvolved_iff.mp h
  have queued := (idle (.queue o)).1
  rw [State.queue_setSq] at queued
  refine parts_of_one (x := .queue o) (fun q hq => ?_)
    ((queueDeparture_of_cut queued (by rw [hc]; exact congrArg some own)).trans ?_)
    (uninvolved_of_recedes (Recedes.handAll _ _ _) (owner_of_inner (handAll_inner _ _ _)) h)
  · cases q
    case claims => exact idle_claims_of (fun t => by cases t <;> rfl) (idle .claims)
    case consent => exact idle .consent
    case profiles => exact idle .profiles
    case queue p => exact idle_queue_of (by rw [State.queue_setSq]) (by rw [State.sq_setSq_ne _ _ (fun e => hq (by rw [e]))]) (idle (.queue p))
    case strobe p => exact idle_strobe_of (by rw [State.burst_setSq]) (idle (.strobe p))
  · unfold dropCut
    rw [hc]
    dsimp only
    unfold changeDone
    rw [State.sq_setSq_self, own]
    rfl

/-! ### Claims without a round (R73) -/

/-- The records of the targets that `m` holds in `s`, without it. -/
def claimsFreed (s : State) (m : Master) (l : List Target) (v : State) : State :=
  l.foldl (fun u t => if s.isHolder t m then u.setClaim t (withoutHolder (s.claim t) m) else u) v

theorem claimsFreed_cons (s : State) (m : Master) (t : Target) (l : List Target) (v : State) :
    claimsFreed s m (t :: l) v
      = claimsFreed s m l (if s.isHolder t m then v.setClaim t (withoutHolder (s.claim t) m) else v) := rfl

theorem claimsFreed_rest (s : State) (m : Master) (l : List Target) (v : State) :
    (claimsFreed s m l v).chans = v.chans ∧ (claimsFreed s m l v).slots = v.slots
      ∧ (claimsFreed s m l v).consent = v.consent := by
  induction l generalizing v with
  | nil => exact ⟨rfl, rfl, rfl⟩
  | cons t l ih =>
    rw [claimsFreed_cons]
    split
    · obtain ⟨chans, slots, consent⟩ := ih (v.setClaim t (withoutHolder (s.claim t) m))
      exact ⟨chans.trans (by cases t <;> rfl), slots.trans (by cases t <;> rfl), consent.trans (by cases t <;> rfl)⟩
    · exact ih v

/-- A holder goes from a target with no round open, whose policy has no work (R72, R73). -/
theorem removeHolder_unsettled {v : State} {t : Target} (held : v.isHolder t m = true)
    (closed : v.proposalOn (some t) = none)
    (keep : (∀ h ∈ (v.claim t).holders, h.master = m) → (v.claim t).policy = .keep) :
    removeHolder v t m = v.setClaim t (withoutHolder (v.claim t) m) := by
  have released := ReleaseProofs.releaseProposal_none (m := m) closed
  have holders := congrArg ClaimRec.holders (ReleaseProofs.claim_unlisted v t m)
  have some : (v.claim t).holders ≠ [] := by
    intro nil
    unfold State.isHolder State.holders at held
    rw [nil] at held
    cases held
  by_cases last : ReleaseProofs.left v t m = []
  · have alone (h : Holder) (hh : h ∈ (v.claim t).holders) : h.master = m := by
      have gone := List.filter_eq_nil_iff.mp last h hh
      simpa using gone
    have freed : withoutHolder (v.claim t) m = .reset := if_pos ⟨last, some⟩
    rw [ReleaseProofs.removeHolder_of_last released holders last,
      ReleaseProofs.settle_of_keep (by rw [ReleaseProofs.claim_unlisted]; exact keep alone), freed]
    exact State.setClaim_setClaim v t _ _
  · have shorter : withoutHolder (v.claim t) m = { v.claim t with holders := ReleaseProofs.left v t m } :=
      if_neg fun h => last h.1
    rw [ReleaseProofs.removeHolder_of_left released holders last, shorter]
    rfl

theorem claimsDeparture_eq_freed (free : ∀ t, s.isHolder t m = true → s.proposalOn (some t) = none
    ∧ ((∀ h ∈ (s.claim t).holders, h.master = m) → (s.claim t).policy = .keep)) :
    claimsDeparture s m = claimsFreed s m allTargets s := by
  have main {l : List Target} (nodup : l.Nodup) : ∀ v : State, v.consent = s.consent →
      (∀ t ∈ l, v.claim t = s.claim t) →
      l.foldl (fun u t => if u.isHolder t m then removeHolder u t m else u) v = claimsFreed s m l v := by
    induction l with
    | nil => exact fun _ _ _ => rfl
    | cons t l ih =>
      intro v consent claim
      obtain ⟨fresh, nodup⟩ := List.nodup_cons.mp nodup
      have here := claim t List.mem_cons_self
      have same : v.isHolder t m = s.isHolder t m := by
        unfold State.isHolder State.holders
        rw [here]
      rw [List.foldl_cons, claimsFreed_cons, same]
      split
      next held =>
        obtain ⟨closed, keep⟩ := free t held
        have closed' : v.proposalOn (some t) = none := by
          unfold State.proposalOn
          rw [consent]
          exact closed
        rw [removeHolder_unsettled (same.trans held) closed' (by rw [here]; exact keep), here]
        exact ih nodup _ (by rw [State.setClaim_consent, consent]) fun g hg => by
          rw [State.claim_setClaim_ne _ _ (fun e : g = t => fresh (by rw [← e]; exact hg))]
          exact claim g (List.mem_cons_of_mem _ hg)
      · exact ih nodup v consent fun g hg => claim g (List.mem_cons_of_mem _ hg)
  exact main (by decide) s rfl fun _ _ => rfl

theorem parts_of_claims (free : ∀ t, s.isHolder t m = true → s.proposalOn (some t) = none
    ∧ ((∀ h ∈ (s.claim t).holders, h.master = m) → (s.claim t).policy = .keep))
    (h : Uninvolved (claimsFreed s m allTargets s) m) : parts s m = claimsFreed s m allTargets s := by
  have idle := uninvolved_iff.mp h
  obtain ⟨chans, slots, consent⟩ := claimsFreed_rest s m allTargets s
  refine parts_of_one (x := .claims) (fun q hq => ?_) (claimsDeparture_eq_freed free) h
  generalize claimsFreed s m allTargets s = u at idle chans slots consent
  have chan (o : Output) : u.chan o = s.chan o := by
    unfold State.chan
    rw [chans]
  cases q
  case claims => exact absurd rfl hq
  case consent => exact fun p hp => idle .consent p (consent ▸ hp)
  case queue o =>
    exact idle_queue_of (congrArg Channel.queue (chan o)) (congrArg (fun c => c.sq.cut) (chan o)) (idle (.queue o))
  case profiles =>
    intro k
    have owner := idle .profiles k
    unfold State.slot at owner ⊢
    rwa [slots] at owner
  case strobe o => exact idle_strobe_of (congrArg Channel.burst (chan o)) (idle (.strobe o))

/-! ### One round (R89, R97) -/

section Round

variable {p : Proposal}

/-- The ids of the open proposals in rising order (R97). -/
theorem mem_insertNat {n k : Nat} {l : List Nat} : k ∈ insertNat n l ↔ k = n ∨ k ∈ l := by
  induction l with
  | nil => exact List.mem_singleton.trans (or_iff_left (List.not_mem_nil)).symm
  | cons x l ih =>
    unfold insertNat
    split
    · exact List.mem_cons
    · rw [List.mem_cons, ih, List.mem_cons]
      exact or_left_comm

theorem mem_sortedIds {k : Nat} {l : List Nat} : k ∈ l.foldr insertNat [] ↔ k ∈ l := by
  induction l with
  | nil => exact Iff.rfl
  | cons x l ih => rw [List.foldr_cons, mem_insertNat, ih, List.mem_cons]

/-- One proposal involves the departing master. -/
theorem consentDeparture_of_one (found : s.proposal p.id = some p)
    (others : ∀ q ∈ s.consent.proposals, q.id ≠ p.id → q.proposer ≠ m ∧ m ∉ q.required)
    (after : Idle m (leaveProposal s p m) .consent) : consentDeparture s m = leaveProposal s p m := by
  refine foldl_of_one (x := p.id) (fun id hid => leaveById_of_idle fun q hq => ?_) (leaveById_of_some found)
    (fun id => leaveById_of_idle fun q hq => after q (List.mem_of_find?_eq_some hq))
    (mem_sortedIds.mpr (List.mem_map_of_mem (List.mem_of_find?_eq_some found)))
  exact others q (List.mem_of_find?_eq_some hq) (by rw [(proposal_mem hq).2]; exact hid)

/-- The consent part alone has something to do. -/
theorem parts_of_round (found : s.proposal p.id = some p)
    (others : ∀ q ∈ s.consent.proposals, q.id ≠ p.id → q.proposer ≠ m ∧ m ∉ q.required)
    (before : ∀ q, q ≠ .consent → Idle m s q) (after : Uninvolved (leaveProposal s p m) m) :
    parts s m = leaveProposal s p m :=
  parts_of_one (x := .consent) before (consentDeparture_of_one found others (uninvolved_iff.mp after .consent)) after

/-- The id of a proposal that has ended is free. -/
theorem id_endProposal (s : State) (p : Proposal) (c : RoundOutcome) :
    ∀ x ∈ (endProposal s p c).consent.proposals, x.id ≠ p.id := by
  intro x hx
  obtain ⟨y, hy, id, -⟩ := (proposalEnd_recedes (g := NoGrant) _ p c false).voters x hx
  rw [id]
  simpa using (List.mem_filter.mp hy).2

theorem id_carry (s : State) (p : Proposal) : ∀ x ∈ (carry s p).consent.proposals, x.id ≠ p.id := by
  intro x hx
  obtain ⟨y, hy, id, -⟩ := (proposalEnd_recedes (g := NoGrant) _ p _ _).voters x hx
  rw [id]
  simpa using (List.mem_filter.mp hy).2

/-- With the id of the only proposal that involves the master free, none involves it. -/
theorem idle_consent_of_freed {g : Entry → Prop} {t : State} (r : Recedes g s t)
    (others : ∀ q ∈ s.consent.proposals, q.id ≠ p.id → q.proposer ≠ m ∧ m ∉ q.required)
    (freed : ∀ x ∈ t.consent.proposals, x.id ≠ p.id) : Idle m t .consent := by
  intro x hx
  obtain ⟨y, hy, id, proposer, required⟩ := r.voters x hx
  obtain ⟨other, voter⟩ := others y hy (id ▸ freed x hx)
  exact ⟨proposer ▸ other, fun hm => voter (required hm)⟩

/-- A proposal of the master's own is withdrawn. -/
theorem parts_of_withdrawn (found : s.proposal p.id = some p) (own : p.proposer = m)
    (h : Uninvolved (s.setProposals (s.consent.proposals.filter fun x => x.id != p.id)) m) :
    parts s m = roundOver (unreserve s p) p .withdrawn := by
  have idle := uninvolved_iff.mp h
  have before (q : Part) (hq : q ≠ .consent) : Idle m s q := by
    cases q
    case consent => exact absurd rfl hq
    case claims => exact idle_claims_of (fun t => by cases t <;> rfl) (idle .claims)
    case queue o => exact idle (.queue o)
    case profiles => exact idle .profiles
    case strobe o => exact idle (.strobe o)
  have others (q : Proposal) (hq : q ∈ s.consent.proposals) (ne : q.id ≠ p.id) : q.proposer ≠ m ∧ m ∉ q.required :=
    idle .consent q (List.mem_filter.mpr ⟨hq, by simpa using ne⟩)
  have withdrawn := ReleaseProofs.leaveProposal_of_proposer (s := s) own
  rw [← withdrawn]
  refine parts_of_round found others before (uninvolved_iff.mpr fun q => ?_)
  by_cases hq : q = .consent
  · subst hq
    refine idle_consent_of_freed (leaveProposal_recedes (g := NoGrant) (fun other => absurd own other) s) others ?_
    rw [withdrawn, ← ConsentProofs.endProposal_eq_roundOver]
    exact id_endProposal s p .withdrawn
  · exact idle_of_recedes (leaveProposal_recedes (g := NoGrant) (fun other => absurd own other) s)
      (owner_of_inner (leaveProposal_inner s p m)) (fun _ _ _ => False.elim) (before q hq)

/-- A round on DEVICE that carries makes no entry QUEUED. -/
theorem carry_recedes_device {g : Entry → Prop} (h : p.matter.target = none) (s : State) : Recedes g s (carry s p) := by
  have applied : Recedes g s (applyMatter s p).1 := by
    unfold applyMatter
    cases matter : p.matter
    case standby =>
      dsimp only
      exact enterStandby_recedes s
    case deviceReset => exact Recedes.of_eq rfl rfl rfl rfl
    all_goals
      rw [matter] at h
      cases h
  unfold carry
  dsimp only
  exact ((applied.trans (Recedes.dropRefOpt _ _)).trans (freeProposal_recedes _ _)).trans (proposalEnd_recedes _ _ _ _)

section Voter

variable (found : s.proposal p.id = some p) (other : p.proposer ≠ m) (voter : m ∈ p.required)
  (h : Uninvolved (updateProposal s p.id (·.without m)) m)
include found other voter

omit found in
theorem leaveProposal_of_voter : leaveProposal s p m = carryIfAgreed (updateProposal s p.id (·.without m)) p.id := by
  unfold leaveProposal
  rw [if_neg other, if_pos (by simpa using voter)]

theorem leaveProposal_of_waits (waits : (p.without m).accepted ≠ (p.without m).required) :
    leaveProposal s p m = updateProposal s p.id (·.without m) :=
  (leaveProposal_of_voter other voter).trans
    (VoteProofs.carryIfAgreed_of_waiting (VoteProofs.proposal_updateProposal found fun _ => rfl) waits)

theorem leaveProposal_of_agreed (agreed : (p.without m).accepted = (p.without m).required) :
    leaveProposal s p m = carry (updateProposal s p.id (·.without m)) (p.without m) :=
  (leaveProposal_of_voter other voter).trans
    (VoteProofs.carryIfAgreed_of_agreed (VoteProofs.proposal_updateProposal found fun _ => rfl) agreed)

omit found other voter in
include h in
theorem others_of_updated (q : Proposal) (hq : q ∈ s.consent.proposals) (ne : q.id ≠ p.id) :
    q.proposer ≠ m ∧ m ∉ q.required := by
  refine uninvolved_iff.mp h .consent q (List.mem_map.mpr ⟨q, hq, if_neg ?_⟩)
  simpa using ne

omit found other voter in
include h in
theorem before_of_updated (q : Part) (hq : q ≠ .consent) : Idle m s q := by
  have idle := uninvolved_iff.mp h
  cases q
  case consent => exact absurd rfl hq
  case claims => exact idle_claims_of (fun t => by cases t <;> rfl) (idle .claims)
  case queue o => exact idle (.queue o)
  case profiles => exact idle .profiles
  case strobe o => exact idle (.strobe o)

include h

/-- The vote of the master was awaited, and others' still are. -/
theorem parts_of_waits (waits : (p.without m).accepted ≠ (p.without m).required) :
    parts s m = updateProposal s p.id (·.without m) := by
  have left := leaveProposal_of_waits found other voter waits
  rw [← left]
  exact parts_of_round found (others_of_updated h) (before_of_updated h) (by rwa [left])

/-- The vote of the master was the last one awaited in a round on DEVICE. -/
theorem parts_of_agreed (device : p.matter.target = none) (agreed : (p.without m).accepted = (p.without m).required) :
    parts s m = carry (updateProposal s p.id (·.without m)) (p.without m) := by
  have left := leaveProposal_of_agreed found other voter agreed
  rw [← left]
  refine parts_of_round found (others_of_updated h) (before_of_updated h) ?_
  rw [left]
  exact uninvolved_of_recedes (carry_recedes_device (p := p.without m) device _)
    (owner_of_inner (carry_inner _ _)) h

end Voter

/-- After the master has left a round, no proposal with its id involves it. -/
theorem left_round (uniq : ∀ x ∈ s.consent.proposals, x.id = p.id → x = p) :
    ∀ x ∈ (leaveProposal s p m).consent.proposals, x.id = p.id → x.proposer ≠ m ∧ m ∉ x.required := by
  intro x hx id
  by_cases own : p.proposer = m
  · rw [ReleaseProofs.leaveProposal_of_proposer own, ← ConsentProofs.endProposal_eq_roundOver] at hx
    exact absurd id (id_endProposal s p .withdrawn x hx)
  · by_cases voter : m ∈ p.required
    · rw [leaveProposal_of_voter own voter] at hx
      obtain ⟨q, hq, id', proposer, required⟩ :=
        (carryIfAgreed_recedes (g := fun _ => True) (fun _ _ => trivial) _).voters x hx
      obtain ⟨y, hy, rfl⟩ := List.mem_map.mp hq
      by_cases same : (y.id == p.id) = true
      · rw [if_pos same] at proposer required
        rw [uniq y hy (beq_iff_eq.mp same)] at proposer required
        exact ⟨proposer ▸ own, fun hm => by simpa using (List.mem_filter.mp (required hm)).2⟩
      · rw [if_neg same] at id'
        exact absurd (id'.symm.trans id) (by simpa using same)
    · rw [ReleaseProofs.leaveProposal_of_other own voter] at hx
      rw [uniq x hx id]
      exact ⟨own, voter⟩

end Round

end Parts

end Sys2Proof.OnePartProofs
end

section
/-! A departure from a target with a round open on it (R72, R76, R89): the claims part and the consent part both act, and
the order between them makes no difference but in what the departing master is told. -/

namespace Sys2Proof.ClaimRoundProofs

open Machine Laws RecedeProofs PartProofs OnePartProofs MuteProofs ReleaseProofs

/-- The states differ in the notices of `m` only. -/
structure Alike (m : Master) (u v : State) : Prop where
  mute : mute m u = mute m v
  claim : ∀ t, u.claim t = v.claim t

/-! ### Muted states -/

section Muted

variable {s u v : State} {m : Master} {t : Target}

theorem unclaimed_of_absent {c : ClaimRec} (h : ∀ x ∈ c.holders, x.master ≠ m) : unclaimed c m = c := by
  unfold unclaimed
  rw [List.filter_eq_self.mpr fun x hx => by simpa using h x hx]

theorem unclaimed_unclaimed (c : ClaimRec) (m : Master) : unclaimed (unclaimed c m) m = unclaimed c m :=
  unclaimed_of_absent fun x hx => by simpa using (List.mem_filter.mp hx).2

theorem master_ne_of_idle (h : Idle m u .claims) : ∀ x ∈ (u.claim t).holders, x.master ≠ m := by
  intro x hx own
  have holder : u.isHolder t m = true := List.contains_iff_mem.mpr (own ▸ List.mem_map_of_mem hx)
  rw [h t] at holder
  cases holder

/-- Among states in which `m` holds nothing, muting it tells the claim records apart. -/
theorem alike_of_mute (h : mute m u = mute m v) (hu : Idle m u .claims) (hv : Idle m v .claims) : Alike m u v where
  mute := h
  claim t := by
    have claims := congrArg (fun w : State => w.claim t) h
    simp only [claim_mute] at claims
    rwa [unclaimed_of_absent (master_ne_of_idle hu), unclaimed_of_absent (master_ne_of_idle hv)] at claims

theorem idle_of_mute (h : mute m u = mute m v) {q : Part} (hq : q ≠ .claims) (idle : Idle m u q) : Idle m v q := by
  have out (o : Output) : u.chan o = v.chan o :=
    (congrArg (fun w : State => w.chan o) h : (mute m u).chan o = (mute m v).chan o)
  cases q
  case claims => exact absurd rfl hq
  case consent =>
    have consent : u.consent = v.consent := (congrArg State.consent h : (mute m u).consent = (mute m v).consent)
    exact fun p hp => idle p (consent ▸ hp)
  case queue o =>
    exact idle_queue_of (congrArg Channel.queue (out o)) (congrArg (fun c => c.sq.cut) (out o)) idle
  case profiles =>
    have slot (k : Slot) : u.slot k = v.slot k :=
      (congrArg (fun w : State => w.slot k) h : (mute m u).slot k = (mute m v).slot k)
    exact fun k => by rw [← slot]; exact idle k
  case strobe o => exact idle_strobe_of (congrArg Channel.burst (out o)) idle

theorem setClaim_self (s : State) (t : Target) : s.setClaim t (s.claim t) = s := by
  cases t
  · simp [State.setClaim, State.claim]
  · rfl

theorem unlisted_eq (s : State) (t : Target) (m : Master) : unlisted s t m = s.setClaim t (unclaimed (s.claim t) m) := rfl

theorem mute_unlisted (s : State) (t : Target) (m : Master) : mute m (unlisted s t m) = mute m s := by
  rw [unlisted_eq, mute_setClaim, unclaimed_unclaimed, ← claim_mute, setClaim_self]

theorem unlisted_of_not_holder (h : s.isHolder t m = false) : unlisted s t m = s := by
  have absent (x : Holder) (hx : x ∈ (s.claim t).holders) : x.master ≠ m := by
    intro own
    have holder : s.isHolder t m = true := List.contains_iff_mem.mpr (own ▸ List.mem_map_of_mem hx)
    rw [h] at holder
    cases holder
  rw [unlisted_eq, unclaimed_of_absent absent, setClaim_self]

theorem isHolder_unlisted_self (s : State) (t : Target) (m : Master) : (unlisted s t m).isHolder t m = false := by
  rw [Bool.eq_false_iff]
  intro holder
  obtain ⟨x, hx, own⟩ := List.mem_map.mp (List.contains_iff_mem.mp holder)
  rw [unlisted_eq, State.claim_setClaim_self] at hx
  simpa [own] using (List.mem_filter.mp hx).2

theorem isHolder_unlisted_ne {g : Target} (h : g ≠ t) : (unlisted s t m).isHolder g m = s.isHolder g m := by
  unfold State.isHolder State.holders
  rw [unlisted_eq, State.claim_setClaim_ne _ _ h]

theorem idle_unlisted (h : ∀ g, g ≠ t → s.isHolder g m = false) : Idle m (unlisted s t m) .claims := by
  intro g
  by_cases e : g = t
  · rw [e]
    exact isHolder_unlisted_self s t m
  · rw [isHolder_unlisted_ne e]
    exact h g e

end Muted

/-! ### The removal of a holder -/

/-- A record that nobody holds any more is settled. -/
def settled (s : State) (t : Target) : State := if (s.claim t).holders = [] then settle s t else s

section Removal

variable {s u v : State} {m : Master} {t : Target}

theorem settled_recedes (s : State) (t : Target) : Recedes NoGrant s (settled s t) := by
  unfold settled
  split
  · exact settle_recedes s t
  · exact .refl s

theorem settled_inner (s : State) (t : Target) : Inner s (settled s t) := by
  unfold settled
  split
  · exact settle_inner s t
  · exact .refl s

theorem mute_settled (h : Alike m u v) : mute m (settled u t) = mute m (settled v t) := by
  unfold settled
  rw [h.claim]
  split
  · rw [mute_settle, mute_settle, h.mute]
  · exact h.mute

theorem removeHolder_eq_settled (s : State) (t : Target) (m : Master) :
    removeHolder s t m = settled (releaseProposal (unlisted s t m) t m) t := removeHolder_eq s t m

theorem releaseProposal_of_idle (h : Idle m s .consent) : releaseProposal s t m = s := by
  unfold releaseProposal
  split
  · rfl
  next p hp => exact leaveProposal_of_idle (h p (List.mem_of_find?_eq_some hp))

/-- The claims part of a master that holds one target at most. -/
theorem claimsDeparture_of_one (others : ∀ g, g ≠ t → s.isHolder g m = false)
    (after : Idle m (if s.isHolder t m then removeHolder s t m else s) .claims) :
    claimsDeparture s m = if s.isHolder t m then removeHolder s t m else s := by
  have listed : t ∈ allTargets := by
    cases t
    · exact List.mem_append_left _ (List.mem_map_of_mem (mem_allOutputs _))
    · exact List.mem_append_right _ List.mem_cons_self
  exact foldl_of_one (x := t) (fun g hg => if_neg (by rw [others g hg]; exact nofun)) rfl
    (fun g => if_neg (by rw [after g]; exact nofun)) listed

end Removal

/-! ### One claim without a round -/

section Claim

variable {s : State} {m : Master} {t : Target}

/-- What a departure leaves of other parts, when it removes one claim and the proposal on its target. -/
theorem parts_of_claim (held : s.isHolder t m = true) (closed : s.proposalOn (some t) = none)
    (h : Uninvolved (unlisted s t m) m) : parts s m = removeHolder s t m := by
  have idle := uninvolved_iff.mp h
  have removed : removeHolder s t m = settled (unlisted s t m) t :=
    (removeHolder_eq_settled s t m).trans (congrArg (settled · t) (releaseProposal_none closed))
  have done : Uninvolved (removeHolder s t m) m := by
    rw [removed]
    exact uninvolved_of_recedes (settled_recedes _ t) (owner_of_inner (settled_inner _ t)) h
  have others (g : Target) (hg : g ≠ t) : s.isHolder g m = false := by
    rw [← isHolder_unlisted_ne hg]
    exact idle .claims g
  refine parts_of_one (x := .claims) (fun q hq => idle_of_mute (mute_unlisted s t m) hq (idle q)) ?_ done
  refine (claimsDeparture_of_one others ?_).trans (if_pos held)
  rw [if_pos held]
  exact uninvolved_iff.mp done .claims

end Claim

/-! ### One claim with a round open on its target -/

/-- The departing `m` holds the target `t`, on which the proposal `p` is open, and is involved in nothing else. -/
structure ClaimRound (s : State) (t : Target) (m : Master) (p : Proposal) : Prop where
  held : s.isHolder t m = true
  opened : s.proposalOn (some t) = some p
  uniq : ∀ x ∈ s.consent.proposals, x.id = p.id → x = p
  rest : Uninvolved ((unlisted s t m).setProposals
    (s.consent.proposals.filter fun x => s.proposalOn (some t) != some x)) m
  entries : ∀ o, ∀ e ∈ s.queue o, e.origin.map Prod.fst = some m → p.proposer = m

namespace ClaimRound

variable {s v : State} {t : Target} {m : Master} {p : Proposal} (h : ClaimRound s t m p)
include h

theorem mem : p ∈ s.consent.proposals := (proposalOn_mem h.opened).1

theorem target : p.matter.target ≠ none := by
  rw [(proposalOn_mem h.opened).2]
  exact nofun

theorem found : s.proposal p.id = some p := by
  unfold State.proposal
  cases search : s.consent.proposals.find? fun x => x.id == p.id with
  | none => exact absurd (beq_self_eq_true p.id) (List.find?_eq_none.mp search p h.mem)
  | some x => rw [h.uniq x (List.mem_of_find?_eq_some search) (proposal_mem search).2]

theorem others (q : Proposal) (hq : q ∈ s.consent.proposals) (ne : q.id ≠ p.id) :
    q.proposer ≠ m ∧ m ∉ q.required := by
  refine uninvolved_iff.mp h.rest .consent q (List.mem_filter.mpr ⟨hq, ?_⟩)
  rw [h.opened, bne_iff_ne]
  intro same
  cases same
  exact ne rfl

theorem idle_claims : Idle m (unlisted s t m) .claims := uninvolved_iff.mp h.rest .claims

theorem idle_rest (q : Part) (hc : q ≠ .claims) (hr : q ≠ .consent) : Idle m (unlisted s t m) q := by
  have idle := uninvolved_iff.mp h.rest
  cases q
  case claims => exact absurd rfl hc
  case consent => exact absurd rfl hr
  case queue o => exact idle (.queue o)
  case profiles => exact idle .profiles
  case strobe o => exact idle (.strobe o)

theorem elsewhere (g : Target) (hg : g ≠ t) : s.isHolder g m = false := by
  rw [← isHolder_unlisted_ne hg]
  exact h.idle_claims g

/-- Leaving the round makes no entry of `m` QUEUED. -/
theorem left_recedes (hq : ∀ o, v.queue o = s.queue o) :
    Recedes (fun e => e.origin.map Prod.fst ≠ some m) v (leaveProposal v p m) := by
  by_cases own : p.proposer = m
  · exact leaveProposal_recedes (fun other => absurd own other) v
  · refine (leaveProposal_recedes (g := fun _ => True) (fun _ _ _ => trivial) v).mono fun o e he _ origin => own ?_
    exact h.entries o e (hq o ▸ he) origin

/-- After it has left the round, no proposal involves `m`. -/
theorem left_consent (hv : v.consent = s.consent) : Idle m (leaveProposal v p m) .consent := by
  intro x hx
  by_cases id : x.id = p.id
  · exact left_round (by rw [hv]; exact h.uniq) x hx id
  · obtain ⟨q, hq, id', proposer, required⟩ :=
      (leaveProposal_recedes (g := fun _ => True) (fun _ _ _ => trivial) v).voters x hx
    obtain ⟨other, voter⟩ := h.others q (hv ▸ hq) (id' ▸ id)
    exact ⟨proposer ▸ other, fun hm => voter (required hm)⟩

/-- The round is left before the claim goes, or after. -/
theorem mute_left : mute m (leaveProposal s p m) = mute m (leaveProposal (unlisted s t m) p m) := by
  have onTarget (x : Proposal) (hx : x ∈ s.consent.proposals) (id : x.id = p.id) : x.matter.target ≠ none := by
    rw [h.uniq x hx id]
    exact h.target
  rw [mute_leaveProposal _ onTarget, mute_leaveProposal _ (by rw [consent_unlisted]; exact onTarget), mute_unlisted]

theorem idle_left (q : Part) : Idle m (leaveProposal (unlisted s t m) p m) q := by
  have recedes := h.left_recedes (v := unlisted s t m) fun o => State.queue_setClaim _ _ _ _
  by_cases consent : q = .consent
  · rw [consent]
    exact h.left_consent (consent_unlisted s t m)
  · by_cases claims : q = .claims
    · rw [claims]
      exact idle_claims_of_recedes recedes h.idle_claims
    · exact idle_of_recedes recedes (owner_of_inner (leaveProposal_inner _ p m)) (fun _ _ _ hm => hm) (h.idle_rest q claims consent)

theorem removed : removeHolder s t m = settled (leaveProposal (unlisted s t m) p m) t :=
  (removeHolder_eq_settled s t m).trans (congrArg (settled · t) (releaseProposal_some h.opened))

/-- With the claims part first nothing is left to do. -/
theorem done : Uninvolved (removeHolder s t m) m := by
  rw [h.removed]
  exact uninvolved_of_recedes (settled_recedes _ t) (owner_of_inner (settled_inner _ t)) (uninvolved_iff.mpr h.idle_left)

theorem claimsDeparture_eq : claimsDeparture s m = removeHolder s t m := by
  refine (claimsDeparture_of_one h.elsewhere ?_).trans (if_pos h.held)
  rw [if_pos h.held]
  exact uninvolved_iff.mp h.done .claims

theorem consentDeparture_eq : consentDeparture s m = leaveProposal s p m :=
  consentDeparture_of_one h.found h.others (h.left_consent rfl)

/-- With the consent part first the claims part is left to do. -/
theorem waits (q : Part) (hq : q ≠ .claims) : Idle m (leaveProposal s p m) q :=
  idle_of_mute h.mute_left.symm hq (h.idle_left q)

theorem left_elsewhere (g : Target) (hg : g ≠ t) : (leaveProposal s p m).isHolder g m = false :=
  Bool.eq_false_iff.mpr fun held =>
    absurd ((h.elsewhere g hg).symm.trans ((h.left_recedes fun _ => rfl).holder g m held)) nofun

theorem alike_left : Alike m (unlisted (leaveProposal s p m) t m) (leaveProposal (unlisted s t m) p m) :=
  alike_of_mute ((mute_unlisted _ t m).trans h.mute_left) (idle_unlisted h.left_elsewhere) (h.idle_left .claims)

/-- The claims part after the round finds none to release. -/
theorem removed_last : removeHolder (leaveProposal s p m) t m = settled (unlisted (leaveProposal s p m) t m) t := by
  have consent : Idle m (unlisted (leaveProposal s p m) t m) .consent :=
    idle_of_mute (mute_unlisted _ t m).symm (by decide) (h.left_consent rfl)
  rw [removeHolder_eq_settled, releaseProposal_of_idle consent]

theorem last_claims : Idle m (if (leaveProposal s p m).isHolder t m then removeHolder (leaveProposal s p m) t m
    else leaveProposal s p m) .claims := by
  split
  · rw [h.removed_last]
    exact idle_claims_of_recedes (settled_recedes _ t) (idle_unlisted h.left_elsewhere)
  next gone =>
    intro g
    by_cases e : g = t
    · rw [e]
      exact Bool.eq_false_iff.mpr gone
    · exact h.left_elsewhere g e

/-- Where the claim outlasts the round, or somebody holds the target after it, the claims part does the same after the
round as before it, but for what `m` is told. -/
theorem last_alike (stays : (leaveProposal s p m).isHolder t m = true
      ∨ ((leaveProposal (unlisted s t m) p m).claim t).holders ≠ []) :
    mute m (if (leaveProposal s p m).isHolder t m then removeHolder (leaveProposal s p m) t m else leaveProposal s p m)
      = mute m (removeHolder s t m) := by
  rw [h.removed]
  split
  · rw [h.removed_last]
    exact mute_settled h.alike_left
  next gone =>
    have open_ : settled (leaveProposal (unlisted s t m) p m) t = leaveProposal (unlisted s t m) p m :=
      if_neg (stays.resolve_left gone)
    rw [open_]
    exact h.mute_left

/-- The parts leave what removing the holder leaves, but for what `m` is told. -/
theorem parts_alike (stays : (leaveProposal s p m).isHolder t m = true
      ∨ ((leaveProposal (unlisted s t m) p m).claim t).holders ≠ []) : Alike m (parts s m) (removeHolder s t m) := by
  have alike := h.last_alike stays
  rcases parts_of_two (fun q hc hr => idle_of_mute (mute_unlisted s t m) hc (h.idle_rest q hc hr)) h.claimsDeparture_eq
    h.consentDeparture_eq h.done h.waits (claimsDeparture_of_one h.left_elsewhere h.last_claims)
    (uninvolved_iff.mpr fun q => by
      by_cases hq : q = .claims
      · rw [hq]
        exact h.last_claims
      · exact idle_of_mute alike.symm hq (uninvolved_iff.mp h.done q)) with first | last
  · rw [first]
    exact ⟨rfl, fun _ => rfl⟩
  · rw [last]
    exact alike_of_mute alike h.last_claims (uninvolved_iff.mp h.done .claims)

end ClaimRound

/-! ### `HolderGone` -/

section Gone

variable {s : State} {t : Target} {m : Master} {p : Proposal}

theorem isHolder_congr {u v : State} (h : u.claim t = v.claim t) : u.isHolder t m = v.isHolder t m := by
  unfold State.isHolder State.holders
  rw [h]

theorem claim_updateProposal (s : State) (id : Nat) (f : Proposal → Proposal) (t : Target) :
    (updateProposal s id f).claim t = s.claim t := State.claim_setProposals _ _ _

/-- A round that does not carry leaves the claims as they are. -/
theorem claim_left (s : State) (h : p.proposer ≠ m → m ∈ p.required → (p.without m).accepted ≠ (p.without m).required)
    (found : s.proposal p.id = some p) : (leaveProposal s p m).claim t = s.claim t := by
  by_cases own : p.proposer = m
  · rw [leaveProposal_of_proposer own, claim_roundOver, claim_unreserve]
  · by_cases voter : m ∈ p.required
    · rw [leaveProposal_of_waits found own voter (h own voter), claim_updateProposal]
    · rw [leaveProposal_of_other own voter]

/-- Somebody holds the target after a round that carries. -/
theorem holders_carried {u : State} (target : p.matter.target = some t) (some : (u.claim t).holders ≠ [])
    (stays : p.matter = .claimExclusive t → p.proposer ∈ (u.claim t).holders.map Holder.master) :
    ((carry u p).claim t).holders ≠ [] := by
  rw [holders_carry target]
  cases matter : p.matter
  case claimExclusive g =>
    rw [matter] at target
    cases target
    obtain ⟨x, hx, proposer⟩ := List.mem_map.mp (stays matter)
    exact List.ne_nil_of_mem (List.mem_filter.mpr ⟨hx, beq_iff_eq.mpr proposer⟩)
  all_goals exact some

/-- The removal of a holder in a departure comes to what `HolderGone` says of it. -/
theorem holderGone_of_parts {ends : State → Prop} (blind : ∀ u v, Alike m u v → ends u → ends v)
    (h : ends (parts s m)) (held : s.isHolder t m = true)
    (rest : Uninvolved ((unlisted s t m).setProposals
      (s.consent.proposals.filter fun x => s.proposalOn (some t) != some x)) m)
    (entries : ∀ o, ∀ e ∈ s.queue o, e.origin.map Prod.fst = some m →
      (s.proposalOn (some t)).map Proposal.proposer = some m) : HolderGone s s t m ends := by
  have gone (h : ends (removeHolder s t m)) := holderGone_of_removeHolder (Agrees.refl s) h
  refine ⟨fun closed => (gone ?_).1 closed, fun p opened uniq => ?_⟩
  · have free : Uninvolved (unlisted s t m) m := uninvolved_iff.mpr fun q => by
      have idle := uninvolved_iff.mp rest q
      cases q
      case consent =>
        intro x hx
        rw [consent_unlisted] at hx
        exact idle x (List.mem_filter.mpr ⟨hx, by rw [closed]; rfl⟩)
      all_goals exact idle
    rwa [parts_of_claim held closed free] at h
  · have round : ClaimRound s t m p := ⟨held, opened, uniq, rest, fun o e he origin => by
      have own := entries o e he origin
      rw [opened] at own
      exact Option.some.inj own⟩
    have removed (stays : (leaveProposal s p m).isHolder t m = true
        ∨ ((leaveProposal (unlisted s t m) p m).claim t).holders ≠ []) : ends (removeHolder s t m) :=
      blind _ _ (round.parts_alike stays) h
    have kept (open_ : p.proposer ≠ m → m ∈ p.required → (p.without m).accepted ≠ (p.without m).required) :
        ends (removeHolder s t m) :=
      removed (.inl ((isHolder_congr (claim_left s open_ round.found)).trans held))
    refine ⟨fun own => ?_, fun own => ?_, fun other voter => ?_, fun other voter waits => ?_,
      fun other voter agreed some stays => ?_⟩
    · obtain ⟨withdrawn, -⟩ := (gone (kept fun other => absurd own other)).2 p opened uniq
      exact withdrawn own
    · obtain ⟨-, withdrawn, -⟩ := (gone (kept fun other => absurd own other)).2 p opened uniq
      exact withdrawn own
    · obtain ⟨-, -, stands, -⟩ := (gone (kept fun _ hm => absurd hm voter)).2 p opened uniq
      exact stands other voter
    · obtain ⟨-, -, -, shortened, -⟩ := (gone (kept fun _ _ => waits)).2 p opened uniq
      exact shortened other voter waits
    · have found : (unlisted s t m).proposal p.id = .some p := by
        unfold State.proposal
        rw [consent_unlisted]
        exact round.found
      have holders : ((updateProposal (unlisted s t m) p.id (·.without m)).claim t).holders = left s t m := by
        rw [claim_updateProposal, claim_unlisted]
      have last : ((leaveProposal (unlisted s t m) p m).claim t).holders ≠ [] := by
        rw [leaveProposal_of_agreed found other voter agreed]
        exact holders_carried (p := p.without m) (proposalOn_mem opened).2 (by rw [holders]; exact some)
          (by rw [holders]; exact stays)
      obtain ⟨-, -, -, -, carries⟩ := (gone (removed (.inr last))).2 p opened uniq
      exact carries other voter agreed some stays

end Gone

end Sys2Proof.ClaimRoundProofs
end

section
/-! What a departure does where the master is involved in one kind of thing (`PartsDone`), and what it leaves behind
whatever the master is involved in (`LeavesNothing`) (R149). -/

namespace Sys2Proof.DepartureProofs

open Machine Laws RecedeProofs PartProofs OnePartProofs ClaimRoundProofs

/-! ### One kind of thing -/

section Done

variable {s : State} {m : Master} {ends : State → Prop}

/-- The parts come to what `PartsDone` says of them, for a statement that does not look at what `m` is told. -/
theorem partsDone_of_parts (blind : ∀ u v, Alike m u v → ends u → ends v) (h : ends (parts s m)) :
    PartsDone s m ends := by
  refine ⟨fun free => ?_, fun free => ?_, fun o b burst own free => ?_, fun o free => ?_,
    fun o c cut own free => ?_, fun closed free => ?_, fun t held free entries => ?_, fun p found => ?_⟩
  · rwa [parts_of_uninvolved free] at h
  · rwa [parts_of_profiles free] at h
  · rwa [parts_of_burst burst own free] at h
  · rwa [parts_of_queued free] at h
  · rwa [parts_of_cut cut own free] at h
  · rwa [parts_of_claims closed free] at h
  · exact holderGone_of_parts blind h held free entries
  · refine ⟨fun own free => ?_, fun other voter waits free => ?_, fun device other voter agreed free => ?_⟩
    · rwa [parts_of_withdrawn found own free] at h
    · rwa [parts_of_waits found other voter free waits] at h
    · rw [parts_of_agreed found other voter free device agreed] at h
      exact carries_carry h

end Done

/-! ### What is left behind -/

/-- The entry is of another master than `m`, or of none. -/
abbrev NotOf (m : Master) (e : Entry) : Prop := e.origin.map Prod.fst ≠ some m

section Sound

variable {s : State} {m : Master}

theorem origin_reservation {o : Output} {p : Proposal} {e : Entry} (h : reservation o p = some e) :
    e.origin.map Prod.fst = some p.proposer := by
  unfold reservation at h
  repeat' split at h
  all_goals cases h
  all_goals rfl

/-- A RESERVED entry belongs to an open proposal, and its origin is the proposer (R49). -/
theorem proposal_of_reserved (h : Sound s) {o : Output} {e : Entry} (he : e ∈ s.queue o) (hr : e.state = .reserved) :
    ∃ p ∈ s.consent.proposals, e.pid = some p.id ∧ e.origin.map Prod.fst = some p.proposer := by
  have listed : e ∈ reservedOf (s.queue o) := List.mem_filter.mpr ⟨he, beq_iff_eq.mpr hr⟩
  have law : reservedOf (s.queue o) = s.consent.proposals.filterMap (reservation o) := h.reserved o
  rw [law] at listed
  obtain ⟨p, hp, entry⟩ := List.mem_filterMap.mp listed
  exact ⟨p, hp, reservation_pid entry, origin_reservation entry⟩

theorem unique_id (h : Sound s) {p q : Proposal} (hq : q ∈ s.consent.proposals) (hp : p ∈ s.consent.proposals)
    (id : q.id = p.id) : q = p := List.inj_on_of_nodup_map h.table.ids hq hp id

/-- The entries that a proposal reserves are its proposer's. -/
theorem origin_of_reservedBy (h : Sound s) {p : Proposal} (hp : p ∈ s.consent.proposals) {o : Output} {e : Entry}
    (he : e ∈ s.queue o) (hr : e.isReservedBy p.id = true) : e.origin.map Prod.fst = some p.proposer := by
  unfold Entry.isReservedBy at hr
  rw [Bool.and_eq_true, beq_iff_eq, beq_iff_eq] at hr
  obtain ⟨reserved, pid⟩ := hr
  obtain ⟨q, hq, pid', origin⟩ := proposal_of_reserved h he reserved
  have id : q.id = p.id := Option.some.inj (pid'.symm.trans pid)
  rw [origin, unique_id h hq hp id]

/-- A master that leaves a round makes no entry of its own QUEUED. -/
theorem leaveProposal_recedes_of_sound (h : Sound s) {p : Proposal} (hp : p ∈ s.consent.proposals) {v : State}
    (hv : ∀ o, v.queue o = s.queue o) : Recedes (NotOf m) v (leaveProposal v p m) := by
  by_cases own : p.proposer = m
  · exact leaveProposal_recedes (fun other => absurd own other) v
  · refine (leaveProposal_recedes (g := fun e => e.isReservedBy p.id = true) (fun _ _ hr => hr) v).mono
      fun o e he hr origin => own ?_
    exact Option.some.inj ((origin_of_reservedBy h hp (hv o ▸ he) hr).symm.trans origin)

theorem removeHolder_recedes (h : Sound s) (t : Target) : Recedes (NotOf m) s (removeHolder s t m) := by
  have unlists : Recedes (NotOf m) s (ReleaseProofs.unlisted s t m) := Recedes.setClaim List.filter_sublist.subset
  have releases : Recedes (NotOf m) (ReleaseProofs.unlisted s t m)
      (releaseProposal (ReleaseProofs.unlisted s t m) t m) := by
    unfold releaseProposal
    split
    · exact .refl _
    next p hp =>
      have mem : p ∈ s.consent.proposals := by
        rw [← ReleaseProofs.consent_unlisted s t m]
        exact (proposalOn_mem hp).1
      exact leaveProposal_recedes_of_sound h mem fun o => State.queue_setClaim _ _ _ _
  rw [removeHolder_eq_settled]
  exact (unlists.trans releases).trans ((settled_recedes _ t).mono fun _ _ _ => False.elim)

/-- A property that each operation of a fold has where `i` holds, which the operations keep. -/
theorem recedes_foldl {α : Type} {g : Entry → Prop} {i : State → Prop} {f : State → α → State}
    (kept : ∀ s a, i s → i (f s a)) (step : ∀ s a, i s → Recedes g s (f s a)) :
    ∀ (l : List α) (s : State), i s → Recedes g s (l.foldl f s)
  | [], s, _ => .refl s
  | a :: l, s, h => (step s a h).trans (recedes_foldl kept step l _ (kept s a h))

theorem claimsDeparture_recedes (h : Sound s) : Recedes (NotOf m) s (claimsDeparture s m) := by
  refine recedes_foldl (i := Sound) (fun u t hu => ?_) (fun u t hu => ?_) _ s h
  · split
    next held => exact (removeHolder_sound hu ((isHolder_iff u t m).mp held)).1
    · exact hu
  · split
    · exact removeHolder_recedes hu t
    · exact .refl u

theorem leaveById_sound (h : Sound s) (id : Nat) : Sound (leaveById m s id) := by
  unfold leaveById
  split
  · exact h
  next p hp => exact (leaveProposal_sound m h (proposal_mem hp).1).1

theorem leaveById_recedes (h : Sound s) (id : Nat) : Recedes (NotOf m) s (leaveById m s id) := by
  unfold leaveById
  split
  · exact .refl s
  next p hp => exact leaveProposal_recedes_of_sound h (proposal_mem hp).1 fun _ => rfl

theorem consentDeparture_recedes (h : Sound s) : Recedes (NotOf m) s (consentDeparture s m) :=
  recedes_foldl (i := Sound) (fun _ id hu => leaveById_sound hu id) (fun _ id hu => leaveById_recedes hu id) _ s h

theorem runPart_recedes (h : Sound s) (q : Part) : Recedes (NotOf m) s (runPart m s q) := by
  cases q with
  | claims => exact claimsDeparture_recedes h
  | consent => exact consentDeparture_recedes h
  | queue o => exact queueDeparture_recedes s o m
  | profiles => exact profileDeparture_recedes s m
  | strobe o => exact strobeDeparture_recedes s o m

/-! The parts one by one. -/

/-- What one part brings about holds after all of them, where the others do not undo it. -/
theorem parts_reach {x : Part} {a : State → Prop} (h : Sound s) (brings : ∀ u, Sound u → a (runPart m u x))
    (stays : ∀ u v, Recedes (NotOf m) u v → a u → a v) : a (parts s m) :=
  foldl_reaches (i := Sound) (fun _ q hu => (runPart_sound m q hu).1) brings
    (fun u q hu => stays u _ (runPart_recedes hu q)) h (mem_order _ x)

theorem queue_removeEntries (s : State) (o : Output) (p : Entry → Bool) (c : ChangeOutcome) :
    (removeEntries s o p c).queue o = (s.queue o).filter fun e => !p e := by
  have gone : removeEntries s o p c = entriesGo o c (s.setQueue o ((s.queue o).filter fun e => !p e))
      ((s.queue o).filter p) := entriesGo_eq o c _ _
  rw [gone, ReleaseProofs.queue_entriesGo, State.queue_setQueue_self]

theorem queueDeparture_idle (s : State) (o : Output) (m : Master) : Idle m (queueDeparture s o m) (.queue o) := by
  have entries : ∀ e ∈ (removeEntries s o (queuedBy m) .discarded).queue o, e.state = .queued → NotOf m e := by
    intro e he queued origin
    rw [queue_removeEntries] at he
    have kept := (List.mem_filter.mp he).2
    unfold queuedBy Entry.isQueued at kept
    rw [queued, origin] at kept
    simp at kept
  by_cases cut : (s.sq o).cut.map PendingCut.origin = some m
  · obtain ⟨c, hc, -⟩ := Option.map_eq_some_iff.mp cut
    have dropped : queueDeparture s o m = dropCut (removeEntries s o (queuedBy m) .discarded) o .discarded :=
      if_pos (by rw [removeEntries_sq]; exact cut)
    rw [dropped, SettingProofs.dropCut_of_some (by rw [removeEntries_sq]; exact hc)]
    refine ⟨fun e he => entries e ?_, ?_⟩
    · rwa [State.queue_handAll, State.queue_setSq] at he
    · rw [State.sq_handAll, State.sq_setSq_self]
      exact nofun
  · rw [queueDeparture_of_no_cut cut]
    exact ⟨entries, by rw [removeEntries_sq]; exact cut⟩

theorem strobeDeparture_idle (s : State) (o : Output) (m : Master) : Idle m (strobeDeparture s o m) (.strobe o) := by
  unfold strobeDeparture
  split
  next own =>
    obtain ⟨b, hb, -⟩ := Option.map_eq_some_iff.mp own
    unfold endBurst finishBurst
    rw [hb]
    intro burst
    rw [State.burst_handAll, State.burst_setBurst_self] at burst
    cases burst
  next other => exact other

theorem leaveById_idle (h : Sound s) (id : Nat) :
    ∀ p ∈ (leaveById m s id).consent.proposals, p.id = id → p.proposer ≠ m ∧ m ∉ p.required := by
  intro p hp eq
  cases found : s.proposal id with
  | none =>
    have same : leaveById m s id = s := leaveById_of_idle fun q hq => by rw [found] at hq; cases hq
    rw [same] at hp
    exact absurd (beq_iff_eq.mpr eq) (List.find?_eq_none.mp found p hp)
  | some q =>
    obtain ⟨mem, hid⟩ := proposal_mem found
    rw [leaveById_of_some found] at hp
    exact left_round (fun x hx e => unique_id h hx mem e) p hp (eq.trans hid.symm)

/-- After the consent part no open proposal involves the master (R97). -/
theorem consentDeparture_idle (h : Sound s) : Idle m (consentDeparture s m) .consent := by
  intro p hp
  obtain ⟨q, hq, id, -⟩ := (consentDeparture_recedes (m := m) h).voters p hp
  have listed : p.id ∈ (s.consent.proposals.map Proposal.id).foldr insertNat [] :=
    mem_sortedIds.mpr (List.mem_map.mpr ⟨q, hq, id.symm⟩)
  refine foldl_reaches (i := Sound) (f := leaveById m) (x := p.id)
    (p := fun u => ∀ x ∈ u.consent.proposals, x.id = p.id → x.proposer ≠ m ∧ m ∉ x.required)
    (fun _ a hu => leaveById_sound hu a) (fun _ hu => leaveById_idle hu p.id) (fun u a hu idle x hx id => ?_) h listed p hp rfl
  obtain ⟨y, hy, id', proposer, required⟩ := (leaveById_recedes (m := m) hu a).voters x hx
  obtain ⟨other, voter⟩ := idle y hy (id'.symm.trans id)
  exact ⟨proposer ▸ other, fun hm => voter (required hm)⟩

/-! ### The slots (R13) -/

/-- A slot record but for its references. -/
def bare (r : SlotRec) : SlotRec := { r with refs := 0 }

theorem eq_of_bare {r r' : SlotRec} (h : bare r = bare r') : r = { r' with refs := r.refs } := by
  cases r
  cases r'
  cases h
  rfl

theorem bare_withoutOwner {r r' : SlotRec} (h : bare r = bare r') : bare (withoutOwner r m) = bare (withoutOwner r' m) := by
  rw [eq_of_bare h]
  unfold withoutOwner bare
  dsimp only
  split
  · rfl
  · split <;> rfl

theorem withoutOwner_withoutOwner (r : SlotRec) (m : Master) : withoutOwner (withoutOwner r m) m = withoutOwner r m := by
  rw [← depart_eq_withoutOwner, ← depart_eq_withoutOwner]
  unfold SlotRec.depart
  by_cases own : r.owner = some m
  · rw [if_pos own]
    cases state : r.state
    · dsimp only
      rw [if_pos own, state]
    · exact if_neg nofun
    · exact if_neg nofun
  · rw [if_neg own, if_neg own]

/-- The slots of `t` are those of `s`, but for their references, and for the owner `m` where it has gone. -/
def SlotsLeft (m : Master) (s t : State) : Prop := ∀ k, bare (t.slot k) = bare (withoutOwner (s.slot k) m)

def SlotsStay (s t : State) : Prop := ∀ k, bare (t.slot k) = bare (s.slot k)

theorem slotsStay_of_inner {t : State} (h : Inner s t) : SlotsStay s t := fun k => by rw [h.slot k]; rfl

theorem slotsLeft_profiles {t : State} (h : SlotsStay s t ∨ SlotsLeft m s t) : SlotsLeft m s (profileDeparture t m) := by
  intro k
  rw [slot_profileDeparture]
  rcases h with stay | left
  · exact bare_withoutOwner (stay k)
  · rw [bare_withoutOwner (left k), withoutOwner_withoutOwner]

/-- A part other than the profiles' keeps the slots but for their references. -/
theorem runPart_slots {q : Part} (hq : q ≠ .profiles) (t : State) : SlotsStay t (runPart m t q) := by
  cases q with
  | claims => exact slotsStay_of_inner (claimsDeparture_inner t m)
  | consent => exact slotsStay_of_inner (consentDeparture_inner t m)
  | queue o => exact slotsStay_of_inner (queueDeparture_inner t o m)
  | profiles => exact absurd rfl hq
  | strobe o => exact slotsStay_of_inner (strobeDeparture_inner t o m)

theorem parts_slots (s : State) (m : Master) : SlotsLeft m s (parts s m) := by
  refine foldl_reaches (i := fun t => SlotsStay s t ∨ SlotsLeft m s t) (p := SlotsLeft m s) (x := Part.profiles)
    (fun t q ht => ?_) (fun t ht => slotsLeft_profiles ht) (fun t q ht left => ?_) (.inl fun _ => rfl) (mem_order _ _)
  · by_cases hq : q = .profiles
    · rw [hq]
      exact .inr (slotsLeft_profiles ht)
    · have stay := runPart_slots (m := m) hq t
      exact ht.imp (fun a k => (stay k).trans (a k)) (fun a k => (stay k).trans (a k))
  · by_cases hq : q = .profiles
    · rw [hq]
      exact slotsLeft_profiles (.inr left)
    · exact fun k => (runPart_slots (m := m) hq t k).trans (left k)

/-- Whatever the master is involved in, the parts of its departure leave nothing of it behind. -/
theorem parts_leave_nothing (h : Sound s) : LeavesNothing s (parts s m) m := by
  have done := runParts_sound m (departureOrder s.partRank) h (mem_order _ .claims)
  have sound : Sound (parts s m) := done.1
  have consent : Idle m (parts s m) .consent :=
    parts_reach (x := .consent) (a := fun u => Idle m u .consent) h (fun u hu => consentDeparture_idle hu)
      fun _ _ r => idle_consent_of_recedes r
  have queue (o : Output) : Idle m (parts s m) (.queue o) :=
    parts_reach (x := .queue o) (a := fun u => Idle m u (.queue o)) h (fun u _ => queueDeparture_idle u o m)
      fun _ _ r => idle_queue_of_recedes r fun _ _ other => other
  have strobe (o : Output) : Idle m (parts s m) (.strobe o) :=
    parts_reach (x := .strobe o) (a := fun u => Idle m u (.strobe o)) h (fun u _ => strobeDeparture_idle u o m)
      fun _ _ r => idle_strobe_of_recedes r
  refine ⟨fun t => ?_, consent, fun o => (queue o).2, strobe, fun o e he live => ?_, fun k => ?_⟩
  · exact Bool.eq_false_iff.mpr fun held => done.2 t ((isHolder_iff _ t m).mp held)
  · rcases live with queued | reserved
    · exact (queue o).1 e he queued
    · obtain ⟨p, hp, -, origin⟩ := proposal_of_reserved sound he reserved
      rw [origin]
      exact fun own => (consent p hp).1 (Option.some.inj own)
  · exact eq_of_bare (parts_slots s m k)

end Sound

end Sys2Proof.DepartureProofs
end

section
/-! LEAVE and the second expiry of a lease (chapter 9): the parts of the departure, the notices of the departing master
flushed, its record ended, and the other members told. -/

namespace Sys2Proof.LeaveProofs

open Machine Laws PartProofs ClaimRoundProofs DepartureProofs MuteProofs

/-! ### What the parts leave of links and master records -/

section Notices

variable {s t u v : State} {m : Master}

theorem onlyNotices_of_inner (h : Inner s t) : OnlyNotices s t := by
  refine ⟨fun j => ?_, h.master⟩
  obtain ⟨rx, buf, stats, slot, tx⟩ := h.link j
  cases link : t.link j
  rw [link] at rx buf stats slot tx
  cases rx
  cases buf
  cases stats
  cases slot
  cases tx
  rfl

theorem runPart_onlyNotices (s : State) (m : Master) (q : Part) : OnlyNotices s (runPart m s q) := by
  cases q with
  | claims => exact onlyNotices_of_inner (claimsDeparture_inner s m)
  | consent => exact onlyNotices_of_inner (consentDeparture_inner s m)
  | queue o => exact onlyNotices_of_inner (queueDeparture_inner s o m)
  | profiles =>
    show OnlyNotices s (profileDeparture s m)
    rw [OnePartProofs.profileDeparture_eq]
    exact ⟨fun _ => rfl, fun _ => rfl⟩
  | strobe o => exact onlyNotices_of_inner (strobeDeparture_inner s o m)

theorem parts_onlyNotices (s : State) (m : Master) : OnlyNotices s (parts s m) := by
  have main (l : List Part) : ∀ u, OnlyNotices u (l.foldl (runPart m) u) := by
    induction l with
    | nil => exact fun u => ⟨fun _ => rfl, fun _ => rfl⟩
    | cons q l ih => exact fun u => Laws.OnlyNotices.trans (runPart_onlyNotices u m q) (ih _)
  exact main _ s

theorem joined_of_onlyNotices (h : OnlyNotices s t) (j : Master) : t.joined j = s.joined j := by
  unfold State.joined
  rw [h.2 j]
  rfl

theorem slot_of_onlyNotices (h : OnlyNotices s t) : (t.link m).slot = (s.link m).slot := by
  rw [h.1 m]

/-- A master that is not told keeps its link and its record. -/
theorem untold {ms : List Master} {n : Notice} (h : m ∉ ms) :
    (s.handAll ms n).link m = s.link m ∧ (s.handAll ms n).master m = s.master m := by
  induction ms generalizing s with
  | nil => exact ⟨rfl, rfl⟩
  | cons j ms ih =>
    have ne : m ≠ j := List.ne_of_not_mem_cons h
    obtain ⟨link, record⟩ := ih (s := s.hand j n) (List.not_mem_of_not_mem_cons h)
    rw [State.handAll_cons, link, record]
    unfold State.hand State.handMarked
    split
    · split
      · exact ⟨State.link_setLink_ne _ _ ne, rfl⟩
      · exact ⟨rfl, State.master_setMaster_ne _ _ ne⟩
    · exact ⟨rfl, rfl⟩

end Notices

/-! ### The end of a membership -/

/-- The departed `m` has the record `r`, and its link is `k` of the link with no notices (R149, R150). -/
def ended (u : State) (m : Master) (k : Link → Link) (r : MasterRec) : State :=
  (u.setLink m (k { u.link m with queue := [] })).setMaster m r

/-- The notices `q` alone, none of them ahead of a waiting response. -/
def told (q : List Queued) (l : Link) : Link :=
  { l with queue := q, slot := l.slot.map fun x => { x with ahead := 0 } }

theorem told_nil {l : Link} (h : l.slot = none) : told [] { l with queue := [] } = { l with queue := [] } := by
  cases l
  cases h
  rfl

section Ended

variable {s u v : State} {m : Master} {k : Link → Link} {r : MasterRec}

/-- Ending the membership covers what muting has changed, but for the claim records. -/
theorem ended_mute (u : State) (m : Master) (k : Link → Link) (r : MasterRec) :
    ended u m k r = ended { mute m u with outClaims := u.outClaims, tbClaim := u.tbClaim } m k r := by
  have link : State.link { mute m u with outClaims := u.outClaims, tbClaim := u.tbClaim } m
      = { u.link m with queue := [] } := State.link_setLink_self _ _ _
  unfold ended
  rw [link]
  unfold mute State.setMaster State.setLink
  simp only [Vector.set_set]

/-- What `m` was told before does not matter. -/
theorem ended_alike (h : Alike m u v) (k : Link → Link) (r : MasterRec) : ended u m k r = ended v m k r := by
  have outputs : u.outClaims = v.outClaims := Vector.ext fun i hi => h.claim (.out ⟨i, hi⟩)
  have timebase : u.tbClaim = v.tbClaim := h.claim .tb
  rw [ended_mute u, ended_mute v, h.mute, outputs, timebase]

theorem ended_master : (ended u m k r).master m = r := State.master_setMaster_self _ _ _

theorem ended_link : (ended u m k r).link m = k { u.link m with queue := [] } := State.link_setLink_self _ _ _

/-- The record in which the master was taken does not matter. -/
theorem ended_taken (s : State) (m : Master) (f : Frame) (k : Link → Link) (r : MasterRec) :
    ended (taken s m f) m k r = ended (popped s m) m k r :=
  State.setMaster_setMaster ((popped s m).setLink m (k { (popped s m).link m with queue := [] })) m _ r

/-- With no response waiting, no response is behind notices. -/
theorem ended_told_nil (h : (u.link m).slot = none) : ended u m (told []) r = ended u m id r := by
  unfold ended
  rw [told_nil h, id]

theorem flushLink_eq_ended (u : State) (m : Master) :
    flushLink u m = ended u m (told []) { u.master m with dropped := false } := rfl

theorem evictedNotice_ended : evictedNotice (ended u m (told []) r) m
    = ended u m (told [⟨.evicted r.latched (r.period.getD 0), false⟩]) r := by
  have links : (ended u m (told []) r).setLink m (told [⟨.evicted r.latched (r.period.getD 0), false⟩] (u.link m))
      = ended u m (told [⟨.evicted r.latched (r.period.getD 0), false⟩]) r :=
    congrArg (State.setMaster · m r) (State.setLink_setLink u m _ _)
  unfold evictedNotice
  rw [ended_master, ended_link]
  exact links

theorem others_ended (h : OnlyNotices s u) :
    (ended u m k r).joinedMasters.filter (· != m) = otherMembers s m := by
  unfold State.joinedMasters otherMembers
  rw [List.filter_filter]
  refine List.filter_congr fun j _ => ?_
  by_cases self : j = m
  · rw [self, bne_self_eq_false, Bool.false_and, Bool.false_and]
  · have joined : (ended u m k r).joined j = u.joined j := by
      unfold State.joined ended
      rw [State.master_setMaster_ne _ _ self]
      rfl
    rw [joined, joined_of_onlyNotices h]

theorem not_mem_others (s : State) (m : Master) : m ∉ otherMembers s m := by
  intro h
  have ne := (List.mem_filter.mp h).2
  rw [bne_self_eq_false] at ne
  cases ne

theorem leavesNothing_congr (h : LeavesNothing s u m) (slots : v.slots = u.slots) (chans : v.chans = u.chans)
    (outputs : v.outClaims = u.outClaims) (timebase : v.tbClaim = u.tbClaim) (consent : v.consent = u.consent) :
    LeavesNothing s v m := by
  cases u
  cases v
  cases slots
  cases chans
  cases outputs
  cases timebase
  cases consent
  exact h

/-- What is left behind does not depend on links, master records and notices. -/
theorem leavesNothing_ended (h : LeavesNothing s u m) (ms : List Master) (n : Notice) :
    LeavesNothing s ((ended u m k r).handAll ms n) m :=
  leavesNothing_congr h (State.handAll_slots _ _ _) (State.handAll_chans _ _ _) (State.handAll_outClaims _ _ _)
    (State.handAll_tbClaim _ _ _) (State.handAll_consent _ _ _)

end Ended

/-! ### The departure -/

section Depart

variable (s : State) (m : Master)

theorem flushLink_parts :
    flushLink (parts s m) m = ended (parts s m) m (told []) { s.master m with dropped := false } := by
  have record : { (parts s m).master m with dropped := false } = { s.master m with dropped := false } := by
    rw [(parts_onlyNotices s m).2 m]
  rw [flushLink_eq_ended, record]

theorem record_departs (reason : DepartReason) :
    (flushLink (parts s m) m).setMaster m (((flushLink (parts s m) m).master m).depart reason)
      = ended (parts s m) m (told []) ({ s.master m with dropped := false }.depart reason) := by
  rw [flushLink_parts, ended_master]
  exact State.setMaster_setMaster _ _ _ _

theorem depart_left : depart s m .left
    = (ended (parts s m) m (told []) ⟨.absent, none, none, (s.master m).last, none, false⟩).handAll (otherMembers s m)
        (.departed m .left none) := by
  show monitorPart (flushLink (parts s m) m) m .left = _
  unfold monitorPart
  dsimp only
  rw [record_departs, ended_master, others_ended (parts_onlyNotices s m)]
  rfl

theorem depart_evicted : depart s m .evicted
    = (ended (parts s m) m (told [⟨.evicted (s.master m).latched ((s.master m).period.getD 0), false⟩])
        { s.master m with state := .evicted, timer := none, dropped := false }).handAll (otherMembers s m)
          (.departed m .evicted (s.master m).latched) := by
  show monitorPart (flushLink (parts s m) m) m .evicted = _
  unfold monitorPart
  dsimp only
  rw [record_departs, evictedNotice_ended, ended_master, others_ended (parts_onlyNotices s m)]
  rfl

end Depart

/-! ### The second expiry (R148) -/

/-- The membership of `m` ends in `u`, at the second expiry of its lease in `s`. -/
def evictedIn (s : State) (m : Master) (p : Nat) (u : State) : State :=
  (ended u m (told [⟨.evicted (s.master m).latched p, false⟩])
    { s.master m with state := .evicted, timer := none, dropped := false }).handAll (otherMembers s m)
      (.departed m .evicted (s.master m).latched)

theorem exec_second_expiry {s : State} {m : Master} {t p : Nat} (hs : (s.master m).state = .lapsing)
    (ht : (s.master m).timer = some t) (hp : (s.master m).period = some p) :
    exec (.leaseExpiry m) s = .next (evictedIn s m p (parts (s.reach t) m)) := by
  have departs : leaseExpires s m = depart (s.reach t) m .evicted := by
    unfold leaseExpires
    rw [ht]
    dsimp only
    rw [hs]
  have others : otherMembers (s.reach t) m = otherMembers s m := rfl
  have runs : exec (.leaseExpiry m) s = .next (leaseExpires s m) := rfl
  rw [runs, departs, depart_evicted, State.master_reach, hp, others]
  rfl

/-- Settles O18: the expiry of a LAPSING master is its departure, whose parts come to `PartsDone`. -/
theorem secondExpiryEvicts : Obligations.SecondExpiryEvicts := by
  unfold Obligations.SecondExpiryEvicts
  intro s m t p hs ht hp
  have run := exec_second_expiry hs ht hp
  obtain ⟨link, record⟩ := untold (s := ended (parts (s.reach t) m) m
      (told [⟨.evicted (s.master m).latched p, false⟩])
      { s.master m with state := .evicted, timer := none, dropped := false })
    (n := .departed m .evicted (s.master m).latched) (not_mem_others s m)
  refine ⟨⟨_, run, record.trans ended_master, ?_⟩, fun free => ?_, ?_, fun laws => ⟨_, run, ?_⟩⟩
  · exact congrArg Link.queue (link.trans ended_link)
  · rw [run, parts_of_uninvolved (s := s.reach t) free]
    rfl
  · exact partsDone_of_parts (s := s.reach t)
      (ends := fun u => exec (.leaseExpiry m) s = .next (evictedIn s m p u))
      (fun u v alike h => h.trans (by unfold evictedIn; rw [ended_alike alike])) run
  · exact leavesNothing_ended (parts_leave_nothing
      (((recordLaws_iff_sound s).mp laws).of_books (books_reach s t))) _ _

/-! ### LEAVE (R146) -/

/-- The membership of `m` ends in `u`, at its request `f`, which is answered. -/
def leftIn (s : State) (m : Master) (f : Frame) (u : State) : State :=
  answered ((ended u m id ⟨.absent, none, none, some (0x02, f.tag), none, false⟩).handAll (otherMembers s m)
    (.departed m .left none)) m f .ok []

theorem exec_leave {s : State} {m : Master} {f : Frame} (h : Admitted s m 0x02 f) :
    exec (.leave m) s = .next (leftIn s m f (parts (taken s m f) m)) := by
  obtain ⟨⟨-, -, slot, -⟩, kind, -, joined, -⟩ := id h
  have waits : ((parts (taken s m f) m).link m).slot = none := by
    have popped : (taken s m f).link m = { s.link m with buf := (s.link m).buf.tail } := State.link_setLink_self _ _ _
    rw [slot_of_onlyNotices (parts_onlyNotices (taken s m f) m), popped]
    exact slot
  have last : ((taken s m f).master m).last = some (0x02, f.tag) := by
    rw [RequestProofs.taken_master, ← kind]
  have others : otherMembers (taken s m f) m = otherMembers s m :=
    List.filter_congr fun j _ => by rw [taken_joined s m f joined]
  have departs : depart (taken s m f) m .left
      = (ended (parts (taken s m f) m) m id ⟨.absent, none, none, some (0x02, f.tag), none, false⟩).handAll
          (otherMembers s m) (.departed m .left none) := by
    rw [depart_left, last, others, ended_told_nil waits]
  exact VoteProofs.exec_of_reply (owner := fun s _ => leaveRequest s m) (r := okay _) h (by decide) rfl
    (congrArg okay departs)

theorem uninvolved_taken {s : State} {m : Master} (h : Uninvolved s m) (f : Frame) : Uninvolved (taken s m f) m := by
  obtain ⟨claims, rest⟩ := h
  exact ⟨fun t => (taken_isHolder s m m f t).trans (claims t), rest⟩

/-- Settles O16: LEAVE is the departure of the master, whose parts come to `PartsDone`. -/
theorem leaveEndsMembership : Obligations.LeaveEndsMembership := by
  unfold Obligations.LeaveEndsMembership
  intro s m f h
  have run := exec_leave h
  obtain ⟨-, kind, -, joined, -⟩ := h
  obtain ⟨link, record⟩ := untold (s := ended (parts (taken s m f) m) m id
      ⟨.absent, none, none, some (0x02, f.tag), none, false⟩)
    (n := .departed m .left none) (not_mem_others s m)
  rw [ended_link] at link
  rw [ended_master] at record
  refine ⟨⟨_, run, record, ?_, ?_⟩, fun free => ?_, ?_, fun laws => ⟨_, run, ?_⟩⟩
  · exact (congrArg Link.queue (State.link_setLink_self _ _ _)).trans (congrArg Link.queue link)
  · refine (congrArg Link.slot (State.link_setLink_self _ _ _)).trans ?_
    rw [link, record, kind]
    rfl
  · rw [run, parts_of_uninvolved (uninvolved_taken free f)]
    unfold leftIn
    rw [ended_taken]
    rfl
  · exact partsDone_of_parts (s := taken s m f)
      (ends := fun u => exec (.leave m) s = .next (leftIn s m f u))
      (fun u v alike h => h.trans (by unfold leftIn; rw [ended_alike alike])) run
  · have sound : Sound (taken s m f) := by
      rw [← commonEffect_of_joined joined]
      exact ((recordLaws_iff_sound s).mp laws).of_books (books_commonEffect _ _ _)
    exact leavesNothing_congr (leavesNothing_ended (parts_leave_nothing sound) _ _) rfl rfl rfl rfl rfl

end Sys2Proof.LeaveProofs
end
